-- ==== Sys2Proof/Word.lean ====
section
/-! DEFINITION. The two bit-vector types of the hardware (00_scope.md rule R8): a 32-bit word, which is every
host-visible register, every binary32 pattern and every word of the job slot, and an 8-bit byte, which is one cell
of `MEM`. -/

namespace Sys2Proof

/-- A `u32`, or the pattern of a binary32 datum (rules R6 `XLEN`, R8, R9). -/
abbrev Word := BitVec 32

/-- One byte of `MEM` (rule R8 `u8`). -/
abbrev Byte := BitVec 8

end Sys2Proof
end

