-- ==== Sys2Proof/Syntax.lean ====
section
/-! DEFINITION. The syntax of everything that can happen to the block: the fifteen commands (30_encoding.md
rule R76), the raw command word (R75), and the turns, one per step, by which an agent of 00_scope.md rule R5 moves. -/

namespace Sys2Proof

/-- The grid policy, command-word bit 8 (R75): 42_dtft.md rules R103 (full turn) and R104 (half turn). -/
inductive Grid where
  | full
  | half
deriving DecidableEq, Repr, Inhabited

/-- How `PIPE` runs its transform, command-word bit 9 (R75, R147). -/
inductive PipeMode where
  | serial
  | parallel
deriving DecidableEq, Repr, Inhabited

/-- The one format `CW` of R75, field by field: `OPC` bits 7:0, `G` bit 8, `PAR` bit 9, `RSV` bits 31:10. -/
structure CW where
  opc : BitVec 8
  g : Bool
  par : Bool
  rsv : BitVec 22
deriving DecidableEq, Repr

/-- The fifteen commands of R76, in the order of spec/opcode_table.json. A command word carries no immediate and no
register number (R75); the two flags are the only operands an instruction has. -/
inductive Instr where
  | init
  | sin
  | cos
  | magat
  | xform (g : Grid)
  | xformp (g : Grid)
  | mag
  | sqmag
  | wlaunch
  | lddict
  | dist
  | classify
  | rank
  | repl
  | pipe (m : PipeMode)
deriving DecidableEq, Repr

/-- The two execution contexts (R5): `p` the producer, core 0; `w` the worker, core 1. -/
inductive CoreId where
  | p
  | w
deriving DecidableEq, Repr, Inhabited

/-- The nine words of the job slot, in index order (10_state.md rule R36): `J_SIG`, `J_N`, `J_START`, `J_END`,
`J_KTOT`, `J_GRID`, `J_OUT`, `J_DONE`, `J_SIGP`. -/
inductive JobIx where
  | sig
  | len
  | start
  | stop
  | ktot
  | grid
  | out
  | done
  | sigp
deriving DecidableEq, Repr, Inhabited

/-- The granule of a copy (20_memory.md rule R58): an aligned 4-byte word of `MEM`, by its word number (its address
divided by 4), or a word of the job slot. -/
inductive WordLoc where
  | mem (word : Nat)
  | job (i : JobIx)
deriving DecidableEq, Repr, Inhabited

/-- One step of one agent (R5). The schedule is a parameter of the step relation (R20), and so is every choice the
memory model leaves to a step (93_implementation_defined.md U10): a turn carries both, so a list of turns is one
schedule written out. -/
inductive Turn where
  /-- `HOST` writes a register (R31): byte offset, value. -/
  | regWrite (off v : Word)
  /-- `HOST` reads a register (R31). -/
  | regRead (off : Word)
  /-- `HOST` writes one byte of `MEM` through its memory port (R66). -/
  | memWrite8 (a : Word) (v : Byte)
  /-- `HOST` writes one aligned word of `MEM` as one word access (R50, R66). -/
  | memWrite32 (a v : Word)
  /-- `HOST` reads one byte of `MEM` (R66). -/
  | memRead8 (a : Word)
  /-- `HOST` reads one aligned word of `MEM` (R66). -/
  | memRead32 (a : Word)
  /-- Power-on, or the reset input (R175). Every byte of `MEM` is unspecified afterwards (U1): the turn says what
  each byte that is not 0 happens to hold, so every content of `MEM` is some turn's. -/
  | hardReset (contents : List (Nat × BitVec 8))
  /-- `P` takes one step. `keeps` says, read by read, whether a read that goes to shared storage leaves a copy
  (R60, U10); a read beyond the list leaves none. -/
  | p (keeps : List Bool)
  /-- `W` takes one step; `keeps` as for `P`. -/
  | w (keeps : List Bool)
  /-- `MSYS` drains entry `n` (0 the oldest) of core `c`'s store buffer (R61). -/
  | drain (c : CoreId) (n : Nat)
  /-- `MSYS` evicts core `c`'s copy of a word (R62). -/
  | evict (c : CoreId) (l : WordLoc)
deriving DecidableEq, Repr, Inhabited

end Sys2Proof
end

