-- ==== Sys2Proof/Config.lean ====
section
/-! DEFINITION. What the configuration fixes (00_scope.md rule R6) and the free values: the constants with no body
are the draws of 93_implementation_defined.md, so nothing can be proved of the values they have. -/

namespace Sys2Proof.Config

/-- Trig table length `L` (R6). -/
abbrev L : Nat := 1024

/-- log2 of `L` (R6). -/
abbrev LOG2L : Nat := 10

/-- Linear interpolation between adjacent entries (R6, R93): this hardware has it. -/
abbrev INTERP : Bool := true

/-- Classification grid size (R6). -/
abbrev KC : Nat := 41

/-- Canonical pattern length in samples (R6). -/
abbrev PLEN : Nat := 8

/-- Canonical repetition count (R6). -/
abbrev REP : Nat := 10

/-- Canonical sample count `PLEN * REP` (R6). -/
abbrev NS : Nat := PLEN * REP

/-- Dictionary entries (R6). -/
abbrev NDICT : Nat := 256

/-- Bytes of the `PIPE` work area (R146). -/
abbrev WORK_BYTES : Nat := 572

/-- Sign (bit 22) and payload (bits 21:0) of the `n`-th NaN an operation produces. FREE VALUE, assumption log 2:
00_scope.md rule R11 and U6 leave both unspecified. -/
opaque nanDraw : Nat → BitVec 23

/-- The `n`-th word a core writes into the output of a parallel transform whose output overlaps its signal. FREE
VALUE, assumption log 3: 70_reset_and_hazards.md rule R185 and U4 leave the whole output unspecified. -/
opaque overlapWord : Nat → BitVec 32

/-- Whether the byte at an address had already reached shared storage when a reset abandoned the command that was
going to write it. FREE VALUE, assumption log 4: rule R176 and U3 allow the old byte and the new one. -/
opaque landed : Nat → Nat → Bool

/-- The byte at an address, seen by the core that reads it, by the host, or left when the command ends, where the host
wrote it while a command ran; and what the host reads there from the destination of the running command. FREE VALUE,
assumption log 10: 70_reset_and_hazards.md rule R179 and U2 leave the bytes concerned unspecified. -/
opaque disturbedByte : Nat → Nat → BitVec 8

/-- The turn taken when the state lists none. FREE VALUE, assumption log 5: which agent steps next is a parameter
of the step relation (R20, U10), and no rule chooses it. -/
opaque turn : Nat → Turn

end Sys2Proof.Config
end

