-- ==== Sys2Proof/WellFormed.lean ====
section
/-! DEFINITION. Which command words are legal (30_encoding.md rules R77 and R78), as three checks on the fields of
the format `CW`, and the eighteen legal words as R77 lists them. Every operand of a command is in a register and its
flags are typed, so a term of `Instr` has nothing left to check: legality is a property of the word. -/

namespace Sys2Proof

/-- The fifteen `OPC` values of R76. -/
def opcodes : List (BitVec 8) :=
  [0x01, 0x02, 0x03, 0x10, 0x11, 0x12, 0x13, 0x14, 0x20, 0x30, 0x31, 0x32, 0x33, 0x40, 0x41]

/-- R78: `RSV` is 0. -/
def CW.reservedZero (c : CW) : Bool := c.rsv == 0

/-- R78: `OPC` is one of the fifteen values of R76. -/
def CW.opcodeListed (c : CW) : Bool := opcodes.contains c.opc

/-- R77: `G` may be 1 only in `XFORM` and `XFORMP`, `PAR` only in `PIPE`. -/
def CW.flagsAllowed (c : CW) : Bool :=
  (!c.g || c.opc == 0x11 || c.opc == 0x12) && (!c.par || c.opc == 0x41)

/-- A legal command word, by its fields (R78 negated). -/
abbrev CW.WellFormed (c : CW) : Prop :=
  c.reservedZero = true ∧ c.opcodeListed = true ∧ c.flagsAllowed = true

/-- "The legal command words are exactly" these eighteen (R77). -/
def legalWords : List Word :=
  [0x00000001, 0x00000002, 0x00000003, 0x00000010, 0x00000011, 0x00000111, 0x00000012, 0x00000112, 0x00000013,
   0x00000014, 0x00000020, 0x00000030, 0x00000031, 0x00000032, 0x00000033, 0x00000040, 0x00000041, 0x00000241]

end Sys2Proof
end

