-- ==== Sys2Proof/Decode.lean ====
section
/-! DEFINITION. The decoder of 30_encoding.md rule R82 (compare the whole word with the match and mask pairs of
the opcode table), total and rejecting by name, and after it the encoder, written from the fields of R75 and R76. -/

namespace Sys2Proof

/-- The fields of a word, at the places R75 gives. -/
def cwOfWord (w : Word) : CW :=
  { opc := w.extractLsb' 0 8, g := w.getLsbD 8, par := w.getLsbD 9, rsv := w.extractLsb' 10 22 }

/-- The word with given fields, at the places R75 gives. -/
def wordOfCW (c : CW) : Word := c.rsv ++ BitVec.ofBool c.par ++ BitVec.ofBool c.g ++ c.opc

/-- R75: `G` 0 is the full-turn grid, 1 the half-turn grid. -/
def gridOfBit (b : Bool) : Grid := if b then .half else .full

/-- R75: `PAR` 1 runs the transform of `PIPE` on both cores. -/
def modeOfBit (b : Bool) : PipeMode := if b then .parallel else .serial

/-- One row of the opcode table: mnemonic, mask, match, and the instruction of a matching word's fields. -/
structure OpRow where
  mnemonic : String
  mask : Word
  value : Word
  build : CW → Instr

/-- spec/opcode_table.json, row by row (R76, R77, R82). -/
def opRows : List OpRow :=
  [⟨"INIT", 0xFFFFFFFF, 0x00000001, fun _ => .init⟩,
   ⟨"SIN", 0xFFFFFFFF, 0x00000002, fun _ => .sin⟩,
   ⟨"COS", 0xFFFFFFFF, 0x00000003, fun _ => .cos⟩,
   ⟨"MAGAT", 0xFFFFFFFF, 0x00000010, fun _ => .magat⟩,
   ⟨"XFORM", 0xFFFFFEFF, 0x00000011, fun c => .xform (gridOfBit c.g)⟩,
   ⟨"XFORMP", 0xFFFFFEFF, 0x00000012, fun c => .xformp (gridOfBit c.g)⟩,
   ⟨"MAG", 0xFFFFFFFF, 0x00000013, fun _ => .mag⟩,
   ⟨"SQMAG", 0xFFFFFFFF, 0x00000014, fun _ => .sqmag⟩,
   ⟨"WLAUNCH", 0xFFFFFFFF, 0x00000020, fun _ => .wlaunch⟩,
   ⟨"LDDICT", 0xFFFFFFFF, 0x00000030, fun _ => .lddict⟩,
   ⟨"DIST", 0xFFFFFFFF, 0x00000031, fun _ => .dist⟩,
   ⟨"CLASSIFY", 0xFFFFFFFF, 0x00000032, fun _ => .classify⟩,
   ⟨"RANK", 0xFFFFFFFF, 0x00000033, fun _ => .rank⟩,
   ⟨"REPL", 0xFFFFFFFF, 0x00000040, fun _ => .repl⟩,
   ⟨"PIPE", 0xFFFFFDFF, 0x00000041, fun c => .pipe (modeOfBit c.par)⟩]

/-- Why a word is illegal (R78). Every one of them ends the command with `ERR_ILLEGAL` (R153). -/
inductive Illegal where
  /-- `RSV` is not 0. -/
  | reserved
  /-- `OPC` is none of the fifteen values. -/
  | opcode
  /-- A flag is 1 where R77 does not allow it. -/
  | flag
deriving DecidableEq, Repr

/-- The first reason R78 names that holds of an illegal word. -/
def whyIllegal (w : Word) : Illegal :=
  let c := cwOfWord w
  if !c.reservedZero then .reserved else if !c.opcodeListed then .opcode else .flag

/-- R82: the first (and only possible) matching row names the command; no match is illegal. -/
def decode (w : Word) : Except Illegal Instr :=
  match opRows.find? (fun r => w &&& r.mask == r.value) with
  | some r => .ok (r.build (cwOfWord w))
  | none => .error (whyIllegal w)

/-- The fields of a command (R75, R76). -/
def fieldsOf (i : Instr) : CW :=
  match i with
  | .init => ⟨0x01, false, false, 0⟩
  | .sin => ⟨0x02, false, false, 0⟩
  | .cos => ⟨0x03, false, false, 0⟩
  | .magat => ⟨0x10, false, false, 0⟩
  | .xform g => ⟨0x11, g == .half, false, 0⟩
  | .xformp g => ⟨0x12, g == .half, false, 0⟩
  | .mag => ⟨0x13, false, false, 0⟩
  | .sqmag => ⟨0x14, false, false, 0⟩
  | .wlaunch => ⟨0x20, false, false, 0⟩
  | .lddict => ⟨0x30, false, false, 0⟩
  | .dist => ⟨0x31, false, false, 0⟩
  | .classify => ⟨0x32, false, false, 0⟩
  | .rank => ⟨0x33, false, false, 0⟩
  | .repl => ⟨0x40, false, false, 0⟩
  | .pipe m => ⟨0x41, false, m == .parallel, 0⟩

/-- The command word of an instruction (R75). -/
def encode (i : Instr) : Word := wordOfCW (fieldsOf i)

/-- The host's question: the instruction the decoder reads from the low `nbits` bits of `w`, the rest 0. A command
word is one 32-bit register write (R81), so it has no byte order of its own. -/
def decodeTableWord (nbits w : Nat) : Option Instr :=
  match decode (BitVec.ofNat 32 (w % 2 ^ nbits)) with
  | .ok i => some i
  | .error _ => none

end Sys2Proof
end

