-- ==== Sys2Proof/Machine/State.lean ====
section
/-! DEFINITION. The state of the hardware (10_state.md rule R20), piece by piece, as plain data; its faults and
refusals; and its value after reset (R39). -/

namespace Sys2Proof.Machine

/-- Why the machine stops. The hardware itself never stops with a fault (an error is a completion code, R150). Both
constructors belong to states no run reaches: R49 and R112 say the accesses and the lookups they report never
happen. Safe: a true claim may become unprovable, no false one provable. -/
inductive Fault where
  /-- Raised by a step of a parallel transform whose next access lies outside `MEM`. R49: because of the checks at
  command begin, neither core ever makes one. Safe. -/
  | outsideMemory (c : CoreId) (a : Nat)
  /-- Raised by a step of a parallel transform whose lookup has no index for this angle. R112: no grid transform
  meets one, so no rule says what a half-finished parallel transform would do then. Safe. -/
  | gridAngle (c : CoreId) (angle : Word)
deriving DecidableEq, Repr

/-- Why a turn has no meaning. All but the first are a HOST access the spec leaves to the platform's bus (R171, U9); no
command is ever refused. Safe. -/
inductive Refusal where
  /-- An instruction that has no meaning yet. No arm of exec raises it. -/
  | notModelled (mnemonic : String)
  /-- A host register access at offset 0x38 or above, or not at a multiple of 4 (R31, R171, U9). Safe. -/
  | hostRegister (off : Word)
  /-- A host memory access at or beyond `MEM_BYTES`, or a word access that is not aligned (R50, R171, U9). Safe. -/
  | hostMemory (a : Word)
deriving DecidableEq, Repr

/-- The completion codes of 60_exceptions.md rule R150. Codes 8 to 15 never occur: there is no constructor. -/
inductive Code where
  | ok
  | alloc
  | usage
  | illegal
  | state
  | addr
  | align
  | num
deriving DecidableEq, Repr

/-- The next shared access of a core inside a transform bin (42_dtft.md rule R101; one access a step, R88). -/
inductive BinPos where
  /-- Between bins: the core sees whether one is left and sets its registers up for it. -/
  | next
  /-- The sample `NIDX_c` is read next. -/
  | sample
  /-- The real part is written next. -/
  | re
  /-- The imaginary part is written next. -/
  | im
deriving DecidableEq, Repr

/-- The producer's sequencer: `PSTATE` of R24, refined by the position inside the state (43_coresync.md rules R117
to R122). The 4-bit value the host reads is `PStage.number`. -/
inductive PStage where
  /-- `P_IDLE`. -/
  | idle
  /-- `P_EXEC`: a command word is accepted and its command begin (R85) is `P`'s next step. -/
  | begin
  /-- `P_PUB`: the slot word to write next. -/
  | pub (i : JobIx)
  /-- `P_FENCE`. -/
  | fence
  /-- `P_TRIG`. -/
  | trig
  /-- `P_OWN`. -/
  | own (b : BinPos)
  /-- `P_WAIT`, the poll's fence next. -/
  | waitFence
  /-- `P_WAIT`, the poll's read next. -/
  | waitRead
  /-- `P_FIN`, the further fence next. -/
  | fin
  /-- `P_FIN`, the command end next (`XFORMP`). -/
  | finEnd
  /-- `P_EXEC` again: the rest of a parallel `PIPE` (R122). -/
  | tail
deriving DecidableEq, Repr

/-- The worker's sequencer: `WSTATE` of R24, refined by the position inside the state (R123 to R128). -/
inductive WStage where
  /-- `W_OFF`. -/
  | off
  /-- `W_POLL`, the poll's fence next. -/
  | pollFence
  /-- `W_POLL`, the poll's read next. -/
  | pollRead
  /-- `W_LOAD`: the slot word to read next. -/
  | load (i : JobIx)
  /-- `W_RUN`. -/
  | run (b : BinPos)
  /-- `W_REL`. -/
  | rel
  /-- `W_SETDONE`. -/
  | setDone
  /-- `W_CLEAR`. -/
  | clear
deriving DecidableEq, Repr

/-- One datapath: `ANGLE_c, RE_c, IM_c, OMEGA_c, NIDX_c, KIDX_c` (R34). -/
structure Datapath where
  angle : Word
  re : Word
  im : Word
  omega : Word
  nidx : Word
  kidx : Word
deriving DecidableEq, Repr

/-- Nine values, one for each word of the job slot (R36). -/
structure JobSlot (α : Type) where
  sig : α
  len : α
  start : α
  stop : α
  ktot : α
  grid : α
  out : α
  done : α
  sigp : α
deriving DecidableEq, Repr

/-- The parameters of one transform over bins `[k0, k1)`: what `PUBLISH` writes (R117), and the worker's private job
registers `WSIG, WN, WK0, WK1, WKT, WG, WOUT` (R35). -/
structure Job where
  sig : Word
  n : Word
  k0 : Word
  k1 : Word
  kt : Word
  g : Grid
  out : Word
deriving DecidableEq, Repr

/-- Which of the two publishing commands `P` runs: they part after `P_FIN` (R122). -/
inductive Publisher where
  | xformp
  | pipe
deriving DecidableEq, Repr

/-- A pending write of a store buffer (R58): a byte or an aligned word of `MEM`, or a word of the job slot. -/
inductive Pending where
  | byte (a : Nat) (v : Byte)
  | word (a : Nat) (v : Word)
  | job (i : JobIx) (v : Word)
deriving DecidableEq, Repr

/-- What stands between a core and shared storage (R38, R58): its store buffer `SB_c`, oldest first, and its copy set
`CP_c`, the copies of `MEM` words by word number in rising order and the copies of slot words. -/
structure View where
  sb : List Pending
  mcopies : List (Nat × Word)
  jcopies : JobSlot (Option Word)
deriving DecidableEq, Repr

/-- Shared storage of `MEM` (R37): the bytes that are not 0, at rising addresses. -/
structure Memory where
  cells : List Host.Cell
deriving DecidableEq, Repr

/-- What a byte of `MEM` that is not listed reads as: assumption log 1 (DESIGN CHOICE; R39 and U1 leave power-on
contents unspecified). -/
def Memory.unlisted : Byte := 0

/-- Addresses strictly rise, and no entry is what an unlisted address reads as. -/
def wfCells : List Host.Cell → Bool
  | [] => true
  | [c] => c.2 != Memory.unlisted
  | c :: d :: t => decide (c.1 < d.1) && c.2 != Memory.unlisted && wfCells (d :: t)

/-- The canonical form of `MEM`: equal memories are equal lists. -/
def Memory.wf (m : Memory) : Bool := wfCells m.cells

/-- The complete state (R20). Every field down to `mem` is a piece of state the spec names; the fields after it are
the model's own. -/
structure State where
  /-- `SRC` (R21). -/
  src : Word
  /-- `LEN` (R21). -/
  len : Word
  /-- `CNT` (R21). -/
  cnt : Word
  /-- `DST` (R21). -/
  dst : Word
  /-- `AUX` (R21). -/
  aux : Word
  /-- `FARG` (R21). -/
  farg : Word
  /-- `RESI` (R22). -/
  resi : Word
  /-- `RESF` (R22). -/
  resf : Word
  /-- `CMDR` (R25). -/
  cmdr : Word
  /-- `ERRINFO` (R27). -/
  errinfo : Word
  /-- `STATUS.BUSY` (R26). -/
  busy : Bool
  /-- `STATUS.DONE` (R26). -/
  done : Bool
  /-- `STATUS.OVR` (R26). -/
  ovr : Bool
  /-- `STATUS.INITD` (R26, R32). -/
  initd : Bool
  /-- `STATUS.DICTV` (R26, R33). -/
  dictv : Bool
  /-- `STATUS.WRUN` (R26, R35). -/
  wrun : Bool
  /-- `STATUS.CODE` (R26). -/
  code : Code
  /-- `PSTATE` (R24) and the position inside it. -/
  pstage : PStage
  /-- `WSTATE` (R24) and the position inside it. -/
  wstage : WStage
  /-- `SINTAB` (R32). -/
  sintab : Vector Word Config.L
  /-- `COSTAB` (R32). -/
  costab : Vector Word Config.L
  /-- `DICT[v][i]` (R33). -/
  dict : Vector (Vector Word Config.KC) Config.NDICT
  /-- The datapath registers of `P` (R34). -/
  pregs : Datapath
  /-- The datapath registers of `W` (R34). -/
  wregs : Datapath
  /-- `BEST` (R34). -/
  best : Word
  /-- `BESTD` (R34). -/
  bestd : Word
  /-- `RD[0..255]` (R34). -/
  rd : Vector Word Config.NDICT
  /-- The worker's private job registers (R35). -/
  wjob : Job
  /-- `SB_P` and `CP_P` (R38). -/
  pview : View
  /-- `SB_W` and `CP_W` (R38). -/
  wview : View
  /-- The job slot `JOB[0..8]` in shared storage (R36). -/
  job : JobSlot Word
  /-- `MEM` in shared storage (R37). -/
  mem : Memory
  /-- `MEM_BYTES` is `4 * memTop + 4` (R6: a multiple of 4 from 4 to 2^32; U8: a parameter). No step changes it. -/
  memTop : Fin (2 ^ 30)
  /-- The job `P` latched at command begin (R85, R117), and the command it latched it for. -/
  pjob : Job
  /-- The command `pjob` was latched for. -/
  pcmd : Publisher
  /-- The model's own: the turns to come (R20: the schedule). -/
  turns : List Turn
  /-- The model's own: how many turns were taken from the free schedule. -/
  clock : Nat
  /-- The model's own: the copy choices of the running turn (U10). -/
  keeps : List Bool
  /-- The model's own: how many free values were drawn. -/
  draws : Nat
  /-- The model's own: the word the host's last read returned. -/
  hostRd : Word
  /-- The model's own: the addresses the host has written while the running command ran, whose bytes are unspecified
  (R179, U2; assumption log 10). -/
  disturbed : List Nat
deriving DecidableEq, Repr

/-- A datapath after reset: unspecified (R39, U7), here 0, assumption log 6. -/
def Datapath.reset : Datapath := ⟨0, 0, 0, 0, 0, 0⟩

/-- One value for every word of a slot. -/
def JobSlot.fill {α : Type} (v : α) : JobSlot α := ⟨v, v, v, v, v, v, v, v, v⟩

/-- A job register set after reset: unspecified (R39, U7), here 0, assumption log 6. -/
def Job.reset : Job := ⟨0, 0, 0, 0, 0, .full, 0⟩

/-- Both store buffer and copy set empty (R38, R39). -/
def View.empty : View := ⟨[], [], JobSlot.fill none⟩

/-- The machine right after a reset (R39), the turns aside: registers and flags 0, `P` idle, `W` off, the slot 0,
buffers and copy sets empty, `MEM` with nothing listed. Tables, dictionary and private registers are unspecified
there; they are 0 here (assumption log 6). `MEM_BYTES` is 0x20000 (assumption log 7). -/
def State.reset : State where
  src := 0
  len := 0
  cnt := 0
  dst := 0
  aux := 0
  farg := 0
  resi := 0
  resf := 0
  cmdr := 0
  errinfo := 0
  busy := false
  done := false
  ovr := false
  initd := false
  dictv := false
  wrun := false
  code := .ok
  pstage := .idle
  wstage := .off
  sintab := Vector.replicate _ 0
  costab := Vector.replicate _ 0
  dict := Vector.replicate _ (Vector.replicate _ 0)
  pregs := Datapath.reset
  wregs := Datapath.reset
  best := 0
  bestd := 0
  rd := Vector.replicate _ 0
  wjob := Job.reset
  pview := View.empty
  wview := View.empty
  job := JobSlot.fill 0
  mem := ⟨[]⟩
  memTop := 32767
  pjob := Job.reset
  pcmd := .xformp
  turns := []
  clock := 0
  keeps := []
  draws := 0
  hostRd := 0
  disturbed := []

end Sys2Proof.Machine
end

