-- ==== Sys2Proof/Machine/Float.lean ====
section
/-! DEFINITION. The binary32 arithmetic of 00_scope.md rules R9 to R15. A finite datum is an integer number of units
of `2^-149`, the least subnormal; an operation computes its exact result in those units (a ratio of naturals) and
rounds it once, to nearest, ties to even (R10). An operation that can give a NaN takes the number of the draw that
NaN's sign and payload would be (R11, U6; assumption log 2). -/

namespace Sys2Proof.Machine

/-! ### Fields and classes (R9) -/

/-- Sign bit. -/
def f32Sign (b : Word) : Bool := b.getLsbD 31

/-- Biased exponent, bits 30:23. -/
def f32Exp (b : Word) : Nat := (b.extractLsb' 23 8).toNat

/-- Fraction, bits 22:0. -/
def f32Frac (b : Word) : Nat := (b.extractLsb' 0 23).toNat

def f32IsNaN (b : Word) : Bool := f32Exp b == 255 && f32Frac b != 0

def f32IsInf (b : Word) : Bool := f32Exp b == 255 && f32Frac b == 0

def f32IsFinite (b : Word) : Bool := f32Exp b != 255

/-- The magnitude of a finite datum in units of `2^-149`. -/
def f32Mag (b : Word) : Nat :=
  if f32Exp b = 0 then f32Frac b else (2 ^ 23 + f32Frac b) * 2 ^ (f32Exp b - 1)

/-- The value of a finite datum in units of `2^-149`. -/
def f32Val (b : Word) : Int := if f32Sign b then -(f32Mag b : Int) else f32Mag b

/-- A sign put on a magnitude pattern. -/
def f32Signed (neg : Bool) (m : Nat) : Word := BitVec.ofNat 32 ((if neg then 2 ^ 31 else 0) + m)

/-- The pattern of positive infinity (R15 `POS_INF`). -/
def POS_INF : Word := 0x7F800000

/-- `fneg`: the sign bit flipped (41_triglut.md rule R90). -/
def fneg (b : Word) : Word := b ^^^ 0x80000000

/-- The `n`-th NaN: quiet, its sign and payload drawn (R11, U6). -/
def qNaN (n : Nat) : Word :=
  (Config.nanDraw n).extractLsb' 22 1 ++ (0x1FF : BitVec 9) ++ (Config.nanDraw n).extractLsb' 0 22

/-! ### Rounding (R10) -/

/-- The magnitude pattern nearest `num / den` units of `2^-149`, ties to even; at or above the rounding boundary of
the largest finite value it is infinity (R11). -/
def roundMag (num den : Nat) : Nat :=
  let e := (num / den).log2 - 23
  let d := den * 2 ^ e
  let m := num / d
  let r := num % d
  let m' := if 2 * r > d ∨ (2 * r = d ∧ m % 2 = 1) then m + 1 else m
  min (e * 2 ^ 23 + m') 0x7F800000

/-- The integer square root by bits, from bit `k - 1` down, added to `r`. -/
def isqrtFrom (n : Nat) : Nat → Nat → Nat
  | 0, r => r
  | k + 1, r => if (r + 2 ^ k) * (r + 2 ^ k) ≤ n then isqrtFrom n k (r + 2 ^ k) else isqrtFrom n k r

/-- The greatest `r` with `r * r ≤ n`. -/
def isqrt (n : Nat) : Nat := isqrtFrom n (n.log2 / 2 + 1) 0

/-! ### The five operations (R10, R11) -/

/-- `fadd(a, b)`. -/
def fadd (n : Nat) (a b : Word) : Word :=
  if f32IsNaN a || f32IsNaN b then qNaN n
  else if f32IsInf a then (if f32IsInf b && f32Sign a != f32Sign b then qNaN n else a)
  else if f32IsInf b then b
  else
    let v := f32Val a + f32Val b
    if v = 0 then f32Signed (f32Sign a && f32Sign b) 0
    else f32Signed (decide (v < 0)) (roundMag v.natAbs 1)

/-- `fsub(a, b)`: the sum with the second operand's sign flipped. -/
def fsub (n : Nat) (a b : Word) : Word := fadd n a (fneg b)

/-- `fmul(a, b)`. -/
def fmul (n : Nat) (a b : Word) : Word :=
  let neg := f32Sign a != f32Sign b
  if f32IsNaN a || f32IsNaN b then qNaN n
  else if f32IsInf a || f32IsInf b then
    (if (f32IsFinite a && f32Mag a == 0) || (f32IsFinite b && f32Mag b == 0) then qNaN n else f32Signed neg 0x7F800000)
  else f32Signed neg (roundMag (f32Mag a * f32Mag b) (2 ^ 149))

/-- `fdiv(a, b)`. -/
def fdiv (n : Nat) (a b : Word) : Word :=
  let neg := f32Sign a != f32Sign b
  if f32IsNaN a || f32IsNaN b then qNaN n
  else if f32IsInf a then (if f32IsInf b then qNaN n else f32Signed neg 0x7F800000)
  else if f32IsInf b then f32Signed neg 0
  else if f32Mag b = 0 then (if f32Mag a = 0 then qNaN n else f32Signed neg 0x7F800000)
  else f32Signed neg (roundMag (f32Mag a * 2 ^ 149) (f32Mag b))

/-- `fsqrt(a)`: the exact root of `m` units is the root of `m * 2^149` units; a last half bit says whether the integer
root is exact, which is all that rounding needs below it. -/
def fsqrt (n : Nat) (a : Word) : Word :=
  if f32IsNaN a then qNaN n
  else if f32IsFinite a && f32Mag a == 0 then a
  else if f32Sign a then qNaN n
  else if f32IsInf a then a
  else
    let x := f32Mag a * 2 ^ 149
    let r := isqrt x
    f32Signed false (roundMag (2 * r + if r * r = x then 0 else 1) 2)

/-! ### Comparison (R14) -/

/-- An integer that orders patterns as the data they stand for: zeros equal, infinities at the ends. -/
def f32Key (b : Word) : Int := if f32Sign b then -((b.extractLsb' 0 31).toNat : Int) else (b.extractLsb' 0 31).toNat

/-- `flt(a, b)`: compareQuietLess. -/
def flt (a b : Word) : Bool := !f32IsNaN a && !f32IsNaN b && decide (f32Key a < f32Key b)

/-- `feq(a, b)`: compareQuietEqual. -/
def feq (a b : Word) : Bool := !f32IsNaN a && !f32IsNaN b && decide (f32Key a = f32Key b)

/-! ### Conversions (R12, R13) -/

/-- `cvt_u32(k)`. -/
def cvtU32 (k : Word) : Word := f32Signed false (roundMag (k.toNat * 2 ^ 149) 1)

/-- `cvt_u8(b)`. -/
def cvtU8 (b : Byte) : Word := f32Signed false (roundMag (b.toNat * 2 ^ 149) 1)

/-- `ftrunc(s)` of a finite datum: toward zero, an unbounded integer. -/
def ftrunc (s : Word) : Int := (f32Val s).tdiv (2 ^ 149)

/-- `cvt_int(t)` for an integer `t = ftrunc(s)`. -/
def cvtInt (t : Int) : Word := f32Signed (decide (t < 0)) (roundMag (t.natAbs * 2 ^ 149) 1)

/-! ### Constants (R15) -/

def PI_F : Word := 0x40490FDB

def TWO_PI_F : Word := 0x40C90FDB

def INV_TWO_PI_F : Word := 0x3E22F983

/-- `fmul(cvt_u32(L), INV_TWO_PI_F)`, exact, for `L = 1024` (R15). -/
def SCALE : Word := 0x4322F983

end Sys2Proof.Machine
end

