-- ==== Sys2Proof/Machine/Ops.lean ====
section
/-! DEFINITION. The shared operations: `MEM` as data, the per-core views and the fences of 20_memory.md rules R58 to
R64, the access primitives of R67, and how a command is accepted, ends in error (60_exceptions.md rule R160) and
ends (30_encoding.md rule R86). -/

namespace Sys2Proof.Machine

/-- A vector from its entries. -/
def tab {α : Type} (n : Nat) (f : Nat → α) : Vector α n := ⟨((List.range n).map f).toArray, by simp⟩

/-! ### Words and bytes (R46: little-endian) -/

/-- Byte `i` of a word: bits `8*i+7` down to `8*i`. -/
def wordByte (w : Word) (i : Nat) : Byte := w.extractLsb' (8 * i) 8

/-- The word whose bytes at rising addresses are `b0`, `b1`, `b2`, `b3`. -/
def wordOfBytes (b0 b1 b2 b3 : Byte) : Word := b3 ++ b2 ++ b1 ++ b0

/-! ### Shared storage of `MEM` -/

/-- The byte listed at an address, or what an unlisted address reads as. -/
def readCells : List Host.Cell → Nat → Byte
  | [], _ => Memory.unlisted
  | c :: t, a => if a = c.1 then c.2 else readCells t a

/-- A byte put at an address, in canonical form. -/
def writeCells : List Host.Cell → Nat → Byte → List Host.Cell
  | [], a, v => if v = Memory.unlisted then [] else [(a, v)]
  | c :: t, a, v =>
    if a < c.1 then (if v = Memory.unlisted then c :: t else (a, v) :: c :: t)
    else if a = c.1 then (if v = Memory.unlisted then t else (a, v) :: t)
    else c :: writeCells t a v

/-- One byte of shared storage. -/
def Memory.read (m : Memory) (a : Nat) : Byte := readCells m.cells a

/-- One byte of shared storage written. -/
def Memory.write (m : Memory) (a : Nat) (v : Byte) : Memory := ⟨writeCells m.cells a v⟩

/-- The word at an address (R46). -/
def Memory.readWord (m : Memory) (a : Nat) : Word :=
  wordOfBytes (m.read a) (m.read (a + 1)) (m.read (a + 2)) (m.read (a + 3))

/-- A word written at an address (R46). -/
def Memory.writeWord (m : Memory) (a : Nat) (w : Word) : Memory :=
  (((m.write a (wordByte w 0)).write (a + 1) (wordByte w 1)).write (a + 2) (wordByte w 2)).write (a + 3)
    (wordByte w 3)

/-- Cells written one after another. -/
def Memory.writeAll (m : Memory) (cs : List Host.Cell) : Memory := cs.foldl (fun m c => m.write c.1 c.2) m

/-- `MEM_BYTES` (R6). -/
def State.memBytes (s : State) : Nat := 4 * s.memTop.val + 4

/-! ### The job slot -/

/-- Word `i` of a slot. -/
def JobSlot.get {α : Type} (j : JobSlot α) : JobIx → α
  | .sig => j.sig
  | .len => j.len
  | .start => j.start
  | .stop => j.stop
  | .ktot => j.ktot
  | .grid => j.grid
  | .out => j.out
  | .done => j.done
  | .sigp => j.sigp

/-- Word `i` of a slot replaced. -/
def JobSlot.set {α : Type} (j : JobSlot α) (i : JobIx) (v : α) : JobSlot α :=
  match i with
  | .sig => { j with sig := v }
  | .len => { j with len := v }
  | .start => { j with start := v }
  | .stop => { j with stop := v }
  | .ktot => { j with ktot := v }
  | .grid => { j with grid := v }
  | .out => { j with out := v }
  | .done => { j with done := v }
  | .sigp => { j with sigp := v }

/-! ### What belongs to a core -/

/-- The datapath of a core (R34). -/
def State.regs (s : State) : CoreId → Datapath
  | .p => s.pregs
  | .w => s.wregs

/-- The datapath of a core replaced. -/
def State.setRegs (s : State) (c : CoreId) (r : Datapath) : State :=
  match c with
  | .p => { s with pregs := r }
  | .w => { s with wregs := r }

/-- The store buffer and copy set of a core (R38). -/
def State.view (s : State) : CoreId → View
  | .p => s.pview
  | .w => s.wview

/-- The store buffer and copy set of a core replaced. -/
def State.setView (s : State) (c : CoreId) (v : View) : State :=
  match c with
  | .p => { s with pview := v }
  | .w => { s with wview := v }

/-! ### Pending writes (R58, R59) -/

/-- The byte at address `a` after a pending write, where it was `b` before. -/
def Pending.overlayByte (e : Pending) (a : Nat) (b : Byte) : Byte :=
  match e with
  | .byte x v => if a = x then v else b
  | .word x v => if x ≤ a ∧ a < x + 4 then wordByte v (a - x) else b
  | .job _ _ => b

/-- Word `i` of the slot after a pending write, where it was `w` before. -/
def Pending.overlayJob (e : Pending) (i : JobIx) (w : Word) : Word :=
  match e with
  | .job j v => if i = j then v else w
  | _ => w

/-- Whether two pending writes touch a common byte or a common slot word (R61). -/
def Pending.meets (e f : Pending) : Bool :=
  match e, f with
  | .byte a _, .byte b _ => a == b
  | .byte a _, .word b _ => decide (b ≤ a ∧ a < b + 4)
  | .word a _, .byte b _ => decide (a ≤ b ∧ b < a + 4)
  | .word a _, .word b _ => decide (a < b + 4 ∧ b < a + 4)
  | .job i _, .job j _ => i == j
  | _, _ => false

/-- Whether a pending write touches the aligned word with number `k` (R58). -/
def Pending.touchesWord (e : Pending) (k : Nat) : Bool :=
  match e with
  | .byte a _ => a / 4 == k
  | .word a _ => a / 4 == k || (a + 3) / 4 == k
  | .job _ _ => false

/-- The bytes of word `k` after a pending write, where the word was `w` before. -/
def Pending.overlayWord (e : Pending) (k : Nat) (w : Word) : Word :=
  wordOfBytes (e.overlayByte (4 * k) (wordByte w 0)) (e.overlayByte (4 * k + 1) (wordByte w 1))
    (e.overlayByte (4 * k + 2) (wordByte w 2)) (e.overlayByte (4 * k + 3) (wordByte w 3))

/-- Copies of every word a write touches are deleted (R59). -/
def View.drop (v : View) (e : Pending) : View :=
  { v with
    mcopies := v.mcopies.filter (fun c => !e.touchesWord c.1)
    jcopies := match e with
      | .job i _ => v.jcopies.set i none
      | _ => v.jcopies }

/-- The bytes of a write put into the copies that hold them (R61). -/
def View.patch (v : View) (e : Pending) : View :=
  { v with
    mcopies := v.mcopies.map (fun c => (c.1, e.overlayWord c.1 c.2))
    jcopies := match e with
      | .job i w => v.jcopies.set i ((v.jcopies.get i).map (fun _ => w))
      | _ => v.jcopies }

/-- A write appended to the store buffer, and the copies it touches deleted (R59). -/
def View.enqueue (v : View) (e : Pending) : View := { v.drop e with sb := v.sb ++ [e] }

/-- R59: what a core's write does. -/
def State.enqueue (s : State) (c : CoreId) (e : Pending) : State := s.setView c ((s.view c).enqueue e)

/-- A write reaches shared storage. -/
def State.apply (s : State) (e : Pending) : State :=
  match e with
  | .byte a v => { s with mem := s.mem.write a v }
  | .word a v => { s with mem := s.mem.writeWord a v }
  | .job i v => { s with job := s.job.set i v }

/-- A write of core `c` reaches shared storage and the core's own copies (R61). -/
def State.land (s : State) (c : CoreId) (e : Pending) : State := (s.apply e).setView c ((s.view c).patch e)

/-- R61, drain: entry `n` of core `c`'s buffer reaches shared storage if no older entry touches what it touches; a
turn that names no such entry is not enabled and changes nothing. -/
def State.drain (s : State) (c : CoreId) (n : Nat) : State :=
  match (s.view c).sb[n]? with
  | none => s
  | some e =>
    if ((s.view c).sb.take n).any (fun o => o.meets e) then s
    else (s.setView c { s.view c with sb := (s.view c).sb.eraseIdx n }).land c e

/-- R62, evict: a copy is removed. -/
def State.evict (s : State) (c : CoreId) (l : WordLoc) : State :=
  match l with
  | .mem k => s.setView c { s.view c with mcopies := (s.view c).mcopies.filter (fun x => x.1 != k) }
  | .job i => s.setView c { s.view c with jcopies := (s.view c).jcopies.set i none }

/-- Writes reach shared storage one after another. -/
def State.landAll (s : State) (c : CoreId) (es : List Pending) : State := es.foldl (fun s e => s.land c e) s

/-- R63, `FENCE_REL(c)`: the buffer drains, oldest entry first, and is empty. Each entry reaches shared storage as by the
drain of R61, so that none is hidden from `c` by its own older copy (R65 L1). No copy is made or removed (assumption log
8). -/
def State.fenceRel (s : State) (c : CoreId) : State :=
  (s.setView c { s.view c with sb := [] }).landAll c (s.view c).sb

/-- R64, `FENCE_ACQ(c)`: the copy set becomes empty. -/
def State.fenceAcq (s : State) (c : CoreId) : State :=
  s.setView c { s.view c with mcopies := [], jcopies := JobSlot.fill none }

/-! ### Core reads (R60) -/

/-- The copy of word `k`, if there is one. -/
def copyOf : List (Nat × Word) → Nat → Option Word
  | [], _ => none
  | c :: t, k => if k = c.1 then some c.2 else copyOf t k

/-- A copy put in at its place in rising order. -/
def insertCopy : List (Nat × Word) → Nat → Word → List (Nat × Word)
  | [], k, w => [(k, w)]
  | c :: t, k, w => if k < c.1 then (k, w) :: c :: t else if k = c.1 then (k, w) :: t else c :: insertCopy t k w

/-- The byte of the copy that holds address `a`, or else shared storage's (R60's `base`). -/
def View.base (v : View) (m : Memory) (a : Nat) : Byte :=
  match copyOf v.mcopies (a / 4) with
  | some w => wordByte w (a % 4)
  | none => m.read a

/-- The byte at `a` through a view: the base overlaid with every pending write, oldest first (R60). -/
def View.byte (v : View) (m : Memory) (a : Nat) : Byte := v.sb.foldl (fun b e => e.overlayByte a b) (v.base m a)

/-- Slot word `i` through a view (R60). -/
def View.slot (v : View) (j : JobSlot Word) (i : JobIx) : Word :=
  v.sb.foldl (fun w e => e.overlayJob i w) ((v.jcopies.get i).getD (j.get i))

/-- A view with a copy of `MEM` word `k` taken from shared storage. -/
def View.keepWord (v : View) (m : Memory) (k : Nat) : View :=
  { v with mcopies := insertCopy v.mcopies k (m.readWord (4 * k)) }

/-- A view with a copy of slot word `i` taken from shared storage. -/
def View.keepJob (v : View) (j : JobSlot Word) (i : JobIx) : View :=
  { v with jcopies := v.jcopies.set i (some (j.get i)) }

/-- The byte a core reads (R60). -/
def State.coreByte (s : State) (c : CoreId) (a : Nat) : Byte := (s.view c).byte s.mem a

/-- The slot word a core reads (R60). -/
def State.coreJob (s : State) (c : CoreId) (i : JobIx) : Word := (s.view c).slot s.job i

/-- The turn's choice for one read that goes to shared storage (U10): the first left in the list, or no. -/
def State.keepNext (s : State) : Bool := s.keeps.headD false

/-- The choice used up. -/
def State.dropKeep (s : State) : State := { s with keeps := s.keeps.tail }

/-- A read of `MEM` word `k` that finds no copy may leave one (R60). -/
def State.noteWord (s : State) (c : CoreId) (k : Nat) : State :=
  if (copyOf (s.view c).mcopies k).isSome then s
  else if s.keepNext then s.dropKeep.setView c ((s.view c).keepWord s.mem k)
  else s.dropKeep

/-- A read of slot word `i` that finds no copy may leave one (R60). -/
def State.noteJob (s : State) (c : CoreId) (i : JobIx) : State :=
  if ((s.view c).jcopies.get i).isSome then s
  else if s.keepNext then s.dropKeep.setView c ((s.view c).keepJob s.job i)
  else s.dropKeep

/-! ### Bytes the host wrote while a command ran (R179, U2; assumption log 10) -/

/-- Free values used up. -/
def State.draw (s : State) (n : Nat) : State := { s with draws := s.draws + n }

/-- The byte a core's read returns: R60's, or a free value where the host has written while the command ran. -/
def State.seenByte (s : State) (c : CoreId) (a : Nat) : Byte :=
  if s.disturbed.contains a then Config.disturbedByte s.draws a else s.coreByte c a

/-- After a core's read of `n` bytes at `a`, in one word: a copy may be left (R60), and a free value is used up if one
was read. -/
def State.noteRead (s : State) (c : CoreId) (a n : Nat) : State :=
  if (List.range n).any (fun i => s.disturbed.contains (a + i)) then (s.noteWord c (a / 4)).draw 1
  else s.noteWord c (a / 4)

/-- The host writes `n` bytes at `a` while a command runs: they are unspecified from now on. -/
def State.disturb (s : State) (a n : Nat) : State :=
  let xs := (List.range n).map (a + ·)
  { s with
    mem := s.mem.writeAll (xs.map (fun x => (x, Config.disturbedByte s.draws x)))
    disturbed := xs.filter (fun x => !s.disturbed.contains x) ++ s.disturbed
    draws := s.draws + 1 }

/-- When a command is over, what it left in a byte the host wrote meanwhile is unspecified, and from then on the byte is
an ordinary one again. -/
def State.settle (s : State) : State :=
  { s with
    mem := s.mem.writeAll (s.disturbed.map (fun a => (a, Config.disturbedByte s.draws a)))
    disturbed := []
    draws := s.draws + s.disturbed.length }

/-! ### The access primitives (R67) -/

/-- `MemRead(c, a, 1)`. -/
def State.readByte (s : State) (c : CoreId) (a : Nat) : Byte × State := (s.seenByte c a, s.noteRead c a 1)

/-- `MemRead(c, a, 4)`, `a` a multiple of 4 (R46). -/
def State.readWord (s : State) (c : CoreId) (a : Nat) : Word × State :=
  (wordOfBytes (s.seenByte c a) (s.seenByte c (a + 1)) (s.seenByte c (a + 2)) (s.seenByte c (a + 3)),
    s.noteRead c a 4)

/-- `MemWrite(c, a, 1, v)`. -/
def State.writeByte (s : State) (c : CoreId) (a : Nat) (v : Byte) : State := s.enqueue c (.byte a v)

/-- `MemWrite(c, a, 4, v)`, `a` a multiple of 4. -/
def State.writeWord (s : State) (c : CoreId) (a : Nat) (v : Word) : State := s.enqueue c (.word a v)

/-- `JobRead(c, i)`. -/
def State.readJob (s : State) (c : CoreId) (i : JobIx) : Word × State := (s.coreJob c i, s.noteJob c i)

/-- `JobWrite(c, i, v)`. -/
def State.writeJob (s : State) (c : CoreId) (i : JobIx) (v : Word) : State := s.enqueue c (.job i v)

/-- `n` words read at `a`, `a + 4`, … in that order. -/
def State.readWords (s : State) (c : CoreId) (a : Nat) : Nat → List Word × State
  | 0 => ([], s)
  | n + 1 =>
    let (w, s1) := s.readWord c a
    let (ws, s2) := s1.readWords c (a + 4) n
    (w :: ws, s2)

/-! ### A command's life -/

/-- R81: a command word is accepted. `ERRINFO`, `RESI`, `RESF` and `OVR` are not changed. -/
def State.accept (s : State) (w : Word) : State :=
  { s with cmdr := w, busy := true, done := false, code := .ok, pstage := .begin }

/-- R85: command begin. The operand registers cannot change while `BUSY = 1`, so latching them is reading them. -/
def State.beginCommand (s : State) : State := s.fenceAcq .p

/-- R160: what `raise <Error>(info)` does, in one step; nothing else changes. The record of bytes the host wrote meanwhile
ends with the command. -/
def State.raise (s : State) (e : Code) (info : Word) : State :=
  { s with errinfo := info, code := e, busy := false, done := true, pstage := .idle, disturbed := [] }

/-- R86: command end, the result registers already written: the release fence, then `CODE`, `BUSY`, `DONE`, `PSTATE`.
Bytes the host wrote meanwhile are settled (R179; nothing to do if there are none). -/
def State.finish (s : State) : State :=
  { (s.fenceRel .p).settle with code := .ok, busy := false, done := true, pstage := .idle }

end Sys2Proof.Machine
end

