-- ==== Sys2Proof/Machine/Operands.lean ====
section
/-! DEFINITION. The checks commands make of their operands before any access (20_memory.md rules R48 and R49,
60_exceptions.md rules R150 to R159), and the buffers their operands name (20_memory.md rules R52 to R56). -/

namespace Sys2Proof.Machine

/-- A check: whether it fails, and the completion code and detail word it then ends the command with. -/
structure Check where
  fails : Bool
  code : Code
  info : Word
deriving DecidableEq, Repr

/-- A buffer of `size` bytes at `base` lies in memory: it is empty, or its end is not beyond `MEM_BYTES`, in
unbounded integers (R49). -/
def State.inMemory (s : State) (base : Word) (size : Nat) : Bool :=
  size == 0 || decide (base.toNat + size ≤ s.memBytes)

/-- R154: a once-only command repeated. -/
def ckRepeat (flag : Bool) : Check := ⟨flag, .state, 1⟩

/-- R154: a precondition missing. -/
def ckNeeds (flag : Bool) : Check := ⟨!flag, .state, 0⟩

/-- R152: a count operand the command does not accept. -/
def ckUsage (bad : Bool) (v : Word) : Check := ⟨bad, .usage, v⟩

/-- R156: the base of a word buffer is no multiple of 4. -/
def ckAlign (base : Word) : Check := ⟨base.toNat % 4 != 0, .align, base⟩

/-- R155: a source buffer does not lie in memory. -/
def State.ckAddr (s : State) (base : Word) (size : Nat) : Check := ⟨!s.inMemory base size, .addr, base⟩

/-- R151: a destination buffer does not lie in memory. -/
def State.ckAlloc (s : State) (base : Word) (size : Nat) : Check := ⟨!s.inMemory base size, .alloc, base⟩

/-- Command begin (R85): the acquire fence, then the checks in the order given; the first that fails ends the command
(R159, R160), otherwise the command goes on. -/
def State.checked (s : State) (checks : State → List Check)
    (body : State → Host.Outcome State Fault Refusal) : Host.Outcome State Fault Refusal :=
  match (checks s.beginCommand).find? (·.fails) with
  | some c => .next (s.beginCommand.raise c.code c.info)
  | none => body s.beginCommand

/-- Bytes of a spectrum the classifier reads (R54): `4 * KC`. -/
def SPEC_BYTES : Nat := 4 * Config.KC

/-- Bytes of a dictionary image (R55): `4 * 256 * 41`. -/
def IMAGE_BYTES : Nat := 4 * (Config.NDICT * Config.KC)

/-- The address of a 32-bit integer held as an integer. -/
def wordOf (n : Nat) : Word := BitVec.ofNat 32 n

end Sys2Proof.Machine
end

