-- ==== Sys2Proof/Machine/Dtft.lean ====
section
/-! DEFINITION. DTFTEngine (42_dtft.md): the kernel `BIN`, the grids, and the commands `MAGAT`, `XFORM`, `MAG`,
`SQMAG`. `XFORMP`, the transform split over two cores, stands with the handoff it uses, in Sync.lean. -/

namespace Sys2Proof.Machine

/-- Why a computation stops at a lookup: the angle that could not be indexed (R94), and the number of draws used so
far, which stay used. -/
abbrev Angle := Word × Nat

/-! ### The kernel (R101) -/

/-- Draws one sample may use: two lookups, two products, two sums, one difference. -/
def SAMPLE_DRAWS : Nat := 15

/-- The body of `BIN`'s loop for a sample `x`: look up `ANGLE_c`, accumulate, subtract `OMEGA_c` (R101). `none` is the
lookup's `TrigRange`. After the last sample `NIDX_c` is the sample count: DESIGN CHOICE (U7), assumption log 24. -/
def accumulate (n : Nat) (sintab costab : Vector Word Config.L) (x : Byte) (r : Datapath) : Option Datapath :=
  match lookup n costab r.angle, lookup (n + 5) sintab r.angle with
  | some cv, some sv =>
    some { r with
      re := fadd (n + 11) r.re (fmul (n + 10) (cvtU8 x) cv)
      im := fadd (n + 13) r.im (fmul (n + 12) (cvtU8 x) sv)
      angle := fsub (n + 14) r.angle r.omega
      nidx := r.nidx + 1 }
  | _, _ => none

/-- The registers `BIN` starts from (R101). With no sample `NIDX_c` stays 0: DESIGN CHOICE (U7), assumption log 24. -/
def binStart (w : Word) (r : Datapath) : Datapath := { r with omega := w, angle := 0, re := 0, im := 0, nidx := 0 }

/-- One sample: the read of `sig + NIDX_c`, and the loop body (R101). -/
def State.sample (s : State) (c : CoreId) (sig : Nat) : Except Angle State :=
  let r := s.regs c
  let (x, s1) := s.readByte c (sig + r.nidx.toNat)
  match accumulate s.draws s.sintab s.costab x r with
  | some r' => .ok ((s1.setRegs c r').draw SAMPLE_DRAWS)
  | none => .error (r.angle, s.draws + SAMPLE_DRAWS)

/-- `n` samples. -/
def State.samples (s : State) (c : CoreId) (sig : Nat) : Nat → Except Angle State
  | 0 => .ok s
  | n + 1 => match s.sample c sig with
    | .ok s' => s'.samples c sig n
    | .error e => .error e

/-- `BIN(c, sig, n, w)` (R101): afterwards `RE_c` and `IM_c` hold the bin. -/
def State.bin (s : State) (c : CoreId) (sig n : Nat) (w : Word) : Except Angle State :=
  (s.setRegs c (binStart w (s.regs c))).samples c sig n

/-! ### The grids (R103, R104) -/

/-- Draws one grid frequency may use: a product and a quotient. -/
def OMEGA_DRAWS : Nat := 2

/-- `OMEGA(g, k, K)`, by the formulas of R103 and R104. DEDUCED, assumption log 21: for some `K` the formula of R104 gives
the last point of the half grid one last place above `PI_F` (`K = 12`) or below it (`K = 24`), against the sentence after
it. -/
def omegaOf (n : Nat) (g : Grid) (k K : Word) : Word :=
  match g with
  | .full => fdiv (n + 1) (fmul n TWO_PI_F (cvtU32 k)) (cvtU32 K)
  | .half => if K = 1 then 0 else fdiv (n + 1) (fmul n PI_F (cvtU32 k)) (cvtU32 (K - 1))

/-! ### Whole transforms on one core (R106) -/

/-- The address of the real part of bin `k` of a complex spectrum (R53); the imaginary part is 4 above. -/
def binAddr (out : Word) (k : Nat) : Nat := out.toNat + 8 * k

/-- Bin `KIDX_c` of a job: `BIN` at its frequency, then the pair written, real part first, then the next bin. After the
last bin `KIDX_c` is one past it: DESIGN CHOICE (U7), assumption log 24. -/
def State.transformBin (s : State) (c : CoreId) (j : Job) : Except Angle State :=
  let k := (s.regs c).kidx
  match (s.draw OMEGA_DRAWS).bin c j.sig.toNat j.n.toNat (omegaOf s.draws j.g k j.kt) with
  | .ok s1 =>
    let r := s1.regs c
    let s2 := (s1.writeWord c (binAddr j.out k.toNat) r.re).writeWord c (binAddr j.out k.toNat + 4) r.im
    .ok (s2.setRegs c { r with kidx := k + 1 })
  | .error e => .error e

/-- `n` bins from `KIDX_c` on. -/
def State.transformBins (s : State) (c : CoreId) (j : Job) : Nat → Except Angle State
  | 0 => .ok s
  | n + 1 => match s.transformBin c j with
    | .ok s' => s'.transformBins c j n
    | .error e => .error e

/-- Bins `[k0, k1)` of a job. With no bin `KIDX_c` stays at `k0`: DESIGN CHOICE (U7), assumption log 24. -/
def State.transform (s : State) (c : CoreId) (j : Job) : Except Angle State :=
  (s.setRegs c { s.regs c with kidx := j.k0 }).transformBins c j (j.k1.toNat - j.k0.toNat)

/-- A computation that a lookup stopped ends the command with `ERR_NUM` and no effect (R94, R157, R161); otherwise
the command goes on. What ends with `ERR_NUM` has the copies of command begin, none, and leaves the turn's copy choices
unused: DESIGN CHOICE (R60, U10), assumption log 25. -/
def orNum (s0 : State) (r : Except Angle State) (k : State → Host.Outcome State Fault Refusal) :
    Host.Outcome State Fault Refusal :=
  match r with
  | .ok s => k s
  | .error (angle, n) => .next ({ s0 with draws := n }.raise .num angle)

/-! ### Magnitudes (R105, R108, R109) -/

/-- Draws one magnitude may use: two products, a sum, a root. -/
def MAG_DRAWS : Nat := 4

/-- `fadd(fmul(re, re), fmul(im, im))`. -/
def sqmagOf (n : Nat) (re im : Word) : Word := fadd (n + 2) (fmul n re re) (fmul (n + 1) im im)

/-- `fsqrt(fadd(fmul(re, re), fmul(im, im)))`. -/
def magOf (n : Nat) (re im : Word) : Word := fsqrt (n + 3) (sqmagOf n re im)

/-- Entry `KIDX_P`: a pair read, real part first, its magnitude by `f` written, then the next entry. After the last entry
`KIDX_P` is one past it: DESIGN CHOICE (U7), assumption log 24. -/
def State.magEntry (s : State) (f : Nat → Word → Word → Word) (src dst : Nat) : State :=
  let k := s.pregs.kidx.toNat
  let (re, s1) := s.readWord .p (src + 8 * k)
  let (im, s2) := s1.readWord .p (src + 8 * k + 4)
  let s3 := (s2.writeWord .p (dst + 4 * k) (f s.draws re im)).draw MAG_DRAWS
  { s3 with pregs := { s3.pregs with kidx := s3.pregs.kidx + 1 } }

/-- `n` entries from `KIDX_P` on. -/
def State.magEntries (s : State) (f : Nat → Word → Word → Word) (src dst : Nat) : Nat → State
  | 0 => s
  | n + 1 => (s.magEntry f src dst).magEntries f src dst n

/-- A magnitude spectrum of `n` entries by `f` (R108, R109). With no entry `KIDX_P` stays at 0: DESIGN CHOICE (U7),
assumption log 24. -/
def State.magSpectrum (s : State) (f : Nat → Word → Word → Word) (src dst n : Nat) : State :=
  { s with pregs := { s.pregs with kidx := 0 } }.magEntries f src dst n

/-- The checks of `MAG` and `SQMAG`, in order (R108). -/
def magChecks (s : State) : List Check :=
  [ckAlign s.src, ckAlign s.dst, s.ckAddr s.src (8 * s.cnt.toNat), s.ckAlloc s.dst (4 * s.cnt.toNat)]

/-- The checks of `XFORM` and `XFORMP`, in order (R106, R107). -/
def xformChecks (s : State) : List Check :=
  [ckNeeds s.initd, ckAlign s.dst, s.ckAddr s.src s.len.toNat, s.ckAlloc s.dst (8 * s.cnt.toNat)]

/-! ### The commands -/

/-- `MAGAT` (R105). -/
def execMagat (s : State) : Host.Outcome State Fault Refusal :=
  s.checked (fun s => [ckNeeds s.initd, s.ckAddr s.src s.len.toNat]) (fun s =>
    orNum s (s.bin .p s.src.toNat s.len.toNat s.farg) (fun s1 =>
      .next ({ s1 with resf := magOf s1.draws s1.pregs.re s1.pregs.im }.draw MAG_DRAWS).finish))

/-- The whole transform as one job: what `XFORM` computes (R106). -/
def serialJob (s : State) (g : Grid) : Job := ⟨s.src, s.len, 0, s.cnt, s.cnt, g, s.dst⟩

/-- `XFORM` (R106). -/
def execXform (g : Grid) (s : State) : Host.Outcome State Fault Refusal :=
  s.checked xformChecks (fun s =>
    orNum s (s.transform .p (serialJob s g)) (fun s1 => .next { s1 with resi := s.cnt }.finish))

/-- `MAG` (R108). -/
def execMag (s : State) : Host.Outcome State Fault Refusal :=
  s.checked magChecks (fun s =>
    .next { s.magSpectrum magOf s.src.toNat s.dst.toNat s.cnt.toNat with resi := s.cnt }.finish)

/-- `SQMAG` (R109). -/
def execSqmag (s : State) : Host.Outcome State Fault Refusal :=
  s.checked magChecks (fun s =>
    .next { s.magSpectrum sqmagOf s.src.toNat s.dst.toNat s.cnt.toNat with resi := s.cnt }.finish)

end Sys2Proof.Machine
end

