-- ==== Sys2Proof/Machine/Classifier.lean ====
section
/-! DEFINITION. SpectralClassifier (44_classifier.md): the distance, the nearest entry, the rank order, and the
commands `LDDICT`, `DIST`, `CLASSIFY`, `RANK`. -/

namespace Sys2Proof.Machine

/-! ### Distance (R136) -/

/-- The sum of `DISTF` over the pairs left, the running sum in `acc`, draws numbered from `n`: difference, square,
sum for each entry, ascending. DEDUCED, assumption log 22: the square of a tiny difference that is not 0 is `+0` where it
underflows, so the sum can be `+0` for spectra that differ, against a sentence of R136. -/
def distFrom (n : Nat) (acc : Word) : List Word → List Word → Word
  | x :: xs, y :: ys =>
    let d := fsub n x y
    distFrom (n + 3) (fadd (n + 2) acc (fmul (n + 1) d d)) xs ys
  | _, _ => acc

/-- `DISTF(a, b)` (R136). -/
def distF (n : Nat) (a b : List Word) : Word := distFrom n 0 a b

/-- Draws one distance may use. -/
def DIST_DRAWS : Nat := 3 * Config.KC

/-- `DISTF(s, DICT[v])` for each byte value `v`, in ascending order (R138, R140). -/
def distances (n : Nat) (spec : List Word) (dict : Vector (Vector Word Config.KC) Config.NDICT) :
    Vector Word Config.NDICT :=
  tab _ (fun v => distF (n + DIST_DRAWS * v) spec (dict.toList.getD v (Vector.replicate _ 0)).toList)

/-! ### The nearest entry (R138) -/

/-- One turn of the loop: `BEST` and `BESTD` after byte value `v` at distance `d`, under the strict less-than. -/
def closer (b : Nat × Word) (x : Nat × Word) : Nat × Word := if flt x.2 b.2 then x else b

/-- The loop over the byte values from `v` on. -/
def nearestFrom (v : Nat) (b : Nat × Word) : List Word → Nat × Word
  | [] => b
  | d :: ds => nearestFrom (v + 1) (closer b (v, d)) ds

/-- `BEST` and `BESTD`: from byte 0 at `+Inf`, over all the distances (R138). -/
def nearest (ds : List Word) : Nat × Word := nearestFrom 0 (0, POS_INF) ds

/-! ### The rank order (R139) -/

/-- Byte `u` at distance `x` ranks before byte `v` at distance `y`. -/
def ranksBefore (u : Nat) (x : Word) (v : Nat) (y : Word) : Bool :=
  (!f32IsNaN x && f32IsNaN y) || flt x y || (feq x y && decide (u < v)) ||
    (f32IsNaN x && f32IsNaN y && decide (u < v))

/-- A record put in at its place in rank order. -/
def rankInsert (r : Nat × Word) : List (Nat × Word) → List (Nat × Word)
  | [] => [r]
  | x :: xs => if ranksBefore r.1 r.2 x.1 x.2 then r :: x :: xs else x :: rankInsert r xs

/-- The byte values from `v` on, each with its distance. -/
def numbered (v : Nat) : List Word → List (Nat × Word)
  | [] => []
  | d :: ds => (v, d) :: numbered (v + 1) ds

/-- The byte values with their distances, in the order of R139. -/
def ranked (ds : List Word) : List (Nat × Word) := (numbered 0 ds).foldr rankInsert []

/-- Records written one after another from `a` on: the byte value's word, then the distance (R56, R140). -/
def State.writeRecords (s : State) (a : Nat) : List (Nat × Word) → State
  | [] => s
  | r :: rs => ((s.writeWord .p a (wordOf r.1)).writeWord .p (a + 4) r.2).writeRecords (a + 8) rs

/-! ### The steps commands share -/

/-- The distances of a spectrum to all entries, computed: `RE_P` holds the last sum (R34, R136); the other
datapath registers stay as they were: DESIGN CHOICE (U7), assumption log 24. -/
def State.computeDistances (s : State) (spec : List Word) : Vector Word Config.NDICT × State :=
  let ds := distances s.draws spec s.dict
  (ds, { s with pregs := { s.pregs with re := ds.toList.getD (Config.NDICT - 1) 0 } }.draw
    (DIST_DRAWS * Config.NDICT))

/-- The classify loop on a spectrum (R138): `RESI` and `RESF` take `BEST` and `BESTD`. -/
def State.classifySpectrum (s : State) (spec : List Word) : State :=
  let (ds, s1) := s.computeDistances spec
  let b := nearest ds.toList
  { s1 with best := wordOf b.1, bestd := b.2, resi := wordOf b.1, resf := b.2 }

/-- Pairs read, `a` before `b` for each (R137). -/
def State.readPairs (s : State) (a b : Nat) : Nat → List Word × List Word × State
  | 0 => ([], [], s)
  | n + 1 =>
    let (x, s1) := s.readWord .p a
    let (y, s2) := s1.readWord .p b
    let (xs, ys, s3) := s2.readPairs (a + 4) (b + 4) n
    (x :: xs, y :: ys, s3)

/-- The dictionary an image's words make: entry `i` of byte value `v` is word `41*v + i` (R55, R135). -/
def dictOf (ws : List Word) : Vector (Vector Word Config.KC) Config.NDICT :=
  tab _ (fun v => tab _ (fun i => ws.getD (Config.KC * v + i) 0))

/-! ### The commands -/

/-- `LDDICT` (R135). The private registers stay as they were: DESIGN CHOICE (U7), assumption log 24. -/
def execLddict (s : State) : Host.Outcome State Fault Refusal :=
  s.checked (fun s => [ckRepeat s.dictv, ckAlign s.src, s.ckAddr s.src IMAGE_BYTES]) (fun s =>
    let r := s.readWords .p s.src.toNat (Config.NDICT * Config.KC)
    .next { r.2 with dict := dictOf r.1, dictv := true }.finish)

/-- `DIST` (R137). `RE_P` holds the sum, and the other datapath registers stay as they were: DESIGN CHOICE (U7), assumption
log 24. -/
def execDist (s : State) : Host.Outcome State Fault Refusal :=
  s.checked (fun s => [ckAlign s.src, ckAlign s.aux, s.ckAddr s.src SPEC_BYTES, s.ckAddr s.aux SPEC_BYTES]) (fun s =>
    let (a, b, s1) := s.readPairs s.src.toNat s.aux.toNat Config.KC
    let d := distF s1.draws a b
    .next ({ s1 with pregs := { s1.pregs with re := d }, resf := d }.draw DIST_DRAWS).finish)

/-- `CLASSIFY` (R138). -/
def execClassify (s : State) : Host.Outcome State Fault Refusal :=
  s.checked (fun s => [ckNeeds s.dictv, ckUsage (s.len != wordOf Config.KC) s.len, ckAlign s.src,
      s.ckAddr s.src SPEC_BYTES]) (fun s =>
    let (spec, s1) := s.readWords .p s.src.toNat Config.KC
    .next (s1.classifySpectrum spec).finish)

/-- `RANK` (R140). -/
def execRank (s : State) : Host.Outcome State Fault Refusal :=
  s.checked (fun s => [ckNeeds s.dictv, ckUsage (s.len != wordOf Config.KC) s.len,
      ckUsage (decide (Config.NDICT < s.cnt.toNat)) s.cnt, ckAlign s.src, ckAlign s.dst, s.ckAddr s.src SPEC_BYTES,
      s.ckAlloc s.dst (8 * s.cnt.toNat)]) (fun s =>
    let (spec, s1) := s.readWords .p s.src.toNat Config.KC
    let (ds, s2) := s1.computeDistances spec
    let s3 := { s2 with rd := ds }.writeRecords s.dst.toNat ((ranked ds.toList).take s.cnt.toNat)
    .next { s3 with resi := s.cnt }.finish)

end Sys2Proof.Machine
end

