-- ==== Sys2Proof/Machine/Sync.lean ====
section
/-! DEFINITION. CoreSyncChannel (43_coresync.md): `WLAUNCH`, `XFORMP`, the steps `P` takes while it publishes and
awaits a job (R117 to R122), and the steps of `W` (R123 to R128). A step is one shared access or one fence (R88). -/

namespace Sys2Proof.Machine

/-! ### One step of a transform bin -/

/-- What one step of a parallel transform comes to. -/
inductive BinStep where
  /-- The next access, and the state. -/
  | at (b : BinPos) (s : State)
  /-- No bin is left. -/
  | done (s : State)
  /-- The lookup has no index for this angle (R94). -/
  | stuck (angle : Word)
  /-- The access lies outside `MEM` (R49). -/
  | outside (a : Nat)

/-- The output range of the whole spectrum and the signal range have a byte in common (70_reset_and_hazards.md rule
R185): neither is empty, and each begins before the other ends. -/
def Job.overlaps (j : Job) : Bool :=
  decide (0 < j.n.toNat ∧ 0 < j.kt.toNat ∧ j.sig.toNat < j.out.toNat + 8 * j.kt.toNat ∧
    j.out.toNat < j.sig.toNat + j.n.toNat)

/-- The word written into the output of a parallel transform: the value computed, or a free value where output and
signal overlap (R185, U4; assumption log 3). -/
def State.outWord (s : State) (j : Job) (v : Word) : Word := if j.overlaps then Config.overlapWord s.draws else v

/-- One step of core `c` through the bins `[KIDX_c, kEnd)` of a job (R120, R125; one shared access, R88). After the last bin
`KIDX_c` is one past it: DESIGN CHOICE (U7), assumption log 24. -/
def State.binStep (s : State) (c : CoreId) (j : Job) (kEnd : Word) (b : BinPos) : BinStep :=
  let r := s.regs c
  match b with
  | .next =>
    if r.kidx.toNat < kEnd.toNat then
      .at (if j.n = 0 then .re else .sample)
        ((s.setRegs c (binStart (omegaOf s.draws j.g r.kidx j.kt) r)).draw OMEGA_DRAWS)
    else .done s
  | .sample =>
    if j.sig.toNat + r.nidx.toNat < s.memBytes then
      match s.sample c j.sig.toNat with
      | .ok s' => .at (if (s'.regs c).nidx.toNat < j.n.toNat then .sample else .re) s'
      | .error e => .stuck e.1
    else .outside (j.sig.toNat + r.nidx.toNat)
  | .re =>
    let a := binAddr j.out r.kidx.toNat
    if a + 4 ≤ s.memBytes then .at .im ((s.writeWord c a (s.outWord j r.re)).draw 1) else .outside a
  | .im =>
    let a := binAddr j.out r.kidx.toNat + 4
    if a + 4 ≤ s.memBytes then
      .at .next (((s.writeWord c a (s.outWord j r.im)).setRegs c { r with kidx := r.kidx + 1 }).draw 1)
    else .outside a

/-! ### The producer's steps (R117 to R122) -/

/-- `PUBLISH` begins: `P` latches the job and goes to `P_PUB` (R85, R117). -/
def State.publish (s : State) (j : Job) (cmd : Publisher) : State :=
  { s with pjob := j, pcmd := cmd, pstage := .pub .sig }

/-- `J_GRID`'s encoding (R36): 0 full-turn, 1 half-turn. -/
def gridWord (g : Grid) : Word :=
  match g with
  | .full => 0
  | .half => 1

/-- The word `P` writes at a slot index (R117, R119). -/
def Job.slotWord (j : Job) : JobIx → Word
  | .sig => j.sig
  | .len => j.n
  | .start => j.k0
  | .stop => j.k1
  | .ktot => j.kt
  | .grid => gridWord j.g
  | .out => j.out
  | .done => 0
  | .sigp => 1

/-- What follows a slot write of `P_PUB` (R117, R118). -/
def pubNext : JobIx → PStage
  | .sig => .pub .len
  | .len => .pub .start
  | .start => .pub .stop
  | .stop => .pub .ktot
  | .ktot => .pub .grid
  | .grid => .pub .out
  | .out => .pub .done
  | .done => .fence
  | .sigp => .own .next

/-- `P_PUB` (R117): one slot write. -/
def pubStep (i : JobIx) (s : State) : State :=
  { s.writeJob .p i (s.pjob.slotWord i) with pstage := pubNext i }

/-- `P_FENCE` (R118): the publish fence. -/
def fenceStep (s : State) : State := { s.fenceRel .p with pstage := .trig }

/-- `P_TRIG` (R119): signal-present written, and `P` turns to its own half, bins `[0, k0)`. With no bin
`KIDX_P` stays at 0: DESIGN CHOICE (U7), assumption log 24. -/
def trigStep (s : State) : State :=
  let s1 := pubStep .sigp s
  { s1 with pregs := { s1.pregs with kidx := 0 } }

/-- `P_OWN` (R120): one step through bins `[0, k0)`. -/
def ownStep (b : BinPos) (s : State) : Host.Outcome State Fault Refusal :=
  match s.binStep .p s.pjob s.pjob.k0 b with
  | .at b' s' => .next { s' with pstage := .own b' }
  | .done s' => .next { s' with pstage := .waitFence }
  | .stuck a => .fault (.gridAngle .p a)
  | .outside a => .fault (.outsideMemory .p a)

/-- `P_WAIT` (R121), first line: the acquire fence of the poll. -/
def waitFenceStep (s : State) : State := { s.fenceAcq .p with pstage := .waitRead }

/-- `P_WAIT` (R121), second and third line: `J_DONE` read, and the loop left if it is set. -/
def waitReadStep (s : State) : State :=
  let (d, s1) := s.readJob .p .done
  { s1 with pstage := if d = 0 then .waitFence else .fin }

/-- `P_FIN` (R122): the further fence; `XFORMP` then ends, `PIPE` goes on in `P_EXEC`. -/
def finStep (s : State) : State :=
  { s.fenceAcq .p with pstage := match s.pcmd with
      | .xformp => .finEnd
      | .pipe => .tail }

/-- The command end of `XFORMP` (R107, R122). -/
def finEndStep (s : State) : State := { s with resi := s.cnt }.finish

/-! ### The worker's steps (R123 to R128) -/

/-- A word read from the slot goes to its job register (R124). -/
def Job.load (j : Job) (i : JobIx) (v : Word) : Job :=
  match i with
  | .sig => { j with sig := v }
  | .len => { j with n := v }
  | .start => { j with k0 := v }
  | .stop => { j with k1 := v }
  | .ktot => { j with kt := v }
  | .grid => { j with g := gridOfBit (v.getLsbD 0) }
  | .out => { j with out := v }
  | .done => j
  | .sigp => j

/-- What follows a slot read of `W_LOAD` (R124). -/
def loadNext : JobIx → WStage
  | .sig => .load .len
  | .len => .load .start
  | .start => .load .stop
  | .stop => .load .ktot
  | .ktot => .load .grid
  | .grid => .load .out
  | .out => .run .next
  | .done => .run .next
  | .sigp => .run .next

/-- `W_POLL` (R123), first line. -/
def pollFenceStep (s : State) : State := { s.fenceAcq .w with wstage := .pollRead }

/-- `W_POLL` (R123), second and third line. -/
def pollReadStep (s : State) : State :=
  let (v, s1) := s.readJob .w .sigp
  { s1 with wstage := if v = 0 then .pollFence else .load .sig }

/-- `W_LOAD` (R124): one slot read; after the last, `KIDX_W` is where the loop of R125 begins, and with no
bin it stays there: DESIGN CHOICE (U7), assumption log 24. -/
def loadStep (i : JobIx) (s : State) : State :=
  let (v, s1) := s.readJob .w i
  let j := s1.wjob.load i v
  let r := if i = .out then { s1.wregs with kidx := j.k0 } else s1.wregs
  { s1 with wjob := j, wregs := r, wstage := loadNext i }

/-- `W_RUN` (R125): one step through bins `[WK0, WK1)`. -/
def runStep (b : BinPos) (s : State) : Host.Outcome State Fault Refusal :=
  match s.binStep .w s.wjob s.wjob.k1 b with
  | .at b' s' => .next { s' with wstage := .run b' }
  | .done s' => .next { s' with wstage := .rel }
  | .stuck a => .fault (.gridAngle .w a)
  | .outside a => .fault (.outsideMemory .w a)

/-- `W_REL` (R126). -/
def relStep (s : State) : State := { s.fenceRel .w with wstage := .setDone }

/-- `W_SETDONE` (R127): the write and the move to `W_CLEAR` are one step, as in R132's table, so `WSTATE` 5 is not read once
the flag can be seen. DEDUCED, assumption log 26. -/
def setDoneStep (s : State) : State := { s.writeJob .w .done 1 with wstage := .clear }

/-- `W_CLEAR` (R128). -/
def clearStep (s : State) : State := { s.writeJob .w .sigp 0 with wstage := .pollFence }

/-- One step of the worker, by its sequencer state (R132). Off, it takes none. -/
def workerStep (s : State) : Host.Outcome State Fault Refusal :=
  match s.wstage with
  | .off => .next s
  | .pollFence => .next (pollFenceStep s)
  | .pollRead => .next (pollReadStep s)
  | .load i => .next (loadStep i s)
  | .run b => runStep b s
  | .rel => .next (relStep s)
  | .setDone => .next (setDoneStep s)
  | .clear => .next (clearStep s)

/-! ### The commands -/

/-- `WLAUNCH` (R116). -/
def execWlaunch (s : State) : Host.Outcome State Fault Refusal :=
  s.checked (fun s => [ckRepeat s.wrun]) (fun s => .next { s with wrun := true, wstage := .pollFence }.finish)

/-- The job `XFORMP` publishes (R107, R117): `P` computes bins `[0, K div 2)`, `W` the rest. -/
def parallelJob (s : State) (g : Grid) : Job := ⟨s.src, s.len, wordOf (s.cnt.toNat / 2), s.cnt, s.cnt, g, s.dst⟩

/-- `XFORMP` (R107): the checks of `XFORM`, then the handoff begins. The rest of the command is the steps above,
interleaved with the worker's. -/
def execXformp (g : Grid) (s : State) : Host.Outcome State Fault Refusal :=
  s.checked xformChecks (fun s => .next (s.publish (parallelJob s g) .xformp))

end Sys2Proof.Machine
end

