-- ==== Sys2Proof/Machine/Pipeline.lean ====
section
/-! DEFINITION. PatternPipeline (45_pipeline.md): the commands `REPL` and `PIPE`. `PIPE` is the replicate, transform,
squared-magnitude and classify operations of the other commands, on the buffers of its work area (R147). -/

namespace Sys2Proof.Machine

/-! ### Replicate (R145) -/

/-- `n` bytes copied one by one, each read before it is written. -/
def State.copyBytes (s : State) (src dst : Nat) : Nat → State
  | 0 => s
  | n + 1 =>
    let (b, s1) := s.readByte .p src
    (s1.writeByte .p dst b).copyBytes (src + 1) (dst + 1) n

/-- `r` copies of a pattern of `n` bytes, one after another. -/
def State.replicate (s : State) (src dst n : Nat) : Nat → State
  | 0 => s
  | r + 1 => (s.copyBytes src dst n).replicate src (dst + n) n r

/-- The output size of `REPL`, in unbounded integers (R145). -/
def replSize (s : State) : Nat := s.len.toNat * s.cnt.toNat

/-- R151 for `REPL`: the output does not lie in memory, or its size is 2^32 or more, which "always fails this check"
(R145; assumption log 9). -/
def ckReplAlloc (s : State) : Check :=
  ⟨decide (2 ^ 32 ≤ replSize s) || (s.ckAlloc s.dst (replSize s)).fails, .alloc, s.dst⟩

/-- `REPL` (R145). -/
def execRepl (s : State) : Host.Outcome State Fault Refusal :=
  s.checked (fun s => [s.ckAddr s.src s.len.toNat, ckReplAlloc s]) (fun s =>
    .next { s.replicate s.src.toNat s.dst.toNat s.len.toNat s.cnt.toNat with resi := wordOf (replSize s) }.finish)

/-! ### The pipeline (R146, R147) -/

/-- Offset of the complex spectrum in the work area (R146). -/
def SPECTRUM_AT : Word := 0x50

/-- Offset of the squared-magnitude spectrum in the work area (R146). -/
def SQUARES_AT : Word := 0x198

/-- The transform of `PIPE`, all bins on one core. -/
def pipeJob (s : State) : Job :=
  ⟨s.dst, wordOf Config.NS, 0, wordOf Config.KC, wordOf Config.KC, .half, s.dst + SPECTRUM_AT⟩

/-- The job parallel `PIPE` publishes (R117): `P` computes bins 0 to 19. -/
def pipeParallelJob (s : State) : Job := { pipeJob s with k0 := wordOf (Config.KC / 2) }

/-- From the complex spectrum on: squared magnitudes, then classify, then command end (R147). -/
def pipeTail (s : State) : State :=
  let s1 := s.magSpectrum sqmagOf (s.dst + SPECTRUM_AT).toNat (s.dst + SQUARES_AT).toNat Config.KC
  let (spec, s2) := s1.readWords .p (s.dst + SQUARES_AT).toNat Config.KC
  (s2.classifySpectrum spec).finish

/-- After the checks of `PIPE`: replicate, then the transform its mode asks for (R147). -/
def pipeBody (m : PipeMode) (s : State) : Host.Outcome State Fault Refusal :=
  let s1 := s.replicate s.src.toNat s.dst.toNat Config.PLEN Config.REP
  match m with
  | .serial => orNum s (s1.transform .p (pipeJob s)) (fun s2 => .next (pipeTail s2))
  | .parallel => .next (s1.publish (pipeParallelJob s) .pipe)

/-- `PIPE` (R147). -/
def execPipe (m : PipeMode) (s : State) : Host.Outcome State Fault Refusal :=
  s.checked (fun s => [ckNeeds (s.initd && s.dictv), ckUsage (s.len != wordOf Config.PLEN) s.len, ckAlign s.dst,
    s.ckAddr s.src Config.PLEN, s.ckAlloc s.dst Config.WORK_BYTES]) (pipeBody m)

end Sys2Proof.Machine
end

