-- ==== Sys2Proof/Machine/Dispatch.lean ====
section
/-! DEFINITION. One arm per command: the meaning of each is its own definition, in the file of its family. -/

namespace Sys2Proof.Machine

def exec (i : Instr) (s : State) : Host.Outcome State Fault Refusal :=
  match i with
  | .init => Sys2Proof.Machine.execInit s
  | .sin => Sys2Proof.Machine.execSin s
  | .cos => Sys2Proof.Machine.execCos s
  | .magat => Sys2Proof.Machine.execMagat s
  | .xform g => Sys2Proof.Machine.execXform g s
  | .xformp g => Sys2Proof.Machine.execXformp g s
  | .mag => Sys2Proof.Machine.execMag s
  | .sqmag => Sys2Proof.Machine.execSqmag s
  | .wlaunch => Sys2Proof.Machine.execWlaunch s
  | .lddict => Sys2Proof.Machine.execLddict s
  | .dist => Sys2Proof.Machine.execDist s
  | .classify => Sys2Proof.Machine.execClassify s
  | .rank => Sys2Proof.Machine.execRank s
  | .repl => Sys2Proof.Machine.execRepl s
  | .pipe m => Sys2Proof.Machine.execPipe m s

end Sys2Proof.Machine
end

