-- ==== Sys2Proof/Machine/Flags.lean ====
section
/-! DEFINITION. The status word and the constant registers as the host reads them (10_state.md rules R24, R26, R29,
R30). The fields of `STATUS` are the hardware's only flags (R26); each is stored once, in `State`. -/

namespace Sys2Proof.Machine

/-- `STATUS.CODE` (R150). -/
def Code.number : Code → BitVec 4
  | .ok => 0
  | .alloc => 1
  | .usage => 2
  | .illegal => 3
  | .state => 4
  | .addr => 5
  | .align => 6
  | .num => 7

/-- `PSTATE` (R24). -/
def PStage.number : PStage → BitVec 4
  | .idle => 0
  | .begin => 1
  | .tail => 1
  | .pub _ => 2
  | .fence => 3
  | .trig => 4
  | .own _ => 5
  | .waitFence => 6
  | .waitRead => 6
  | .fin => 7
  | .finEnd => 7

/-- `WSTATE` (R24). -/
def WStage.number : WStage → BitVec 4
  | .off => 0
  | .pollFence => 1
  | .pollRead => 1
  | .load _ => 2
  | .run _ => 3
  | .rel => 4
  | .setDone => 5
  | .clear => 6

/-- `STATUS` (R26), from bit 31 down: reserved, `WSTATE`, `PSTATE`, reserved, `CODE`, reserved, `WRUN`, `DICTV`,
`INITD`, `OVR`, `DONE`, `BUSY`. -/
def State.status (s : State) : Word :=
  (0 : BitVec 8) ++ s.wstage.number ++ s.pstage.number ++ (0 : BitVec 4) ++ s.code.number ++ (0 : BitVec 2) ++
    BitVec.ofBool s.wrun ++ BitVec.ofBool s.dictv ++ BitVec.ofBool s.initd ++ BitVec.ofBool s.ovr ++
    BitVec.ofBool s.done ++ BitVec.ofBool s.busy

/-- `ID` (R29): the bytes "DTFT". -/
def ID : Word := 0x44544654

/-- `CONFIG` (R30), from bit 31 down: `REP`, `PLEN`, `KC`, two zero bits, `INTERP`, `LOG2L`. -/
def CONFIG : Word :=
  BitVec.ofNat 8 Config.REP ++ BitVec.ofNat 8 Config.PLEN ++ BitVec.ofNat 8 Config.KC ++ (0 : BitVec 2) ++
    BitVec.ofBool Config.INTERP ++ BitVec.ofNat 5 Config.LOG2L

end Sys2Proof.Machine
end

