-- ==== Sys2Proof/Machine/Host.lean ====
section
/-! DEFINITION. What the outside world does to the block: register reads and writes (10_state.md rule R31,
30_encoding.md rule R81), the memory port (20_memory.md rule R66), and the two resets (70_reset_and_hazards.md
rules R175 and R176). -/

namespace Sys2Proof.Machine

/-! ### Reset (R39, R175, R176) -/

/-- Everything at its reset value but what is no part of the reset: the memory given, `MEM_BYTES`, and the model's
own record of the schedule, the draws and the last host read. -/
def State.resetTo (s : State) (m : Memory) : State :=
  { State.reset with
    mem := m, memTop := s.memTop, turns := s.turns, clock := s.clock, draws := s.draws + 1, hostRd := s.hostRd }

/-- The memory the command in `P_EXEC` would leave, if it is carried out to its end (R88: such a command is one
step). -/
def State.memoryToCome (s : State) : Memory :=
  match s.pstage with
  | .begin =>
    match decode s.cmdr with
    | .ok i =>
      match exec i s with
      | .next s' => (s'.fenceRel .p).mem
      | _ => s.mem
    | .error _ => s.mem
  | .tail => (pipeTail s).mem
  | _ => s.mem

/-- Each byte that differs between two memories is the old one or, where it had landed, the new one (R176, U3;
assumption log 4). -/
def Memory.partly (old new : Memory) (n : Nat) : Memory :=
  old.writeAll ((new.cells ++ old.cells).filterMap (fun c =>
    if new.read c.1 != old.read c.1 && Config.landed n c.1 then some (c.1, new.read c.1) else none))

/-- R175, soft reset: shared storage of `MEM` stays, pending writes are lost, all else is at its reset value. A
command it abandons may have written any part of its destination (R176), and a byte the host wrote meanwhile is
unspecified (R179). -/
def State.softReset (s : State) : State :=
  s.resetTo { s with mem := s.mem.partly s.memoryToCome s.draws }.settle.mem

/-- R175, hard reset: every byte of `MEM` is unspecified; the turn says what it is (U1). -/
def State.hardReset (s : State) (contents : List Host.Cell) : State :=
  s.resetTo (Memory.writeAll ⟨[]⟩ (contents.filter (fun c => decide (c.1 < s.memBytes))))

/-! ### Host register accesses (R31) -/

/-- What a read of a register returns; `none` outside the map (R31, U9). -/
def State.readReg (s : State) (off : Word) : Option Word :=
  match off.toNat with
  | 0x00 => some s.src
  | 0x04 => some s.len
  | 0x08 => some s.cnt
  | 0x0C => some s.dst
  | 0x10 => some s.aux
  | 0x14 => some s.farg
  | 0x18 => some s.resi
  | 0x1C => some s.resf
  | 0x20 => some s.cmdr
  | 0x24 => some s.status
  | 0x28 => some s.errinfo
  | 0x2C => some 0
  | 0x30 => some ID
  | 0x34 => some CONFIG
  | _ => none

/-- An operand register replaced by the host's value (R21). -/
def State.setOperand (s : State) (off v : Word) : State :=
  match off.toNat with
  | 0x00 => { s with src := v }
  | 0x04 => { s with len := v }
  | 0x08 => { s with cnt := v }
  | 0x0C => { s with dst := v }
  | 0x10 => { s with aux := v }
  | 0x14 => { s with farg := v }
  | _ => s

/-- R28: bit 0 resets; else bit 1 clears `OVR`; the other bits are ignored. -/
def State.writeCtrl (s : State) (v : Word) : State :=
  if v.getLsbD 0 then s.softReset else if v.getLsbD 1 then { s with ovr := false } else s

/-- A host write of a register (R31): operand registers and `CMD` while busy only set `OVR` (R81), `CTRL` is always
accepted, read-only registers ignore it; `none` outside the map (U9). -/
def State.writeReg (s : State) (off v : Word) : Option State :=
  if off.toNat = 0x2C then some (s.writeCtrl v)
  else if off.toNat = 0x20 then some (if s.busy then { s with ovr := true } else s.accept v)
  else if off.toNat ≤ 0x14 ∧ off.toNat % 4 = 0 then some (if s.busy then { s with ovr := true } else s.setOperand off v)
  else if off.toNat ≤ 0x34 ∧ off.toNat % 4 = 0 then some s
  else none

/-! ### The memory port (R66) -/

/-- Base and size of the destination buffer of a command (R79); empty if it has none. -/
def State.destinationOf (s : State) : Instr → Word × Nat
  | .init => (0, 0)
  | .sin => (0, 0)
  | .cos => (0, 0)
  | .magat => (0, 0)
  | .xform _ => (s.dst, 8 * s.cnt.toNat)
  | .xformp _ => (s.dst, 8 * s.cnt.toNat)
  | .mag => (s.dst, 4 * s.cnt.toNat)
  | .sqmag => (s.dst, 4 * s.cnt.toNat)
  | .wlaunch => (0, 0)
  | .lddict => (0, 0)
  | .dist => (0, 0)
  | .classify => (0, 0)
  | .rank => (s.dst, 8 * s.cnt.toNat)
  | .repl => (s.dst, replSize s)
  | .pipe _ => (s.dst, Config.WORK_BYTES)

/-- The destination buffer of the command in `CMDR`; a word that is no command has none. -/
def State.destination (s : State) : Word × Nat :=
  match decode s.cmdr with
  | .error _ => (0, 0)
  | .ok i => s.destinationOf i

/-- What the host reads of a byte is unspecified (R179, U2): a command runs, and it writes the byte, or the host has
written it meanwhile. -/
def State.unsettled (s : State) (a : Nat) : Bool :=
  s.busy && (decide (s.destination.1.toNat ≤ a ∧ a < s.destination.1.toNat + s.destination.2) ||
    s.disturbed.contains a)

/-- The byte the memory port reads: shared storage's (R66), or a free value (assumption log 10). -/
def State.portByte (s : State) (a : Nat) : Byte :=
  if s.unsettled a then Config.disturbedByte s.draws a else s.mem.read a

/-- The word the memory port reads (R46). -/
def State.portWord (s : State) (a : Nat) : Word :=
  wordOfBytes (s.portByte a) (s.portByte (a + 1)) (s.portByte (a + 2)) (s.portByte (a + 3))

/-- The memory port accepts an access of `n` bytes at `a`: inside `MEM`, and aligned to its width (R50, U9). -/
def State.portAccepts (s : State) (a n : Nat) : Bool := decide (a + n ≤ s.memBytes ∧ a % n = 0)

/-- A host write of `MEM`: directly in shared storage (R66); while a command runs, the bytes written become unspecified
(R179; assumption log 10). -/
def State.hostWrite (s : State) (a : Word) (n : Nat) (m : Memory) : Host.Outcome State Fault Refusal :=
  if !s.portAccepts a.toNat n then .refused (.hostMemory a)
  else .next (if s.busy then s.disturb a.toNat n else { s with mem := m })

/-- A host read of `MEM`: the value goes to the host. While a command runs the read uses up a free value. -/
def State.hostRead (s : State) (a : Word) (n : Nat) (v : Word) : Host.Outcome State Fault Refusal :=
  if !s.portAccepts a.toNat n then .refused (.hostMemory a)
  else .next ({ s with hostRd := v }.draw (if s.busy then 1 else 0))

/-- A host register read: no side effect (R23, R51); the value goes to the host. -/
def State.hostReadReg (s : State) (off : Word) : Host.Outcome State Fault Refusal :=
  match s.readReg off with
  | some v => .next { s with hostRd := v }
  | none => .refused (.hostRegister off)

/-- A host register write. -/
def State.hostWriteReg (s : State) (off v : Word) : Host.Outcome State Fault Refusal :=
  match s.writeReg off v with
  | some s' => .next s'
  | none => .refused (.hostRegister off)

end Sys2Proof.Machine
end

