-- ==== Sys2Proof/Machine/Step.lean ====
section
/-! DEFINITION. One step of the machine: the next turn of the schedule, taken by the agent it names (00_scope.md
rule R5). `P` fetches a command word from `CMDR` when it begins a command (30_encoding.md rule R85). -/

namespace Sys2Proof.Machine

/-- The next turn: the first of the state's list, or, where it lists none, a free one (assumption log 5). -/
def State.takeTurn (s : State) : Turn × State :=
  match s.turns with
  | t :: ts => (t, { s with turns := ts })
  | [] => (Config.turn s.clock, { s with clock := s.clock + 1 })

/-- R153: an illegal command word ends at once with `ERR_ILLEGAL`, the word as its detail (R78, R85). -/
def illegalCommand (s : State) : State := s.beginCommand.raise .illegal s.cmdr

/-- One step of the producer, by its sequencer state (R24, R132). Idle, it takes none. -/
def producerStep (s : State) : Host.Outcome State Fault Refusal :=
  match s.pstage with
  | .idle => .next s
  | .begin =>
    match decode s.cmdr with
    | .ok i => exec i s
    | .error _ => .next (illegalCommand s)
  | .pub i => .next (pubStep i s)
  | .fence => .next (fenceStep s)
  | .trig => .next (trigStep s)
  | .own b => ownStep b s
  | .waitFence => .next (waitFenceStep s)
  | .waitRead => .next (waitReadStep s)
  | .fin => .next (finStep s)
  | .finEnd => .next (finEndStep s)
  | .tail => .next (pipeTail s)

/-- A turn taken. -/
def takeStep (t : Turn) (s : State) : Host.Outcome State Fault Refusal :=
  match t with
  | .regWrite off v => s.hostWriteReg off v
  | .regRead off => s.hostReadReg off
  | .memWrite8 a v => s.hostWrite a 1 (s.mem.write a.toNat v)
  | .memWrite32 a v => s.hostWrite a 4 (s.mem.writeWord a.toNat v)
  | .memRead8 a => s.hostRead a 1 ((s.portByte a.toNat).setWidth 32)
  | .memRead32 a => s.hostRead a 4 (s.portWord a.toNat)
  | .hardReset contents => .next (s.hardReset contents)
  | .p keeps => producerStep { s with keeps := keeps }
  | .w keeps => workerStep { s with keeps := keeps }
  | .drain c n => .next (s.drain c n)
  | .evict c l => .next (s.evict c l)

/-- One step of the machine. -/
def step (s : State) : Host.Outcome State Fault Refusal := takeStep s.takeTurn.1 s.takeTurn.2

/-- The state with a command word accepted (R81) and `P`'s turn next: `P` fetches from `CMDR` when it begins a
command, so the next step decodes and runs exactly this word. -/
def State.withFetchWord (s : State) (nbits w : Nat) : State :=
  { s.accept (BitVec.ofNat 32 (w % 2 ^ nbits)) with turns := .p [] :: s.turns }

end Sys2Proof.Machine
end

