-- ==== Sys2Proof/Machine/Script.lean ====
section
/-! DEFINITION. The notation for host programs (30_encoding.md rules R83 and R84) as turns of the host, and the sample
pattern of a byte value (45_pipeline.md rule R148). -/

namespace Sys2Proof.Machine

/-- The names of the host register map, in the order of their offsets (10_state.md rule R31). -/
inductive HostReg where
  | src
  | len
  | cnt
  | dst
  | aux
  | farg
  | resi
  | resf
  | cmd
  | status
  | errinfo
  | ctrl
  | id
  | config
deriving DecidableEq, Repr

/-- The byte offset of a register (R31). -/
def HostReg.offset : HostReg → Word
  | .src => 0x00
  | .len => 0x04
  | .cnt => 0x08
  | .dst => 0x0C
  | .aux => 0x10
  | .farg => 0x14
  | .resi => 0x18
  | .resf => 0x1C
  | .cmd => 0x20
  | .status => 0x24
  | .errinfo => 0x28
  | .ctrl => 0x2C
  | .id => 0x30
  | .config => 0x34

/-- The statements of the notation (R83). -/
inductive HostStmt where
  | wr (r : HostReg) (v : Word)
  | rd (r : HostReg)
  | cmd (i : Instr)
  | wait
  | mw8 (a : Word) (bs : List Byte)
  | mw32 (a : Word) (ws : List Word)
  | mr8 (a : Word) (n : Nat)
  | mr32 (a : Word) (n : Nat)
  | rst
deriving DecidableEq, Repr

/-- The host's bus operations for a statement, in order (R83). `wait` is one read of `STATUS`; the host repeats it until
`DONE` reads 1. Where `mw8`, `mw32`, `mr8` or `mr32` runs past address `0xFFFFFFFF` the address goes on at 0: DESIGN CHOICE,
assumption log 23. -/
def HostStmt.turns : HostStmt → List Turn
  | .wr r v => [.regWrite r.offset v]
  | .rd r => [.regRead r.offset]
  | .cmd i => [.regWrite HostReg.cmd.offset (encode i)]
  | .wait => [.regRead HostReg.status.offset]
  | .mw8 a bs => bs.mapIdx (fun k b => .memWrite8 (a + BitVec.ofNat 32 k) b)
  | .mw32 a ws => ws.mapIdx (fun k w => .memWrite32 (a + BitVec.ofNat 32 (4 * k)) w)
  | .mr8 a n => (List.range n).map (fun k => .memRead8 (a + BitVec.ofNat 32 k))
  | .mr32 a n => (List.range n).map (fun k => .memRead32 (a + BitVec.ofNat 32 (4 * k)))
  | .rst => [.regWrite HostReg.ctrl.offset 1]

/-- `run MNEMONIC` (R84). -/
def scriptRun (i : Instr) : List HostStmt := [.cmd i, .wait]

/-- `expect REG = value` reads the register; the value is for the reader (R84). -/
def scriptExpect (r : HostReg) : List HostStmt := [.rd r]

/-- `sin x` (R84). -/
def scriptSin (x : Word) : List HostStmt := .wr .farg x :: scriptRun .sin

/-- `cos x` (R84). -/
def scriptCos (x : Word) : List HostStmt := .wr .farg x :: scriptRun .cos

/-- The four operand writes that `xform` and `xformp` begin with (R84). -/
def scriptBuffers (sig n k out : Word) : List HostStmt := [.wr .src sig, .wr .len n, .wr .cnt k, .wr .dst out]

/-- `xform g, sig, n, k, out` (R84). -/
def scriptXform (g : Grid) (sig n k out : Word) : List HostStmt := scriptBuffers sig n k out ++ scriptRun (.xform g)

/-- `xformp g, sig, n, k, out` (R84). -/
def scriptXformp (g : Grid) (sig n k out : Word) : List HostStmt := scriptBuffers sig n k out ++ scriptRun (.xformp g)

/-- The eight samples of a byte value, the most significant bit first in time (R148). -/
def patternOf (v : Byte) : List Byte := (List.range 8).map (fun j => (v >>> (7 - j)) &&& 1)

end Sys2Proof.Machine
end

