-- ==== Sys2Proof/Safety.lean ====
section
/-! DEFINITION. What claims about the machine are said in terms of: what a command that ended leaves alone, the
transforms as functions of the samples, the invariants every step keeps, and runs under a schedule. -/

namespace Sys2Proof.Machine

/-! ### When a command ends, and what its end leaves alone -/

/-- A buffer of `n` bytes at `b` lies in memory (R49). -/
abbrev State.holds (s : State) (b : Word) (n : Nat) : Prop := n = 0 ∨ b.toNat + n ≤ s.memBytes

/-- The error found at command begin, with its detail word: the first that applies, in the order of R159 and by the
matrix of R164 (causes and details: R150 to R156). `none` if every check passes. -/
def State.beginError (s : State) : Instr → Option (Code × Word)
  | .init => if s.initd then some (.state, 1) else none
  | .sin => if s.initd then none else some (.state, 0)
  | .cos => if s.initd then none else some (.state, 0)
  | .magat =>
    if ¬ s.initd then some (.state, 0) else if ¬ s.holds s.src s.len.toNat then some (.addr, s.src) else none
  | .xform _ | .xformp _ =>
    if ¬ s.initd then some (.state, 0) else if s.dst.toNat % 4 ≠ 0 then some (.align, s.dst)
    else if ¬ s.holds s.src s.len.toNat then some (.addr, s.src)
    else if ¬ s.holds s.dst (8 * s.cnt.toNat) then some (.alloc, s.dst) else none
  | .mag | .sqmag =>
    if s.src.toNat % 4 ≠ 0 then some (.align, s.src) else if s.dst.toNat % 4 ≠ 0 then some (.align, s.dst)
    else if ¬ s.holds s.src (8 * s.cnt.toNat) then some (.addr, s.src)
    else if ¬ s.holds s.dst (4 * s.cnt.toNat) then some (.alloc, s.dst) else none
  | .wlaunch => if s.wrun then some (.state, 1) else none
  | .lddict =>
    if s.dictv then some (.state, 1) else if s.src.toNat % 4 ≠ 0 then some (.align, s.src)
    else if ¬ s.holds s.src 41984 then some (.addr, s.src) else none
  | .dist =>
    if s.src.toNat % 4 ≠ 0 then some (.align, s.src) else if s.aux.toNat % 4 ≠ 0 then some (.align, s.aux)
    else if ¬ s.holds s.src 164 then some (.addr, s.src) else if ¬ s.holds s.aux 164 then some (.addr, s.aux)
    else none
  | .classify =>
    if ¬ s.dictv then some (.state, 0) else if s.len ≠ 41 then some (.usage, s.len)
    else if s.src.toNat % 4 ≠ 0 then some (.align, s.src) else if ¬ s.holds s.src 164 then some (.addr, s.src)
    else none
  | .rank =>
    if ¬ s.dictv then some (.state, 0) else if s.len ≠ 41 then some (.usage, s.len)
    else if 256 < s.cnt.toNat then some (.usage, s.cnt) else if s.src.toNat % 4 ≠ 0 then some (.align, s.src)
    else if s.dst.toNat % 4 ≠ 0 then some (.align, s.dst) else if ¬ s.holds s.src 164 then some (.addr, s.src)
    else if ¬ s.holds s.dst (8 * s.cnt.toNat) then some (.alloc, s.dst) else none
  | .repl =>
    if ¬ s.holds s.src s.len.toNat then some (.addr, s.src)
    else if 2 ^ 32 ≤ s.len.toNat * s.cnt.toNat ∨ ¬ s.holds s.dst (s.len.toNat * s.cnt.toNat) then
      some (.alloc, s.dst)
    else none
  | .pipe _ =>
    if ¬ (s.initd ∧ s.dictv) then some (.state, 0) else if s.len ≠ 8 then some (.usage, s.len)
    else if s.dst.toNat % 4 ≠ 0 then some (.align, s.dst) else if ¬ s.holds s.src 8 then some (.addr, s.src)
    else if ¬ s.holds s.dst 572 then some (.alloc, s.dst) else none

/-- `s` with what every command that ends with code 0 changes (R86), the status fields, and what no host sees: the
store buffer and copies of `P` and the model's own counters, which are as `t` has them; the record of host writes while
the command ran is empty. -/
def State.endedAs (s t : State) : State :=
  { s with
    busy := false, done := true, code := .ok, pstage := .idle, pview := t.pview, keeps := t.keeps,
    draws := t.draws, disturbed := [] }

/-- `s` with what an error end changes (R160): the status fields and `ERRINFO`; and the copies of `P`, emptied at
command begin (R85), and the record of host writes it ends. `n` is the number of free values drawn by then. -/
def State.failedAs (s : State) (e : Code) (info : Word) (n : Nat) : State :=
  { s with
    busy := false, done := true, code := e, errinfo := info, pstage := .idle,
    pview := { s.pview with mcopies := [], jcopies := JobSlot.fill none }, draws := n, disturbed := [] }

/-- What a command that begins relies on: `P` has nothing pending (an invariant, `ProducerDrained`), and the host has
written no byte of `MEM` since the command was accepted (R179). -/
abbrev State.Ready (s : State) : Prop := s.pview.sb = [] ∧ s.disturbed = []

/-- Every byte of shared storage outside `size` bytes at `base` is the same. -/
def SameOutside (s t : State) (base size : Nat) : Prop :=
  ∀ a, (a < base ∨ base + size ≤ a) → t.mem.read a = s.mem.read a

/-- Two buffers have no byte in common: one of them is empty, or one ends before the other begins. -/
abbrev Disjoint (a m b n : Nat) : Prop := m = 0 ∨ n = 0 ∨ a + m ≤ b ∨ b + n ≤ a

/-- Base and size of each buffer a command reads (R79); the work area of `PIPE`, which it writes first, is not one. -/
def State.sourcesOf (s : State) : Instr → List (Word × Nat)
  | .init | .sin | .cos | .wlaunch => []
  | .magat | .xform _ | .xformp _ | .repl => [(s.src, s.len.toNat)]
  | .mag | .sqmag => [(s.src, 8 * s.cnt.toNat)]
  | .lddict => [(s.src, 41984)]
  | .dist => [(s.src, 164), (s.aux, 164)]
  | .classify | .rank => [(s.src, 164)]
  | .pipe _ => [(s.src, 8)]

/-! ### The lookup, in the words of R91 and R92 -/

/-- `LOOKUP(T, a)` for `INTERP = 1`: three roundings, difference, product, sum; draws numbered as the model numbers
them. -/
def interpolated (n : Nat) (T : Vector Word Config.L) (a : Word) : Word :=
  let t := ftrunc (fmul n a SCALE)
  let T0 := T.toList.getD (t % 1024).toNat 0
  let T1 := T.toList.getD ((t + 1) % 1024).toNat 0
  fadd (n + 4) T0 (fmul (n + 3) (fsub (n + 1) (fmul n a SCALE) (cvtInt t)) (fsub (n + 2) T1 T0))

/-- An angle the lookup has an index for: the magnitude of its pattern is at most `0x7BC90FDA` (R94). -/
abbrev Indexable (a : Word) : Prop := a.toNat % 2 ^ 31 ≤ 0x7BC90FDA

/-! ### Rounding, in the words of R10 -/

/-- Where binary32 overflows, in units of `2^-149`: half a last place above the largest finite value (R10, R11). -/
def OVERFLOW : Nat := (2 ^ 25 - 1) * 2 ^ 252

/-- `w` is the binary32 nearest `num / den` units of `2^-149`, ties to the even significand; or the infinity of its sign
where that is beyond the largest finite value by half a last place or more (R10, R11). -/
def IsRounded (num : Int) (den : Nat) (w : Word) : Prop :=
  (f32IsFinite w = true ∧ num.natAbs < OVERFLOW * den ∧
    ∀ p, f32IsFinite p = true →
      (num - f32Val w * den).natAbs ≤ (num - f32Val p * den).natAbs ∧
      ((num - f32Val w * den).natAbs = (num - f32Val p * den).natAbs → f32Val p ≠ f32Val w → w.toNat % 2 = 0)) ∨
  (f32IsInf w = true ∧ OVERFLOW * den ≤ num.natAbs ∧ (f32Sign w = true ↔ num < 0))

/-- `w` is the binary32 nearest the square root of `x` square units of `2^-149`, ties to even (R10): the midpoint of `w`
and any other value lies on the other side of the root. -/
def IsRootRounded (x : Nat) (w : Word) : Prop :=
  f32IsFinite w = true ∧ f32Sign w = false ∧
    ∀ p, f32IsFinite p = true → f32Sign p = false →
      (f32Mag w < f32Mag p → 4 * x ≤ (f32Mag w + f32Mag p) ^ 2) ∧
      (f32Mag p < f32Mag w → (f32Mag w + f32Mag p) ^ 2 ≤ 4 * x) ∧
      (f32Mag p ≠ f32Mag w → (f32Mag w + f32Mag p) ^ 2 = 4 * x → w.toNat % 2 = 0)

/-! ### Transforms as functions (R101, R103, R104) -/

/-- The kernel over samples given as a function: `m` samples from `NIDX` on, draws numbered from `n`. -/
def kernel (n : Nat) (sintab costab : Vector Word Config.L) (x : Nat → Byte) : Nat → Datapath → Option Datapath
  | 0, r => some r
  | m + 1, r =>
    match accumulate n sintab costab (x r.nidx.toNat) r with
    | some r' => kernel (n + SAMPLE_DRAWS) sintab costab x m r'
    | none => none

/-- One bin of `N` samples at frequency `w`: its real and imaginary part (R101). -/
def dtftBin (n : Nat) (sintab costab : Vector Word Config.L) (x : Nat → Byte) (N : Nat) (w : Word) :
    Option (Word × Word) :=
  (kernel n sintab costab x N (binStart w Datapath.reset)).map (fun r => (r.re, r.im))

/-- Word `41*v + k` of the dictionary image that makes every self-match exact (R149): the squared magnitude of bin `k` of
the pattern of `v` ten times over. -/
def imageWord (v : Byte) (k : Nat) : Option Word :=
  (dtftBin 0 sinTable cosTable (fun i => (patternOf v).getD (i % Config.PLEN) 0) Config.NS
    (omegaOf 0 .half (wordOf k) (wordOf Config.KC))).map (fun b => sqmagOf 0 b.1 b.2)

/-- The bytes of a memory as a function. -/
abbrev Bytes := Nat → Byte

/-- The word at an address (R46). -/
def Bytes.word (x : Bytes) (a : Nat) : Word := wordOfBytes (x a) (x (a + 1)) (x (a + 2)) (x (a + 3))

/-- One byte replaced. -/
def Bytes.putByte (x : Bytes) (a : Nat) (b : Byte) : Bytes := fun c => if c = a then b else x c

/-- One word replaced (R46). -/
def Bytes.putWord (x : Bytes) (a : Nat) (w : Word) : Bytes :=
  fun c => if a ≤ c ∧ c < a + 4 then wordByte w (c - a) else x c

/-- Bins `k`, `k + 1`, … (`m` of them) of a `K`-bin transform by grid `g`, of the `N` bytes at `sig`, written from
`out` on, one after another on plain memory (R106); `none` if a lookup has no index. Draws are numbered from `n`. -/
def plainBins (sintab costab : Vector Word Config.L) (g : Grid) (sig N : Nat) (K : Word) (out : Nat) :
    Nat → Nat → Nat → Bytes → Option Bytes
  | _, 0, _, x => some x
  | n, m + 1, k, x =>
    match dtftBin (n + OMEGA_DRAWS) sintab costab (fun i => x (sig + i)) N (omegaOf n g (wordOf k) K) with
    | some b =>
      plainBins sintab costab g sig N K out (n + OMEGA_DRAWS + SAMPLE_DRAWS * N) m (k + 1)
        ((x.putWord (out + 8 * k) b.1).putWord (out + 8 * k + 4) b.2)
    | none => none

/-- Entries `k`, `k + 1`, … (`m` of them) of a magnitude spectrum by `f`, one after another on plain memory (R108). -/
def plainMags (f : Nat → Word → Word → Word) (src dst : Nat) : Nat → Nat → Nat → Bytes → Bytes
  | _, 0, _, x => x
  | n, m + 1, k, x =>
    plainMags f src dst (n + MAG_DRAWS) m (k + 1)
      (x.putWord (dst + 4 * k) (f n (x.word (src + 8 * k)) (x.word (src + 8 * k + 4))))

/-- `n` bytes copied one by one on plain memory (R145). -/
def plainCopy : Nat → Nat → Nat → Bytes → Bytes
  | _, _, 0, x => x
  | src, dst, n + 1, x => plainCopy (src + 1) (dst + 1) n (x.putByte dst (x src))

/-- `r` copies of `n` bytes, one after another on plain memory (R145). -/
def plainReplicate (src n : Nat) : Nat → Nat → Bytes → Bytes
  | _, 0, x => x
  | dst, r + 1, x => plainReplicate src n (dst + n) r (plainCopy src dst n x)

/-- Rank records one after another on plain memory: the byte value's word, then the distance (R140). -/
def plainRecords : Nat → List (Nat × Word) → Bytes → Bytes
  | _, [], x => x
  | a, r :: rs, x => plainRecords (a + 8) rs ((x.putWord a (wordOf r.1)).putWord (a + 4) r.2)

/-- Every lookup of every bin of the grid has an index, whatever the samples and the tables (R112). -/
def GridIndexable (g : Grid) (K : Word) (N : Nat) : Prop :=
  ∀ (n m : Nat) (sintab costab : Vector Word Config.L) (x : Nat → Byte) (k : Word), k.toNat < K.toNat →
    (dtftBin n sintab costab x N (omegaOf m g k K)).isSome = true

/-- No NaN and no infinity arises in a transform of at most `N` samples by grid `g` with `K` points: after every
sample of every bin, `OMEGA`, `ANGLE`, `RE` and `IM` are finite (R11, R112). -/
def State.GridFinite (s : State) (g : Grid) (K : Word) (N : Nat) : Prop :=
  ∀ (n m : Nat) (x : Nat → Byte) (k : Word), k.toNat < K.toNat → m ≤ N →
    ∃ r, kernel n s.sintab s.costab x m (binStart (omegaOf n g k K) Datapath.reset) = some r ∧
      f32IsFinite r.omega = true ∧ f32IsFinite r.angle = true ∧ f32IsFinite r.re = true ∧ f32IsFinite r.im = true

/-- The words of a spectrum of `n` entries in shared storage (R54). -/
def Memory.words (m : Memory) (a n : Nat) : List Word := (List.range n).map (fun i => m.readWord (a + 4 * i))

/-- `DISTF` of a spectrum to entry `v` of a dictionary (R136, R138), draws numbered from `n`. -/
def distanceTo (n : Nat) (spec : List Word) (dict : Vector (Vector Word Config.KC) Config.NDICT) (v : Fin 256) :
    Word :=
  distF (n + DIST_DRAWS * v) spec (dict.get v).toList

/-- What `BEST` and `BESTD` are for distances `d` (R138): the least distance and the lowest byte value that has it; or,
if no distance is below `+Inf`, byte 0 and `+Inf`. -/
def IsNearest (d : Fin 256 → Word) (best bestd : Word) : Prop :=
  (∃ v : Fin 256, best = wordOf v ∧ bestd = d v ∧ flt (d v) POS_INF = true ∧
    (∀ u, flt (d u) (d v) = false) ∧ ∀ u, u < v → feq (d u) (d v) = false) ∨
  ((∀ u, flt (d u) POS_INF = false) ∧ best = 0 ∧ bestd = POS_INF)

/-! ### Invariants -/

/-- `BUSY` and `DONE` are never both 1, `BUSY` is 1 exactly outside `P_IDLE`, `CODE` is 0 while `BUSY`, `WRUN` is 1
exactly outside `W_OFF` (R24, R26, R35), and no byte of `MEM` is unspecified on account of a host write but while `BUSY`
(R179). -/
def State.StatusCoherent (s : State) : Prop :=
  (s.busy = true → s.done = false) ∧ (s.busy = true ↔ s.pstage ≠ .idle) ∧ (s.busy = true → s.code = .ok) ∧
    (s.wrun = true ↔ s.wstage ≠ .off) ∧ (s.busy = false → s.disturbed = [])

/-- Word numbers strictly rise. -/
def risingCopies (cs : List (Nat × Word)) : Prop := cs.Pairwise (fun c d => c.1 < d.1)

/-- `MEM` and both copy sets are in canonical form. -/
def State.Canonical (s : State) : Prop :=
  s.mem.wf = true ∧ risingCopies s.pview.mcopies ∧ risingCopies s.wview.mcopies

/-- Once `INITD` is set, the tables hold the values of R90 (R32). -/
def State.TablesFilled (s : State) : Prop := s.initd = true → s.sintab = sinTable ∧ s.costab = cosTable

/-- Between commands nothing of `P` is pending: every command ends with `FENCE_REL(P)` or has written nothing (R86,
R160). -/
def State.ProducerDrained (s : State) : Prop := s.pstage = .idle ∨ s.pstage = .begin → s.pview.sb = []

/-- A pending write lies inside `n` bytes of memory. -/
def Pending.within (n : Nat) : Pending → Prop
  | .byte a _ => a < n
  | .word a _ => a + 4 ≤ n
  | .job _ _ => True

/-- Nothing lies outside `MEM`: no listed byte, no pending write, no byte the host wrote, and not the work area of a `PIPE` that is under way
(R49, R147). -/
def State.InsideMemory (s : State) : Prop :=
  (∀ c ∈ s.mem.cells, c.1 < s.memBytes) ∧ (∀ e ∈ s.pview.sb, e.within s.memBytes) ∧
    (∀ e ∈ s.wview.sb, e.within s.memBytes) ∧
    (∀ a ∈ s.disturbed, a < s.memBytes) ∧
    (s.pstage = .tail ∨ (s.pcmd = .pipe ∧ s.pstage ≠ .idle ∧ s.pstage ≠ .begin) →
      s.dst.toNat + Config.WORK_BYTES ≤ s.memBytes)

/-! ### Runs -/

/-- `m` steps of core `c` through the bins `[KIDX_c, kEnd)` of a job, from position `b` (R88, R120, R125). -/
def State.binSteps (c : CoreId) (j : Job) (kEnd : Word) : Nat → BinPos → State → BinStep
  | 0, b, s => .at b s
  | m + 1, b, s =>
    match s.binStep c j kEnd b with
    | .at b' s' => State.binSteps c j kEnd m b' s'
    | .done s' => .done s'
    | .stuck a => .stuck a
    | .outside a => .outside a

end Sys2Proof.Machine

namespace Sys2Proof

/-- A turn resets the block: the reset input, or a host write of `CTRL` with `SRST` set (R175). -/
def Turn.resets : Turn → Prop
  | .hardReset _ => True
  | .regWrite off v => off = 0x2C ∧ v.getLsbD 0 = true
  | .regRead _ => False
  | .memWrite8 _ _ => False
  | .memWrite32 _ _ => False
  | .memRead8 _ => False
  | .memRead32 _ => False
  | .p _ => False
  | .w _ => False
  | .drain _ _ => False
  | .evict _ _ => False

/-- A turn of `P`, `W` or `MSYS`: the host does nothing and no reset comes. -/
def Turn.internal : Turn → Prop
  | .p _ => True
  | .w _ => True
  | .drain _ _ => True
  | .evict _ _ => True
  | .regWrite _ _ => False
  | .regRead _ => False
  | .memWrite8 _ _ => False
  | .memWrite32 _ _ => False
  | .memRead8 _ => False
  | .memRead32 _ => False
  | .hardReset _ => False

/-- A turn is core `c`'s step, whatever copies it is to leave. -/
def Turn.isOf (τ : Turn) : CoreId → Prop
  | .p => ∃ keeps, τ = .p keeps
  | .w => ∃ keeps, τ = .w keeps

end Sys2Proof

namespace Sys2Proof.Machine

/-- The machine after exactly the turns of a list. -/
def State.runTurns (s : State) (ts : List Turn) : Host.Outcome State Fault Refusal :=
  Host.Core.run Sys2Proof.core ts.length { s with turns := ts }

/-- A launched worker as it can be when a command begins: it has run no job or finished the last one (R116, R128, R190).
It is about to clear signal-present, or it polls with that clear still pending, or it polls and signal-present is 0 in
shared storage. Whether the last clear has drained, which is what `A-CLR` asks (R133), is left open. -/
def State.WorkerReady (s : State) : Prop :=
  s.wrun = true ∧
    ((s.wstage = .clear ∧ s.wview.sb = []) ∨
      ((s.wstage = .pollFence ∨ (s.wstage = .pollRead ∧ s.wview.mcopies = [] ∧ s.wview.jcopies = JobSlot.fill none)) ∧
        (s.wview.sb = [.job .sigp 0] ∨ (s.wview.sb = [] ∧ s.job.sigp = 0))))

/-! ### Infinite executions (R70) -/

/-- A core has a step to take: `P` outside `P_IDLE`, `W` outside `W_OFF` (R132). -/
def State.enabled (s : State) : CoreId → Prop
  | .p => s.pstage ≠ .idle
  | .w => s.wstage ≠ .off

/-- The machine takes the turns `σ 0`, `σ 1`, … without end, and `x n` is its state after `n` of them. -/
def IsExecution (x : Nat → State) (σ : Nat → Turn) : Prop := ∀ n, (x n).runTurns [σ n] = .next (x (n + 1))

/-- R70, the cores: one that has a step to take eventually takes one. -/
def CoresAreFair (x : Nat → State) (σ : Nat → Turn) : Prop :=
  ∀ (c : CoreId) (n : Nat), (x n).enabled c → ∃ m, n ≤ m ∧ (σ m).isOf c

/-- R70, the store buffers: no entry stays for ever. At every time the oldest entry of a buffer is eventually drained or
the buffer is eventually found empty (flushed by a release fence); every entry becomes the oldest in its turn. -/
def BuffersAreFair (x : Nat → State) (σ : Nat → Turn) : Prop :=
  ∀ (c : CoreId) (n : Nat), ∃ m, n ≤ m ∧ (σ m = .drain c 0 ∨ ((x m).view c).sb = [])

/-- R70: the two fairness assumptions. -/
def IsFair (x : Nat → State) (σ : Nat → Turn) : Prop := CoresAreFair x σ ∧ BuffersAreFair x σ

/-- `A-CLR` as R133 states it for a model: `P` takes the step of R119 only when `SB_W` holds no write to `J_SIGP` and
`WSTATE` is `W_POLL`. -/
def ClearBeforeTrigger (x : Nat → State) (σ : Nat → Turn) : Prop :=
  ∀ n, (x n).pstage = .trig → (σ n).isOf .p →
    (x n).wstage.number = 1 ∧ ∀ v, Pending.job .sigp v ∉ (x n).wview.sb

end Sys2Proof.Machine
end

