-- ==== Sys2Proof/Certificates/Slice0/Obligations.lean ====
section
/-! DEFINITION. The statements for the provers, from the numbered rules of spec/. A premise `s.Ready` says that `P` has
nothing pending when a command begins (an invariant of its own, in `StatusCoherentKept`) and that the host kept R179 since
the command was accepted; what a command does where the host did not is in `EveryCommandAnswers`. `s.mem.wf = true` says
that memory is in canonical form (`CanonicalKept`). Where a next state leaves a private register (R34, R35) as it was, that
is the model's choice (U7; log 24), no rule's. -/

open Sys2Proof Sys2Proof.Machine

/-! ### Encoding -/

/-- R75 to R78, R82: every command has one word, that word is well formed and decodes to it, and no other word does. -/
def Obligations.DecodeEncodeAgree : Prop :=
  ∀ i : Instr, (cwOfWord (encode i)).WellFormed ∧ decode (encode i) = .ok i ∧ ∀ w, decode w = .ok i → w = encode i

/-- R77, R78: of the 2^32 words exactly the eighteen listed are legal, and legality is the three checks on the fields. -/
def Obligations.LegalWordsAreExactly : Prop :=
  ∀ w : Word, ((∃ i, decode w = .ok i) ↔ w ∈ legalWords) ∧ ((cwOfWord w).WellFormed ↔ w ∈ legalWords)

/-- Words written out from the tables of R75 and R76 decode to the commands they stand for. -/
def Obligations.WrittenWordsDecode : Prop :=
  decode 0x00000001 = .ok .init ∧ decode 0x00000010 = .ok .magat ∧ decode 0x00000111 = .ok (.xform .half) ∧
    decode 0x00000012 = .ok (.xformp .full) ∧ decode 0x00000020 = .ok .wlaunch ∧ decode 0x00000033 = .ok .rank ∧
    decode 0x00000241 = .ok (.pipe .parallel) ∧ decode 0x00000141 = .error .flag ∧ decode 0 = .error .opcode ∧
    decode 0x00000401 = .error .reserved

/-! ### One step, and the life of a command -/

/-- R85: where a command word is accepted and `P` moves next, the step is the meaning of the decoded command; the step
takes the turn off the schedule and gives `P` that turn's copy choices. -/
def Obligations.StepRunsDecoded : Prop :=
  ∀ (s : State) (ks : List Bool) (ts : List Turn) (i : Instr),
    s.turns = .p ks :: ts → s.pstage = .begin → decode s.cmdr = .ok i →
    step s = exec i { s with turns := ts, keeps := ks }

/-- R153: a word that is none of the eighteen ends with `ERR_ILLEGAL`, the word in `ERRINFO`, and no other effect. -/
def Obligations.IllegalWordEnds : Prop :=
  ∀ (s : State) (ks : List Bool) (ts : List Turn),
    s.turns = .p ks :: ts → s.pstage = .begin → s.cmdr ∉ legalWords →
    step s = .next ({ s with turns := ts, keeps := ks }.failedAs .illegal s.cmdr s.draws)

/-- R81: a write of `CMD` while idle is accepted; while busy it, and a write of an operand register, only set `OVR`. -/
def Obligations.CommandIssue : Prop :=
  ∀ (s : State) (off v : Word) (ts : List Turn), s.turns = .regWrite off v :: ts →
    (off = 0x20 → s.busy = false →
      step s = .next { s with
        turns := ts, cmdr := v, busy := true, done := false, code := .ok, pstage := .begin }) ∧
    ((off = 0x20 ∨ off ∈ [0x00, 0x04, 0x08, 0x0C, 0x10, 0x14]) → s.busy = true →
      step s = .next { s with turns := ts, ovr := true })

/-- R21, R28, R31, U9: an idle block takes a write of each operand register; `CTRL` resets or clears `OVR` whatever
`BUSY` is; a write of a read-only register is ignored, and one outside the map refused. -/
def Obligations.RegisterWrites : Prop :=
  ∀ (s : State) (off v : Word) (ts : List Turn), s.turns = .regWrite off v :: ts →
    (s.busy = false →
      (off = 0x00 → step s = .next { s with turns := ts, src := v }) ∧
      (off = 0x04 → step s = .next { s with turns := ts, len := v }) ∧
      (off = 0x08 → step s = .next { s with turns := ts, cnt := v }) ∧
      (off = 0x0C → step s = .next { s with turns := ts, dst := v }) ∧
      (off = 0x10 → step s = .next { s with turns := ts, aux := v }) ∧
      (off = 0x14 → step s = .next { s with turns := ts, farg := v })) ∧
    (off = 0x2C → step s = .next
      (if v.getLsbD 0 then { s with turns := ts }.softReset
       else if v.getLsbD 1 then { s with turns := ts, ovr := false } else { s with turns := ts })) ∧
    (off ∈ [0x18, 0x1C, 0x24, 0x28, 0x30, 0x34] → step s = .next { s with turns := ts }) ∧
    (0x38 ≤ off.toNat ∨ off.toNat % 4 ≠ 0 → step s = .refused (.hostRegister off))

/-- R23, R31, R51: a register read returns the register and changes nothing else, whether or not a command runs. -/
def Obligations.RegisterReads : Prop :=
  ∀ (s : State) (off v : Word) (ts : List Turn), s.turns = .regRead off :: ts →
    ((off, v) ∈ [(0x00, s.src), (0x04, s.len), (0x08, s.cnt), (0x0C, s.dst), (0x10, s.aux), (0x14, s.farg),
        (0x18, s.resi), (0x1C, s.resf), (0x20, s.cmdr), (0x24, s.status), (0x28, s.errinfo), (0x2C, 0),
        (0x30, 0x44544654), (0x34, 0x0A08292A)] →
      step s = .next { s with turns := ts, hostRd := v }) ∧
    (0x38 ≤ off.toNat ∨ off.toNat % 4 ≠ 0 → step s = .refused (.hostRegister off))

/-- R24, R26, R150: the fields of `STATUS`, and its reserved bits read as 0; the numbers of `CODE`, `PSTATE` and `WSTATE`. -/
def Obligations.StatusFields : Prop :=
  (∀ s : State, s.status.getLsbD 0 = s.busy ∧ s.status.getLsbD 1 = s.done ∧ s.status.getLsbD 2 = s.ovr ∧
    s.status.getLsbD 3 = s.initd ∧ s.status.getLsbD 4 = s.dictv ∧ s.status.getLsbD 5 = s.wrun ∧
    s.status.extractLsb' 6 2 = 0 ∧ s.status.extractLsb' 8 4 = s.code.number ∧ s.status.extractLsb' 12 4 = 0 ∧
    s.status.extractLsb' 16 4 = s.pstage.number ∧ s.status.extractLsb' 20 4 = s.wstage.number ∧
    s.status.extractLsb' 24 8 = 0) ∧
  [Code.ok, .alloc, .usage, .illegal, .state, .addr, .align, .num].map Code.number = [0, 1, 2, 3, 4, 5, 6, 7] ∧
  [PStage.idle, .begin, .tail, .fence, .trig, .waitFence, .waitRead, .fin, .finEnd].map PStage.number =
    [0, 1, 1, 3, 4, 6, 6, 7, 7] ∧
  (∀ i, (PStage.pub i).number = 2) ∧ (∀ b, (PStage.own b).number = 5) ∧
  [WStage.off, .pollFence, .pollRead, .rel, .setDone, .clear].map WStage.number = [0, 1, 1, 4, 5, 6] ∧
  (∀ i, (WStage.load i).number = 2) ∧ ∀ b, (WStage.run b).number = 3

/-- R39, R175, R177: either reset leaves every register and flag 0, `P` idle, `W` off, the slot 0, both buffers and both
copy sets empty. -/
def Obligations.ResetClears : Prop :=
  ∀ (s t : State), (t = s.softReset ∨ ∃ contents, t = s.hardReset contents) →
    t.src = 0 ∧ t.len = 0 ∧ t.cnt = 0 ∧ t.dst = 0 ∧ t.aux = 0 ∧ t.farg = 0 ∧ t.resi = 0 ∧ t.resf = 0 ∧ t.cmdr = 0 ∧
      t.errinfo = 0 ∧ t.status = 0 ∧ t.busy = false ∧ t.done = false ∧ t.ovr = false ∧ t.initd = false ∧
      t.dictv = false ∧ t.wrun = false ∧ t.pstage = .idle ∧ t.wstage = .off ∧ t.job = JobSlot.fill 0 ∧
      t.pview = View.empty ∧ t.wview = View.empty ∧ t.memTop = s.memTop

/-- R175, R176, U3: a soft reset leaves shared storage as it is unless it abandons a command in `P_EXEC`; then each byte is
the old one or the one the command would have left, and no byte changes outside the command's destination (for the rest
of a parallel `PIPE`, whose work area lies in memory, `InsideMemory`: that area, or where `P` has a write pending). Bytes the host wrote against R179 are left out. -/
def Obligations.SoftResetMemory : Prop :=
  ∀ s : State, s.mem.wf = true →
    ((s.pstage = .begin → ∃ e, decode s.cmdr = .error e) → s.pstage ≠ .tail →
      (s.disturbed = [] → s.softReset.mem = s.mem) ∧
      ∀ a, a ∉ s.disturbed → s.softReset.mem.read a = s.mem.read a) ∧
    (∀ i t, s.pstage = .begin → s.pview.sb = [] → decode s.cmdr = .ok i → exec i s = .next t →
      ∀ a, a ∉ s.disturbed →
        ((a < s.destination.1.toNat ∨ s.destination.1.toNat + s.destination.2 ≤ a) →
          s.softReset.mem.read a = s.mem.read a) ∧
        (s.softReset.mem.read a = s.mem.read a ∨ s.softReset.mem.read a = (t.fenceRel .p).mem.read a)) ∧
    ∀ t, s.pstage = .tail → s.dst.toNat + 572 ≤ s.memBytes → producerStep s = .next t → ∀ a, a ∉ s.disturbed →
      ((a < s.dst.toNat ∨ s.dst.toNat + 572 ≤ a) → (∀ e ∈ s.pview.sb, ∀ b, e.overlayByte a b = b) →
        s.softReset.mem.read a = s.mem.read a) ∧
      (s.softReset.mem.read a = s.mem.read a ∨ s.softReset.mem.read a = t.mem.read a)

/-- R66, R46: while no command runs the memory port writes and reads shared storage directly, whatever copies and pending
writes there are. R179, U2: while one runs, a write makes the bytes written unspecified and changes nothing else but the
model's own counters, and a read returns shared storage's bytes but for those in the running command's destination and
those the host has written meanwhile (log 10). Outside memory an access is refused (U9); that a word access that is not
aligned is refused too is the model's choice (log 16). -/
def Obligations.MemoryPort : Prop :=
  ∀ (s : State) (a v : Word) (b : Byte) (ts : List Turn), s.mem.wf = true →
    (s.busy = false → a.toNat + 4 ≤ s.memBytes → a.toNat % 4 = 0 →
      (∃ m, (s.turns = .memWrite32 a v :: ts → step s = .next { s with turns := ts, mem := m }) ∧ m.wf = true ∧
        m.readWord a.toNat = v ∧ ∀ x, (x < a.toNat ∨ a.toNat + 4 ≤ x) → m.read x = s.mem.read x) ∧
      (s.turns = .memRead32 a :: ts → step s = .next { s with turns := ts, hostRd := s.mem.readWord a.toNat })) ∧
    (s.busy = false → a.toNat < s.memBytes →
      (∃ m, (s.turns = .memWrite8 a b :: ts → step s = .next { s with turns := ts, mem := m }) ∧ m.wf = true ∧
        ∀ x, m.read x = if x = a.toNat then b else s.mem.read x) ∧
      (s.turns = .memRead8 a :: ts →
        step s = .next { s with turns := ts, hostRd := (s.mem.read a.toNat).setWidth 32 })) ∧
    (s.busy = true → ∀ (n : Nat) (wr rd : Turn),
      (n, wr, rd) ∈ [(1, .memWrite8 a b, .memRead8 a), (4, .memWrite32 a v, .memRead32 a)] →
      a.toNat + n ≤ s.memBytes → a.toNat % n = 0 →
      (s.turns = wr :: ts → ∃ t, step s = .next t ∧
        t = { s with turns := ts, mem := t.mem, disturbed := t.disturbed, draws := t.draws } ∧ t.mem.wf = true ∧
        (∀ x, x ∈ t.disturbed ↔ x ∈ s.disturbed ∨ (a.toNat ≤ x ∧ x < a.toNat + n)) ∧
        ∀ x, (x < a.toNat ∨ a.toNat + n ≤ x) → t.mem.read x = s.mem.read x) ∧
      (s.turns = rd :: ts → ∃ t, step s = .next t ∧
        t = { s with turns := ts, hostRd := t.hostRd, draws := t.draws } ∧ t.hostRd.toNat < 2 ^ (8 * n) ∧
        ∀ i, i < n → a.toNat + i ∉ s.disturbed →
          (a.toNat + i < s.destination.1.toNat ∨ s.destination.1.toNat + s.destination.2 ≤ a.toNat + i) →
          t.hostRd.extractLsb' (8 * i) 8 = s.mem.read (a.toNat + i))) ∧
    (s.memBytes < a.toNat + 4 ∨ a.toNat % 4 ≠ 0 →
      (s.turns = .memWrite32 a v :: ts → step s = .refused (.hostMemory a)) ∧
      (s.turns = .memRead32 a :: ts → step s = .refused (.hostMemory a))) ∧
    (s.memBytes ≤ a.toNat →
      (s.turns = .memWrite8 a b :: ts → step s = .refused (.hostMemory a)) ∧
      (s.turns = .memRead8 a :: ts → step s = .refused (.hostMemory a)))

/-! ### Errors -/

/-- R145, R150 to R156, R159, R160, R164: the first failing check of a command, in the order of R159, ends it in one step
with its code and detail word, and nothing else changes. That a `REPL` product of 2^32 or more fails whatever the size of
memory is the model's reading of R145 (log 9). -/
def Obligations.ErrorsAtBegin : Prop :=
  ∀ (i : Instr) (s : State) (e : Code) (info : Word), s.beginError i = some (e, info) →
    exec i s = .next (s.failedAs e info s.draws)

/-- R94, R157: `SIN` and `COS` of an angle without an index, and `MAGAT` at the first accumulated angle that has none, end
with `ERR_NUM`, that angle in `ERRINFO`, and no other effect but on private registers. That no copy is left is the model's
choice (log 25). -/
def Obligations.NumericErrors : Prop :=
  ∀ s : State,
    (s.initd = true → ¬ Indexable s.farg →
      exec .sin s = .next (s.failedAs .num s.farg s.draws) ∧ exec .cos s = .next (s.failedAs .num s.farg s.draws)) ∧
    (s.beginError .magat = none → s.Ready →
      dtftBin s.draws s.sintab s.costab (fun i => s.mem.read (s.src.toNat + i)) s.len.toNat s.farg = none →
      ∃ m r n p, m < s.len.toNat ∧
        kernel s.draws s.sintab s.costab (fun i => s.mem.read (s.src.toNat + i)) m (binStart s.farg Datapath.reset) =
          some r ∧
        ¬ Indexable r.angle ∧ exec .magat s = .next { s.failedAs .num r.angle n with pregs := p })

/-- R161: whatever the command and wherever `P` is in it, a step that ends it with a non-zero code has had no effect but
on `STATUS` and `ERRINFO` (and the private datapath): no register, table, flag, slot word or byte of memory changes. That no
copy of `P` is left is the model's choice where `MAGAT` ends so at a later sample (log 25). -/
def Obligations.ErrorsArePrecise : Prop :=
  ∀ s t : State, s.code = .ok → producerStep s = .next t → t.code ≠ .ok →
    s.pstage = .begin ∧ t = { s.failedAs t.code t.errinfo t.draws with pregs := t.pregs }

/-- No command is a fault or a refusal: in every state each of the fifteen begins or ends (R80: all inputs are
accepted; R161). R179, U2: what the host wrote while a command ran changes no flag, no completion code, nothing of the
worker and no byte outside the destination and the bytes written; `ERRINFO` is left open like the result registers, since
`MAGAT` may record a NaN angle there, whose sign and payload are numbered by what was drawn before (logs 2 and 10); and it changes nothing at all but those bytes (and the
model's own counters) where they lie outside every buffer of the command. -/
def Obligations.EveryCommandAnswers : Prop :=
  ∀ (i : Instr) (s : State), ∃ t u, exec i s = .next t ∧ exec i { s with disturbed := [] } = .next u ∧
    t = { u with
      resi := t.resi, resf := t.resf, errinfo := t.errinfo, dict := t.dict, pregs := t.pregs, best := t.best,
      bestd := t.bestd, rd := t.rd, pview := t.pview, mem := t.mem, keeps := t.keeps, draws := t.draws,
      disturbed := t.disturbed } ∧
    (s.mem.wf = true → ∀ a, a ∉ s.disturbed →
      (a < (s.destinationOf i).1.toNat ∨ (s.destinationOf i).1.toNat + (s.destinationOf i).2 ≤ a) →
      t.mem.read a = u.mem.read a) ∧
    ((∀ a ∈ s.disturbed, ∀ b ∈ s.destinationOf i :: s.sourcesOf i, a < b.1.toNat ∨ b.1.toNat + b.2 ≤ a) →
      t = { u with mem := t.mem, draws := t.draws, disturbed := t.disturbed } ∧
      (s.mem.wf = true → ∀ a, a ∉ s.disturbed → t.mem.read a = u.mem.read a))

/-! ### TrigLUT -/

/-- R90, R95: `INIT` fills the tables with section 5's first quadrant, folded by R90 (a), (b) and (c), and changes
nothing else (of the private registers: log 24). -/
def Obligations.InitFillsTables : Prop :=
  ∀ s : State, s.initd = false → s.Ready →
    ∃ t, exec .init s = .next t ∧
      t = { s.endedAs t with sintab := t.sintab, costab := t.costab, initd := true } ∧ t.pview.sb = [] ∧
      (∀ i : Fin 1024, i.val ≤ 256 → t.sintab.get i = quadrant.getD i.val 0) ∧
      (∀ i j : Fin 1024, j.val = (i.val + 256) % 1024 → t.costab.get i = t.sintab.get j) ∧
      (∀ i j : Fin 1024, i.val ≤ 256 → i.val + j.val = 512 → t.sintab.get j = t.sintab.get i) ∧
      (∀ i j : Fin 1024, 0 < i.val → j.val = 512 + i.val → t.sintab.get j = fneg (t.sintab.get i)) ∧
      t.sintab.get 0 = 0 ∧ t.sintab.get 512 = 0 ∧ t.costab.get 256 = 0 ∧ t.costab.get 768 = 0 ∧
      t.sintab.get 256 = 0x3F800000 ∧ t.costab.get 0 = 0x3F800000 ∧ t.sintab.get 768 = 0xBF800000 ∧
      t.costab.get 512 = 0xBF800000

/-- R91, R92, R96, R97: on an angle that has an index, `SIN` and `COS` put the interpolated table value in `RESF` and
change nothing else (of the private registers: log 24). -/
def Obligations.SinCosInterpolate : Prop :=
  ∀ s : State, s.initd = true → s.Ready → Indexable s.farg →
    (∃ t, exec .sin s = .next t ∧ t = { s.endedAs t with resf := interpolated s.draws s.sintab s.farg } ∧
      t.pview.sb = []) ∧
    (∃ t, exec .cos s = .next t ∧ t = { s.endedAs t with resf := interpolated s.draws s.costab s.farg } ∧
      t.pview.sb = [])

/-- R94: a lookup has an index exactly for the angles whose pattern magnitude is at most `0x7BC90FDA`: no NaN, no
infinity, nothing beyond; and then it is the interpolated value. -/
def Obligations.LookupRange : Prop :=
  ∀ (n : Nat) (T : Vector Word Config.L) (a : Word),
    lookup n T a = if Indexable a then some (interpolated n T a) else none

/-! ### DTFTEngine -/

/-- R101, R105: `MAGAT` puts the magnitude of the bin of the bytes at `SRC` in `RESF`; memory and `RESI` are unchanged.
With `LEN = 0` the bin is zero whatever `FARG` is. -/
def Obligations.MagatResult : Prop :=
  ∀ s : State, s.beginError .magat = none → s.Ready →
    (∀ b, dtftBin s.draws s.sintab s.costab (fun i => s.mem.read (s.src.toNat + i)) s.len.toNat s.farg = some b →
      ∃ t, exec .magat s = .next t ∧
        t = { s.endedAs t with resf := magOf (s.draws + SAMPLE_DRAWS * s.len.toNat) b.1 b.2, pregs := t.pregs } ∧
        t.pview.sb = []) ∧
    (s.len = 0 → ∃ t, exec .magat s = .next t ∧ t = { s.endedAs t with resf := 0, pregs := t.pregs } ∧
      t.pview.sb = [])

/-- R53, R106, R112: `XFORM` always completes, and leaves exactly the bytes that its bins, computed and written one after another, leave; `RESI` is
`K`; no byte outside the `8*K` bytes at `DST` changes. Where output and signal are disjoint, bin `k` in memory is the
bin of the signal as it was. That the last bin of the half-turn grid follows R104's formula also where that is not `PI_F`
(`K = 12`, `K = 24`) is the model's choice (log 21). -/
def Obligations.XformResult : Prop :=
  ∀ (g : Grid) (s : State), s.beginError (.xform g) = none → s.Ready → s.mem.wf = true →
    ∃ (x : Bytes) (t : State),
      plainBins s.sintab s.costab g s.src.toNat s.len.toNat s.cnt s.dst.toNat s.draws s.cnt.toNat 0 s.mem.read =
        some x ∧
      exec (.xform g) s = .next t ∧
      t = { s.endedAs t with resi := s.cnt, mem := t.mem, pregs := t.pregs } ∧ t.mem.wf = true ∧ t.pview.sb = [] ∧
      (∀ a, t.mem.read a = x a) ∧ SameOutside s t s.dst.toNat (8 * s.cnt.toNat) ∧
      (Disjoint s.src.toNat s.len.toNat s.dst.toNat (8 * s.cnt.toNat) → ∀ k, k < s.cnt.toNat →
        let n := s.draws + (OMEGA_DRAWS + SAMPLE_DRAWS * s.len.toNat) * k
        dtftBin (n + OMEGA_DRAWS) s.sintab s.costab (fun i => s.mem.read (s.src.toNat + i)) s.len.toNat
            (omegaOf n g (wordOf k) s.cnt) =
          some (t.mem.readWord (s.dst.toNat + 8 * k), t.mem.readWord (s.dst.toNat + 8 * k + 4)))

/-- R107, R117, R147: `XFORMP` and parallel `PIPE` that pass their checks latch the job R117 names and go to `P_PUB`;
nothing is stored yet, and what `P` has pending is nothing for `XFORMP` and the replicated pattern for `PIPE`. -/
def Obligations.ParallelCommandsPublish : Prop :=
  ∀ s : State, s.Ready →
    (∀ g, s.beginError (.xformp g) = none →
      exec (.xformp g) s = .next { s with
        pstage := .pub .sig, pcmd := .xformp,
        pjob := ⟨s.src, s.len, wordOf (s.cnt.toNat / 2), s.cnt, s.cnt, g, s.dst⟩,
        pview := { s.pview with mcopies := [], jcopies := JobSlot.fill none } }) ∧
    (s.beginError (.pipe .parallel) = none → ∃ t, exec (.pipe .parallel) s = .next t ∧
      t = { s with
        pstage := .pub .sig, pcmd := .pipe, pjob := ⟨s.dst, 80, 20, 41, 41, .half, s.dst + 0x50⟩,
        pview := t.pview, keeps := t.keeps } ∧
      ∀ a, t.coreByte .p a = plainReplicate s.src.toNat 8 s.dst.toNat 10 s.mem.read a)

/-- R108, R109: `MAG` and `SQMAG` leave exactly the bytes that their entries, one after another, leave; where the output
is not above the input, or disjoint from it, entry `k` is the magnitude of pair `k` as it was. -/
def Obligations.MagnitudeSpectra : Prop :=
  ∀ (i : Instr) (f : Nat → Word → Word → Word) (s : State), (i, f) ∈ [(Instr.mag, magOf), (Instr.sqmag, sqmagOf)] →
    s.beginError i = none → s.Ready → s.mem.wf = true →
    ∃ t, exec i s = .next t ∧ t = { s.endedAs t with resi := s.cnt, mem := t.mem, pregs := t.pregs } ∧
      t.mem.wf = true ∧ t.pview.sb = [] ∧ SameOutside s t s.dst.toNat (4 * s.cnt.toNat) ∧
      (∀ a, t.mem.read a = plainMags f s.src.toNat s.dst.toNat s.draws s.cnt.toNat 0 s.mem.read a) ∧
      (s.dst.toNat ≤ s.src.toNat ∨ Disjoint s.src.toNat (8 * s.cnt.toNat) s.dst.toNat (4 * s.cnt.toNat) →
        ∀ k, k < s.cnt.toNat →
          t.mem.readWord (s.dst.toNat + 4 * k) =
            f (s.draws + MAG_DRAWS * k) (s.mem.readWord (s.src.toNat + 8 * k))
              (s.mem.readWord (s.src.toNat + 8 * k + 4)))

/-- R112: no grid transform meets an angle without an index, whatever samples, tables and length: every grid frequency
is finite, not negative and below 6.2832 (pattern at most `0x40C90FF9`), and no command but `SIN`, `COS` and `MAGAT`
ends with `ERR_NUM`. -/
def Obligations.GridsAreIndexable : Prop :=
  (∀ (g : Grid) (K : Word) (N : Nat), GridIndexable g K N) ∧
  (∀ (n : Nat) (g : Grid) (k K : Word), k.toNat < K.toNat → (omegaOf n g k K).toNat ≤ 0x40C90FF9) ∧
  ∀ (i : Instr) (s t : State), i ≠ .sin → i ≠ .cos → i ≠ .magat → s.code ≠ .num → exec i s = .next t → t.code ≠ .num

/-- R11, R188: with the tables `INIT` fills, no NaN and no infinity arises in a grid transform, whatever the samples;
and every bin of an all-zero signal is `+0` in both parts. -/
def Obligations.GridBinsAreFinite : Prop :=
  ∀ (s : State) (g : Grid) (K : Word) (N : Nat), s.sintab = sinTable → s.costab = cosTable →
    s.GridFinite g K N ∧
    ∀ (n : Nat) (k : Word), k.toNat < K.toNat →
      dtftBin n s.sintab s.costab (fun _ => 0) N (omegaOf n g k K) = some (0, 0)

/-! ### CoreSyncChannel -/

/-- R116: `WLAUNCH` sets `WRUN` and starts the worker polling, and changes nothing else (of the private
registers: log 24). -/
def Obligations.WorkerLaunch : Prop :=
  ∀ s : State, s.wrun = false → s.Ready →
    ∃ t, exec .wlaunch s = .next t ∧ t = { s.endedAs t with wrun := true, wstage := .pollFence } ∧ t.pview.sb = []

/-- R117, R118, R119: nine turns of `P` from `P_PUB` on put the whole job into shared storage, the completion flag
cleared, and every earlier write of `P` with it, while signal-present stays as it was; the tenth writes signal-present,
which is then pending and alone. R120: `KIDX_P` is then 0, where the loop of the producer's own half begins; that it is 0
also where that half is empty is the model's choice (log 24). -/
def Obligations.PublishWritesJob : Prop :=
  ∀ (s : State) (ks : List (List Bool)) (k : List Bool), s.pstage = .pub .sig → (∀ i v, Pending.job i v ∉ s.pview.sb) →
    s.mem.wf = true → ks.length = 9 →
    ∃ t, s.runTurns (ks.map .p) = .next t ∧ t.pstage = .trig ∧ t.pview.sb = [] ∧
      t.job = ⟨s.pjob.sig, s.pjob.n, s.pjob.k0, s.pjob.k1, s.pjob.kt, gridWord s.pjob.g, s.pjob.out, 0, s.job.sigp⟩ ∧
      (∀ a, t.mem.read a = s.pview.sb.foldl (fun b e => e.overlayByte a b) (s.mem.read a)) ∧
      ∃ u, t.runTurns [.p k] = .next u ∧ u.pstage = .own .next ∧ u.pview.sb = [.job .sigp 1] ∧ u.pregs.kidx = 0 ∧
        u.job = t.job ∧ u.mem = t.mem

/-- R121, R123: one poll of either core is an acquire fence and one read; the core goes on exactly when the value read,
shared storage overlaid with its own pending writes, is not 0. A polling core writes nothing. -/
def Obligations.PollsReadFreshFlags : Prop :=
  ∀ (s : State) (k1 k2 : List Bool),
    (s.pstage = .waitFence → ∃ t, s.runTurns [.p k1, .p k2] = .next t ∧ t.mem = s.mem ∧ t.job = s.job ∧
      t.pview.sb = s.pview.sb ∧
      t.pstage =
        if s.pview.sb.foldl (fun w e => e.overlayJob .done w) s.job.done = 0 then .waitFence else .fin) ∧
    (s.wstage = .pollFence → ∃ t, s.runTurns [.w k1, .w k2] = .next t ∧ t.mem = s.mem ∧ t.job = s.job ∧
      t.wview.sb = s.wview.sb ∧
      t.wstage =
        if s.wview.sb.foldl (fun w e => e.overlayJob .sigp w) s.job.sigp = 0 then .pollFence else .load .sig)

/-- R124, R126, R127, R128: seven turns of `W` from `W_LOAD` on load its job registers with what it reads of the slot;
three turns from `W_REL` on put its bins into shared storage, then write the completion flag, then clear signal-present,
both still pending, and `W` polls again. R125: after the seven, `KIDX_W` is where the loop of the sub-range begins; that it is
so also where the sub-range is empty, that the other datapath registers stay in the seven, and the job registers in the three,
is the model's choice (log 24). -/
def Obligations.WorkerLoadsAndCompletes : Prop :=
  ∀ s : State,
    (∀ ks : List (List Bool), s.wstage = .load .sig → ks.length = 7 →
      ∃ t, s.runTurns (ks.map .w) = .next t ∧
        t.wjob = ⟨s.coreJob .w .sig, s.coreJob .w .len, s.coreJob .w .start, s.coreJob .w .stop, s.coreJob .w .ktot,
          gridOfBit ((s.coreJob .w .grid).getLsbD 0), s.coreJob .w .out⟩ ∧
        t.wstage = .run .next ∧ t.wregs = { s.wregs with kidx := s.coreJob .w .start } ∧ t.mem = s.mem ∧
        t.job = s.job ∧ t.wview.sb = s.wview.sb) ∧
    (∀ k1 k2 k3 : List Bool, s.wstage = .rel → (∀ i v, Pending.job i v ∉ s.wview.sb) → s.mem.wf = true →
      ∃ t, s.runTurns [.w k1, .w k2, .w k3] = .next t ∧ t.wstage = .pollFence ∧ t.job = s.job ∧
        t.wview.sb = [.job .done 1, .job .sigp 0] ∧ t.wjob = s.wjob ∧ t.pview = s.pview ∧
        ∀ a, t.mem.read a = s.wview.sb.foldl (fun b e => e.overlayByte a b) (s.mem.read a))

/-- R88, R120, R125, R132: the steps of a core through one bin, one shared access each, come to the bin computed whole:
`N + 3` steps, the first sets the registers up, the last two are the pair's writes; one more ends the sub-range. That the
set-up and the end are steps of their own is the model's granularity (log 12); overlapping buffers are log 3's. -/
def Obligations.BinStepsMakeOneBin : Prop :=
  ∀ (c : CoreId) (s : State) (j : Job) (kEnd : Word), (s.regs c).kidx.toNat < kEnd.toNat → j.overlaps = false →
    (j.n = 0 ∨ j.sig.toNat + j.n.toNat ≤ s.memBytes) → binAddr j.out (s.regs c).kidx.toNat + 8 ≤ s.memBytes →
    (∀ t, s.transformBin c j = .ok t → State.binSteps c j kEnd (j.n.toNat + 3) .next s = .at .next (t.draw 2)) ∧
    ((s.regs c).kidx.toNat + 1 = kEnd.toNat → ∀ t, s.transformBin c j = .ok t →
      State.binSteps c j kEnd (j.n.toNat + 4) .next s = .done (t.draw 2))

/-- R86, R122: after the poll loop, `P` fences once more; `XFORMP` then ends with `RESI = K` and everything `P` had
pending in shared storage, and `PIPE` goes on in `P_EXEC`. That no private register changes is the model's choice (log 24). -/
def Obligations.ParallelCommandsFinish : Prop :=
  ∀ (s : State) (k1 k2 : List Bool), s.pstage = .fin → (∀ i v, Pending.job i v ∉ s.pview.sb) → s.mem.wf = true →
    s.disturbed = [] →
    (s.pcmd = .xformp → ∃ t, s.runTurns [.p k1, .p k2] = .next t ∧
      t = { s.endedAs t with turns := [], resi := s.cnt, mem := t.mem } ∧ t.pview.sb = [] ∧ t.mem.wf = true ∧
      ∀ a, t.mem.read a = s.pview.sb.foldl (fun b e => e.overlayByte a b) (s.mem.read a)) ∧
    (s.pcmd = .pipe → ∃ t, s.runTurns [.p k1] = .next t ∧
      t = { s with turns := [], keeps := k1, pstage := .tail, pview := t.pview } ∧
      ∀ a, t.coreByte .p a = s.pview.sb.foldl (fun b e => e.overlayByte a b) (s.mem.read a))

/-- R40, R131: a step of the worker writes no host-visible register but `WSTATE`, no table, no dictionary, nothing of
`P`; shared storage changes only by its release fence; off, it does nothing. -/
def Obligations.WorkerTouchesOnlyItsOwn : Prop :=
  ∀ s t : State, workerStep s = .next t →
    t = { s with wstage := t.wstage, wjob := t.wjob, wregs := t.wregs, wview := t.wview, mem := t.mem, job := t.job,
                 keeps := t.keeps, draws := t.draws } ∧
    (s.wstage ≠ .rel → t.mem = s.mem ∧ t.job = s.job) ∧ (s.wstage = .off → t = s)

/-- R111, R129, R134 (a) to (c), R147: with a launched worker that has no job, whatever the interleaving of `P`, `W`, drains
and evictions, when `XFORMP` has ended it has left the memory and the result `XFORM` leaves; and likewise parallel `PIPE`
those of serial `PIPE`, wherever the pattern lies. `A-CLR` is not assumed: it decides whether the command ends (R133). -/
def Obligations.ParallelEqualsSerial : Prop :=
  ∀ (s p u t : State) (ts : List Turn), s.Ready → s.mem.wf = true → s.WorkerReady → s.done = false →
    (∀ τ ∈ ts, τ.internal) → p.runTurns ts = .next t → t.done = true →
    (∀ g : Grid, s.beginError (.xformp g) = none → s.GridFinite g s.cnt s.len.toNat →
      Disjoint s.src.toNat s.len.toNat s.dst.toNat (8 * s.cnt.toNat) →
      exec (.xform g) s = .next u → exec (.xformp g) s = .next p →
      t.code = .ok ∧ t.mem = u.mem ∧ t.resi = u.resi ∧ t.resf = u.resf) ∧
    (s.beginError (.pipe .parallel) = none → s.GridFinite .half 41 80 →
      exec (.pipe .serial) s = .next u → exec (.pipe .parallel) s = .next p →
      t.code = .ok ∧ t.mem = u.mem ∧ t.resi = u.resi ∧ t.resf = u.resf)

/-- R70, R133, R134 (d): with a launched worker that has no job, wherever the buffers lie, no turn of `P`, `W` or `MSYS` stops
`XFORMP` or parallel `PIPE`, some finite schedule ends it, and every fair execution of such turns in which `A-CLR` holds
ends it. -/
def Obligations.ParallelCanEnd : Prop :=
  ∀ (i : Instr) (s p : State), (i = .pipe .parallel ∨ ∃ g, i = .xformp g) → s.beginError i = none → s.Ready →
    s.WorkerReady → exec i s = .next p →
    (∀ ts, (∀ τ ∈ ts, τ.internal) → ∃ t, p.runTurns ts = .next t) ∧
    (∃ ts t, (∀ τ ∈ ts, τ.internal) ∧ p.runTurns ts = .next t ∧ t.done = true) ∧
    ∀ (x : Nat → State) (σ : Nat → Turn), x 0 = p → IsExecution x σ → (∀ n, (σ n).internal) → IsFair x σ →
      ClearBeforeTrigger x σ → ∃ n, (x n).done = true

/-- R130, R165, R183: with no worker launched, no schedule without a reset ends `XFORMP` or parallel `PIPE`: `BUSY`
stays 1. -/
def Obligations.NoWorkerNeverEnds : Prop :=
  ∀ (i : Instr) (s p t : State) (ts : List Turn), (i = .pipe .parallel ∨ ∃ g, i = .xformp g) →
    s.beginError i = none → s.pview.sb = [] → s.wview.sb = [] → s.wstage = .off → s.busy = true → s.done = false →
    exec i s = .next p → (∀ τ ∈ ts, τ.internal) → p.runTurns ts = .next t → t.busy = true ∧ t.done = false

/-- R133, R165, R182: the lost-job window. Where the worker's clear of signal-present drains after the producer's next
set, the slot holds 0 again; and once `P` waits, `W` polls, neither has a write of the slot pending, and both flags are 0,
no schedule without a reset ends the command. -/
def Obligations.LostJobHangs : Prop :=
  (∀ s : State, s.pview.sb = [.job .sigp 1] → s.wview.sb = [.job .sigp 0] →
    ∃ t, s.runTurns [.drain .p 0, .drain .w 0] = .next t ∧ t.job = { s.job with sigp := 0 } ∧ t.pview.sb = [] ∧
      t.wview.sb = [] ∧ t.mem = s.mem ∧ t.pstage = s.pstage ∧ t.wstage = s.wstage) ∧
  ∀ (s t : State) (ts : List Turn), s.pstage = .waitFence → s.wstage = .pollFence →
    (∀ i v, Pending.job i v ∉ s.pview.sb) → (∀ i v, Pending.job i v ∉ s.wview.sb) → s.job.sigp = 0 → s.job.done = 0 →
    s.busy = true → s.done = false → (∀ τ ∈ ts, τ.internal) → s.runTurns ts = .next t →
    t.busy = true ∧ t.done = false ∧ t.pstage.number = 6 ∧ t.wstage.number = 1

/-! ### SpectralClassifier -/

/-- R55, R135: `LDDICT` loads entry `i` of byte value `v` from the word at `SRC + 4*(41*v + i)`, sets `DICTV`, and
changes nothing else (of the private registers: log 24). -/
def Obligations.DictionaryLoad : Prop :=
  ∀ s : State, s.beginError .lddict = none → s.Ready →
    ∃ t, exec .lddict s = .next t ∧ t = { s.endedAs t with dict := t.dict, dictv := true } ∧ t.pview.sb = [] ∧
      ∀ (v : Fin 256) (i : Fin 41), (t.dict.get v).get i = s.mem.readWord (s.src.toNat + 4 * (41 * v.val + i.val))

/-- R136, R137: `DIST` puts `DISTF` of the two spectra in `RESF`; memory and `RESI` are unchanged. That of the
private registers only `RE_P` changes is the model's choice (log 24). -/
def Obligations.DistResult : Prop :=
  ∀ s : State, s.beginError .dist = none → s.Ready →
    ∃ t, exec .dist s = .next t ∧ t.pview.sb = [] ∧
      t = { s.endedAs t with
        resf := distF s.draws (s.mem.words s.src.toNat 41) (s.mem.words s.aux.toNat 41),
        pregs := { s.pregs with re := t.resf } }

/-- R136: the distance is symmetric, never negative and never `-0` unless it is a NaN, and of a spectrum of finite
entries to itself `+0`. -/
def Obligations.DistanceSymmetric : Prop :=
  ∀ (n m : Nat) (a b : List Word), a.length = b.length →
    (f32IsNaN (distF n a b) = true ↔ f32IsNaN (distF m b a) = true) ∧
    (f32IsNaN (distF n a b) = false → distF m b a = distF n a b ∧ f32Sign (distF n a b) = false) ∧
    ((∀ x ∈ a, f32IsFinite x = true) → distF n a a = 0)

/-- R138: `CLASSIFY` answers the byte value at the least distance, the lowest such value on a tie, a NaN and an infinite
distance never winning; if none is below `+Inf`, byte 0 and `+Inf`. R141: on the dictionary's own entry `v`, if its
words are finite, the distance is `+0`, and the byte is `v` unless a lower one is at distance 0 too. That of the private
registers only `BEST`, `BESTD` and `RE_P` change is the model's choice (log 24). -/
def Obligations.ClassifyNearest : Prop :=
  ∀ s : State, s.beginError .classify = none → s.Ready →
    ∃ t, exec .classify s = .next t ∧ t.pview.sb = [] ∧
      t = { s.endedAs t with
        resi := t.resi, resf := t.resf, best := t.resi, bestd := t.resf, pregs := { s.pregs with re := t.pregs.re } } ∧
      IsNearest (distanceTo s.draws (s.mem.words s.src.toNat 41) s.dict) t.resi t.resf ∧
      ∀ v : Fin 256, s.mem.words s.src.toNat 41 = (s.dict.get v).toList →
        (∀ x ∈ s.mem.words s.src.toNat 41, f32IsFinite x = true) →
        t.resf = 0 ∧ t.resi.toNat ≤ v.val ∧
          ((∀ u, u < v → distanceTo s.draws (s.mem.words s.src.toNat 41) s.dict u ≠ 0) → t.resi = wordOf v.val)

/-- R139: the rank order is a strict total order on byte values with their distances, NaN last; and its first element
is what `CLASSIFY` finds whenever some distance is below `+Inf`. -/
def Obligations.RankOrderTotal : Prop :=
  (∀ u x, ranksBefore u x u x = false) ∧
  (∀ u x v y, u ≠ v → (ranksBefore u x v y = true ↔ ranksBefore v y u x = false)) ∧
  (∀ u x v y w z, ranksBefore u x v y = true → ranksBefore v y w z = true → ranksBefore u x w z = true) ∧
  (∀ u x v y, f32IsNaN x = false → f32IsNaN y = true → ranksBefore u x v y = true) ∧
  ∀ ds : List Word, (∃ d ∈ ds, flt d POS_INF = true) → (ranked ds).head? = some (nearest ds)

/-- R56, R139, R140: `RANK` writes the records of the first `k` byte values of the rank order, the value then its
distance, and changes nothing outside them but `RESI` and private registers. That of these only `RD` and `RE_P` change is the
model's choice (log 24). -/
def Obligations.RankRecords : Prop :=
  ∀ s : State, s.beginError .rank = none → s.Ready → s.mem.wf = true →
    ∃ (t : State) (order : List (Fin 256)), exec .rank s = .next t ∧
      t = { s.endedAs t with
        resi := s.cnt, mem := t.mem, rd := t.rd, pregs := { s.pregs with re := t.pregs.re } } ∧
      t.mem.wf = true ∧ t.pview.sb = [] ∧ SameOutside s t s.dst.toNat (8 * s.cnt.toNat) ∧
      (∀ v : Fin 256, t.rd.get v = distanceTo s.draws (s.mem.words s.src.toNat 41) s.dict v) ∧
      order.Perm (List.finRange 256) ∧
      order.Pairwise (fun u v => ranksBefore u.val (t.rd.get u) v.val (t.rd.get v) = true) ∧
      ∀ (r : Nat) (v : Fin 256), r < s.cnt.toNat → order[r]? = some v →
        t.mem.readWord (s.dst.toNat + 8 * r) = wordOf v.val ∧ t.mem.readWord (s.dst.toNat + 8 * r + 4) = t.rd.get v

/-! ### PatternPipeline -/

/-- R145: `REPL` leaves exactly the bytes that copying byte after byte leaves; where the output does not overlap the
pattern, byte `DST + LEN*r + j` is byte `SRC + j`. That no private register changes is the model's choice (log 24). -/
def Obligations.ReplicateResult : Prop :=
  ∀ s : State, s.beginError .repl = none → s.Ready → s.mem.wf = true →
    ∃ t, exec .repl s = .next t ∧
      t = { s.endedAs t with resi := wordOf (s.len.toNat * s.cnt.toNat), mem := t.mem } ∧ t.mem.wf = true ∧
      t.pview.sb = [] ∧ SameOutside s t s.dst.toNat (s.len.toNat * s.cnt.toNat) ∧
      (∀ a, t.mem.read a = plainReplicate s.src.toNat s.len.toNat s.dst.toNat s.cnt.toNat s.mem.read a) ∧
      (Disjoint s.src.toNat s.len.toNat s.dst.toNat (s.len.toNat * s.cnt.toNat) →
        ∀ r j, r < s.cnt.toNat → j < s.len.toNat →
          t.mem.read (s.dst.toNat + s.len.toNat * r + j) = s.mem.read (s.src.toNat + j))

/-- R146, R147: serial `PIPE` replicates the pattern, transforms it on the half-turn grid of 41 points, squares and
classifies, in the work area at `DST` and nowhere else; the transform always succeeds (R112). -/
def Obligations.PipeSerialResult : Prop :=
  ∀ s : State, s.beginError (.pipe .serial) = none → s.Ready → s.mem.wf = true →
    let n := s.draws + (OMEGA_DRAWS + SAMPLE_DRAWS * 80) * 41
    ∃ (x y : Bytes) (t : State),
      plainBins s.sintab s.costab .half s.dst.toNat 80 41 (s.dst.toNat + 0x50) s.draws 41 0
        (plainReplicate s.src.toNat 8 s.dst.toNat 10 s.mem.read) = some x ∧
      y = plainMags sqmagOf (s.dst.toNat + 0x50) (s.dst.toNat + 0x198) n 41 0 x ∧
      exec (.pipe .serial) s = .next t ∧ t.mem.wf = true ∧ t.pview.sb = [] ∧
      t = { s.endedAs t with
        resi := t.resi, resf := t.resf, best := t.resi, bestd := t.resf, pregs := t.pregs, mem := t.mem } ∧
      (∀ a, t.mem.read a = y a) ∧ SameOutside s t s.dst.toNat 572 ∧
      IsNearest (distanceTo (n + MAG_DRAWS * 41)
        ((List.range 41).map (fun i => y.word (s.dst.toNat + 0x198 + 4 * i))) s.dict) t.resi t.resf

/-- R147: serial `PIPE` is exactly `REPL`, `XFORM.H`, `SQMAG` and `CLASSIFY`, issued one after another on the buffers of
the work area: all five end with code 0, with the same bytes and the same results. -/
def Obligations.PipeIsFourCommands : Prop :=
  ∀ s : State, s.beginError (.pipe .serial) = none → s.Ready → s.mem.wf = true →
    ∃ a b c d t : State,
      exec .repl { s with cnt := 10 } = .next a ∧
      exec (.xform .half) { a with src := s.dst, len := 80, cnt := 41, dst := s.dst + 0x50 } = .next b ∧
      exec .sqmag { b with src := s.dst + 0x50, cnt := 41, dst := s.dst + 0x198 } = .next c ∧
      exec .classify { c with src := s.dst + 0x198, len := 41 } = .next d ∧
      exec (.pipe .serial) s = .next t ∧
      a.code = .ok ∧ b.code = .ok ∧ c.code = .ok ∧ d.code = .ok ∧ t.code = .ok ∧
      t.mem = d.mem ∧ t.resi = d.resi ∧ t.resf = d.resf

/-- R147: once `P` is past `P_FIN`, parallel `PIPE` squares and classifies what it then reads, as the serial form does,
and ends. That this takes one turn is the model's granularity (log 12). -/
def Obligations.PipeParallelTail : Prop :=
  ∀ (s : State) (k : List Bool), s.pstage = .tail → s.pview.mcopies = [] → (∀ i v, Pending.job i v ∉ s.pview.sb) →
    s.mem.wf = true → s.disturbed = [] → s.dst.toNat + 572 ≤ s.memBytes →
    let y := plainMags sqmagOf (s.dst.toNat + 0x50) (s.dst.toNat + 0x198) s.draws 41 0 (s.coreByte .p)
    ∃ t, s.runTurns [.p k] = .next t ∧ t.mem.wf = true ∧ t.pview.sb = [] ∧
      t = { s.endedAs t with
        turns := [], resi := t.resi, resf := t.resf, best := t.resi, bestd := t.resf, pregs := t.pregs,
        mem := t.mem } ∧
      (∀ a, t.mem.read a = y a) ∧
      IsNearest (distanceTo (s.draws + MAG_DRAWS * 41)
        ((List.range 41).map (fun i => y.word (s.dst.toNat + 0x198 + 4 * i))) s.dict) t.resi t.resf

/-! ### Memory and ordering -/

/-- R46, R59, R60, R65 (L1): a core reads its own write at once, little-endian, every other byte as before, and shared
storage is as it was; a byte write is read back too. -/
def Obligations.OwnWritesAreRead : Prop :=
  ∀ (s : State) (c : CoreId) (a : Nat) (w : Word) (b : Byte),
    (∀ i, i < 4 → (s.writeWord c a w).coreByte c (a + i) = w.extractLsb' (8 * i) 8) ∧
    (s.writeByte c a b).coreByte c a = b ∧
    (s.writeWord c a w).mem = s.mem ∧ (s.writeByte c a b).mem = s.mem ∧
    ∀ x, s.pview.mcopies = [] → s.wview.mcopies = [] →
      ((x < a ∨ a + 4 ≤ x) → (s.writeWord c a w).coreByte c x = s.coreByte c x) ∧
      (x ≠ a → (s.writeByte c a b).coreByte c x = s.coreByte c x)

/-- R61: a drain whose entry no older entry meets puts it into shared storage, takes it out of the buffer and never
hides it behind the core's own copy: the core reads every byte and every slot word as before. One that an older entry
meets is not enabled. -/
def Obligations.DrainsKeepProgramOrder : Prop :=
  ∀ (s : State) (c : CoreId) (n : Nat) (e : Pending), (s.view c).sb[n]? = some e → s.mem.wf = true →
    ((∃ o ∈ (s.view c).sb.take n, o.meets e = true) → s.drain c n = s) ∧
    ((∀ o ∈ (s.view c).sb.take n, o.meets e = false) →
      ((s.drain c n).view c).sb = (s.view c).sb.eraseIdx n ∧
      (∀ a, (s.drain c n).mem.read a = e.overlayByte a (s.mem.read a)) ∧
      (∀ i, (s.drain c n).job.get i = e.overlayJob i (s.job.get i)) ∧
      (∀ a, (s.drain c n).coreByte c a = s.coreByte c a) ∧ ∀ i, (s.drain c n).coreJob c i = s.coreJob c i)

/-- R63, R64, R65 (L1): a release fence empties the buffer into shared storage, the newest write to a byte last; it leaves
the other core's view alone, makes and removes no copy, and hides no write from the core that made it: that core reads
every byte and every slot word as before. That its entries patch the core's own copies, as those of a drain do, is how the
model reads R63's "does not touch `CP_c`" (log 8). An acquire fence empties the copies, so the core reads shared storage
under its own pending writes, and changes neither buffer nor storage. -/
def Obligations.FencesDoAsNamed : Prop :=
  ∀ (s : State) (c : CoreId), s.mem.wf = true →
    ((s.fenceRel c).view c).sb = [] ∧ (∀ d, d ≠ c → (s.fenceRel c).view d = s.view d) ∧
    ((s.fenceRel c).view c).mcopies.map (·.1) = (s.view c).mcopies.map (·.1) ∧
    (∀ i, (((s.fenceRel c).view c).jcopies.get i).isSome = ((s.view c).jcopies.get i).isSome) ∧
    (∀ a, (s.fenceRel c).mem.read a = (s.view c).sb.foldl (fun b e => e.overlayByte a b) (s.mem.read a)) ∧
    (∀ i, (s.fenceRel c).job.get i = (s.view c).sb.foldl (fun w e => e.overlayJob i w) (s.job.get i)) ∧
    (∀ a, (s.fenceRel c).coreByte c a = s.coreByte c a) ∧ (∀ i, (s.fenceRel c).coreJob c i = s.coreJob c i) ∧
    s.fenceAcq c = s.setView c { s.view c with mcopies := [], jcopies := JobSlot.fill none } ∧
    (∀ a, (s.fenceAcq c).coreByte c a = (s.view c).sb.foldl (fun b e => e.overlayByte a b) (s.mem.read a)) ∧
    ∀ i, (s.fenceAcq c).coreJob c i = (s.view c).sb.foldl (fun w e => e.overlayJob i w) (s.job.get i)

/-- R65 (L2): after core `a`'s release fence, whatever drains and evictions follow, core `b` reads, once it has fenced, what
`a` wrote to any byte and to any slot word to which `b` has no pending write of its own. (L3), (L4): the fences are needed:
without a release fence a flag can be in shared storage before the data written before it, and without an acquire fence a
core can read a flag's old value again while shared storage holds the new. -/
def Obligations.MessagePassing : Prop :=
  (∀ (s u : State) (a b : CoreId) (ts : List Turn), s.mem.wf = true → a ≠ b →
    (∀ τ ∈ ts, (∃ c n, τ = .drain c n) ∨ ∃ c l, τ = .evict c l) → (s.fenceRel a).runTurns ts = .next u →
    (∀ x, (∀ e ∈ (s.view b).sb, ∀ y, e.overlayByte x y = y) →
      (u.fenceAcq b).coreByte b x = (s.view a).sb.foldl (fun v e => e.overlayByte x v) (s.mem.read x)) ∧
    ∀ i, (∀ e ∈ (s.view b).sb, ∀ y, e.overlayJob i y = y) →
      (u.fenceAcq b).coreJob b i = (s.view a).sb.foldl (fun w e => e.overlayJob i w) (s.job.get i)) ∧
  (∃ s : State, s.pview.sb = [.word 0 1, .job .sigp 1] ∧ (s.drain .p 1).job.sigp = 1 ∧
    (s.drain .p 1).mem.readWord 0 = 0 ∧ (s.drain .p 1).coreJob .w .sigp = 1 ∧
    (s.drain .p 1).coreByte .w 0 = 0) ∧
  ∃ s : State, s.job.sigp = 1 ∧ s.wview.sb = [] ∧ (s.readJob .w .sigp).1 = 0 ∧
    ((s.readJob .w .sigp).2.readJob .w .sigp).1 = 0 ∧ ((s.fenceAcq .w).readJob .w .sigp).1 = 1

/-! ### Arithmetic -/

/-- R10, R12: each operation on finite data is the exact result rounded once, to nearest, ties to even, subnormals
kept, and the conversions of integers likewise. -/
def Obligations.ArithmeticRoundsOnce : Prop :=
  (∀ (n : Nat) (a b : Word), f32IsFinite a = true → f32IsFinite b = true →
    IsRounded (f32Val a + f32Val b) 1 (fadd n a b) ∧
    IsRounded (f32Val a - f32Val b) 1 (fsub n a b) ∧
    IsRounded (f32Val a * f32Val b) (2 ^ 149) (fmul n a b) ∧
    (f32Mag b ≠ 0 →
      IsRounded (f32Val a * (if f32Sign b then -1 else 1) * 2 ^ 149) (f32Mag b) (fdiv n a b))) ∧
  ∀ k : Word, IsRounded ((k.toNat : Int) * 2 ^ 149) 1 (cvtU32 k)

/-- R10: the square root of a positive finite datum is the nearest binary32 to the real root, ties to even. -/
def Obligations.SqrtRoundsOnce : Prop :=
  ∀ (n : Nat) (a : Word), f32IsFinite a = true → f32Sign a = false → f32Mag a ≠ 0 →
    IsRootRounded (f32Mag a * 2 ^ 149) (fsqrt n a)

/-- R11: special values: signed zeros, infinities, and the invalid operations, each of which gives a quiet NaN, as does
any NaN operand. That the square root of `-0` is `-0`, and an infinity plus a finite value that infinity, is taken from the
standard, not from R11's words (log 18). -/
def Obligations.SpecialValues : Prop :=
  ∀ (n : Nat) (a b : Word),
    (f32IsNaN (qNaN n) = true ∧ (qNaN n).getLsbD 22 = true) ∧
    (f32IsFinite a = true → fsub n a a = 0) ∧ fadd n 0 0x80000000 = 0 ∧
    (f32IsFinite a = true → f32IsFinite b = true → f32Mag a = 0 ∨ f32Mag b = 0 →
      fmul n a b = if f32Sign a != f32Sign b then 0x80000000 else 0) ∧
    (f32IsNaN a = true ∨ f32IsNaN b = true →
      fadd n a b = qNaN n ∧ fsub n a b = qNaN n ∧ fmul n a b = qNaN n ∧ fdiv n a b = qNaN n) ∧
    (f32IsNaN a = true → fsqrt n a = qNaN n) ∧
    (f32IsInf a = true → fsub n a a = qNaN n ∧ fdiv n a a = qNaN n) ∧
    (f32IsInf a = true → f32IsFinite b = true → f32Mag b = 0 → fmul n a b = qNaN n ∧ fmul n b a = qNaN n) ∧
    fdiv n 0 0 = qNaN n ∧
    (f32Sign a = true → f32Mag a ≠ 0 → fsqrt n a = qNaN n) ∧ fsqrt n 0x80000000 = 0x80000000 ∧
    (f32IsInf a = true → f32IsFinite b = true → fadd n a b = a)

/-- R12, R13, R91: conversions are exact where the rules say so: a byte, the truncation of a finite datum toward zero,
and the fraction a lookup takes, which lies strictly between -1 and 1. -/
def Obligations.ConversionsExact : Prop :=
  (∀ b : Byte, f32Val (cvtU8 b) = (b.toNat : Int) * 2 ^ 149) ∧
  ∀ (n : Nat) (x : Word), f32IsFinite x = true →
    f32Val (cvtInt (ftrunc x)) = ftrunc x * 2 ^ 149 ∧
    (ftrunc x).natAbs * 2 ^ 149 ≤ f32Mag x ∧ f32Mag x < ((ftrunc x).natAbs + 1) * 2 ^ 149 ∧
    (ftrunc x ≠ 0 → (0 < ftrunc x ↔ f32Sign x = false)) ∧
    f32IsFinite (fsub n x (cvtInt (ftrunc x))) = true ∧
    f32Val (fsub n x (cvtInt (ftrunc x))) = f32Val x - ftrunc x * 2 ^ 149

/-! ### What every step keeps -/

/-- R24, R26, R35, R86, R160: the status fields stay coherent: `BUSY` and `DONE` never both 1, `BUSY` exactly outside
`P_IDLE`, `CODE` 0 while `BUSY`, `WRUN` exactly outside `W_OFF`, no byte unspecified by a host write (R179) but while
`BUSY`; and between commands, and where a command is about to
begin, `P` has nothing pending. -/
def Obligations.StatusCoherentKept : Prop :=
  ∀ s t : State, s.StatusCoherent → step s = .next t →
    t.StatusCoherent ∧ (s.ProducerDrained → t.ProducerDrained)

/-- Memory and both copy sets stay in canonical form. -/
def Obligations.CanonicalKept : Prop := ∀ s t : State, s.Canonical → step s = .next t → t.Canonical

/-- R49: neither core ever makes an access outside `MEM`, and nothing is ever stored there. -/
def Obligations.InsideMemoryKept : Prop :=
  ∀ s t : State, s.StatusCoherent → s.InsideMemory → step s = .next t → t.InsideMemory

/-- The state after reset meets every invariant above. -/
def Obligations.ResetMeetsInvariants : Prop :=
  State.reset.StatusCoherent ∧ State.reset.Canonical ∧ State.reset.TablesFilled ∧ State.reset.ProducerDrained ∧
    State.reset.InsideMemory

/-- R32, R33, R35, R90, R116, R135: the tables and the dictionary are written once and their flags, like `WRUN`, fall
only by reset; while `INITD` is 1 the tables hold the values of R90; a launched worker never returns to `W_OFF`, and
only `WLAUNCH` takes it out of `W_OFF`. -/
def Obligations.WriteOnceStores : Prop :=
  ∀ s t : State, step s = .next t →
    (s.TablesFilled → t.TablesFilled) ∧
    (¬ s.takeTurn.1.resets →
      (s.initd = true → t.initd = true ∧ t.sintab = s.sintab ∧ t.costab = s.costab) ∧
      (s.dictv = true → t.dictv = true ∧ t.dict = s.dict) ∧ (s.wrun = true → t.wrun = true) ∧
      (s.wstage ≠ .off → t.wstage ≠ .off) ∧
      (s.wstage = .off → t.wstage ≠ .off →
        s.pstage = .begin ∧ decode s.cmdr = .ok .wlaunch ∧ t.wstage = .pollFence))

/-- R21, R25, R26, R6: only the host's own write, or a reset, changes an operand register or `CMDR`, clears `OVR`, or
raises `BUSY`; no step changes the size of memory. -/
def Obligations.HostOwnsOperands : Prop :=
  ∀ s t : State, step s = .next t → t.memTop = s.memTop ∧
    (¬ s.takeTurn.1.resets → (∀ off v, s.takeTurn.1 ≠ .regWrite off v) →
      t.src = s.src ∧ t.len = s.len ∧ t.cnt = s.cnt ∧ t.dst = s.dst ∧ t.aux = s.aux ∧ t.farg = s.farg ∧
      t.cmdr = s.cmdr ∧ t.ovr = s.ovr ∧ (s.busy = false → t.busy = false))
end

