-- ==== Sys2Proof/Laws/Memory.lean ====
section
/-! SUPPORT. The laws of shared storage: what a read after a write gives, and that every operation keeps the
canonical form. -/

namespace Sys2Proof.Machine

/-! ### Canonical lists of cells -/

/-- Every listed address is above `a`. -/
def aboveCells (a : Nat) (cs : List Host.Cell) : Prop := ∀ c ∈ cs, a < c.1

theorem wfCells_tail {c : Host.Cell} {t : List Host.Cell} (h : wfCells (c :: t) = true) : wfCells t = true := by
  cases t with
  | nil => rfl
  | cons d t => simp [wfCells] at h; exact h.2

theorem wfCells_head {c : Host.Cell} {t : List Host.Cell} (h : wfCells (c :: t) = true) :
    c.2 ≠ Memory.unlisted := by
  cases t with
  | nil => simpa [wfCells] using h
  | cons d t => simp [wfCells] at h; exact h.1.2

theorem wfCells_above {c : Host.Cell} {t : List Host.Cell} (h : wfCells (c :: t) = true) : aboveCells c.1 t := by
  induction t generalizing c with
  | nil => intro x hx; cases hx
  | cons d t ih =>
    simp [wfCells] at h
    intro x hx
    rcases List.mem_cons.1 hx with rfl | hx
    · exact h.1.1
    · exact lt_trans h.1.1 (ih h.2 x hx)

theorem wfCells_cons {c : Host.Cell} {t : List Host.Cell} (h1 : aboveCells c.1 t) (h2 : c.2 ≠ Memory.unlisted)
    (h3 : wfCells t = true) : wfCells (c :: t) = true := by
  cases t with
  | nil => simpa [wfCells] using h2
  | cons d t => simp [wfCells, h1 d (by simp), h2, h3]

theorem readCells_of_above {a : Nat} {cs : List Host.Cell} (h : aboveCells a cs) :
    readCells cs a = Memory.unlisted := by
  induction cs with
  | nil => rfl
  | cons c t ih =>
    have : a ≠ c.1 := (h c (by simp)).ne
    simp [readCells, this, ih (fun x hx => h x (by simp [hx]))]

theorem writeCells_above {a b : Nat} {v : Byte} {cs : List Host.Cell} (h : aboveCells a cs) (hab : a < b) :
    aboveCells a (writeCells cs b v) := by
  induction cs with
  | nil => simp only [writeCells]; split <;> simp [aboveCells, hab]
  | cons c t ih =>
    have hc : a < c.1 := h c (by simp)
    have ht : aboveCells a t := fun x hx => h x (by simp [hx])
    simp only [writeCells]
    split
    · split
      · exact h
      · intro x hx; rcases List.mem_cons.1 hx with rfl | hx
        · exact hab
        · exact h x hx
    · split
      · split
        · exact ht
        · intro x hx; rcases List.mem_cons.1 hx with rfl | hx
          · exact hab
          · exact ht x hx
      · intro x hx; rcases List.mem_cons.1 hx with rfl | hx
        · exact hc
        · exact ih ht x hx

theorem wfCells_writeCells {cs : List Host.Cell} (a : Nat) (v : Byte) (h : wfCells cs = true) :
    wfCells (writeCells cs a v) = true := by
  induction cs with
  | nil => simp only [writeCells]; split <;> simp_all [wfCells]
  | cons c t ih =>
    have ht := wfCells_tail h
    have hc := wfCells_above h
    simp only [writeCells]
    split
    · rename_i hlt
      split
      · exact h
      · rename_i hv
        refine wfCells_cons (fun x hx => ?_) hv h
        rcases List.mem_cons.1 hx with rfl | hx
        · exact hlt
        · exact lt_trans hlt (hc x hx)
    · split
      · rename_i he
        split
        · exact ht
        · rename_i hv; exact wfCells_cons (by simpa [he] using hc) hv ht
      · rename_i h1 h2
        exact wfCells_cons (writeCells_above hc (by omega)) (wfCells_head h) (ih ht)

theorem readCells_writeCells {cs : List Host.Cell} (a b : Nat) (v : Byte) (h : wfCells cs = true) :
    readCells (writeCells cs a v) b = if b = a then v else readCells cs b := by
  induction cs with
  | nil =>
    simp only [writeCells]
    split <;> simp_all [readCells]
  | cons c t ih =>
    have ht := wfCells_tail h
    have hc := wfCells_above h
    simp only [writeCells]
    split
    · rename_i hlt
      have ha : readCells (c :: t) a = Memory.unlisted :=
        readCells_of_above (fun x hx => by
          rcases List.mem_cons.1 hx with rfl | hx
          · exact hlt
          · exact lt_trans hlt (hc x hx))
      split
      · rename_i hv
        split
        · rename_i hb; rw [hb, ha, hv]
        · rfl
      · by_cases hb : b = a <;> simp [readCells, hb]
    · split
      · rename_i he
        split
        · rename_i hv
          by_cases hb : b = a
          · simp [hb, hv, he, readCells_of_above hc]
          · have : b ≠ c.1 := fun h => hb (h.trans he.symm)
            simp [hb, readCells, this]
        · by_cases hb : b = a
          · simp [readCells, hb]
          · have : b ≠ c.1 := fun h => hb (h.trans he.symm)
            simp [hb, readCells, this]
      · rename_i h1 h2
        by_cases hb : b = c.1
        · have : b ≠ a := by omega
          have h3 : c.1 ≠ a := by omega
          simp [readCells, hb, h3]
        · simp [readCells, hb, ih ht]

/-! ### Memories -/

theorem Memory.wf_empty : Memory.wf ⟨[]⟩ = true := rfl

/-- A write keeps the canonical form. -/
theorem Memory.wf_write {m : Memory} (a : Nat) (v : Byte) (h : m.wf = true) : (m.write a v).wf = true :=
  wfCells_writeCells a v h

theorem Memory.wf_writeWord {m : Memory} (a : Nat) (w : Word) (h : m.wf = true) : (m.writeWord a w).wf = true :=
  wf_write _ _ (wf_write _ _ (wf_write _ _ (wf_write _ _ h)))

theorem Memory.wf_writeAll {m : Memory} (cs : List Host.Cell) (h : m.wf = true) : (m.writeAll cs).wf = true := by
  induction cs generalizing m with
  | nil => exact h
  | cons c t ih => exact ih (wf_write c.1 c.2 h)

/-- Read after write. -/
theorem Memory.read_write {m : Memory} (a b : Nat) (v : Byte) (h : m.wf = true) :
    (m.write a v).read b = if b = a then v else m.read b := readCells_writeCells a b v h

/-- Read of a byte after a word was written. -/
theorem Memory.read_writeWord {m : Memory} (a b : Nat) (w : Word) (h : m.wf = true) :
    (m.writeWord a w).read b = if a ≤ b ∧ b < a + 4 then wordByte w (b - a) else m.read b := by
  have h0 := wf_write a (wordByte w 0) h
  have h1 := wf_write (a + 1) (wordByte w 1) h0
  have h2 := wf_write (a + 2) (wordByte w 2) h1
  rw [writeWord, read_write _ _ _ h2, read_write _ _ _ h1, read_write _ _ _ h0, read_write _ _ _ h]
  by_cases hb : a ≤ b ∧ b < a + 4
  · obtain ⟨k, rfl⟩ := Nat.exists_eq_add_of_le hb.1
    have hk : k < 4 := by omega
    rcases k with _ | _ | _ | _ | k <;> first | omega | simp
  · have e0 : b ≠ a := by omega
    have e1 : b ≠ a + 1 := by omega
    have e2 : b ≠ a + 2 := by omega
    have e3 : b ≠ a + 3 := by omega
    simp [e0, e1, e2, e3, hb]

/-- A word is its four bytes (R46). -/
theorem wordOfBytes_wordByte (w : Word) :
    wordOfBytes (wordByte w 0) (wordByte w 1) (wordByte w 2) (wordByte w 3) = w := by
  apply BitVec.eq_of_getLsbD_eq
  intro i hi
  simp only [wordOfBytes, wordByte, BitVec.getLsbD_append, BitVec.getLsbD_extractLsb']
  by_cases h0 : i < 8
  · simp [h0]
  · by_cases h1 : i < 16
    · have : i - 8 < 8 := by omega
      have e : 8 + (i - 8) = i := by omega
      simp [h0, this, e]
    · by_cases h2 : i < 24
      · have a1 : ¬ i - 8 < 8 := by omega
        have a2 : i - 8 - 8 < 8 := by omega
        have e : 16 + (i - 8 - 8) = i := by omega
        simp [h0, a1, a2, e]
      · have a1 : ¬ i - 8 < 8 := by omega
        have a2 : ¬ i - 8 - 8 < 8 := by omega
        have a3 : i - 8 - 8 - 8 < 8 := by omega
        have e : 24 + (i - 8 - 8 - 8) = i := by omega
        simp [h0, a1, a2, a3, e]

/-- Read of a word after the same word was written. -/
theorem Memory.readWord_writeWord {m : Memory} (a : Nat) (w : Word) (h : m.wf = true) :
    (m.writeWord a w).readWord a = w := by
  simp [readWord, read_writeWord _ _ _ h, wordOfBytes_wordByte]

/-- Two canonical lists that read alike are the same list. -/
theorem wfCells_ext {cs ds : List Host.Cell} (hc : wfCells cs = true) (hd : wfCells ds = true)
    (h : ∀ a, readCells cs a = readCells ds a) : cs = ds := by
  induction cs generalizing ds with
  | nil =>
    cases ds with
    | nil => rfl
    | cons d t => exact absurd (h d.1).symm (by simpa [readCells] using wfCells_head hd)
  | cons c t ih =>
    cases ds with
    | nil => exact absurd (h c.1) (by simpa [readCells] using wfCells_head hc)
    | cons d u =>
      have hcd : c.1 = d.1 := by
        rcases lt_trichotomy c.1 d.1 with hlt | he | hgt
        · have : readCells (d :: u) c.1 = Memory.unlisted := readCells_of_above (fun x hx => by
            rcases List.mem_cons.1 hx with rfl | hx
            · exact hlt
            · exact lt_trans hlt (wfCells_above hd x hx))
          exact absurd ((h c.1).trans this) (by simpa [readCells] using wfCells_head hc)
        · exact he
        · have : readCells (c :: t) d.1 = Memory.unlisted := readCells_of_above (fun x hx => by
            rcases List.mem_cons.1 hx with rfl | hx
            · exact hgt
            · exact lt_trans hgt (wfCells_above hc x hx))
          exact absurd ((h d.1).symm.trans this) (by simpa [readCells] using wfCells_head hd)
      have hv : c.2 = d.2 := by simpa [readCells, hcd] using h c.1
      have htail : t = u := ih (wfCells_tail hc) (wfCells_tail hd) (fun a => by
        by_cases ha : a = c.1
        · rw [ha, readCells_of_above (wfCells_above hc), hcd, readCells_of_above (wfCells_above hd)]
        · have := h a
          simpa [readCells, ha, hcd ▸ ha] using this)
      rw [htail, Prod.ext hcd hv]

/-- Equal memories are equal data. -/
theorem Memory.ext_read {m n : Memory} (hm : m.wf = true) (hn : n.wf = true) (h : ∀ a, m.read a = n.read a) :
    m = n := by
  cases m; cases n
  exact congrArg _ (wfCells_ext hm hn h)

end Sys2Proof.Machine
end

