-- ==== Sys2Proof/Laws/State.lean ====
section
/-! SUPPORT. What each named update of the state leaves alone and what it sets, one lemma for each field, so that no
proof unfolds a record update. -/

namespace Sys2Proof.Machine

/-! ### `setRegs`: only a datapath changes -/

@[simp] theorem State.setRegs_src (s : State) (c : CoreId) (r : Datapath) : (s.setRegs c r).src = s.src := by cases c <;> rfl
@[simp] theorem State.setRegs_len (s : State) (c : CoreId) (r : Datapath) : (s.setRegs c r).len = s.len := by cases c <;> rfl
@[simp] theorem State.setRegs_cnt (s : State) (c : CoreId) (r : Datapath) : (s.setRegs c r).cnt = s.cnt := by cases c <;> rfl
@[simp] theorem State.setRegs_dst (s : State) (c : CoreId) (r : Datapath) : (s.setRegs c r).dst = s.dst := by cases c <;> rfl
@[simp] theorem State.setRegs_aux (s : State) (c : CoreId) (r : Datapath) : (s.setRegs c r).aux = s.aux := by cases c <;> rfl
@[simp] theorem State.setRegs_farg (s : State) (c : CoreId) (r : Datapath) : (s.setRegs c r).farg = s.farg := by cases c <;> rfl
@[simp] theorem State.setRegs_resi (s : State) (c : CoreId) (r : Datapath) : (s.setRegs c r).resi = s.resi := by cases c <;> rfl
@[simp] theorem State.setRegs_resf (s : State) (c : CoreId) (r : Datapath) : (s.setRegs c r).resf = s.resf := by cases c <;> rfl
@[simp] theorem State.setRegs_cmdr (s : State) (c : CoreId) (r : Datapath) : (s.setRegs c r).cmdr = s.cmdr := by cases c <;> rfl
@[simp] theorem State.setRegs_errinfo (s : State) (c : CoreId) (r : Datapath) : (s.setRegs c r).errinfo = s.errinfo := by cases c <;> rfl
@[simp] theorem State.setRegs_busy (s : State) (c : CoreId) (r : Datapath) : (s.setRegs c r).busy = s.busy := by cases c <;> rfl
@[simp] theorem State.setRegs_done (s : State) (c : CoreId) (r : Datapath) : (s.setRegs c r).done = s.done := by cases c <;> rfl
@[simp] theorem State.setRegs_ovr (s : State) (c : CoreId) (r : Datapath) : (s.setRegs c r).ovr = s.ovr := by cases c <;> rfl
@[simp] theorem State.setRegs_initd (s : State) (c : CoreId) (r : Datapath) : (s.setRegs c r).initd = s.initd := by cases c <;> rfl
@[simp] theorem State.setRegs_dictv (s : State) (c : CoreId) (r : Datapath) : (s.setRegs c r).dictv = s.dictv := by cases c <;> rfl
@[simp] theorem State.setRegs_wrun (s : State) (c : CoreId) (r : Datapath) : (s.setRegs c r).wrun = s.wrun := by cases c <;> rfl
@[simp] theorem State.setRegs_code (s : State) (c : CoreId) (r : Datapath) : (s.setRegs c r).code = s.code := by cases c <;> rfl
@[simp] theorem State.setRegs_pstage (s : State) (c : CoreId) (r : Datapath) : (s.setRegs c r).pstage = s.pstage := by cases c <;> rfl
@[simp] theorem State.setRegs_wstage (s : State) (c : CoreId) (r : Datapath) : (s.setRegs c r).wstage = s.wstage := by cases c <;> rfl
@[simp] theorem State.setRegs_sintab (s : State) (c : CoreId) (r : Datapath) : (s.setRegs c r).sintab = s.sintab := by cases c <;> rfl
@[simp] theorem State.setRegs_costab (s : State) (c : CoreId) (r : Datapath) : (s.setRegs c r).costab = s.costab := by cases c <;> rfl
@[simp] theorem State.setRegs_dict (s : State) (c : CoreId) (r : Datapath) : (s.setRegs c r).dict = s.dict := by cases c <;> rfl
@[simp] theorem State.setRegs_best (s : State) (c : CoreId) (r : Datapath) : (s.setRegs c r).best = s.best := by cases c <;> rfl
@[simp] theorem State.setRegs_bestd (s : State) (c : CoreId) (r : Datapath) : (s.setRegs c r).bestd = s.bestd := by cases c <;> rfl
@[simp] theorem State.setRegs_rd (s : State) (c : CoreId) (r : Datapath) : (s.setRegs c r).rd = s.rd := by cases c <;> rfl
@[simp] theorem State.setRegs_wjob (s : State) (c : CoreId) (r : Datapath) : (s.setRegs c r).wjob = s.wjob := by cases c <;> rfl
@[simp] theorem State.setRegs_pview (s : State) (c : CoreId) (r : Datapath) : (s.setRegs c r).pview = s.pview := by cases c <;> rfl
@[simp] theorem State.setRegs_wview (s : State) (c : CoreId) (r : Datapath) : (s.setRegs c r).wview = s.wview := by cases c <;> rfl
@[simp] theorem State.setRegs_job (s : State) (c : CoreId) (r : Datapath) : (s.setRegs c r).job = s.job := by cases c <;> rfl
@[simp] theorem State.setRegs_mem (s : State) (c : CoreId) (r : Datapath) : (s.setRegs c r).mem = s.mem := by cases c <;> rfl
@[simp] theorem State.setRegs_memTop (s : State) (c : CoreId) (r : Datapath) : (s.setRegs c r).memTop = s.memTop := by cases c <;> rfl
@[simp] theorem State.setRegs_pjob (s : State) (c : CoreId) (r : Datapath) : (s.setRegs c r).pjob = s.pjob := by cases c <;> rfl
@[simp] theorem State.setRegs_pcmd (s : State) (c : CoreId) (r : Datapath) : (s.setRegs c r).pcmd = s.pcmd := by cases c <;> rfl
@[simp] theorem State.setRegs_turns (s : State) (c : CoreId) (r : Datapath) : (s.setRegs c r).turns = s.turns := by cases c <;> rfl
@[simp] theorem State.setRegs_clock (s : State) (c : CoreId) (r : Datapath) : (s.setRegs c r).clock = s.clock := by cases c <;> rfl
@[simp] theorem State.setRegs_keeps (s : State) (c : CoreId) (r : Datapath) : (s.setRegs c r).keeps = s.keeps := by cases c <;> rfl
@[simp] theorem State.setRegs_draws (s : State) (c : CoreId) (r : Datapath) : (s.setRegs c r).draws = s.draws := by cases c <;> rfl
@[simp] theorem State.setRegs_hostRd (s : State) (c : CoreId) (r : Datapath) : (s.setRegs c r).hostRd = s.hostRd := by cases c <;> rfl
@[simp] theorem State.setRegs_disturbed (s : State) (c : CoreId) (r : Datapath) : (s.setRegs c r).disturbed = s.disturbed := by cases c <;> rfl

/-! ### `setView`: only a view changes -/

@[simp] theorem State.setView_src (s : State) (c : CoreId) (v : View) : (s.setView c v).src = s.src := by cases c <;> rfl
@[simp] theorem State.setView_len (s : State) (c : CoreId) (v : View) : (s.setView c v).len = s.len := by cases c <;> rfl
@[simp] theorem State.setView_cnt (s : State) (c : CoreId) (v : View) : (s.setView c v).cnt = s.cnt := by cases c <;> rfl
@[simp] theorem State.setView_dst (s : State) (c : CoreId) (v : View) : (s.setView c v).dst = s.dst := by cases c <;> rfl
@[simp] theorem State.setView_aux (s : State) (c : CoreId) (v : View) : (s.setView c v).aux = s.aux := by cases c <;> rfl
@[simp] theorem State.setView_farg (s : State) (c : CoreId) (v : View) : (s.setView c v).farg = s.farg := by cases c <;> rfl
@[simp] theorem State.setView_resi (s : State) (c : CoreId) (v : View) : (s.setView c v).resi = s.resi := by cases c <;> rfl
@[simp] theorem State.setView_resf (s : State) (c : CoreId) (v : View) : (s.setView c v).resf = s.resf := by cases c <;> rfl
@[simp] theorem State.setView_cmdr (s : State) (c : CoreId) (v : View) : (s.setView c v).cmdr = s.cmdr := by cases c <;> rfl
@[simp] theorem State.setView_errinfo (s : State) (c : CoreId) (v : View) : (s.setView c v).errinfo = s.errinfo := by cases c <;> rfl
@[simp] theorem State.setView_busy (s : State) (c : CoreId) (v : View) : (s.setView c v).busy = s.busy := by cases c <;> rfl
@[simp] theorem State.setView_done (s : State) (c : CoreId) (v : View) : (s.setView c v).done = s.done := by cases c <;> rfl
@[simp] theorem State.setView_ovr (s : State) (c : CoreId) (v : View) : (s.setView c v).ovr = s.ovr := by cases c <;> rfl
@[simp] theorem State.setView_initd (s : State) (c : CoreId) (v : View) : (s.setView c v).initd = s.initd := by cases c <;> rfl
@[simp] theorem State.setView_dictv (s : State) (c : CoreId) (v : View) : (s.setView c v).dictv = s.dictv := by cases c <;> rfl
@[simp] theorem State.setView_wrun (s : State) (c : CoreId) (v : View) : (s.setView c v).wrun = s.wrun := by cases c <;> rfl
@[simp] theorem State.setView_code (s : State) (c : CoreId) (v : View) : (s.setView c v).code = s.code := by cases c <;> rfl
@[simp] theorem State.setView_pstage (s : State) (c : CoreId) (v : View) : (s.setView c v).pstage = s.pstage := by cases c <;> rfl
@[simp] theorem State.setView_wstage (s : State) (c : CoreId) (v : View) : (s.setView c v).wstage = s.wstage := by cases c <;> rfl
@[simp] theorem State.setView_sintab (s : State) (c : CoreId) (v : View) : (s.setView c v).sintab = s.sintab := by cases c <;> rfl
@[simp] theorem State.setView_costab (s : State) (c : CoreId) (v : View) : (s.setView c v).costab = s.costab := by cases c <;> rfl
@[simp] theorem State.setView_dict (s : State) (c : CoreId) (v : View) : (s.setView c v).dict = s.dict := by cases c <;> rfl
@[simp] theorem State.setView_pregs (s : State) (c : CoreId) (v : View) : (s.setView c v).pregs = s.pregs := by cases c <;> rfl
@[simp] theorem State.setView_wregs (s : State) (c : CoreId) (v : View) : (s.setView c v).wregs = s.wregs := by cases c <;> rfl
@[simp] theorem State.setView_best (s : State) (c : CoreId) (v : View) : (s.setView c v).best = s.best := by cases c <;> rfl
@[simp] theorem State.setView_bestd (s : State) (c : CoreId) (v : View) : (s.setView c v).bestd = s.bestd := by cases c <;> rfl
@[simp] theorem State.setView_rd (s : State) (c : CoreId) (v : View) : (s.setView c v).rd = s.rd := by cases c <;> rfl
@[simp] theorem State.setView_wjob (s : State) (c : CoreId) (v : View) : (s.setView c v).wjob = s.wjob := by cases c <;> rfl
@[simp] theorem State.setView_job (s : State) (c : CoreId) (v : View) : (s.setView c v).job = s.job := by cases c <;> rfl
@[simp] theorem State.setView_mem (s : State) (c : CoreId) (v : View) : (s.setView c v).mem = s.mem := by cases c <;> rfl
@[simp] theorem State.setView_memTop (s : State) (c : CoreId) (v : View) : (s.setView c v).memTop = s.memTop := by cases c <;> rfl
@[simp] theorem State.setView_pjob (s : State) (c : CoreId) (v : View) : (s.setView c v).pjob = s.pjob := by cases c <;> rfl
@[simp] theorem State.setView_pcmd (s : State) (c : CoreId) (v : View) : (s.setView c v).pcmd = s.pcmd := by cases c <;> rfl
@[simp] theorem State.setView_turns (s : State) (c : CoreId) (v : View) : (s.setView c v).turns = s.turns := by cases c <;> rfl
@[simp] theorem State.setView_clock (s : State) (c : CoreId) (v : View) : (s.setView c v).clock = s.clock := by cases c <;> rfl
@[simp] theorem State.setView_keeps (s : State) (c : CoreId) (v : View) : (s.setView c v).keeps = s.keeps := by cases c <;> rfl
@[simp] theorem State.setView_draws (s : State) (c : CoreId) (v : View) : (s.setView c v).draws = s.draws := by cases c <;> rfl
@[simp] theorem State.setView_hostRd (s : State) (c : CoreId) (v : View) : (s.setView c v).hostRd = s.hostRd := by cases c <;> rfl
@[simp] theorem State.setView_disturbed (s : State) (c : CoreId) (v : View) : (s.setView c v).disturbed = s.disturbed := by cases c <;> rfl

/-! ### `draw`: only the draw counter changes -/

@[simp] theorem State.draw_src (s : State) (n : Nat) : (s.draw n).src = s.src := rfl
@[simp] theorem State.draw_len (s : State) (n : Nat) : (s.draw n).len = s.len := rfl
@[simp] theorem State.draw_cnt (s : State) (n : Nat) : (s.draw n).cnt = s.cnt := rfl
@[simp] theorem State.draw_dst (s : State) (n : Nat) : (s.draw n).dst = s.dst := rfl
@[simp] theorem State.draw_aux (s : State) (n : Nat) : (s.draw n).aux = s.aux := rfl
@[simp] theorem State.draw_farg (s : State) (n : Nat) : (s.draw n).farg = s.farg := rfl
@[simp] theorem State.draw_resi (s : State) (n : Nat) : (s.draw n).resi = s.resi := rfl
@[simp] theorem State.draw_resf (s : State) (n : Nat) : (s.draw n).resf = s.resf := rfl
@[simp] theorem State.draw_cmdr (s : State) (n : Nat) : (s.draw n).cmdr = s.cmdr := rfl
@[simp] theorem State.draw_errinfo (s : State) (n : Nat) : (s.draw n).errinfo = s.errinfo := rfl
@[simp] theorem State.draw_busy (s : State) (n : Nat) : (s.draw n).busy = s.busy := rfl
@[simp] theorem State.draw_done (s : State) (n : Nat) : (s.draw n).done = s.done := rfl
@[simp] theorem State.draw_ovr (s : State) (n : Nat) : (s.draw n).ovr = s.ovr := rfl
@[simp] theorem State.draw_initd (s : State) (n : Nat) : (s.draw n).initd = s.initd := rfl
@[simp] theorem State.draw_dictv (s : State) (n : Nat) : (s.draw n).dictv = s.dictv := rfl
@[simp] theorem State.draw_wrun (s : State) (n : Nat) : (s.draw n).wrun = s.wrun := rfl
@[simp] theorem State.draw_code (s : State) (n : Nat) : (s.draw n).code = s.code := rfl
@[simp] theorem State.draw_pstage (s : State) (n : Nat) : (s.draw n).pstage = s.pstage := rfl
@[simp] theorem State.draw_wstage (s : State) (n : Nat) : (s.draw n).wstage = s.wstage := rfl
@[simp] theorem State.draw_sintab (s : State) (n : Nat) : (s.draw n).sintab = s.sintab := rfl
@[simp] theorem State.draw_costab (s : State) (n : Nat) : (s.draw n).costab = s.costab := rfl
@[simp] theorem State.draw_dict (s : State) (n : Nat) : (s.draw n).dict = s.dict := rfl
@[simp] theorem State.draw_pregs (s : State) (n : Nat) : (s.draw n).pregs = s.pregs := rfl
@[simp] theorem State.draw_wregs (s : State) (n : Nat) : (s.draw n).wregs = s.wregs := rfl
@[simp] theorem State.draw_best (s : State) (n : Nat) : (s.draw n).best = s.best := rfl
@[simp] theorem State.draw_bestd (s : State) (n : Nat) : (s.draw n).bestd = s.bestd := rfl
@[simp] theorem State.draw_rd (s : State) (n : Nat) : (s.draw n).rd = s.rd := rfl
@[simp] theorem State.draw_wjob (s : State) (n : Nat) : (s.draw n).wjob = s.wjob := rfl
@[simp] theorem State.draw_pview (s : State) (n : Nat) : (s.draw n).pview = s.pview := rfl
@[simp] theorem State.draw_wview (s : State) (n : Nat) : (s.draw n).wview = s.wview := rfl
@[simp] theorem State.draw_job (s : State) (n : Nat) : (s.draw n).job = s.job := rfl
@[simp] theorem State.draw_mem (s : State) (n : Nat) : (s.draw n).mem = s.mem := rfl
@[simp] theorem State.draw_memTop (s : State) (n : Nat) : (s.draw n).memTop = s.memTop := rfl
@[simp] theorem State.draw_pjob (s : State) (n : Nat) : (s.draw n).pjob = s.pjob := rfl
@[simp] theorem State.draw_pcmd (s : State) (n : Nat) : (s.draw n).pcmd = s.pcmd := rfl
@[simp] theorem State.draw_turns (s : State) (n : Nat) : (s.draw n).turns = s.turns := rfl
@[simp] theorem State.draw_clock (s : State) (n : Nat) : (s.draw n).clock = s.clock := rfl
@[simp] theorem State.draw_keeps (s : State) (n : Nat) : (s.draw n).keeps = s.keeps := rfl
@[simp] theorem State.draw_hostRd (s : State) (n : Nat) : (s.draw n).hostRd = s.hostRd := rfl
@[simp] theorem State.draw_disturbed (s : State) (n : Nat) : (s.draw n).disturbed = s.disturbed := rfl
@[simp] theorem State.draw_draws (s : State) (n : Nat) : (s.draw n).draws = s.draws + n := rfl

/-! ### `dropKeep`: only the copy choices change -/

@[simp] theorem State.dropKeep_src (s : State) : (s.dropKeep).src = s.src := rfl
@[simp] theorem State.dropKeep_len (s : State) : (s.dropKeep).len = s.len := rfl
@[simp] theorem State.dropKeep_cnt (s : State) : (s.dropKeep).cnt = s.cnt := rfl
@[simp] theorem State.dropKeep_dst (s : State) : (s.dropKeep).dst = s.dst := rfl
@[simp] theorem State.dropKeep_aux (s : State) : (s.dropKeep).aux = s.aux := rfl
@[simp] theorem State.dropKeep_farg (s : State) : (s.dropKeep).farg = s.farg := rfl
@[simp] theorem State.dropKeep_resi (s : State) : (s.dropKeep).resi = s.resi := rfl
@[simp] theorem State.dropKeep_resf (s : State) : (s.dropKeep).resf = s.resf := rfl
@[simp] theorem State.dropKeep_cmdr (s : State) : (s.dropKeep).cmdr = s.cmdr := rfl
@[simp] theorem State.dropKeep_errinfo (s : State) : (s.dropKeep).errinfo = s.errinfo := rfl
@[simp] theorem State.dropKeep_busy (s : State) : (s.dropKeep).busy = s.busy := rfl
@[simp] theorem State.dropKeep_done (s : State) : (s.dropKeep).done = s.done := rfl
@[simp] theorem State.dropKeep_ovr (s : State) : (s.dropKeep).ovr = s.ovr := rfl
@[simp] theorem State.dropKeep_initd (s : State) : (s.dropKeep).initd = s.initd := rfl
@[simp] theorem State.dropKeep_dictv (s : State) : (s.dropKeep).dictv = s.dictv := rfl
@[simp] theorem State.dropKeep_wrun (s : State) : (s.dropKeep).wrun = s.wrun := rfl
@[simp] theorem State.dropKeep_code (s : State) : (s.dropKeep).code = s.code := rfl
@[simp] theorem State.dropKeep_pstage (s : State) : (s.dropKeep).pstage = s.pstage := rfl
@[simp] theorem State.dropKeep_wstage (s : State) : (s.dropKeep).wstage = s.wstage := rfl
@[simp] theorem State.dropKeep_sintab (s : State) : (s.dropKeep).sintab = s.sintab := rfl
@[simp] theorem State.dropKeep_costab (s : State) : (s.dropKeep).costab = s.costab := rfl
@[simp] theorem State.dropKeep_dict (s : State) : (s.dropKeep).dict = s.dict := rfl
@[simp] theorem State.dropKeep_pregs (s : State) : (s.dropKeep).pregs = s.pregs := rfl
@[simp] theorem State.dropKeep_wregs (s : State) : (s.dropKeep).wregs = s.wregs := rfl
@[simp] theorem State.dropKeep_best (s : State) : (s.dropKeep).best = s.best := rfl
@[simp] theorem State.dropKeep_bestd (s : State) : (s.dropKeep).bestd = s.bestd := rfl
@[simp] theorem State.dropKeep_rd (s : State) : (s.dropKeep).rd = s.rd := rfl
@[simp] theorem State.dropKeep_wjob (s : State) : (s.dropKeep).wjob = s.wjob := rfl
@[simp] theorem State.dropKeep_pview (s : State) : (s.dropKeep).pview = s.pview := rfl
@[simp] theorem State.dropKeep_wview (s : State) : (s.dropKeep).wview = s.wview := rfl
@[simp] theorem State.dropKeep_job (s : State) : (s.dropKeep).job = s.job := rfl
@[simp] theorem State.dropKeep_mem (s : State) : (s.dropKeep).mem = s.mem := rfl
@[simp] theorem State.dropKeep_memTop (s : State) : (s.dropKeep).memTop = s.memTop := rfl
@[simp] theorem State.dropKeep_pjob (s : State) : (s.dropKeep).pjob = s.pjob := rfl
@[simp] theorem State.dropKeep_pcmd (s : State) : (s.dropKeep).pcmd = s.pcmd := rfl
@[simp] theorem State.dropKeep_turns (s : State) : (s.dropKeep).turns = s.turns := rfl
@[simp] theorem State.dropKeep_clock (s : State) : (s.dropKeep).clock = s.clock := rfl
@[simp] theorem State.dropKeep_draws (s : State) : (s.dropKeep).draws = s.draws := rfl
@[simp] theorem State.dropKeep_hostRd (s : State) : (s.dropKeep).hostRd = s.hostRd := rfl
@[simp] theorem State.dropKeep_disturbed (s : State) : (s.dropKeep).disturbed = s.disturbed := rfl

/-! ### `accept`: R81 -/

@[simp] theorem State.accept_src (s : State) (w : Word) : (s.accept w).src = s.src := rfl
@[simp] theorem State.accept_len (s : State) (w : Word) : (s.accept w).len = s.len := rfl
@[simp] theorem State.accept_cnt (s : State) (w : Word) : (s.accept w).cnt = s.cnt := rfl
@[simp] theorem State.accept_dst (s : State) (w : Word) : (s.accept w).dst = s.dst := rfl
@[simp] theorem State.accept_aux (s : State) (w : Word) : (s.accept w).aux = s.aux := rfl
@[simp] theorem State.accept_farg (s : State) (w : Word) : (s.accept w).farg = s.farg := rfl
@[simp] theorem State.accept_resi (s : State) (w : Word) : (s.accept w).resi = s.resi := rfl
@[simp] theorem State.accept_resf (s : State) (w : Word) : (s.accept w).resf = s.resf := rfl
@[simp] theorem State.accept_errinfo (s : State) (w : Word) : (s.accept w).errinfo = s.errinfo := rfl
@[simp] theorem State.accept_ovr (s : State) (w : Word) : (s.accept w).ovr = s.ovr := rfl
@[simp] theorem State.accept_initd (s : State) (w : Word) : (s.accept w).initd = s.initd := rfl
@[simp] theorem State.accept_dictv (s : State) (w : Word) : (s.accept w).dictv = s.dictv := rfl
@[simp] theorem State.accept_wrun (s : State) (w : Word) : (s.accept w).wrun = s.wrun := rfl
@[simp] theorem State.accept_wstage (s : State) (w : Word) : (s.accept w).wstage = s.wstage := rfl
@[simp] theorem State.accept_sintab (s : State) (w : Word) : (s.accept w).sintab = s.sintab := rfl
@[simp] theorem State.accept_costab (s : State) (w : Word) : (s.accept w).costab = s.costab := rfl
@[simp] theorem State.accept_dict (s : State) (w : Word) : (s.accept w).dict = s.dict := rfl
@[simp] theorem State.accept_pregs (s : State) (w : Word) : (s.accept w).pregs = s.pregs := rfl
@[simp] theorem State.accept_wregs (s : State) (w : Word) : (s.accept w).wregs = s.wregs := rfl
@[simp] theorem State.accept_best (s : State) (w : Word) : (s.accept w).best = s.best := rfl
@[simp] theorem State.accept_bestd (s : State) (w : Word) : (s.accept w).bestd = s.bestd := rfl
@[simp] theorem State.accept_rd (s : State) (w : Word) : (s.accept w).rd = s.rd := rfl
@[simp] theorem State.accept_wjob (s : State) (w : Word) : (s.accept w).wjob = s.wjob := rfl
@[simp] theorem State.accept_pview (s : State) (w : Word) : (s.accept w).pview = s.pview := rfl
@[simp] theorem State.accept_wview (s : State) (w : Word) : (s.accept w).wview = s.wview := rfl
@[simp] theorem State.accept_job (s : State) (w : Word) : (s.accept w).job = s.job := rfl
@[simp] theorem State.accept_mem (s : State) (w : Word) : (s.accept w).mem = s.mem := rfl
@[simp] theorem State.accept_memTop (s : State) (w : Word) : (s.accept w).memTop = s.memTop := rfl
@[simp] theorem State.accept_pjob (s : State) (w : Word) : (s.accept w).pjob = s.pjob := rfl
@[simp] theorem State.accept_pcmd (s : State) (w : Word) : (s.accept w).pcmd = s.pcmd := rfl
@[simp] theorem State.accept_turns (s : State) (w : Word) : (s.accept w).turns = s.turns := rfl
@[simp] theorem State.accept_clock (s : State) (w : Word) : (s.accept w).clock = s.clock := rfl
@[simp] theorem State.accept_keeps (s : State) (w : Word) : (s.accept w).keeps = s.keeps := rfl
@[simp] theorem State.accept_draws (s : State) (w : Word) : (s.accept w).draws = s.draws := rfl
@[simp] theorem State.accept_hostRd (s : State) (w : Word) : (s.accept w).hostRd = s.hostRd := rfl
@[simp] theorem State.accept_disturbed (s : State) (w : Word) : (s.accept w).disturbed = s.disturbed := rfl
@[simp] theorem State.accept_cmdr (s : State) (w : Word) : (s.accept w).cmdr = w := rfl
@[simp] theorem State.accept_busy (s : State) (w : Word) : (s.accept w).busy = true := rfl
@[simp] theorem State.accept_done (s : State) (w : Word) : (s.accept w).done = false := rfl
@[simp] theorem State.accept_code (s : State) (w : Word) : (s.accept w).code = .ok := rfl
@[simp] theorem State.accept_pstage (s : State) (w : Word) : (s.accept w).pstage = .begin := rfl

/-! ### `raise`: R160: `STATUS` and `ERRINFO` change, nothing else -/

@[simp] theorem State.raise_src (s : State) (e : Code) (i : Word) : (s.raise e i).src = s.src := rfl
@[simp] theorem State.raise_len (s : State) (e : Code) (i : Word) : (s.raise e i).len = s.len := rfl
@[simp] theorem State.raise_cnt (s : State) (e : Code) (i : Word) : (s.raise e i).cnt = s.cnt := rfl
@[simp] theorem State.raise_dst (s : State) (e : Code) (i : Word) : (s.raise e i).dst = s.dst := rfl
@[simp] theorem State.raise_aux (s : State) (e : Code) (i : Word) : (s.raise e i).aux = s.aux := rfl
@[simp] theorem State.raise_farg (s : State) (e : Code) (i : Word) : (s.raise e i).farg = s.farg := rfl
@[simp] theorem State.raise_resi (s : State) (e : Code) (i : Word) : (s.raise e i).resi = s.resi := rfl
@[simp] theorem State.raise_resf (s : State) (e : Code) (i : Word) : (s.raise e i).resf = s.resf := rfl
@[simp] theorem State.raise_cmdr (s : State) (e : Code) (i : Word) : (s.raise e i).cmdr = s.cmdr := rfl
@[simp] theorem State.raise_ovr (s : State) (e : Code) (i : Word) : (s.raise e i).ovr = s.ovr := rfl
@[simp] theorem State.raise_initd (s : State) (e : Code) (i : Word) : (s.raise e i).initd = s.initd := rfl
@[simp] theorem State.raise_dictv (s : State) (e : Code) (i : Word) : (s.raise e i).dictv = s.dictv := rfl
@[simp] theorem State.raise_wrun (s : State) (e : Code) (i : Word) : (s.raise e i).wrun = s.wrun := rfl
@[simp] theorem State.raise_wstage (s : State) (e : Code) (i : Word) : (s.raise e i).wstage = s.wstage := rfl
@[simp] theorem State.raise_sintab (s : State) (e : Code) (i : Word) : (s.raise e i).sintab = s.sintab := rfl
@[simp] theorem State.raise_costab (s : State) (e : Code) (i : Word) : (s.raise e i).costab = s.costab := rfl
@[simp] theorem State.raise_dict (s : State) (e : Code) (i : Word) : (s.raise e i).dict = s.dict := rfl
@[simp] theorem State.raise_pregs (s : State) (e : Code) (i : Word) : (s.raise e i).pregs = s.pregs := rfl
@[simp] theorem State.raise_wregs (s : State) (e : Code) (i : Word) : (s.raise e i).wregs = s.wregs := rfl
@[simp] theorem State.raise_best (s : State) (e : Code) (i : Word) : (s.raise e i).best = s.best := rfl
@[simp] theorem State.raise_bestd (s : State) (e : Code) (i : Word) : (s.raise e i).bestd = s.bestd := rfl
@[simp] theorem State.raise_rd (s : State) (e : Code) (i : Word) : (s.raise e i).rd = s.rd := rfl
@[simp] theorem State.raise_wjob (s : State) (e : Code) (i : Word) : (s.raise e i).wjob = s.wjob := rfl
@[simp] theorem State.raise_pview (s : State) (e : Code) (i : Word) : (s.raise e i).pview = s.pview := rfl
@[simp] theorem State.raise_wview (s : State) (e : Code) (i : Word) : (s.raise e i).wview = s.wview := rfl
@[simp] theorem State.raise_job (s : State) (e : Code) (i : Word) : (s.raise e i).job = s.job := rfl
@[simp] theorem State.raise_mem (s : State) (e : Code) (i : Word) : (s.raise e i).mem = s.mem := rfl
@[simp] theorem State.raise_memTop (s : State) (e : Code) (i : Word) : (s.raise e i).memTop = s.memTop := rfl
@[simp] theorem State.raise_pjob (s : State) (e : Code) (i : Word) : (s.raise e i).pjob = s.pjob := rfl
@[simp] theorem State.raise_pcmd (s : State) (e : Code) (i : Word) : (s.raise e i).pcmd = s.pcmd := rfl
@[simp] theorem State.raise_turns (s : State) (e : Code) (i : Word) : (s.raise e i).turns = s.turns := rfl
@[simp] theorem State.raise_clock (s : State) (e : Code) (i : Word) : (s.raise e i).clock = s.clock := rfl
@[simp] theorem State.raise_keeps (s : State) (e : Code) (i : Word) : (s.raise e i).keeps = s.keeps := rfl
@[simp] theorem State.raise_draws (s : State) (e : Code) (i : Word) : (s.raise e i).draws = s.draws := rfl
@[simp] theorem State.raise_hostRd (s : State) (e : Code) (i : Word) : (s.raise e i).hostRd = s.hostRd := rfl
@[simp] theorem State.raise_errinfo (s : State) (e : Code) (i : Word) : (s.raise e i).errinfo = i := rfl
@[simp] theorem State.raise_busy (s : State) (e : Code) (i : Word) : (s.raise e i).busy = false := rfl
@[simp] theorem State.raise_done (s : State) (e : Code) (i : Word) : (s.raise e i).done = true := rfl
@[simp] theorem State.raise_code (s : State) (e : Code) (i : Word) : (s.raise e i).code = e := rfl
@[simp] theorem State.raise_pstage (s : State) (e : Code) (i : Word) : (s.raise e i).pstage = .idle := rfl
@[simp] theorem State.raise_disturbed (s : State) (e : Code) (i : Word) : (s.raise e i).disturbed = [] := rfl

/-! ### `publish`: R117 -/

@[simp] theorem State.publish_src (s : State) (j : Job) (p : Publisher) : (s.publish j p).src = s.src := rfl
@[simp] theorem State.publish_len (s : State) (j : Job) (p : Publisher) : (s.publish j p).len = s.len := rfl
@[simp] theorem State.publish_cnt (s : State) (j : Job) (p : Publisher) : (s.publish j p).cnt = s.cnt := rfl
@[simp] theorem State.publish_dst (s : State) (j : Job) (p : Publisher) : (s.publish j p).dst = s.dst := rfl
@[simp] theorem State.publish_aux (s : State) (j : Job) (p : Publisher) : (s.publish j p).aux = s.aux := rfl
@[simp] theorem State.publish_farg (s : State) (j : Job) (p : Publisher) : (s.publish j p).farg = s.farg := rfl
@[simp] theorem State.publish_resi (s : State) (j : Job) (p : Publisher) : (s.publish j p).resi = s.resi := rfl
@[simp] theorem State.publish_resf (s : State) (j : Job) (p : Publisher) : (s.publish j p).resf = s.resf := rfl
@[simp] theorem State.publish_cmdr (s : State) (j : Job) (p : Publisher) : (s.publish j p).cmdr = s.cmdr := rfl
@[simp] theorem State.publish_errinfo (s : State) (j : Job) (p : Publisher) : (s.publish j p).errinfo = s.errinfo := rfl
@[simp] theorem State.publish_busy (s : State) (j : Job) (p : Publisher) : (s.publish j p).busy = s.busy := rfl
@[simp] theorem State.publish_done (s : State) (j : Job) (p : Publisher) : (s.publish j p).done = s.done := rfl
@[simp] theorem State.publish_ovr (s : State) (j : Job) (p : Publisher) : (s.publish j p).ovr = s.ovr := rfl
@[simp] theorem State.publish_initd (s : State) (j : Job) (p : Publisher) : (s.publish j p).initd = s.initd := rfl
@[simp] theorem State.publish_dictv (s : State) (j : Job) (p : Publisher) : (s.publish j p).dictv = s.dictv := rfl
@[simp] theorem State.publish_wrun (s : State) (j : Job) (p : Publisher) : (s.publish j p).wrun = s.wrun := rfl
@[simp] theorem State.publish_code (s : State) (j : Job) (p : Publisher) : (s.publish j p).code = s.code := rfl
@[simp] theorem State.publish_wstage (s : State) (j : Job) (p : Publisher) : (s.publish j p).wstage = s.wstage := rfl
@[simp] theorem State.publish_sintab (s : State) (j : Job) (p : Publisher) : (s.publish j p).sintab = s.sintab := rfl
@[simp] theorem State.publish_costab (s : State) (j : Job) (p : Publisher) : (s.publish j p).costab = s.costab := rfl
@[simp] theorem State.publish_dict (s : State) (j : Job) (p : Publisher) : (s.publish j p).dict = s.dict := rfl
@[simp] theorem State.publish_pregs (s : State) (j : Job) (p : Publisher) : (s.publish j p).pregs = s.pregs := rfl
@[simp] theorem State.publish_wregs (s : State) (j : Job) (p : Publisher) : (s.publish j p).wregs = s.wregs := rfl
@[simp] theorem State.publish_best (s : State) (j : Job) (p : Publisher) : (s.publish j p).best = s.best := rfl
@[simp] theorem State.publish_bestd (s : State) (j : Job) (p : Publisher) : (s.publish j p).bestd = s.bestd := rfl
@[simp] theorem State.publish_rd (s : State) (j : Job) (p : Publisher) : (s.publish j p).rd = s.rd := rfl
@[simp] theorem State.publish_wjob (s : State) (j : Job) (p : Publisher) : (s.publish j p).wjob = s.wjob := rfl
@[simp] theorem State.publish_pview (s : State) (j : Job) (p : Publisher) : (s.publish j p).pview = s.pview := rfl
@[simp] theorem State.publish_wview (s : State) (j : Job) (p : Publisher) : (s.publish j p).wview = s.wview := rfl
@[simp] theorem State.publish_job (s : State) (j : Job) (p : Publisher) : (s.publish j p).job = s.job := rfl
@[simp] theorem State.publish_mem (s : State) (j : Job) (p : Publisher) : (s.publish j p).mem = s.mem := rfl
@[simp] theorem State.publish_memTop (s : State) (j : Job) (p : Publisher) : (s.publish j p).memTop = s.memTop := rfl
@[simp] theorem State.publish_turns (s : State) (j : Job) (p : Publisher) : (s.publish j p).turns = s.turns := rfl
@[simp] theorem State.publish_clock (s : State) (j : Job) (p : Publisher) : (s.publish j p).clock = s.clock := rfl
@[simp] theorem State.publish_keeps (s : State) (j : Job) (p : Publisher) : (s.publish j p).keeps = s.keeps := rfl
@[simp] theorem State.publish_draws (s : State) (j : Job) (p : Publisher) : (s.publish j p).draws = s.draws := rfl
@[simp] theorem State.publish_hostRd (s : State) (j : Job) (p : Publisher) : (s.publish j p).hostRd = s.hostRd := rfl
@[simp] theorem State.publish_disturbed (s : State) (j : Job) (p : Publisher) : (s.publish j p).disturbed = s.disturbed := rfl
@[simp] theorem State.publish_pjob (s : State) (j : Job) (p : Publisher) : (s.publish j p).pjob = j := rfl
@[simp] theorem State.publish_pcmd (s : State) (j : Job) (p : Publisher) : (s.publish j p).pcmd = p := rfl
@[simp] theorem State.publish_pstage (s : State) (j : Job) (p : Publisher) : (s.publish j p).pstage = .pub .sig := rfl

/-! ### `enqueue`: only a view changes -/

@[simp] theorem State.enqueue_src (s : State) (c : CoreId) (e : Pending) : (s.enqueue c e).src = s.src := by cases c <;> rfl
@[simp] theorem State.enqueue_len (s : State) (c : CoreId) (e : Pending) : (s.enqueue c e).len = s.len := by cases c <;> rfl
@[simp] theorem State.enqueue_cnt (s : State) (c : CoreId) (e : Pending) : (s.enqueue c e).cnt = s.cnt := by cases c <;> rfl
@[simp] theorem State.enqueue_dst (s : State) (c : CoreId) (e : Pending) : (s.enqueue c e).dst = s.dst := by cases c <;> rfl
@[simp] theorem State.enqueue_aux (s : State) (c : CoreId) (e : Pending) : (s.enqueue c e).aux = s.aux := by cases c <;> rfl
@[simp] theorem State.enqueue_farg (s : State) (c : CoreId) (e : Pending) : (s.enqueue c e).farg = s.farg := by cases c <;> rfl
@[simp] theorem State.enqueue_resi (s : State) (c : CoreId) (e : Pending) : (s.enqueue c e).resi = s.resi := by cases c <;> rfl
@[simp] theorem State.enqueue_resf (s : State) (c : CoreId) (e : Pending) : (s.enqueue c e).resf = s.resf := by cases c <;> rfl
@[simp] theorem State.enqueue_cmdr (s : State) (c : CoreId) (e : Pending) : (s.enqueue c e).cmdr = s.cmdr := by cases c <;> rfl
@[simp] theorem State.enqueue_errinfo (s : State) (c : CoreId) (e : Pending) : (s.enqueue c e).errinfo = s.errinfo := by cases c <;> rfl
@[simp] theorem State.enqueue_busy (s : State) (c : CoreId) (e : Pending) : (s.enqueue c e).busy = s.busy := by cases c <;> rfl
@[simp] theorem State.enqueue_done (s : State) (c : CoreId) (e : Pending) : (s.enqueue c e).done = s.done := by cases c <;> rfl
@[simp] theorem State.enqueue_ovr (s : State) (c : CoreId) (e : Pending) : (s.enqueue c e).ovr = s.ovr := by cases c <;> rfl
@[simp] theorem State.enqueue_initd (s : State) (c : CoreId) (e : Pending) : (s.enqueue c e).initd = s.initd := by cases c <;> rfl
@[simp] theorem State.enqueue_dictv (s : State) (c : CoreId) (e : Pending) : (s.enqueue c e).dictv = s.dictv := by cases c <;> rfl
@[simp] theorem State.enqueue_wrun (s : State) (c : CoreId) (e : Pending) : (s.enqueue c e).wrun = s.wrun := by cases c <;> rfl
@[simp] theorem State.enqueue_code (s : State) (c : CoreId) (e : Pending) : (s.enqueue c e).code = s.code := by cases c <;> rfl
@[simp] theorem State.enqueue_pstage (s : State) (c : CoreId) (e : Pending) : (s.enqueue c e).pstage = s.pstage := by cases c <;> rfl
@[simp] theorem State.enqueue_wstage (s : State) (c : CoreId) (e : Pending) : (s.enqueue c e).wstage = s.wstage := by cases c <;> rfl
@[simp] theorem State.enqueue_sintab (s : State) (c : CoreId) (e : Pending) : (s.enqueue c e).sintab = s.sintab := by cases c <;> rfl
@[simp] theorem State.enqueue_costab (s : State) (c : CoreId) (e : Pending) : (s.enqueue c e).costab = s.costab := by cases c <;> rfl
@[simp] theorem State.enqueue_dict (s : State) (c : CoreId) (e : Pending) : (s.enqueue c e).dict = s.dict := by cases c <;> rfl
@[simp] theorem State.enqueue_pregs (s : State) (c : CoreId) (e : Pending) : (s.enqueue c e).pregs = s.pregs := by cases c <;> rfl
@[simp] theorem State.enqueue_wregs (s : State) (c : CoreId) (e : Pending) : (s.enqueue c e).wregs = s.wregs := by cases c <;> rfl
@[simp] theorem State.enqueue_best (s : State) (c : CoreId) (e : Pending) : (s.enqueue c e).best = s.best := by cases c <;> rfl
@[simp] theorem State.enqueue_bestd (s : State) (c : CoreId) (e : Pending) : (s.enqueue c e).bestd = s.bestd := by cases c <;> rfl
@[simp] theorem State.enqueue_rd (s : State) (c : CoreId) (e : Pending) : (s.enqueue c e).rd = s.rd := by cases c <;> rfl
@[simp] theorem State.enqueue_wjob (s : State) (c : CoreId) (e : Pending) : (s.enqueue c e).wjob = s.wjob := by cases c <;> rfl
@[simp] theorem State.enqueue_job (s : State) (c : CoreId) (e : Pending) : (s.enqueue c e).job = s.job := by cases c <;> rfl
@[simp] theorem State.enqueue_mem (s : State) (c : CoreId) (e : Pending) : (s.enqueue c e).mem = s.mem := by cases c <;> rfl
@[simp] theorem State.enqueue_memTop (s : State) (c : CoreId) (e : Pending) : (s.enqueue c e).memTop = s.memTop := by cases c <;> rfl
@[simp] theorem State.enqueue_pjob (s : State) (c : CoreId) (e : Pending) : (s.enqueue c e).pjob = s.pjob := by cases c <;> rfl
@[simp] theorem State.enqueue_pcmd (s : State) (c : CoreId) (e : Pending) : (s.enqueue c e).pcmd = s.pcmd := by cases c <;> rfl
@[simp] theorem State.enqueue_turns (s : State) (c : CoreId) (e : Pending) : (s.enqueue c e).turns = s.turns := by cases c <;> rfl
@[simp] theorem State.enqueue_clock (s : State) (c : CoreId) (e : Pending) : (s.enqueue c e).clock = s.clock := by cases c <;> rfl
@[simp] theorem State.enqueue_keeps (s : State) (c : CoreId) (e : Pending) : (s.enqueue c e).keeps = s.keeps := by cases c <;> rfl
@[simp] theorem State.enqueue_draws (s : State) (c : CoreId) (e : Pending) : (s.enqueue c e).draws = s.draws := by cases c <;> rfl
@[simp] theorem State.enqueue_hostRd (s : State) (c : CoreId) (e : Pending) : (s.enqueue c e).hostRd = s.hostRd := by cases c <;> rfl
@[simp] theorem State.enqueue_disturbed (s : State) (c : CoreId) (e : Pending) : (s.enqueue c e).disturbed = s.disturbed := by cases c <;> rfl

/-! ### `fenceAcq`: only a view changes (R64) -/

@[simp] theorem State.fenceAcq_src (s : State) (c : CoreId) : (s.fenceAcq c).src = s.src := by cases c <;> rfl
@[simp] theorem State.fenceAcq_len (s : State) (c : CoreId) : (s.fenceAcq c).len = s.len := by cases c <;> rfl
@[simp] theorem State.fenceAcq_cnt (s : State) (c : CoreId) : (s.fenceAcq c).cnt = s.cnt := by cases c <;> rfl
@[simp] theorem State.fenceAcq_dst (s : State) (c : CoreId) : (s.fenceAcq c).dst = s.dst := by cases c <;> rfl
@[simp] theorem State.fenceAcq_aux (s : State) (c : CoreId) : (s.fenceAcq c).aux = s.aux := by cases c <;> rfl
@[simp] theorem State.fenceAcq_farg (s : State) (c : CoreId) : (s.fenceAcq c).farg = s.farg := by cases c <;> rfl
@[simp] theorem State.fenceAcq_resi (s : State) (c : CoreId) : (s.fenceAcq c).resi = s.resi := by cases c <;> rfl
@[simp] theorem State.fenceAcq_resf (s : State) (c : CoreId) : (s.fenceAcq c).resf = s.resf := by cases c <;> rfl
@[simp] theorem State.fenceAcq_cmdr (s : State) (c : CoreId) : (s.fenceAcq c).cmdr = s.cmdr := by cases c <;> rfl
@[simp] theorem State.fenceAcq_errinfo (s : State) (c : CoreId) : (s.fenceAcq c).errinfo = s.errinfo := by cases c <;> rfl
@[simp] theorem State.fenceAcq_busy (s : State) (c : CoreId) : (s.fenceAcq c).busy = s.busy := by cases c <;> rfl
@[simp] theorem State.fenceAcq_done (s : State) (c : CoreId) : (s.fenceAcq c).done = s.done := by cases c <;> rfl
@[simp] theorem State.fenceAcq_ovr (s : State) (c : CoreId) : (s.fenceAcq c).ovr = s.ovr := by cases c <;> rfl
@[simp] theorem State.fenceAcq_initd (s : State) (c : CoreId) : (s.fenceAcq c).initd = s.initd := by cases c <;> rfl
@[simp] theorem State.fenceAcq_dictv (s : State) (c : CoreId) : (s.fenceAcq c).dictv = s.dictv := by cases c <;> rfl
@[simp] theorem State.fenceAcq_wrun (s : State) (c : CoreId) : (s.fenceAcq c).wrun = s.wrun := by cases c <;> rfl
@[simp] theorem State.fenceAcq_code (s : State) (c : CoreId) : (s.fenceAcq c).code = s.code := by cases c <;> rfl
@[simp] theorem State.fenceAcq_pstage (s : State) (c : CoreId) : (s.fenceAcq c).pstage = s.pstage := by cases c <;> rfl
@[simp] theorem State.fenceAcq_wstage (s : State) (c : CoreId) : (s.fenceAcq c).wstage = s.wstage := by cases c <;> rfl
@[simp] theorem State.fenceAcq_sintab (s : State) (c : CoreId) : (s.fenceAcq c).sintab = s.sintab := by cases c <;> rfl
@[simp] theorem State.fenceAcq_costab (s : State) (c : CoreId) : (s.fenceAcq c).costab = s.costab := by cases c <;> rfl
@[simp] theorem State.fenceAcq_dict (s : State) (c : CoreId) : (s.fenceAcq c).dict = s.dict := by cases c <;> rfl
@[simp] theorem State.fenceAcq_pregs (s : State) (c : CoreId) : (s.fenceAcq c).pregs = s.pregs := by cases c <;> rfl
@[simp] theorem State.fenceAcq_wregs (s : State) (c : CoreId) : (s.fenceAcq c).wregs = s.wregs := by cases c <;> rfl
@[simp] theorem State.fenceAcq_best (s : State) (c : CoreId) : (s.fenceAcq c).best = s.best := by cases c <;> rfl
@[simp] theorem State.fenceAcq_bestd (s : State) (c : CoreId) : (s.fenceAcq c).bestd = s.bestd := by cases c <;> rfl
@[simp] theorem State.fenceAcq_rd (s : State) (c : CoreId) : (s.fenceAcq c).rd = s.rd := by cases c <;> rfl
@[simp] theorem State.fenceAcq_wjob (s : State) (c : CoreId) : (s.fenceAcq c).wjob = s.wjob := by cases c <;> rfl
@[simp] theorem State.fenceAcq_job (s : State) (c : CoreId) : (s.fenceAcq c).job = s.job := by cases c <;> rfl
@[simp] theorem State.fenceAcq_mem (s : State) (c : CoreId) : (s.fenceAcq c).mem = s.mem := by cases c <;> rfl
@[simp] theorem State.fenceAcq_memTop (s : State) (c : CoreId) : (s.fenceAcq c).memTop = s.memTop := by cases c <;> rfl
@[simp] theorem State.fenceAcq_pjob (s : State) (c : CoreId) : (s.fenceAcq c).pjob = s.pjob := by cases c <;> rfl
@[simp] theorem State.fenceAcq_pcmd (s : State) (c : CoreId) : (s.fenceAcq c).pcmd = s.pcmd := by cases c <;> rfl
@[simp] theorem State.fenceAcq_turns (s : State) (c : CoreId) : (s.fenceAcq c).turns = s.turns := by cases c <;> rfl
@[simp] theorem State.fenceAcq_clock (s : State) (c : CoreId) : (s.fenceAcq c).clock = s.clock := by cases c <;> rfl
@[simp] theorem State.fenceAcq_keeps (s : State) (c : CoreId) : (s.fenceAcq c).keeps = s.keeps := by cases c <;> rfl
@[simp] theorem State.fenceAcq_draws (s : State) (c : CoreId) : (s.fenceAcq c).draws = s.draws := by cases c <;> rfl
@[simp] theorem State.fenceAcq_hostRd (s : State) (c : CoreId) : (s.fenceAcq c).hostRd = s.hostRd := by cases c <;> rfl
@[simp] theorem State.fenceAcq_disturbed (s : State) (c : CoreId) : (s.fenceAcq c).disturbed = s.disturbed := by cases c <;> rfl

/-! ### `apply`: only shared storage changes -/

@[simp] theorem State.apply_src (s : State) (e : Pending) : (s.apply e).src = s.src := by cases e <;> rfl
@[simp] theorem State.apply_len (s : State) (e : Pending) : (s.apply e).len = s.len := by cases e <;> rfl
@[simp] theorem State.apply_cnt (s : State) (e : Pending) : (s.apply e).cnt = s.cnt := by cases e <;> rfl
@[simp] theorem State.apply_dst (s : State) (e : Pending) : (s.apply e).dst = s.dst := by cases e <;> rfl
@[simp] theorem State.apply_aux (s : State) (e : Pending) : (s.apply e).aux = s.aux := by cases e <;> rfl
@[simp] theorem State.apply_farg (s : State) (e : Pending) : (s.apply e).farg = s.farg := by cases e <;> rfl
@[simp] theorem State.apply_resi (s : State) (e : Pending) : (s.apply e).resi = s.resi := by cases e <;> rfl
@[simp] theorem State.apply_resf (s : State) (e : Pending) : (s.apply e).resf = s.resf := by cases e <;> rfl
@[simp] theorem State.apply_cmdr (s : State) (e : Pending) : (s.apply e).cmdr = s.cmdr := by cases e <;> rfl
@[simp] theorem State.apply_errinfo (s : State) (e : Pending) : (s.apply e).errinfo = s.errinfo := by cases e <;> rfl
@[simp] theorem State.apply_busy (s : State) (e : Pending) : (s.apply e).busy = s.busy := by cases e <;> rfl
@[simp] theorem State.apply_done (s : State) (e : Pending) : (s.apply e).done = s.done := by cases e <;> rfl
@[simp] theorem State.apply_ovr (s : State) (e : Pending) : (s.apply e).ovr = s.ovr := by cases e <;> rfl
@[simp] theorem State.apply_initd (s : State) (e : Pending) : (s.apply e).initd = s.initd := by cases e <;> rfl
@[simp] theorem State.apply_dictv (s : State) (e : Pending) : (s.apply e).dictv = s.dictv := by cases e <;> rfl
@[simp] theorem State.apply_wrun (s : State) (e : Pending) : (s.apply e).wrun = s.wrun := by cases e <;> rfl
@[simp] theorem State.apply_code (s : State) (e : Pending) : (s.apply e).code = s.code := by cases e <;> rfl
@[simp] theorem State.apply_pstage (s : State) (e : Pending) : (s.apply e).pstage = s.pstage := by cases e <;> rfl
@[simp] theorem State.apply_wstage (s : State) (e : Pending) : (s.apply e).wstage = s.wstage := by cases e <;> rfl
@[simp] theorem State.apply_sintab (s : State) (e : Pending) : (s.apply e).sintab = s.sintab := by cases e <;> rfl
@[simp] theorem State.apply_costab (s : State) (e : Pending) : (s.apply e).costab = s.costab := by cases e <;> rfl
@[simp] theorem State.apply_dict (s : State) (e : Pending) : (s.apply e).dict = s.dict := by cases e <;> rfl
@[simp] theorem State.apply_pregs (s : State) (e : Pending) : (s.apply e).pregs = s.pregs := by cases e <;> rfl
@[simp] theorem State.apply_wregs (s : State) (e : Pending) : (s.apply e).wregs = s.wregs := by cases e <;> rfl
@[simp] theorem State.apply_best (s : State) (e : Pending) : (s.apply e).best = s.best := by cases e <;> rfl
@[simp] theorem State.apply_bestd (s : State) (e : Pending) : (s.apply e).bestd = s.bestd := by cases e <;> rfl
@[simp] theorem State.apply_rd (s : State) (e : Pending) : (s.apply e).rd = s.rd := by cases e <;> rfl
@[simp] theorem State.apply_wjob (s : State) (e : Pending) : (s.apply e).wjob = s.wjob := by cases e <;> rfl
@[simp] theorem State.apply_pview (s : State) (e : Pending) : (s.apply e).pview = s.pview := by cases e <;> rfl
@[simp] theorem State.apply_wview (s : State) (e : Pending) : (s.apply e).wview = s.wview := by cases e <;> rfl
@[simp] theorem State.apply_memTop (s : State) (e : Pending) : (s.apply e).memTop = s.memTop := by cases e <;> rfl
@[simp] theorem State.apply_pjob (s : State) (e : Pending) : (s.apply e).pjob = s.pjob := by cases e <;> rfl
@[simp] theorem State.apply_pcmd (s : State) (e : Pending) : (s.apply e).pcmd = s.pcmd := by cases e <;> rfl
@[simp] theorem State.apply_turns (s : State) (e : Pending) : (s.apply e).turns = s.turns := by cases e <;> rfl
@[simp] theorem State.apply_clock (s : State) (e : Pending) : (s.apply e).clock = s.clock := by cases e <;> rfl
@[simp] theorem State.apply_keeps (s : State) (e : Pending) : (s.apply e).keeps = s.keeps := by cases e <;> rfl
@[simp] theorem State.apply_draws (s : State) (e : Pending) : (s.apply e).draws = s.draws := by cases e <;> rfl
@[simp] theorem State.apply_hostRd (s : State) (e : Pending) : (s.apply e).hostRd = s.hostRd := by cases e <;> rfl
@[simp] theorem State.apply_disturbed (s : State) (e : Pending) : (s.apply e).disturbed = s.disturbed := by cases e <;> rfl

/-! ### `land`: only shared storage and a view change -/

@[simp] theorem State.land_src (s : State) (c : CoreId) (e : Pending) : (s.land c e).src = s.src := by cases c <;> cases e <;> rfl
@[simp] theorem State.land_len (s : State) (c : CoreId) (e : Pending) : (s.land c e).len = s.len := by cases c <;> cases e <;> rfl
@[simp] theorem State.land_cnt (s : State) (c : CoreId) (e : Pending) : (s.land c e).cnt = s.cnt := by cases c <;> cases e <;> rfl
@[simp] theorem State.land_dst (s : State) (c : CoreId) (e : Pending) : (s.land c e).dst = s.dst := by cases c <;> cases e <;> rfl
@[simp] theorem State.land_aux (s : State) (c : CoreId) (e : Pending) : (s.land c e).aux = s.aux := by cases c <;> cases e <;> rfl
@[simp] theorem State.land_farg (s : State) (c : CoreId) (e : Pending) : (s.land c e).farg = s.farg := by cases c <;> cases e <;> rfl
@[simp] theorem State.land_resi (s : State) (c : CoreId) (e : Pending) : (s.land c e).resi = s.resi := by cases c <;> cases e <;> rfl
@[simp] theorem State.land_resf (s : State) (c : CoreId) (e : Pending) : (s.land c e).resf = s.resf := by cases c <;> cases e <;> rfl
@[simp] theorem State.land_cmdr (s : State) (c : CoreId) (e : Pending) : (s.land c e).cmdr = s.cmdr := by cases c <;> cases e <;> rfl
@[simp] theorem State.land_errinfo (s : State) (c : CoreId) (e : Pending) : (s.land c e).errinfo = s.errinfo := by cases c <;> cases e <;> rfl
@[simp] theorem State.land_busy (s : State) (c : CoreId) (e : Pending) : (s.land c e).busy = s.busy := by cases c <;> cases e <;> rfl
@[simp] theorem State.land_done (s : State) (c : CoreId) (e : Pending) : (s.land c e).done = s.done := by cases c <;> cases e <;> rfl
@[simp] theorem State.land_ovr (s : State) (c : CoreId) (e : Pending) : (s.land c e).ovr = s.ovr := by cases c <;> cases e <;> rfl
@[simp] theorem State.land_initd (s : State) (c : CoreId) (e : Pending) : (s.land c e).initd = s.initd := by cases c <;> cases e <;> rfl
@[simp] theorem State.land_dictv (s : State) (c : CoreId) (e : Pending) : (s.land c e).dictv = s.dictv := by cases c <;> cases e <;> rfl
@[simp] theorem State.land_wrun (s : State) (c : CoreId) (e : Pending) : (s.land c e).wrun = s.wrun := by cases c <;> cases e <;> rfl
@[simp] theorem State.land_code (s : State) (c : CoreId) (e : Pending) : (s.land c e).code = s.code := by cases c <;> cases e <;> rfl
@[simp] theorem State.land_pstage (s : State) (c : CoreId) (e : Pending) : (s.land c e).pstage = s.pstage := by cases c <;> cases e <;> rfl
@[simp] theorem State.land_wstage (s : State) (c : CoreId) (e : Pending) : (s.land c e).wstage = s.wstage := by cases c <;> cases e <;> rfl
@[simp] theorem State.land_sintab (s : State) (c : CoreId) (e : Pending) : (s.land c e).sintab = s.sintab := by cases c <;> cases e <;> rfl
@[simp] theorem State.land_costab (s : State) (c : CoreId) (e : Pending) : (s.land c e).costab = s.costab := by cases c <;> cases e <;> rfl
@[simp] theorem State.land_dict (s : State) (c : CoreId) (e : Pending) : (s.land c e).dict = s.dict := by cases c <;> cases e <;> rfl
@[simp] theorem State.land_pregs (s : State) (c : CoreId) (e : Pending) : (s.land c e).pregs = s.pregs := by cases c <;> cases e <;> rfl
@[simp] theorem State.land_wregs (s : State) (c : CoreId) (e : Pending) : (s.land c e).wregs = s.wregs := by cases c <;> cases e <;> rfl
@[simp] theorem State.land_best (s : State) (c : CoreId) (e : Pending) : (s.land c e).best = s.best := by cases c <;> cases e <;> rfl
@[simp] theorem State.land_bestd (s : State) (c : CoreId) (e : Pending) : (s.land c e).bestd = s.bestd := by cases c <;> cases e <;> rfl
@[simp] theorem State.land_rd (s : State) (c : CoreId) (e : Pending) : (s.land c e).rd = s.rd := by cases c <;> cases e <;> rfl
@[simp] theorem State.land_wjob (s : State) (c : CoreId) (e : Pending) : (s.land c e).wjob = s.wjob := by cases c <;> cases e <;> rfl
@[simp] theorem State.land_memTop (s : State) (c : CoreId) (e : Pending) : (s.land c e).memTop = s.memTop := by cases c <;> cases e <;> rfl
@[simp] theorem State.land_pjob (s : State) (c : CoreId) (e : Pending) : (s.land c e).pjob = s.pjob := by cases c <;> cases e <;> rfl
@[simp] theorem State.land_pcmd (s : State) (c : CoreId) (e : Pending) : (s.land c e).pcmd = s.pcmd := by cases c <;> cases e <;> rfl
@[simp] theorem State.land_turns (s : State) (c : CoreId) (e : Pending) : (s.land c e).turns = s.turns := by cases c <;> cases e <;> rfl
@[simp] theorem State.land_clock (s : State) (c : CoreId) (e : Pending) : (s.land c e).clock = s.clock := by cases c <;> cases e <;> rfl
@[simp] theorem State.land_keeps (s : State) (c : CoreId) (e : Pending) : (s.land c e).keeps = s.keeps := by cases c <;> cases e <;> rfl
@[simp] theorem State.land_draws (s : State) (c : CoreId) (e : Pending) : (s.land c e).draws = s.draws := by cases c <;> cases e <;> rfl
@[simp] theorem State.land_hostRd (s : State) (c : CoreId) (e : Pending) : (s.land c e).hostRd = s.hostRd := by cases c <;> cases e <;> rfl
@[simp] theorem State.land_disturbed (s : State) (c : CoreId) (e : Pending) : (s.land c e).disturbed = s.disturbed := by cases c <;> cases e <;> rfl

/-! ### `landAll`, `fenceRel`: only shared storage and a view change (R63) -/

@[simp] theorem State.landAll_src (s : State) (c : CoreId) (es : List Pending) : (s.landAll c es).src = s.src := by
  induction es generalizing s with
  | nil => rfl
  | cons e es ih => exact (ih (s.land c e)).trans (State.land_src s c e)

@[simp] theorem State.fenceRel_src (s : State) (c : CoreId) : (s.fenceRel c).src = s.src := by
  simp [State.fenceRel]

@[simp] theorem State.landAll_len (s : State) (c : CoreId) (es : List Pending) : (s.landAll c es).len = s.len := by
  induction es generalizing s with
  | nil => rfl
  | cons e es ih => exact (ih (s.land c e)).trans (State.land_len s c e)

@[simp] theorem State.fenceRel_len (s : State) (c : CoreId) : (s.fenceRel c).len = s.len := by
  simp [State.fenceRel]

@[simp] theorem State.landAll_cnt (s : State) (c : CoreId) (es : List Pending) : (s.landAll c es).cnt = s.cnt := by
  induction es generalizing s with
  | nil => rfl
  | cons e es ih => exact (ih (s.land c e)).trans (State.land_cnt s c e)

@[simp] theorem State.fenceRel_cnt (s : State) (c : CoreId) : (s.fenceRel c).cnt = s.cnt := by
  simp [State.fenceRel]

@[simp] theorem State.landAll_dst (s : State) (c : CoreId) (es : List Pending) : (s.landAll c es).dst = s.dst := by
  induction es generalizing s with
  | nil => rfl
  | cons e es ih => exact (ih (s.land c e)).trans (State.land_dst s c e)

@[simp] theorem State.fenceRel_dst (s : State) (c : CoreId) : (s.fenceRel c).dst = s.dst := by
  simp [State.fenceRel]

@[simp] theorem State.landAll_aux (s : State) (c : CoreId) (es : List Pending) : (s.landAll c es).aux = s.aux := by
  induction es generalizing s with
  | nil => rfl
  | cons e es ih => exact (ih (s.land c e)).trans (State.land_aux s c e)

@[simp] theorem State.fenceRel_aux (s : State) (c : CoreId) : (s.fenceRel c).aux = s.aux := by
  simp [State.fenceRel]

@[simp] theorem State.landAll_farg (s : State) (c : CoreId) (es : List Pending) : (s.landAll c es).farg = s.farg := by
  induction es generalizing s with
  | nil => rfl
  | cons e es ih => exact (ih (s.land c e)).trans (State.land_farg s c e)

@[simp] theorem State.fenceRel_farg (s : State) (c : CoreId) : (s.fenceRel c).farg = s.farg := by
  simp [State.fenceRel]

@[simp] theorem State.landAll_resi (s : State) (c : CoreId) (es : List Pending) : (s.landAll c es).resi = s.resi := by
  induction es generalizing s with
  | nil => rfl
  | cons e es ih => exact (ih (s.land c e)).trans (State.land_resi s c e)

@[simp] theorem State.fenceRel_resi (s : State) (c : CoreId) : (s.fenceRel c).resi = s.resi := by
  simp [State.fenceRel]

@[simp] theorem State.landAll_resf (s : State) (c : CoreId) (es : List Pending) : (s.landAll c es).resf = s.resf := by
  induction es generalizing s with
  | nil => rfl
  | cons e es ih => exact (ih (s.land c e)).trans (State.land_resf s c e)

@[simp] theorem State.fenceRel_resf (s : State) (c : CoreId) : (s.fenceRel c).resf = s.resf := by
  simp [State.fenceRel]

@[simp] theorem State.landAll_cmdr (s : State) (c : CoreId) (es : List Pending) : (s.landAll c es).cmdr = s.cmdr := by
  induction es generalizing s with
  | nil => rfl
  | cons e es ih => exact (ih (s.land c e)).trans (State.land_cmdr s c e)

@[simp] theorem State.fenceRel_cmdr (s : State) (c : CoreId) : (s.fenceRel c).cmdr = s.cmdr := by
  simp [State.fenceRel]

@[simp] theorem State.landAll_errinfo (s : State) (c : CoreId) (es : List Pending) : (s.landAll c es).errinfo = s.errinfo := by
  induction es generalizing s with
  | nil => rfl
  | cons e es ih => exact (ih (s.land c e)).trans (State.land_errinfo s c e)

@[simp] theorem State.fenceRel_errinfo (s : State) (c : CoreId) : (s.fenceRel c).errinfo = s.errinfo := by
  simp [State.fenceRel]

@[simp] theorem State.landAll_busy (s : State) (c : CoreId) (es : List Pending) : (s.landAll c es).busy = s.busy := by
  induction es generalizing s with
  | nil => rfl
  | cons e es ih => exact (ih (s.land c e)).trans (State.land_busy s c e)

@[simp] theorem State.fenceRel_busy (s : State) (c : CoreId) : (s.fenceRel c).busy = s.busy := by
  simp [State.fenceRel]

@[simp] theorem State.landAll_done (s : State) (c : CoreId) (es : List Pending) : (s.landAll c es).done = s.done := by
  induction es generalizing s with
  | nil => rfl
  | cons e es ih => exact (ih (s.land c e)).trans (State.land_done s c e)

@[simp] theorem State.fenceRel_done (s : State) (c : CoreId) : (s.fenceRel c).done = s.done := by
  simp [State.fenceRel]

@[simp] theorem State.landAll_ovr (s : State) (c : CoreId) (es : List Pending) : (s.landAll c es).ovr = s.ovr := by
  induction es generalizing s with
  | nil => rfl
  | cons e es ih => exact (ih (s.land c e)).trans (State.land_ovr s c e)

@[simp] theorem State.fenceRel_ovr (s : State) (c : CoreId) : (s.fenceRel c).ovr = s.ovr := by
  simp [State.fenceRel]

@[simp] theorem State.landAll_initd (s : State) (c : CoreId) (es : List Pending) : (s.landAll c es).initd = s.initd := by
  induction es generalizing s with
  | nil => rfl
  | cons e es ih => exact (ih (s.land c e)).trans (State.land_initd s c e)

@[simp] theorem State.fenceRel_initd (s : State) (c : CoreId) : (s.fenceRel c).initd = s.initd := by
  simp [State.fenceRel]

@[simp] theorem State.landAll_dictv (s : State) (c : CoreId) (es : List Pending) : (s.landAll c es).dictv = s.dictv := by
  induction es generalizing s with
  | nil => rfl
  | cons e es ih => exact (ih (s.land c e)).trans (State.land_dictv s c e)

@[simp] theorem State.fenceRel_dictv (s : State) (c : CoreId) : (s.fenceRel c).dictv = s.dictv := by
  simp [State.fenceRel]

@[simp] theorem State.landAll_wrun (s : State) (c : CoreId) (es : List Pending) : (s.landAll c es).wrun = s.wrun := by
  induction es generalizing s with
  | nil => rfl
  | cons e es ih => exact (ih (s.land c e)).trans (State.land_wrun s c e)

@[simp] theorem State.fenceRel_wrun (s : State) (c : CoreId) : (s.fenceRel c).wrun = s.wrun := by
  simp [State.fenceRel]

@[simp] theorem State.landAll_code (s : State) (c : CoreId) (es : List Pending) : (s.landAll c es).code = s.code := by
  induction es generalizing s with
  | nil => rfl
  | cons e es ih => exact (ih (s.land c e)).trans (State.land_code s c e)

@[simp] theorem State.fenceRel_code (s : State) (c : CoreId) : (s.fenceRel c).code = s.code := by
  simp [State.fenceRel]

@[simp] theorem State.landAll_pstage (s : State) (c : CoreId) (es : List Pending) : (s.landAll c es).pstage = s.pstage := by
  induction es generalizing s with
  | nil => rfl
  | cons e es ih => exact (ih (s.land c e)).trans (State.land_pstage s c e)

@[simp] theorem State.fenceRel_pstage (s : State) (c : CoreId) : (s.fenceRel c).pstage = s.pstage := by
  simp [State.fenceRel]

@[simp] theorem State.landAll_wstage (s : State) (c : CoreId) (es : List Pending) : (s.landAll c es).wstage = s.wstage := by
  induction es generalizing s with
  | nil => rfl
  | cons e es ih => exact (ih (s.land c e)).trans (State.land_wstage s c e)

@[simp] theorem State.fenceRel_wstage (s : State) (c : CoreId) : (s.fenceRel c).wstage = s.wstage := by
  simp [State.fenceRel]

@[simp] theorem State.landAll_sintab (s : State) (c : CoreId) (es : List Pending) : (s.landAll c es).sintab = s.sintab := by
  induction es generalizing s with
  | nil => rfl
  | cons e es ih => exact (ih (s.land c e)).trans (State.land_sintab s c e)

@[simp] theorem State.fenceRel_sintab (s : State) (c : CoreId) : (s.fenceRel c).sintab = s.sintab := by
  simp [State.fenceRel]

@[simp] theorem State.landAll_costab (s : State) (c : CoreId) (es : List Pending) : (s.landAll c es).costab = s.costab := by
  induction es generalizing s with
  | nil => rfl
  | cons e es ih => exact (ih (s.land c e)).trans (State.land_costab s c e)

@[simp] theorem State.fenceRel_costab (s : State) (c : CoreId) : (s.fenceRel c).costab = s.costab := by
  simp [State.fenceRel]

@[simp] theorem State.landAll_dict (s : State) (c : CoreId) (es : List Pending) : (s.landAll c es).dict = s.dict := by
  induction es generalizing s with
  | nil => rfl
  | cons e es ih => exact (ih (s.land c e)).trans (State.land_dict s c e)

@[simp] theorem State.fenceRel_dict (s : State) (c : CoreId) : (s.fenceRel c).dict = s.dict := by
  simp [State.fenceRel]

@[simp] theorem State.landAll_pregs (s : State) (c : CoreId) (es : List Pending) : (s.landAll c es).pregs = s.pregs := by
  induction es generalizing s with
  | nil => rfl
  | cons e es ih => exact (ih (s.land c e)).trans (State.land_pregs s c e)

@[simp] theorem State.fenceRel_pregs (s : State) (c : CoreId) : (s.fenceRel c).pregs = s.pregs := by
  simp [State.fenceRel]

@[simp] theorem State.landAll_wregs (s : State) (c : CoreId) (es : List Pending) : (s.landAll c es).wregs = s.wregs := by
  induction es generalizing s with
  | nil => rfl
  | cons e es ih => exact (ih (s.land c e)).trans (State.land_wregs s c e)

@[simp] theorem State.fenceRel_wregs (s : State) (c : CoreId) : (s.fenceRel c).wregs = s.wregs := by
  simp [State.fenceRel]

@[simp] theorem State.landAll_best (s : State) (c : CoreId) (es : List Pending) : (s.landAll c es).best = s.best := by
  induction es generalizing s with
  | nil => rfl
  | cons e es ih => exact (ih (s.land c e)).trans (State.land_best s c e)

@[simp] theorem State.fenceRel_best (s : State) (c : CoreId) : (s.fenceRel c).best = s.best := by
  simp [State.fenceRel]

@[simp] theorem State.landAll_bestd (s : State) (c : CoreId) (es : List Pending) : (s.landAll c es).bestd = s.bestd := by
  induction es generalizing s with
  | nil => rfl
  | cons e es ih => exact (ih (s.land c e)).trans (State.land_bestd s c e)

@[simp] theorem State.fenceRel_bestd (s : State) (c : CoreId) : (s.fenceRel c).bestd = s.bestd := by
  simp [State.fenceRel]

@[simp] theorem State.landAll_rd (s : State) (c : CoreId) (es : List Pending) : (s.landAll c es).rd = s.rd := by
  induction es generalizing s with
  | nil => rfl
  | cons e es ih => exact (ih (s.land c e)).trans (State.land_rd s c e)

@[simp] theorem State.fenceRel_rd (s : State) (c : CoreId) : (s.fenceRel c).rd = s.rd := by
  simp [State.fenceRel]

@[simp] theorem State.landAll_wjob (s : State) (c : CoreId) (es : List Pending) : (s.landAll c es).wjob = s.wjob := by
  induction es generalizing s with
  | nil => rfl
  | cons e es ih => exact (ih (s.land c e)).trans (State.land_wjob s c e)

@[simp] theorem State.fenceRel_wjob (s : State) (c : CoreId) : (s.fenceRel c).wjob = s.wjob := by
  simp [State.fenceRel]

@[simp] theorem State.landAll_memTop (s : State) (c : CoreId) (es : List Pending) : (s.landAll c es).memTop = s.memTop := by
  induction es generalizing s with
  | nil => rfl
  | cons e es ih => exact (ih (s.land c e)).trans (State.land_memTop s c e)

@[simp] theorem State.fenceRel_memTop (s : State) (c : CoreId) : (s.fenceRel c).memTop = s.memTop := by
  simp [State.fenceRel]

@[simp] theorem State.landAll_pjob (s : State) (c : CoreId) (es : List Pending) : (s.landAll c es).pjob = s.pjob := by
  induction es generalizing s with
  | nil => rfl
  | cons e es ih => exact (ih (s.land c e)).trans (State.land_pjob s c e)

@[simp] theorem State.fenceRel_pjob (s : State) (c : CoreId) : (s.fenceRel c).pjob = s.pjob := by
  simp [State.fenceRel]

@[simp] theorem State.landAll_pcmd (s : State) (c : CoreId) (es : List Pending) : (s.landAll c es).pcmd = s.pcmd := by
  induction es generalizing s with
  | nil => rfl
  | cons e es ih => exact (ih (s.land c e)).trans (State.land_pcmd s c e)

@[simp] theorem State.fenceRel_pcmd (s : State) (c : CoreId) : (s.fenceRel c).pcmd = s.pcmd := by
  simp [State.fenceRel]

@[simp] theorem State.landAll_turns (s : State) (c : CoreId) (es : List Pending) : (s.landAll c es).turns = s.turns := by
  induction es generalizing s with
  | nil => rfl
  | cons e es ih => exact (ih (s.land c e)).trans (State.land_turns s c e)

@[simp] theorem State.fenceRel_turns (s : State) (c : CoreId) : (s.fenceRel c).turns = s.turns := by
  simp [State.fenceRel]

@[simp] theorem State.landAll_clock (s : State) (c : CoreId) (es : List Pending) : (s.landAll c es).clock = s.clock := by
  induction es generalizing s with
  | nil => rfl
  | cons e es ih => exact (ih (s.land c e)).trans (State.land_clock s c e)

@[simp] theorem State.fenceRel_clock (s : State) (c : CoreId) : (s.fenceRel c).clock = s.clock := by
  simp [State.fenceRel]

@[simp] theorem State.landAll_keeps (s : State) (c : CoreId) (es : List Pending) : (s.landAll c es).keeps = s.keeps := by
  induction es generalizing s with
  | nil => rfl
  | cons e es ih => exact (ih (s.land c e)).trans (State.land_keeps s c e)

@[simp] theorem State.fenceRel_keeps (s : State) (c : CoreId) : (s.fenceRel c).keeps = s.keeps := by
  simp [State.fenceRel]

@[simp] theorem State.landAll_draws (s : State) (c : CoreId) (es : List Pending) : (s.landAll c es).draws = s.draws := by
  induction es generalizing s with
  | nil => rfl
  | cons e es ih => exact (ih (s.land c e)).trans (State.land_draws s c e)

@[simp] theorem State.fenceRel_draws (s : State) (c : CoreId) : (s.fenceRel c).draws = s.draws := by
  simp [State.fenceRel]

@[simp] theorem State.landAll_hostRd (s : State) (c : CoreId) (es : List Pending) : (s.landAll c es).hostRd = s.hostRd := by
  induction es generalizing s with
  | nil => rfl
  | cons e es ih => exact (ih (s.land c e)).trans (State.land_hostRd s c e)

@[simp] theorem State.fenceRel_hostRd (s : State) (c : CoreId) : (s.fenceRel c).hostRd = s.hostRd := by
  simp [State.fenceRel]

@[simp] theorem State.landAll_disturbed (s : State) (c : CoreId) (es : List Pending) : (s.landAll c es).disturbed = s.disturbed := by
  induction es generalizing s with
  | nil => rfl
  | cons e es ih => exact (ih (s.land c e)).trans (State.land_disturbed s c e)

@[simp] theorem State.fenceRel_disturbed (s : State) (c : CoreId) : (s.fenceRel c).disturbed = s.disturbed := by
  simp [State.fenceRel]

/-! ### `settle`: what the host wrote meanwhile becomes unspecified (R179) -/

@[simp] theorem State.settle_src (s : State) : (s.settle).src = s.src := rfl
@[simp] theorem State.settle_len (s : State) : (s.settle).len = s.len := rfl
@[simp] theorem State.settle_cnt (s : State) : (s.settle).cnt = s.cnt := rfl
@[simp] theorem State.settle_dst (s : State) : (s.settle).dst = s.dst := rfl
@[simp] theorem State.settle_aux (s : State) : (s.settle).aux = s.aux := rfl
@[simp] theorem State.settle_farg (s : State) : (s.settle).farg = s.farg := rfl
@[simp] theorem State.settle_resi (s : State) : (s.settle).resi = s.resi := rfl
@[simp] theorem State.settle_resf (s : State) : (s.settle).resf = s.resf := rfl
@[simp] theorem State.settle_cmdr (s : State) : (s.settle).cmdr = s.cmdr := rfl
@[simp] theorem State.settle_errinfo (s : State) : (s.settle).errinfo = s.errinfo := rfl
@[simp] theorem State.settle_busy (s : State) : (s.settle).busy = s.busy := rfl
@[simp] theorem State.settle_done (s : State) : (s.settle).done = s.done := rfl
@[simp] theorem State.settle_ovr (s : State) : (s.settle).ovr = s.ovr := rfl
@[simp] theorem State.settle_initd (s : State) : (s.settle).initd = s.initd := rfl
@[simp] theorem State.settle_dictv (s : State) : (s.settle).dictv = s.dictv := rfl
@[simp] theorem State.settle_wrun (s : State) : (s.settle).wrun = s.wrun := rfl
@[simp] theorem State.settle_code (s : State) : (s.settle).code = s.code := rfl
@[simp] theorem State.settle_pstage (s : State) : (s.settle).pstage = s.pstage := rfl
@[simp] theorem State.settle_wstage (s : State) : (s.settle).wstage = s.wstage := rfl
@[simp] theorem State.settle_sintab (s : State) : (s.settle).sintab = s.sintab := rfl
@[simp] theorem State.settle_costab (s : State) : (s.settle).costab = s.costab := rfl
@[simp] theorem State.settle_dict (s : State) : (s.settle).dict = s.dict := rfl
@[simp] theorem State.settle_pregs (s : State) : (s.settle).pregs = s.pregs := rfl
@[simp] theorem State.settle_wregs (s : State) : (s.settle).wregs = s.wregs := rfl
@[simp] theorem State.settle_best (s : State) : (s.settle).best = s.best := rfl
@[simp] theorem State.settle_bestd (s : State) : (s.settle).bestd = s.bestd := rfl
@[simp] theorem State.settle_rd (s : State) : (s.settle).rd = s.rd := rfl
@[simp] theorem State.settle_wjob (s : State) : (s.settle).wjob = s.wjob := rfl
@[simp] theorem State.settle_pview (s : State) : (s.settle).pview = s.pview := rfl
@[simp] theorem State.settle_wview (s : State) : (s.settle).wview = s.wview := rfl
@[simp] theorem State.settle_job (s : State) : (s.settle).job = s.job := rfl
@[simp] theorem State.settle_memTop (s : State) : (s.settle).memTop = s.memTop := rfl
@[simp] theorem State.settle_pjob (s : State) : (s.settle).pjob = s.pjob := rfl
@[simp] theorem State.settle_pcmd (s : State) : (s.settle).pcmd = s.pcmd := rfl
@[simp] theorem State.settle_turns (s : State) : (s.settle).turns = s.turns := rfl
@[simp] theorem State.settle_clock (s : State) : (s.settle).clock = s.clock := rfl
@[simp] theorem State.settle_keeps (s : State) : (s.settle).keeps = s.keeps := rfl
@[simp] theorem State.settle_hostRd (s : State) : (s.settle).hostRd = s.hostRd := rfl
@[simp] theorem State.settle_disturbed (s : State) : (s.settle).disturbed = [] := rfl
@[simp] theorem State.settle_draws (s : State) : (s.settle).draws = s.draws + s.disturbed.length := rfl

/-! ### `finish` (R86) -/

@[simp] theorem State.finish_src (s : State) : s.finish.src = s.src := State.fenceRel_src s .p
@[simp] theorem State.finish_len (s : State) : s.finish.len = s.len := State.fenceRel_len s .p
@[simp] theorem State.finish_cnt (s : State) : s.finish.cnt = s.cnt := State.fenceRel_cnt s .p
@[simp] theorem State.finish_dst (s : State) : s.finish.dst = s.dst := State.fenceRel_dst s .p
@[simp] theorem State.finish_aux (s : State) : s.finish.aux = s.aux := State.fenceRel_aux s .p
@[simp] theorem State.finish_farg (s : State) : s.finish.farg = s.farg := State.fenceRel_farg s .p
@[simp] theorem State.finish_resi (s : State) : s.finish.resi = s.resi := State.fenceRel_resi s .p
@[simp] theorem State.finish_resf (s : State) : s.finish.resf = s.resf := State.fenceRel_resf s .p
@[simp] theorem State.finish_cmdr (s : State) : s.finish.cmdr = s.cmdr := State.fenceRel_cmdr s .p
@[simp] theorem State.finish_errinfo (s : State) : s.finish.errinfo = s.errinfo := State.fenceRel_errinfo s .p
@[simp] theorem State.finish_ovr (s : State) : s.finish.ovr = s.ovr := State.fenceRel_ovr s .p
@[simp] theorem State.finish_initd (s : State) : s.finish.initd = s.initd := State.fenceRel_initd s .p
@[simp] theorem State.finish_dictv (s : State) : s.finish.dictv = s.dictv := State.fenceRel_dictv s .p
@[simp] theorem State.finish_wrun (s : State) : s.finish.wrun = s.wrun := State.fenceRel_wrun s .p
@[simp] theorem State.finish_wstage (s : State) : s.finish.wstage = s.wstage := State.fenceRel_wstage s .p
@[simp] theorem State.finish_sintab (s : State) : s.finish.sintab = s.sintab := State.fenceRel_sintab s .p
@[simp] theorem State.finish_costab (s : State) : s.finish.costab = s.costab := State.fenceRel_costab s .p
@[simp] theorem State.finish_dict (s : State) : s.finish.dict = s.dict := State.fenceRel_dict s .p
@[simp] theorem State.finish_pregs (s : State) : s.finish.pregs = s.pregs := State.fenceRel_pregs s .p
@[simp] theorem State.finish_wregs (s : State) : s.finish.wregs = s.wregs := State.fenceRel_wregs s .p
@[simp] theorem State.finish_best (s : State) : s.finish.best = s.best := State.fenceRel_best s .p
@[simp] theorem State.finish_bestd (s : State) : s.finish.bestd = s.bestd := State.fenceRel_bestd s .p
@[simp] theorem State.finish_rd (s : State) : s.finish.rd = s.rd := State.fenceRel_rd s .p
@[simp] theorem State.finish_wjob (s : State) : s.finish.wjob = s.wjob := State.fenceRel_wjob s .p
@[simp] theorem State.finish_memTop (s : State) : s.finish.memTop = s.memTop := State.fenceRel_memTop s .p
@[simp] theorem State.finish_pjob (s : State) : s.finish.pjob = s.pjob := State.fenceRel_pjob s .p
@[simp] theorem State.finish_pcmd (s : State) : s.finish.pcmd = s.pcmd := State.fenceRel_pcmd s .p
@[simp] theorem State.finish_turns (s : State) : s.finish.turns = s.turns := State.fenceRel_turns s .p
@[simp] theorem State.finish_clock (s : State) : s.finish.clock = s.clock := State.fenceRel_clock s .p
@[simp] theorem State.finish_keeps (s : State) : s.finish.keeps = s.keeps := State.fenceRel_keeps s .p
@[simp] theorem State.finish_hostRd (s : State) : s.finish.hostRd = s.hostRd := State.fenceRel_hostRd s .p
@[simp] theorem State.finish_draws (s : State) : s.finish.draws = s.draws + s.disturbed.length := by
  show (s.fenceRel .p).draws + (s.fenceRel .p).disturbed.length = _
  simp
@[simp] theorem State.finish_busy (s : State) : s.finish.busy = false := rfl
@[simp] theorem State.finish_done (s : State) : s.finish.done = true := rfl
@[simp] theorem State.finish_code (s : State) : s.finish.code = .ok := rfl
@[simp] theorem State.finish_pstage (s : State) : s.finish.pstage = .idle := rfl
@[simp] theorem State.finish_disturbed (s : State) : s.finish.disturbed = [] := rfl

/-! ### What the two-core accessors read back -/

@[simp] theorem State.regs_p (s : State) : s.regs .p = s.pregs := rfl
@[simp] theorem State.regs_w (s : State) : s.regs .w = s.wregs := rfl
@[simp] theorem State.view_p (s : State) : s.view .p = s.pview := rfl
@[simp] theorem State.view_w (s : State) : s.view .w = s.wview := rfl
@[simp] theorem State.setRegs_regs (s : State) (c : CoreId) (r : Datapath) : (s.setRegs c r).regs c = r := by
  cases c <;> rfl
@[simp] theorem State.setView_view (s : State) (c : CoreId) (v : View) : (s.setView c v).view c = v := by
  cases c <;> rfl
@[simp] theorem State.setView_regs (s : State) (c d : CoreId) (v : View) : (s.setView c v).regs d = s.regs d := by
  cases c <;> cases d <;> rfl
@[simp] theorem State.setRegs_view (s : State) (c d : CoreId) (r : Datapath) : (s.setRegs c r).view d = s.view d := by
  cases c <;> cases d <;> rfl
@[simp] theorem State.setRegs_p_pregs (s : State) (r : Datapath) : (s.setRegs .p r).pregs = r := rfl
@[simp] theorem State.setRegs_p_wregs (s : State) (r : Datapath) : (s.setRegs .p r).wregs = s.wregs := rfl
@[simp] theorem State.setRegs_w_wregs (s : State) (r : Datapath) : (s.setRegs .w r).wregs = r := rfl
@[simp] theorem State.setRegs_w_pregs (s : State) (r : Datapath) : (s.setRegs .w r).pregs = s.pregs := rfl
@[simp] theorem State.setView_p_pview (s : State) (v : View) : (s.setView .p v).pview = v := rfl
@[simp] theorem State.setView_p_wview (s : State) (v : View) : (s.setView .p v).wview = s.wview := rfl
@[simp] theorem State.setView_w_wview (s : State) (v : View) : (s.setView .w v).wview = v := rfl
@[simp] theorem State.setView_w_pview (s : State) (v : View) : (s.setView .w v).pview = s.pview := rfl
@[simp] theorem State.setView_mem' (s : State) (c : CoreId) (v : View) : (s.setView c v).memBytes = s.memBytes := by
  cases c <;> rfl
@[simp] theorem State.memBytes_of_top {s t : State} (h : t.memTop = s.memTop) : t.memBytes = s.memBytes := by
  simp [State.memBytes, h]

/-! ### The slot -/

@[simp] theorem JobSlot.get_set_same {α : Type} (j : JobSlot α) (i : JobIx) (v : α) : (j.set i v).get i = v := by
  cases i <;> rfl

theorem JobSlot.get_set {α : Type} (j : JobSlot α) (i k : JobIx) (v : α) :
    (j.set i v).get k = if k = i then v else j.get k := by
  cases i <;> cases k <;> rfl

@[simp] theorem JobSlot.get_fill {α : Type} (v : α) (i : JobIx) : (JobSlot.fill v).get i = v := by
  cases i <;> rfl

end Sys2Proof.Machine
end

