-- ==== Sys2Proof/Laws/View.lean ====
section
/-! SUPPORT. What a core sees: a core reads its own write, a kept copy changes nothing that is read next, an acquire
fence leaves shared storage overlaid with the pending writes, and a release fence puts exactly that overlay into
shared storage (20_memory.md rules R59, R60, R63, R64). -/

namespace Sys2Proof.Machine

/-! ### Overlays -/

/-- A byte after a list of pending writes, oldest first. -/
theorem foldl_overlayByte_append (es : List Pending) (e : Pending) (a : Nat) (b : Byte) :
    (es ++ [e]).foldl (fun b e => e.overlayByte a b) b = e.overlayByte a (es.foldl (fun b e => e.overlayByte a b) b) := by
  simp

/-- Byte `i` of a word built from bytes. -/
theorem wordByte_wordOfBytes (b0 b1 b2 b3 : Byte) :
    wordByte (wordOfBytes b0 b1 b2 b3) 0 = b0 ∧ wordByte (wordOfBytes b0 b1 b2 b3) 1 = b1 ∧
      wordByte (wordOfBytes b0 b1 b2 b3) 2 = b2 ∧ wordByte (wordOfBytes b0 b1 b2 b3) 3 = b3 := by
  refine ⟨?_, ?_, ?_, ?_⟩ <;>
  · apply BitVec.eq_of_getLsbD_eq
    intro i hi
    simp only [wordByte, wordOfBytes, BitVec.getLsbD_extractLsb', BitVec.getLsbD_append]
    have h1 : ¬ 8 * 1 + i < 8 := by omega
    have h2 : ¬ 8 * 2 + i < 8 := by omega
    have h3 : ¬ 8 * 3 + i < 8 := by omega
    have h4 : ¬ 8 * 2 + i - 8 < 8 := by omega
    have h5 : ¬ 8 * 3 + i - 8 < 8 := by omega
    have h6 : ¬ 8 * 3 + i - 8 - 8 < 8 := by omega
    have e1 : 8 * 1 + i - 8 = i := by omega
    have e2 : 8 * 2 + i - 8 - 8 = i := by omega
    have e3 : 8 * 3 + i - 8 - 8 - 8 = i := by omega
    simp only [hi, h1, h2, h3, h4, h5, h6, e1, e2, e3, decide_true, Bool.true_and, if_false, if_true, Nat.mul_zero,
      Nat.zero_add]

/-- The byte at address `a` of the word that contains it, read from shared storage. -/
theorem wordByte_readWord (m : Memory) (a : Nat) : wordByte (m.readWord (4 * (a / 4))) (a % 4) = m.read a := by
  have h := wordByte_wordOfBytes (m.read (4 * (a / 4))) (m.read (4 * (a / 4) + 1)) (m.read (4 * (a / 4) + 2))
    (m.read (4 * (a / 4) + 3))
  have hm : a % 4 < 4 := Nat.mod_lt _ (by decide)
  have ha : a = 4 * (a / 4) + a % 4 := (Nat.div_add_mod a 4).symm
  unfold Memory.readWord
  rcases hk : a % 4 with _ | _ | _ | _ | k
  · rw [hk] at ha; rw [h.1]; congr 1; exact ha.symm
  · rw [hk] at ha; rw [h.2.1]; congr 1; exact ha.symm
  · rw [hk] at ha; rw [h.2.2.1]; congr 1; exact ha.symm
  · rw [hk] at ha; rw [h.2.2.2]; congr 1; exact ha.symm
  · omega

/-! ### Copies -/

theorem copyOf_insertCopy (cs : List (Nat × Word)) (k j : Nat) (w : Word) (h : copyOf cs k = none) :
    copyOf (insertCopy cs k w) j = if j = k then some w else copyOf cs j := by
  induction cs with
  | nil => simp [insertCopy, copyOf]
  | cons c t ih =>
    have hk : ¬ k = c.1 := by intro he; simp [copyOf, he] at h
    have ht : copyOf t k = none := by simpa [copyOf, hk] using h
    simp only [insertCopy]
    split
    · simp [copyOf]
    · simp only [copyOf]
      by_cases hj : j = c.1
      · have : ¬ c.1 = k := fun e => hk e.symm
        simp [hj, this]
      · simp [hj, ih ht]

/-- A copy taken from shared storage changes no byte seen through the view. -/
theorem View.keepWord_byte (v : View) (m : Memory) (k a : Nat) (h : copyOf v.mcopies k = none) :
    (v.keepWord m k).byte m a = v.byte m a := by
  have hb : (v.keepWord m k).base m a = v.base m a := by
    unfold View.base View.keepWord
    rw [copyOf_insertCopy _ _ _ _ h]
    by_cases he : a / 4 = k
    · subst he; simp [h, wordByte_readWord]
    · simp [he]
  unfold View.byte
  rw [hb]
  rfl

/-- What a read of `MEM` does to the state: nothing, or a choice is used, or a choice is used and a copy taken. -/
theorem State.noteWord_cases (s : State) (c : CoreId) (k : Nat) :
    s.noteWord c k = s ∨ s.noteWord c k = s.dropKeep ∨
      (copyOf (s.view c).mcopies k = none ∧
        s.noteWord c k = s.dropKeep.setView c ((s.view c).keepWord s.mem k)) := by
  unfold State.noteWord
  split
  · exact .inl rfl
  · rename_i h
    split
    · exact .inr (.inr ⟨by simpa using h, rfl⟩)
    · exact .inr (.inl rfl)

/-- What a read of the slot does to the state. -/
theorem State.noteJob_cases (s : State) (c : CoreId) (i : JobIx) :
    s.noteJob c i = s ∨ s.noteJob c i = s.dropKeep ∨
      ((s.view c).jcopies.get i = none ∧
        s.noteJob c i = s.dropKeep.setView c ((s.view c).keepJob s.job i)) := by
  unfold State.noteJob
  split
  · exact .inl rfl
  · rename_i h
    split
    · exact .inr (.inr ⟨by simpa using h, rfl⟩)
    · exact .inr (.inl rfl)

/-- A read that may leave a copy changes no byte the core reads next. -/
@[simp] theorem State.noteWord_coreByte (s : State) (c : CoreId) (k a : Nat) :
    (s.noteWord c k).coreByte c a = s.coreByte c a := by
  rcases s.noteWord_cases c k with h | h | ⟨hn, h⟩ <;> rw [h]
  · cases c <;> rfl
  · simp only [State.coreByte, State.setView_view, State.setView_mem, State.dropKeep_mem]
    exact View.keepWord_byte _ _ _ _ hn

/-! ### Deleted copies (R59) -/

theorem copyOf_filter (cs : List (Nat × Word)) (p : Nat → Bool) (k : Nat) :
    copyOf (cs.filter (fun c => p c.1)) k = if p k then copyOf cs k else none := by
  induction cs with
  | nil => simp [copyOf]
  | cons c t ih =>
    by_cases hp : p c.1
    · by_cases hk : k = c.1
      · simp [hp, copyOf, hk]
      · simp [hp, copyOf, hk, ih]
    · by_cases hk : k = c.1
      · have hp' : ¬ p k = true := hk ▸ hp
        simp [hp, ih, hp']
      · simp [hp, copyOf, hk, ih]

theorem Pending.overlayByte_of_touches {e : Pending} {a : Nat} (h : e.touchesWord (a / 4) = false) (b : Byte) :
    e.overlayByte a b = b := by
  cases e with
  | byte x v =>
    have : ¬ a = x := by rintro rfl; simp [Pending.touchesWord] at h
    simp [Pending.overlayByte, this]
  | word x v =>
    have : ¬ (x ≤ a ∧ a < x + 4) := by
      rintro ⟨h1, h2⟩
      simp only [Pending.touchesWord, Bool.or_eq_false_iff, beq_eq_false_iff_ne, ne_eq] at h
      omega
    simp [Pending.overlayByte, this]
  | job i v => rfl

/-! ### Fresh copies -/

/-- Every copy of a `MEM` word is what shared storage holds. It is so after an acquire fence, and as long as shared
storage does not change. -/
def View.fresh (v : View) (m : Memory) : Prop := ∀ k w, copyOf v.mcopies k = some w → w = m.readWord (4 * k)

/-- Through fresh copies a core sees shared storage overlaid with its own pending writes. -/
theorem View.byte_of_fresh {v : View} {m : Memory} (h : v.fresh m) (a : Nat) :
    v.byte m a = v.sb.foldl (fun b e => e.overlayByte a b) (m.read a) := by
  have hb : v.base m a = m.read a := by
    unfold View.base
    split
    · rename_i w hw; rw [h _ _ hw, wordByte_readWord]
    · rfl
  rw [View.byte, hb]

theorem View.fresh_of_no_copies {v : View} (m : Memory) (h : v.mcopies = []) : v.fresh m := by
  intro k w hw; simp [h, copyOf] at hw

theorem View.fresh_keepWord {v : View} {m : Memory} (h : v.fresh m) (k : Nat) (hk : copyOf v.mcopies k = none) :
    (v.keepWord m k).fresh m := by
  intro j w hj
  rw [View.keepWord, copyOf_insertCopy _ _ _ _ hk] at hj
  by_cases he : j = k
  · subst he; simpa using hj.symm
  · exact h j w (by simpa [he] using hj)

theorem View.fresh_drop {v : View} {m : Memory} (h : v.fresh m) (e : Pending) : (v.drop e).fresh m := by
  intro k w hk
  have hk : copyOf (v.mcopies.filter (fun c => !e.touchesWord c.1)) k = some w := hk
  rw [copyOf_filter v.mcopies (fun k => !e.touchesWord k) k] at hk
  split at hk
  · exact h k w hk
  · cases hk

theorem State.fenceAcq_fresh (s : State) (c : CoreId) : ((s.fenceAcq c).view c).fresh (s.fenceAcq c).mem :=
  View.fresh_of_no_copies _ (by cases c <;> rfl)

theorem State.noteWord_mem (s : State) (c : CoreId) (k : Nat) : (s.noteWord c k).mem = s.mem := by
  rcases s.noteWord_cases c k with h | h | ⟨-, h⟩ <;> simp [h]

theorem State.noteWord_sb (s : State) (c : CoreId) (k : Nat) : ((s.noteWord c k).view c).sb = (s.view c).sb := by
  rcases s.noteWord_cases c k with h | h | ⟨-, h⟩ <;> rw [h]
  · cases c <;> rfl
  · rw [State.setView_view]; rfl

theorem State.noteWord_fresh (s : State) (c : CoreId) (k : Nat) (h : (s.view c).fresh s.mem) :
    ((s.noteWord c k).view c).fresh (s.noteWord c k).mem := by
  rcases s.noteWord_cases c k with he | he | ⟨hn, he⟩ <;> rw [he]
  · exact h
  · cases c <;> exact h
  · rw [State.setView_view, State.setView_mem]; exact View.fresh_keepWord h k hn

theorem State.enqueue_fresh (s : State) (c : CoreId) (e : Pending) (h : (s.view c).fresh s.mem) :
    ((s.enqueue c e).view c).fresh (s.enqueue c e).mem := by
  rw [State.enqueue, State.setView_view, State.setView_mem]
  exact View.fresh_drop h e

/-- A core reads its own write (R59, R60): after it, every byte is the byte before with the write on top. -/
theorem State.enqueue_coreByte (s : State) (c : CoreId) (e : Pending) (a : Nat) (h : (s.view c).fresh s.mem) :
    (s.enqueue c e).coreByte c a = e.overlayByte a (s.coreByte c a) := by
  rw [State.coreByte, View.byte_of_fresh (s.enqueue_fresh c e h), State.coreByte, View.byte_of_fresh h]
  simp [State.enqueue, View.enqueue]

/-- After a release fence or with no copies: what a core reads is shared storage overlaid with its pending writes. -/
theorem State.coreByte_of_no_copies (s : State) (c : CoreId) (a : Nat) (h : (s.view c).mcopies = []) :
    s.coreByte c a = (s.view c).sb.foldl (fun b e => e.overlayByte a b) (s.mem.read a) := by
  simp [State.coreByte, View.byte, View.base, h, copyOf]

/-- After the acquire fence (R64). -/
@[simp] theorem State.fenceAcq_coreByte (s : State) (c : CoreId) (a : Nat) :
    (s.fenceAcq c).coreByte c a = (s.view c).sb.foldl (fun b e => e.overlayByte a b) (s.mem.read a) := by
  cases c <;> rfl

/-! ### The release fence (R63) -/

theorem State.apply_read (s : State) (e : Pending) (a : Nat) (h : s.mem.wf = true) :
    (s.apply e).mem.read a = e.overlayByte a (s.mem.read a) := by
  cases e with
  | byte x v => exact Memory.read_write _ _ _ h
  | word x v => exact Memory.read_writeWord _ _ _ h
  | job i v => rfl

theorem State.apply_wf (s : State) (e : Pending) (h : s.mem.wf = true) : (s.apply e).mem.wf = true := by
  cases e with
  | byte x v => exact Memory.wf_write _ _ h
  | word x v => exact Memory.wf_writeWord _ _ h
  | job i v => exact h

@[simp] theorem State.land_mem (s : State) (c : CoreId) (e : Pending) : (s.land c e).mem = (s.apply e).mem := by
  cases c <;> rfl

@[simp] theorem State.land_job (s : State) (c : CoreId) (e : Pending) : (s.land c e).job = (s.apply e).job := by
  cases c <;> rfl

theorem State.landAll_wf (s : State) (c : CoreId) (es : List Pending) (h : s.mem.wf = true) :
    (s.landAll c es).mem.wf = true := by
  induction es generalizing s with
  | nil => exact h
  | cons e es ih => exact ih (s.land c e) (by rw [State.land_mem]; exact State.apply_wf s e h)

theorem State.landAll_read (s : State) (c : CoreId) (es : List Pending) (a : Nat) (h : s.mem.wf = true) :
    (s.landAll c es).mem.read a = es.foldl (fun b e => e.overlayByte a b) (s.mem.read a) := by
  induction es generalizing s with
  | nil => rfl
  | cons e es ih =>
    have := ih (s.land c e) (by rw [State.land_mem]; exact State.apply_wf s e h)
    rw [State.land_mem, State.apply_read s e a h] at this
    exact this

/-- The release fence keeps the canonical form. -/
theorem State.fenceRel_wf (s : State) (c : CoreId) (h : s.mem.wf = true) : (s.fenceRel c).mem.wf = true :=
  State.landAll_wf _ c _ (by simpa using h)

/-- The release fence puts every pending byte into shared storage, the newest last (R63). -/
theorem State.fenceRel_read (s : State) (c : CoreId) (a : Nat) (h : s.mem.wf = true) :
    (s.fenceRel c).mem.read a = (s.view c).sb.foldl (fun b e => e.overlayByte a b) (s.mem.read a) := by
  have := State.landAll_read (s.setView c { s.view c with sb := [] }) c (s.view c).sb a (by simpa using h)
  rw [State.setView_mem] at this
  exact this

/-- Writes that reach shared storage patch the copies of their own core and leave the other core's view alone. -/
theorem State.landAll_view (s : State) (c d : CoreId) (es : List Pending) :
    (s.landAll c es).view d = if d = c then es.foldl View.patch (s.view c) else s.view d := by
  induction es generalizing s with
  | nil => cases c <;> cases d <;> rfl
  | cons e es ih =>
    refine (ih (s.land c e)).trans ?_
    cases c <;> cases d <;> cases e <;> rfl

theorem View.patchAll_sb (v : View) (es : List Pending) : (es.foldl View.patch v).sb = v.sb := by
  induction es generalizing v with
  | nil => rfl
  | cons e es ih => exact ih (v.patch e)

/-- The release fence empties the store buffer, patches the core's own copies and leaves the other core's view alone
(R61, R63). -/
theorem State.fenceRel_view (s : State) (c d : CoreId) :
    (s.fenceRel c).view d =
      if d = c then (s.view c).sb.foldl View.patch { s.view c with sb := [] } else s.view d := by
  rw [State.fenceRel, State.landAll_view, State.setView_view]
  cases c <;> cases d <;> rfl

@[simp] theorem State.fenceRel_sb (s : State) (c : CoreId) : ((s.fenceRel c).view c).sb = [] := by
  rw [State.fenceRel_view, if_pos rfl, View.patchAll_sb]

/-! ### Bytes the host wrote while a command ran (R179) -/

/-- Where the host has written nothing meanwhile, a core's read returns what R60 says … -/
theorem State.seenByte_calm (s : State) (c : CoreId) (h : s.disturbed = []) : s.seenByte c = s.coreByte c := by
  funext a; simp [State.seenByte, h]

/-- … uses up no free value, and at most leaves a copy. -/
theorem State.noteRead_calm (s : State) (c : CoreId) (a n : Nat) (h : s.disturbed = []) :
    s.noteRead c a n = s.noteWord c (a / 4) := by
  simp [State.noteRead, h]

/-- What a core's read does to the state, whatever the host did. -/
theorem State.noteRead_cases (s : State) (c : CoreId) (a n : Nat) :
    s.noteRead c a n = s.noteWord c (a / 4) ∨ s.noteRead c a n = (s.noteWord c (a / 4)).draw 1 := by
  unfold State.noteRead; split
  · exact .inr rfl
  · exact .inl rfl

/-- Where the host has written nothing meanwhile, a command's end finds nothing to settle. -/
theorem State.settle_calm (s : State) (h : s.disturbed = []) : s.settle = s := by
  cases s; cases h; rfl

/-- Bytes put one after another: an address none of them has reads as before. -/
theorem Memory.read_writeAll_other (cs : List Host.Cell) (a : Nat) {m : Memory} (h : m.wf = true)
    (ha : ∀ c ∈ cs, c.1 ≠ a) : (m.writeAll cs).read a = m.read a := by
  induction cs generalizing m with
  | nil => rfl
  | cons c cs ih =>
    refine (ih (Memory.wf_write c.1 c.2 h) (fun d hd => ha d (List.mem_cons_of_mem _ hd))).trans ?_
    rw [Memory.read_write _ _ _ h, if_neg (ha c List.mem_cons_self).symm]

theorem State.settle_wf (s : State) (h : s.mem.wf = true) : s.settle.mem.wf = true := Memory.wf_writeAll _ h

/-- Settling changes no byte but those the host wrote. -/
theorem State.settle_read (s : State) (a : Nat) (h : s.mem.wf = true) (ha : a ∉ s.disturbed) :
    s.settle.mem.read a = s.mem.read a :=
  Memory.read_writeAll_other _ a h (fun c hc e => by
    obtain ⟨x, hx, rfl⟩ := List.mem_map.1 hc
    exact ha (e ▸ hx))

/-- A host write while a command runs changes no byte but those it is to. -/
theorem State.disturb_read (s : State) (a n x : Nat) (h : s.mem.wf = true) (hx : x < a ∨ a + n ≤ x) :
    (s.disturb a n).mem.read x = s.mem.read x :=
  Memory.read_writeAll_other _ x h (fun c hc e => by
    simp only [List.mem_map, List.mem_range] at hc
    obtain ⟨y, ⟨i, hi, rfl⟩, rfl⟩ := hc
    simp only at e
    omega)

theorem State.disturb_wf (s : State) (a n : Nat) (h : s.mem.wf = true) : (s.disturb a n).mem.wf = true :=
  Memory.wf_writeAll _ h

end Sys2Proof.Machine
end

