-- ==== Sys2Proof/Laws/Checks.lean ====
section
/-! SUPPORT. Command begin (30_encoding.md rule R85) said once: the first failing check ends the command as R160 says, and
if none fails the command goes on from the state the acquire fence leaves. -/

namespace Sys2Proof.Machine

/-- The acquire fence of command begin changes the copies of `P` and nothing else. -/
theorem State.beginCommand_eq (s : State) :
    s.beginCommand = { s with pview := { s.pview with mcopies := [], jcopies := JobSlot.fill none } } := rfl

/-- An error found at command begin. -/
theorem State.checked_fails {s : State} {f : State → List Check}
    {body : State → Host.Outcome State Fault Refusal} {c : Check}
    (h : (f s.beginCommand).find? (·.fails) = some c) :
    s.checked f body = .next (s.failedAs c.code c.info s.draws) := by
  simp only [State.checked, h]; rfl

/-- Every check passes. -/
theorem State.checked_passes {s : State} {f : State → List Check}
    {body : State → Host.Outcome State Fault Refusal} (h : (f s.beginCommand).find? (·.fails) = none) :
    s.checked f body = body s.beginCommand := by
  simp only [State.checked, h]

/-- What a command's begin can come to. -/
theorem State.checked_cases (s : State) (f : State → List Check)
    (body : State → Host.Outcome State Fault Refusal) :
    (∃ c, (f s.beginCommand).find? (·.fails) = some c ∧
      s.checked f body = .next (s.failedAs c.code c.info s.draws)) ∨
    ((f s.beginCommand).find? (·.fails) = none ∧ s.checked f body = body s.beginCommand) := by
  cases h : (f s.beginCommand).find? (·.fails) with
  | some c => exact .inl ⟨c, rfl, State.checked_fails h⟩
  | none => exact .inr ⟨rfl, State.checked_passes h⟩

/-- The range check of R49, as a proposition. -/
theorem State.inMemory_iff (s : State) (b : Word) (n : Nat) : s.inMemory b n = true ↔ s.holds b n := by
  simp [State.inMemory, State.holds]

/-- The fence changes nothing the range check reads. -/
@[simp] theorem State.beginCommand_inMemory (s : State) (b : Word) (n : Nat) :
    s.beginCommand.inMemory b n = s.inMemory b n := rfl

/-- What a lookup's answer does: the value to `RESF` and the command ends, or `ERR_NUM` with `FARG`. -/
theorem answerLookup_some (s : State) (v : Word) :
    answerLookup s (some v) = .next ({ s with resf := v }.draw LOOKUP_DRAWS).finish := rfl

theorem answerLookup_none (s : State) : answerLookup s none = .next (s.raise .num s.farg) := rfl

/-- What a computation that may stop at a lookup does with the command. -/
theorem orNum_ok (s0 s : State) (k : State → Host.Outcome State Fault Refusal) : orNum s0 (.ok s) k = k s := rfl

theorem orNum_error (s0 : State) (e : Angle) (k : State → Host.Outcome State Fault Refusal) :
    orNum s0 (.error e) k = .next ({ s0 with draws := e.2 }.raise .num e.1) := rfl

end Sys2Proof.Machine
end

