-- ==== Sys2Proof/Laws/Work.lean ====
section
/-! SUPPORT. What a core's own work can do: one relation, `Work`, that every access and every loop over accesses
keeps, and for each shared operation one lemma that says all it answers. Between its fences a core's work is that of
a program on plain memory, the bytes `coreByte` reads. -/

namespace Sys2Proof.Machine

/-! ### The relation -/

/-- `t` is `s` but for core `c`'s view and datapath and the model's counters. -/
def OnlyCore : CoreId → State → State → Prop
  | .p, s, t => t = { s with pview := t.pview, pregs := t.pregs, keeps := t.keeps, draws := t.draws }
  | .w, s, t => t = { s with wview := t.wview, wregs := t.wregs, keeps := t.keeps, draws := t.draws }

/-- No pending write is to the job slot. -/
def JobFree (es : List Pending) : Prop := ∀ e ∈ es, ∀ i v, e ≠ .job i v

/-- What accesses of core `c` to `MEM` and computation between them can do. -/
structure Work (c : CoreId) (s t : State) : Prop where
  only : OnlyCore c s t
  fresh : (s.view c).fresh s.mem → (t.view c).fresh t.mem
  jobFree : JobFree (s.view c).sb → JobFree (t.view c).sb

theorem OnlyCore.refl (c : CoreId) (s : State) : OnlyCore c s s := by cases c <;> rfl

theorem OnlyCore.trans {c : CoreId} {s t u : State} (h : OnlyCore c s t) (k : OnlyCore c t u) : OnlyCore c s u := by
  cases c <;> · simp only [OnlyCore] at h k ⊢; rw [k, h]

theorem OnlyCore.mem {c : CoreId} {s t : State} (h : OnlyCore c s t) : t.mem = s.mem := by
  cases c <;> · simp only [OnlyCore] at h; rw [h]

theorem OnlyCore.job {c : CoreId} {s t : State} (h : OnlyCore c s t) : t.job = s.job := by
  cases c <;> · simp only [OnlyCore] at h; rw [h]

theorem OnlyCore.sintab {c : CoreId} {s t : State} (h : OnlyCore c s t) : t.sintab = s.sintab := by
  cases c <;> · simp only [OnlyCore] at h; rw [h]

theorem OnlyCore.costab {c : CoreId} {s t : State} (h : OnlyCore c s t) : t.costab = s.costab := by
  cases c <;> · simp only [OnlyCore] at h; rw [h]

theorem OnlyCore.disturbed {c : CoreId} {s t : State} (h : OnlyCore c s t) : t.disturbed = s.disturbed := by
  cases c <;> · simp only [OnlyCore] at h; rw [h]

theorem OnlyCore.memTop {c : CoreId} {s t : State} (h : OnlyCore c s t) : t.memTop = s.memTop := by
  cases c <;> · simp only [OnlyCore] at h; rw [h]

theorem OnlyCore.setRegs (c : CoreId) (s : State) (r : Datapath) : OnlyCore c s (s.setRegs c r) := by
  cases c <;> rfl

theorem OnlyCore.setView (c : CoreId) (s : State) (v : View) : OnlyCore c s (s.setView c v) := by cases c <;> rfl

theorem OnlyCore.dropKeep (c : CoreId) (s : State) : OnlyCore c s s.dropKeep := by cases c <;> rfl

theorem OnlyCore.draw (c : CoreId) (s : State) (n : Nat) : OnlyCore c s (s.draw n) := by cases c <;> rfl

theorem Work.refl (c : CoreId) (s : State) : Work c s s := ⟨.refl c s, id, id⟩

theorem Work.trans {c : CoreId} {s t u : State} (h : Work c s t) (k : Work c t u) : Work c s u :=
  ⟨h.only.trans k.only, k.fresh ∘ h.fresh, k.jobFree ∘ h.jobFree⟩

theorem Work.setRegs (c : CoreId) (s : State) (r : Datapath) : Work c s (s.setRegs c r) :=
  ⟨.setRegs c s r, by simp, by simp⟩

theorem Work.draw (c : CoreId) (s : State) (n : Nat) : Work c s (s.draw n) :=
  ⟨.draw c s n, by cases c <;> exact id, by cases c <;> exact id⟩

theorem Work.noteWord (c : CoreId) (s : State) (k : Nat) : Work c s (s.noteWord c k) := by
  refine ⟨?_, s.noteWord_fresh c k, by rw [State.noteWord_sb]; exact id⟩
  rcases s.noteWord_cases c k with h | h | ⟨-, h⟩ <;> rw [h]
  · exact .refl c s
  · exact .dropKeep c s
  · exact (OnlyCore.dropKeep c s).trans (.setView c _ _)

/-- A read of `MEM`, whatever the host has written meanwhile. -/
theorem Work.noteRead (c : CoreId) (s : State) (a n : Nat) : Work c s (s.noteRead c a n) := by
  rcases s.noteRead_cases c a n with h | h <;> rw [h]
  · exact .noteWord c s _
  · exact (Work.noteWord c s _).trans (.draw c _ _)

/-- A write of `MEM`, of a byte or of a word. -/
theorem Work.enqueue (c : CoreId) (s : State) (e : Pending) (h : ∀ i v, e ≠ .job i v) : Work c s (s.enqueue c e) := by
  refine ⟨.setView c s _, s.enqueue_fresh c e, fun hs => ?_⟩
  rw [State.enqueue, State.setView_view]
  intro f hf
  rcases List.mem_append.1 hf with hf | hf
  · exact hs f hf
  · rw [List.mem_singleton.1 hf]; exact h

/-! ### The draw counter and the datapath under single accesses -/

@[simp] theorem State.noteWord_draws (s : State) (c : CoreId) (k : Nat) : (s.noteWord c k).draws = s.draws := by
  rcases s.noteWord_cases c k with h | h | ⟨-, h⟩ <;> simp [h]

@[simp] theorem State.noteWord_regs (s : State) (c : CoreId) (k : Nat) : (s.noteWord c k).regs c = s.regs c := by
  rcases s.noteWord_cases c k with h | h | ⟨-, h⟩ <;> cases c <;> simp [h]

@[simp] theorem State.enqueue_regs (s : State) (c : CoreId) (e : Pending) : (s.enqueue c e).regs c = s.regs c := by
  cases c <;> rfl

@[simp] theorem State.setRegs_coreByte (s : State) (c : CoreId) (r : Datapath) :
    (s.setRegs c r).coreByte c = s.coreByte c := by
  cases c <;> rfl

@[simp] theorem State.draw_coreByte (s : State) (c : CoreId) (n : Nat) : (s.draw n).coreByte c = s.coreByte c := by
  cases c <;> rfl

@[simp] theorem State.draw_regs (s : State) (c : CoreId) (n : Nat) : (s.draw n).regs c = s.regs c := by
  cases c <;> rfl

@[simp] theorem State.draw_view (s : State) (c : CoreId) (n : Nat) : (s.draw n).view c = s.view c := by
  cases c <;> rfl

/-- A byte read where the host has written nothing meanwhile. -/
theorem State.readByte_calm (s : State) (c : CoreId) (a : Nat) (h : s.disturbed = []) :
    s.readByte c a = (s.coreByte c a, s.noteWord c (a / 4)) := by
  rw [State.readByte, State.seenByte_calm s c h, State.noteRead_calm s c a 1 h]

/-- A word read where the host has written nothing meanwhile. -/
theorem State.readWord_calm (s : State) (c : CoreId) (a : Nat) (h : s.disturbed = []) :
    s.readWord c a = (Bytes.word (s.coreByte c) a, s.noteWord c (a / 4)) := by
  rw [State.readWord, State.seenByte_calm s c h, State.noteRead_calm s c a 4 h]; rfl

theorem State.noteWord_bytes (s : State) (c : CoreId) (k : Nat) : (s.noteWord c k).coreByte c = s.coreByte c :=
  funext (s.noteWord_coreByte c k)

/-! ### The access primitives (R67) on a core with fresh copies -/

/-- `MemWrite(c, a, 1, v)`. -/
theorem State.writeByte_bytes (s : State) (c : CoreId) (a : Nat) (v : Byte) (h : (s.view c).fresh s.mem) :
    (s.writeByte c a v).coreByte c = Bytes.putByte (s.coreByte c) a v := by
  funext b; rw [State.writeByte, State.enqueue_coreByte s c _ b h]; rfl

/-- `MemWrite(c, a, 4, v)`. -/
theorem State.writeWord_bytes (s : State) (c : CoreId) (a : Nat) (v : Word) (h : (s.view c).fresh s.mem) :
    (s.writeWord c a v).coreByte c = Bytes.putWord (s.coreByte c) a v := by
  funext b; rw [State.writeWord, State.enqueue_coreByte s c _ b h]; rfl

theorem Work.writeByte (c : CoreId) (s : State) (a : Nat) (v : Byte) : Work c s (s.writeByte c a v) :=
  .enqueue c s _ (by simp)

theorem Work.writeWord (c : CoreId) (s : State) (a : Nat) (v : Word) : Work c s (s.writeWord c a v) :=
  .enqueue c s _ (by simp)

@[simp] theorem State.writeByte_regs (s : State) (c : CoreId) (a : Nat) (v : Byte) :
    (s.writeByte c a v).regs c = s.regs c := s.enqueue_regs c _

@[simp] theorem State.writeWord_regs (s : State) (c : CoreId) (a : Nat) (v : Word) :
    (s.writeWord c a v).regs c = s.regs c := s.enqueue_regs c _

@[simp] theorem State.writeByte_draws (s : State) (c : CoreId) (a : Nat) (v : Byte) :
    (s.writeByte c a v).draws = s.draws := s.enqueue_draws c _

@[simp] theorem State.writeWord_draws (s : State) (c : CoreId) (a : Nat) (v : Word) :
    (s.writeWord c a v).draws = s.draws := s.enqueue_draws c _

/-- `n` words read one after another. -/
theorem State.readWords_spec (s : State) (c : CoreId) (a n : Nat) (hd : s.disturbed = []) :
    (s.readWords c a n).1 = (List.range n).map (fun i => Bytes.word (s.coreByte c) (a + 4 * i)) ∧
      Work c s (s.readWords c a n).2 ∧ (s.readWords c a n).2.coreByte c = s.coreByte c ∧
      (s.readWords c a n).2.regs c = s.regs c ∧ (s.readWords c a n).2.draws = s.draws ∧
      ((s.readWords c a n).2.view c).sb = (s.view c).sb := by
  induction n generalizing s a with
  | zero => exact ⟨rfl, .refl c s, rfl, rfl, rfl, rfl⟩
  | succ n ih =>
    have hr : (s.readWord c a).2 = s.noteWord c (a / 4) := by rw [s.readWord_calm c a hd]
    have hb : (s.readWord c a).1 = Bytes.word (s.coreByte c) a := by rw [s.readWord_calm c a hd]
    have hn := (Work.noteWord c s (a / 4)).only.disturbed.trans hd
    obtain ⟨h1, h2, h3, h4, h5, h6⟩ := ih (s.readWord c a).2 (a + 4) (by rw [hr]; exact hn)
    rw [hr] at h1 h2 h3 h4 h5 h6
    have he : s.readWords c a (n + 1) = (Bytes.word (s.coreByte c) a :: ((s.noteWord c (a / 4)).readWords c (a + 4) n).1,
        ((s.noteWord c (a / 4)).readWords c (a + 4) n).2) := by rw [← hb, ← hr]; rfl
    rw [he]
    refine ⟨?_, (Work.noteWord c s _).trans h2, h3.trans (s.noteWord_bytes c _), h4.trans (s.noteWord_regs c _),
      h5.trans (s.noteWord_draws c _), h6.trans (s.noteWord_sb c _)⟩
    refine (congrArg (Bytes.word (s.coreByte c) a :: ·) h1).trans ?_
    rw [List.range_succ_eq_map, List.map_cons, List.map_map]
    congr 1
    apply List.map_congr_left
    intro i _
    simp only [Function.comp, s.noteWord_bytes c]
    congr 1; omega

/-- Pairs read, `a` before `b` for each (R137). -/
theorem State.readPairs_spec (s : State) (a b n : Nat) (hd : s.disturbed = []) :
    (s.readPairs a b n).1 = (List.range n).map (fun i => Bytes.word (s.coreByte .p) (a + 4 * i)) ∧
      (s.readPairs a b n).2.1 = (List.range n).map (fun i => Bytes.word (s.coreByte .p) (b + 4 * i)) ∧
      Work .p s (s.readPairs a b n).2.2 ∧ (s.readPairs a b n).2.2.coreByte .p = s.coreByte .p ∧
      (s.readPairs a b n).2.2.pregs = s.pregs ∧ (s.readPairs a b n).2.2.draws = s.draws ∧
      (s.readPairs a b n).2.2.pview.sb = s.pview.sb := by
  induction n generalizing s a b with
  | zero => exact ⟨rfl, rfl, .refl .p s, rfl, rfl, rfl, rfl⟩
  | succ n ih =>
    have hr := s.readWord_calm .p a hd
    have hn := (Work.noteWord .p s (a / 4)).only.disturbed.trans hd
    have hr2 := (s.noteWord .p (a / 4)).readWord_calm .p b hn
    have hn2 := (Work.noteWord .p (s.noteWord .p (a / 4)) (b / 4)).only.disturbed.trans hn
    generalize hu : (s.noteWord .p (a / 4)).noteWord .p (b / 4) = u at hr2 hn2
    have he : s.readPairs a b (n + 1) = (Bytes.word (s.coreByte .p) a :: (u.readPairs (a + 4) (b + 4) n).1,
        Bytes.word ((s.noteWord .p (a / 4)).coreByte .p) b :: (u.readPairs (a + 4) (b + 4) n).2.1,
        (u.readPairs (a + 4) (b + 4) n).2.2) := by
      simp only [State.readPairs, hr, hr2]
    rw [he]
    obtain ⟨h1, h2, h3, h4, h5, h6, h7⟩ := ih u (a + 4) (b + 4) hn2
    have e1 : (s.noteWord .p (a / 4)).coreByte .p = s.coreByte .p := s.noteWord_bytes .p _
    have e2 : u.coreByte .p = s.coreByte .p := by rw [← hu]; exact (State.noteWord_bytes _ .p _).trans e1
    subst hu
    refine ⟨?_, ?_, ((Work.noteWord .p s _).trans (Work.noteWord .p _ _)).trans h3, h4.trans e2,
      h5.trans ((State.noteWord_regs _ .p _).trans (s.noteWord_regs .p _)),
      h6.trans ((State.noteWord_draws _ .p _).trans (s.noteWord_draws .p _)),
      h7.trans ((State.noteWord_sb _ .p _).trans (s.noteWord_sb .p _))⟩
    · refine (congrArg (Bytes.word (s.coreByte .p) a :: ·) h1).trans ?_
      rw [List.range_succ_eq_map, List.map_cons, List.map_map, e2]
      congr 1
      apply List.map_congr_left
      intro i _
      simp only [Function.comp]
      congr 1; omega
    · refine (congrArg (Bytes.word ((s.noteWord .p (a / 4)).coreByte .p) b :: ·) h2).trans ?_
      rw [List.range_succ_eq_map, List.map_cons, List.map_map, e2]
      congr 1
      · rw [e1]; rfl
      · apply List.map_congr_left
        intro i _
        simp only [Function.comp]
        congr 1; omega

/-! ### The kernel (R101) -/

/-- The kernel neither reads nor writes `KIDX`. -/
theorem accumulate_kidx (n : Nat) (S C : Vector Word Config.L) (x : Byte) (r : Datapath) (k : Word) :
    accumulate n S C x { r with kidx := k } = (accumulate n S C x r).map (fun q => { q with kidx := k }) := by
  unfold accumulate
  split <;> simp_all

theorem kernel_kidx (n : Nat) (S C : Vector Word Config.L) (x : Nat → Byte) (m : Nat) (r : Datapath) (k : Word) :
    kernel n S C x m { r with kidx := k } = (kernel n S C x m r).map (fun q => { q with kidx := k }) := by
  induction m generalizing n r with
  | zero => rfl
  | succ m ih =>
    simp only [kernel, accumulate_kidx]
    cases h : accumulate n S C (x r.nidx.toNat) r with
    | none => rfl
    | some q => exact ih _ q

/-- `n` samples on a core are the kernel on the bytes it reads. -/
theorem State.samples_spec (s : State) (c : CoreId) (sig m : Nat) (hd0 : s.disturbed = []) :
    match kernel s.draws s.sintab s.costab (fun i => s.coreByte c (sig + i)) m (s.regs c) with
    | some r => ∃ t, s.samples c sig m = .ok t ∧ Work c s t ∧ t.regs c = r ∧ t.coreByte c = s.coreByte c ∧
        t.draws = s.draws + SAMPLE_DRAWS * m ∧ (t.view c).sb = (s.view c).sb
    | none => ∃ e, s.samples c sig m = .error e := by
  induction m generalizing s with
  | zero => exact ⟨s, rfl, .refl c s, rfl, rfl, rfl, rfl⟩
  | succ m ih =>
    simp only [kernel, State.samples]
    cases ha : accumulate s.draws s.sintab s.costab (s.coreByte c (sig + (s.regs c).nidx.toNat)) (s.regs c) with
    | none => exact ⟨((s.regs c).angle, s.draws + SAMPLE_DRAWS), by simp [State.sample, s.readByte_calm c _ hd0, ha]⟩
    | some r' =>
      have hs : s.sample c sig =
          .ok (((s.noteWord c ((sig + (s.regs c).nidx.toNat) / 4)).setRegs c r').draw SAMPLE_DRAWS) := by
        simp [State.sample, s.readByte_calm c _ hd0, ha]
      simp only [hs]
      generalize hu : ((s.noteWord c ((sig + (s.regs c).nidx.toNat) / 4)).setRegs c r').draw SAMPLE_DRAWS = u
      have hw : Work c s u := by
        rw [← hu]; exact ((Work.noteWord c s _).trans (.setRegs c _ _)).trans (.draw c _ _)
      have hb : u.coreByte c = s.coreByte c := by rw [← hu]; simp [State.noteWord_bytes]
      have hr : u.regs c = r' := by rw [← hu]; simp
      have hd : u.draws = s.draws + SAMPLE_DRAWS := by rw [← hu]; simp
      have hsb : (u.view c).sb = (s.view c).sb := by rw [← hu]; simp [State.noteWord_sb]
      have := ih u (hw.only.disturbed.trans hd0)
      rw [hb, hr, hd, hw.only.sintab, hw.only.costab] at this
      revert this
      cases kernel (s.draws + SAMPLE_DRAWS) s.sintab s.costab (fun i => s.coreByte c (sig + i)) m r' with
      | none => exact id
      | some r =>
        rintro ⟨t, h1, h2, h3, h4, h5, h6⟩
        exact ⟨t, h1, hw.trans h2, h3, h4, by rw [h5]; simp only [SAMPLE_DRAWS]; omega, h6.trans hsb⟩

/-- `BIN(c, sig, n, w)` on a core is the bin of the bytes it reads (R101). -/
theorem State.bin_spec (s : State) (c : CoreId) (sig n : Nat) (w : Word) (hd : s.disturbed = []) :
    match dtftBin s.draws s.sintab s.costab (fun i => s.coreByte c (sig + i)) n w with
    | some b => ∃ t, s.bin c sig n w = .ok t ∧ Work c s t ∧ (t.regs c).re = b.1 ∧ (t.regs c).im = b.2 ∧
        (t.regs c).kidx = (s.regs c).kidx ∧ t.coreByte c = s.coreByte c ∧ t.draws = s.draws + SAMPLE_DRAWS * n ∧
        (t.view c).sb = (s.view c).sb
    | none => ∃ e, s.bin c sig n w = .error e := by
  have h := (s.setRegs c (binStart w (s.regs c))).samples_spec c sig n (by simpa using hd)
  simp only [State.setRegs_draws, State.setRegs_sintab, State.setRegs_costab, State.setRegs_coreByte,
    State.setRegs_regs, State.setRegs_view] at h
  have hb : binStart w (s.regs c) = { binStart w Datapath.reset with kidx := (s.regs c).kidx } := rfl
  rw [hb, kernel_kidx] at h
  unfold dtftBin
  cases hk : kernel s.draws s.sintab s.costab (fun i => s.coreByte c (sig + i)) n (binStart w Datapath.reset) with
  | none => rw [hk] at h; exact h
  | some q =>
    rw [hk] at h
    obtain ⟨t, h1, h2, h3, h4, h5, h6⟩ := h
    exact ⟨t, h1, (Work.setRegs c s _).trans h2, by rw [h3], by rw [h3], by rw [h3], h4, h5, h6⟩

end Sys2Proof.Machine
end

