-- ==== Sys2Proof/Laws/Loops.lean ====
section
/-! SUPPORT. The loops of the commands, each said once: what a transform, a magnitude spectrum, a copy, a replicate and
a list of records do to the bytes a core reads, and what command end (30_encoding.md rule R86) makes of those bytes. -/

namespace Sys2Proof.Machine

/-! ### Transforms (R106) -/

/-- One bin: computed from the bytes the core reads, and its pair written (R101, R106). -/
theorem State.transformBin_spec (s : State) (c : CoreId) (j : Job) (hf : (s.view c).fresh s.mem)
    (hd : s.disturbed = []) :
    match dtftBin (s.draws + OMEGA_DRAWS) s.sintab s.costab (fun i => s.coreByte c (j.sig.toNat + i)) j.n.toNat
        (omegaOf s.draws j.g (s.regs c).kidx j.kt) with
    | some b => ∃ t, s.transformBin c j = .ok t ∧ Work c s t ∧ (t.regs c).kidx = (s.regs c).kidx + 1 ∧
        t.draws = s.draws + OMEGA_DRAWS + SAMPLE_DRAWS * j.n.toNat ∧
        t.coreByte c = (Bytes.putWord (s.coreByte c) (binAddr j.out (s.regs c).kidx.toNat) b.1).putWord
          (binAddr j.out (s.regs c).kidx.toNat + 4) b.2
    | none => ∃ e, s.transformBin c j = .error e := by
  have h := (s.draw OMEGA_DRAWS).bin_spec c j.sig.toNat j.n.toNat (omegaOf s.draws j.g (s.regs c).kidx j.kt) hd
  simp only [State.draw_draws, State.draw_sintab, State.draw_costab, State.draw_coreByte, State.draw_regs,
    State.draw_view] at h
  cases hb : dtftBin (s.draws + OMEGA_DRAWS) s.sintab s.costab (fun i => s.coreByte c (j.sig.toNat + i)) j.n.toNat
      (omegaOf s.draws j.g (s.regs c).kidx j.kt) with
  | none =>
    rw [hb] at h
    obtain ⟨e, h⟩ := h
    exact ⟨e, by simp only [State.transformBin, h]⟩
  | some b =>
    rw [hb] at h
    obtain ⟨t, h1, h2, h3, h4, h5, h6, h7, -⟩ := h
    have hw := (Work.draw c s OMEGA_DRAWS).trans h2
    have hf1 := hw.fresh hf
    have hf2 := (Work.writeWord c t (binAddr j.out (s.regs c).kidx.toNat) (t.regs c).re).fresh hf1
    refine ⟨_, by simp only [State.transformBin, h1]; rfl, ?_, ?_, ?_, ?_⟩
    · exact ((hw.trans (.writeWord c t _ _)).trans (.writeWord c _ _ _)).trans (.setRegs c _ _)
    · simp
    · simp [h7]
    · rw [State.setRegs_coreByte, State.writeWord_bytes _ _ _ _ hf2, State.writeWord_bytes _ _ _ _ hf1, h6, h3, h4]

theorem wordOf_succ (k : Nat) : wordOf k + 1 = wordOf (k + 1) := by
  simp [wordOf, BitVec.ofNat_add]

theorem toNat_wordOf {k : Nat} (h : k < 2 ^ 32) : (wordOf k).toNat = k := by
  simpa [wordOf] using h

/-- Bins `k`, `k + 1`, … of a job are those bins on plain memory. -/
theorem State.transformBins_spec (s : State) (c : CoreId) (j : Job) (m k : Nat) (hf : (s.view c).fresh s.mem)
    (hd : s.disturbed = []) (hk : (s.regs c).kidx = wordOf k) (hm : k + m ≤ 2 ^ 32) :
    match plainBins s.sintab s.costab j.g j.sig.toNat j.n.toNat j.kt j.out.toNat s.draws m k (s.coreByte c) with
    | some x => ∃ t, s.transformBins c j m = .ok t ∧ Work c s t ∧ t.coreByte c = x ∧
        t.draws = s.draws + (OMEGA_DRAWS + SAMPLE_DRAWS * j.n.toNat) * m ∧ (t.regs c).kidx = wordOf (k + m)
    | none => ∃ e, s.transformBins c j m = .error e := by
  induction m generalizing s k with
  | zero => exact ⟨s, rfl, .refl c s, rfl, rfl, hk⟩
  | succ m ih =>
    have h := s.transformBin_spec c j hf hd
    rw [hk] at h
    simp only [plainBins, State.transformBins]
    cases hb : dtftBin (s.draws + OMEGA_DRAWS) s.sintab s.costab (fun i => s.coreByte c (j.sig.toNat + i)) j.n.toNat
        (omegaOf s.draws j.g (wordOf k) j.kt) with
    | none =>
      rw [hb] at h
      obtain ⟨e, h⟩ := h
      exact ⟨e, by rw [h]⟩
    | some b =>
      rw [hb] at h
      obtain ⟨t, h1, h2, h3, h4, h5⟩ := h
      have := ih t (k + 1) (h2.fresh hf) (h2.only.disturbed.trans hd) (by rw [h3, wordOf_succ]) (by omega)
      simp only [h2.only.sintab, h2.only.costab, h4, h5, binAddr, toNat_wordOf (show k < 2 ^ 32 by omega)] at this
      simp only [h1]
      revert this
      cases plainBins s.sintab s.costab j.g j.sig.toNat j.n.toNat j.kt j.out.toNat
          (s.draws + OMEGA_DRAWS + SAMPLE_DRAWS * j.n.toNat) m (k + 1)
          ((Bytes.putWord (s.coreByte c) (j.out.toNat + 8 * k) b.1).putWord (j.out.toNat + 8 * k + 4) b.2) with
      | none => exact id
      | some x =>
        rintro ⟨u, g1, g2, g3, g4, g5⟩
        refine ⟨u, g1, h2.trans g2, g3, ?_, ?_⟩
        · rw [g4, Nat.mul_succ]; omega
        · rw [g5]; congr 1; omega

/-- Bins `[k0, k1)` of a job are those bins on plain memory. -/
theorem State.transform_spec (s : State) (c : CoreId) (j : Job) (hf : (s.view c).fresh s.mem)
    (hd : s.disturbed = []) :
    match plainBins s.sintab s.costab j.g j.sig.toNat j.n.toNat j.kt j.out.toNat s.draws
        (j.k1.toNat - j.k0.toNat) j.k0.toNat (s.coreByte c) with
    | some x => ∃ t, s.transform c j = .ok t ∧ Work c s t ∧ t.coreByte c = x ∧
        t.draws = s.draws + (OMEGA_DRAWS + SAMPLE_DRAWS * j.n.toNat) * (j.k1.toNat - j.k0.toNat)
    | none => ∃ e, s.transform c j = .error e := by
  have h := (s.setRegs c { s.regs c with kidx := j.k0 }).transformBins_spec c j (j.k1.toNat - j.k0.toNat)
    j.k0.toNat (by simpa using hf) (by simpa using hd) (by simp [wordOf]) (by have := j.k1.isLt; have := j.k0.isLt; omega)
  simp only [State.setRegs_sintab, State.setRegs_costab, State.setRegs_draws, State.setRegs_coreByte] at h
  revert h
  cases plainBins s.sintab s.costab j.g j.sig.toNat j.n.toNat j.kt j.out.toNat s.draws
      (j.k1.toNat - j.k0.toNat) j.k0.toNat (s.coreByte c) with
  | none => exact id
  | some x =>
    rintro ⟨t, h1, h2, h3, h4, -⟩
    exact ⟨t, h1, (Work.setRegs c s _).trans h2, h3, h4⟩

/-! ### Magnitudes (R108, R109) -/

/-- One entry: a pair read, its magnitude written. -/
theorem State.magEntry_spec (s : State) (f : Nat → Word → Word → Word) (src dst : Nat)
    (hf : s.pview.fresh s.mem) (hd : s.disturbed = []) :
    Work .p s (s.magEntry f src dst) ∧ (s.magEntry f src dst).pregs.kidx = s.pregs.kidx + 1 ∧
      (s.magEntry f src dst).draws = s.draws + MAG_DRAWS ∧
      (s.magEntry f src dst).coreByte .p = Bytes.putWord (s.coreByte .p) (dst + 4 * s.pregs.kidx.toNat)
        (f s.draws (Bytes.word (s.coreByte .p) (src + 8 * s.pregs.kidx.toNat))
          (Bytes.word (s.coreByte .p) (src + 8 * s.pregs.kidx.toNat + 4))) := by
  generalize hk : s.pregs.kidx.toNat = k
  let s1 := s.noteWord .p ((src + 8 * k) / 4)
  let s2 := s1.noteWord .p ((src + 8 * k + 4) / 4)
  let re := Bytes.word (s.coreByte .p) (src + 8 * k)
  let im := Bytes.word (s1.coreByte .p) (src + 8 * k + 4)
  let s3 := (s2.writeWord .p (dst + 4 * k) (f s.draws re im)).draw MAG_DRAWS
  have he : s.magEntry f src dst = s3.setRegs .p { s3.pregs with kidx := s3.pregs.kidx + 1 } := by
    subst hk
    simp only [State.magEntry, s.readWord_calm .p _ hd,
      State.readWord_calm _ .p _ ((Work.noteWord .p s _).only.disturbed.trans hd)]
    rfl
  have w2 : Work .p s s2 := (Work.noteWord .p s _).trans (.noteWord .p _ _)
  have b1 : s1.coreByte .p = s.coreByte .p := s.noteWord_bytes .p _
  have b2 : s2.coreByte .p = s.coreByte .p := (State.noteWord_bytes _ .p _).trans b1
  have r2 : s2.pregs = s.pregs := (State.noteWord_regs s1 .p _).trans (s.noteWord_regs .p _)
  have r3 : s3.pregs = s.pregs := (State.writeWord_regs s2 .p (dst + 4 * k) (f s.draws re im)).trans r2
  rw [he]
  refine ⟨((w2.trans (.writeWord .p s2 (dst + 4 * k) (f s.draws re im))).trans (.draw .p _ _)).trans (.setRegs .p _ _), ?_, ?_, ?_⟩
  · rw [State.setRegs_p_pregs, r3]
  · simp [s3, s2, s1]
  · rw [State.setRegs_coreByte, State.draw_coreByte, State.writeWord_bytes _ _ _ _ (w2.fresh hf), b2]
    simp only [re, im, b1]

/-- A magnitude spectrum, from entry `k` on, is that spectrum on plain memory. -/
theorem State.magEntries_spec (s : State) (f : Nat → Word → Word → Word) (src dst n k : Nat)
    (hf : s.pview.fresh s.mem) (hd : s.disturbed = []) (hk : s.pregs.kidx = wordOf k) (hn : k + n ≤ 2 ^ 32) :
    Work .p s (s.magEntries f src dst n) ∧ (s.magEntries f src dst n).draws = s.draws + MAG_DRAWS * n ∧
      (s.magEntries f src dst n).coreByte .p = plainMags f src dst s.draws n k (s.coreByte .p) := by
  induction n generalizing s k with
  | zero => exact ⟨.refl .p s, rfl, rfl⟩
  | succ n ih =>
    obtain ⟨h1, h2, h3, h4⟩ := s.magEntry_spec f src dst hf hd
    obtain ⟨g1, g2, g3⟩ := ih (s.magEntry f src dst) (k + 1) (h1.fresh hf) (h1.only.disturbed.trans hd) (by rw [h2, hk, wordOf_succ])
      (by omega)
    rw [hk, toNat_wordOf (show k < 2 ^ 32 by omega)] at h4
    rw [h3] at g2 g3
    rw [h4] at g3
    exact ⟨h1.trans g1, g2.trans (by simp only [MAG_DRAWS]; omega), g3⟩

theorem State.magSpectrum_spec (s : State) (f : Nat → Word → Word → Word) (src dst n : Nat)
    (hf : s.pview.fresh s.mem) (hd : s.disturbed = []) (hn : n ≤ 2 ^ 32) :
    Work .p s (s.magSpectrum f src dst n) ∧ (s.magSpectrum f src dst n).draws = s.draws + MAG_DRAWS * n ∧
      (s.magSpectrum f src dst n).coreByte .p = plainMags f src dst s.draws n 0 (s.coreByte .p) := by
  obtain ⟨h1, h2, h3⟩ := (s.setRegs .p { s.pregs with kidx := 0 }).magEntries_spec f src dst n 0 hf hd rfl (by omega)
  exact ⟨(Work.setRegs .p s _).trans h1, h2, h3⟩

/-! ### Replicate (R145) -/

theorem State.copyBytes_spec (s : State) (src dst n : Nat) (hf : s.pview.fresh s.mem) (hd : s.disturbed = []) :
    Work .p s (s.copyBytes src dst n) ∧ (s.copyBytes src dst n).draws = s.draws ∧
      (s.copyBytes src dst n).pregs = s.pregs ∧
      (s.copyBytes src dst n).coreByte .p = plainCopy src dst n (s.coreByte .p) := by
  induction n generalizing s src dst with
  | zero => exact ⟨.refl .p s, rfl, rfl, rfl⟩
  | succ n ih =>
    have w1 := Work.noteWord .p s (src / 4)
    have w2 := w1.trans (Work.writeByte .p _ dst (s.coreByte .p src))
    obtain ⟨g1, g2, g3, g4⟩ := ih ((s.noteWord .p (src / 4)).writeByte .p dst (s.coreByte .p src)) (src + 1)
      (dst + 1) (w2.fresh hf) (w2.only.disturbed.trans hd)
    have he : s.copyBytes src dst (n + 1) =
        ((s.noteWord .p (src / 4)).writeByte .p dst (s.coreByte .p src)).copyBytes (src + 1) (dst + 1) n := by
      simp only [State.copyBytes, s.readByte_calm .p _ hd]
    rw [he]
    rw [State.writeByte_bytes _ _ _ _ (w1.fresh hf), State.noteWord_bytes] at g4
    exact ⟨w2.trans g1, g2.trans (by simp), g3.trans ((State.writeByte_regs _ .p _ _).trans (s.noteWord_regs .p _)),
      g4⟩

theorem State.replicate_spec (s : State) (src dst n r : Nat) (hf : s.pview.fresh s.mem) (hd : s.disturbed = []) :
    Work .p s (s.replicate src dst n r) ∧ (s.replicate src dst n r).draws = s.draws ∧
      (s.replicate src dst n r).pregs = s.pregs ∧
      (s.replicate src dst n r).coreByte .p = plainReplicate src n dst r (s.coreByte .p) := by
  induction r generalizing s dst with
  | zero => exact ⟨.refl .p s, rfl, rfl, rfl⟩
  | succ r ih =>
    obtain ⟨h1, h2, h3, h4⟩ := s.copyBytes_spec src dst n hf hd
    obtain ⟨g1, g2, g3, g4⟩ := ih (s.copyBytes src dst n) (dst + n) (h1.fresh hf)
      (h1.only.disturbed.trans hd)
    exact ⟨h1.trans g1, g2.trans h2, g3.trans h3, by rw [h4] at g4; exact g4⟩

/-! ### Records (R140) -/

theorem State.writeRecords_spec (s : State) (a : Nat) (rs : List (Nat × Word)) (hf : s.pview.fresh s.mem) :
    Work .p s (s.writeRecords a rs) ∧ (s.writeRecords a rs).draws = s.draws ∧
      (s.writeRecords a rs).pregs = s.pregs ∧
      (s.writeRecords a rs).coreByte .p = plainRecords a rs (s.coreByte .p) := by
  induction rs generalizing s a with
  | nil => exact ⟨.refl .p s, rfl, rfl, rfl⟩
  | cons r rs ih =>
    have w1 := Work.writeWord .p s a (wordOf r.1)
    have w2 := w1.trans (Work.writeWord .p _ (a + 4) r.2)
    obtain ⟨g1, g2, g3, g4⟩ := ih _ (a + 8) (w2.fresh hf)
    rw [State.writeWord_bytes _ .p _ _ (w1.fresh hf), State.writeWord_bytes s .p _ _ hf] at g4
    exact ⟨w2.trans g1, g2.trans (by simp), g3.trans (by simp [State.writeWord]), g4⟩

/-! ### Command end (R86) -/

theorem State.landAll_job (s : State) (c : CoreId) (es : List Pending) (h : JobFree es) :
    (s.landAll c es).job = s.job := by
  induction es generalizing s with
  | nil => rfl
  | cons e es ih =>
    refine (ih (s.land c e) (fun f hf => h f (List.mem_cons_of_mem _ hf))).trans ?_
    rw [State.land_job]
    cases e with
    | byte a v => rfl
    | word a v => rfl
    | job i v => exact absurd rfl (h _ List.mem_cons_self i v)

theorem State.fenceRel_job (s : State) (c : CoreId) (h : JobFree (s.view c).sb) : (s.fenceRel c).job = s.job := by
  rw [State.fenceRel, State.landAll_job _ _ _ h, State.setView_job]

/-- Where the host has written nothing meanwhile, command end is the release fence and the status fields. -/
theorem State.finish_calm (s : State) (hd : s.disturbed = []) :
    s.finish = { s.fenceRel .p with code := .ok, busy := false, done := true, pstage := .idle } := by
  rw [State.finish, State.settle_calm _ (by simpa using hd)]

/-- What command end leaves: shared storage holds what `P` read, the slot is untouched, nothing is pending. -/
theorem State.finish_spec (s : State) (hf : s.pview.fresh s.mem) (hd : s.disturbed = []) (hw : s.mem.wf = true)
    (hj : JobFree s.pview.sb) :
    s.finish.mem.read = s.coreByte .p ∧ s.finish.mem.wf = true ∧ s.finish.job = s.job ∧ s.finish.pview.sb = [] ∧
      s.finish.wview = s.wview := by
  rw [State.finish_calm s hd]
  refine ⟨?_, State.fenceRel_wf s .p hw, State.fenceRel_job s .p hj, State.fenceRel_sb s .p,
    s.fenceRel_view .p .w⟩
  funext a
  rw [State.coreByte, State.view_p, View.byte_of_fresh hf]
  exact State.fenceRel_read s .p a hw

/-- What the acquire fence of command begin leaves: copies that are fresh, and the bytes of shared storage where nothing
is pending. -/
theorem State.beginCommand_spec (s : State) (hs : s.pview.sb = []) :
    s.beginCommand.pview.fresh s.beginCommand.mem ∧ s.beginCommand.coreByte .p = s.mem.read ∧
      JobFree s.beginCommand.pview.sb := by
  refine ⟨State.fenceAcq_fresh s .p, ?_, ?_⟩
  · funext a
    rw [State.beginCommand, State.fenceAcq_coreByte, State.view_p, hs]; rfl
  · have : s.beginCommand.pview.sb = s.pview.sb := rfl
    rw [this, hs]; intro e he; cases he

/-- A word of shared storage is the word of its bytes. -/
theorem Memory.word_read (m : Memory) (a : Nat) : Bytes.word m.read a = m.readWord a := rfl

end Sys2Proof.Machine
end

