-- ==== Sys2Proof/Laws/PerInstr.lean ====
section
/-! SUPPORT. What holds of each command as syntax, one lemma for each: its word is one of the eighteen legal words, and
its fields are well formed and stand where the format puts them (30_encoding.md rules R75 to R77). -/

namespace Sys2Proof.Laws

/-- The word of a command is legal, its fields are well formed, and they stand in the word where R75 puts them. -/
def EncodeLegal.Statement (i : Instr) : Prop :=
  encode i ∈ legalWords ∧ (fieldsOf i).WellFormed ∧ cwOfWord (encode i) = fieldsOf i

theorem EncodeLegal.init : EncodeLegal.Statement .init := ⟨by decide, by decide, by decide⟩
theorem EncodeLegal.sin : EncodeLegal.Statement .sin := ⟨by decide, by decide, by decide⟩
theorem EncodeLegal.cos : EncodeLegal.Statement .cos := ⟨by decide, by decide, by decide⟩
theorem EncodeLegal.magat : EncodeLegal.Statement .magat := ⟨by decide, by decide, by decide⟩
theorem EncodeLegal.xform (g : Grid) : EncodeLegal.Statement (.xform g) := by
  cases g <;> exact ⟨by decide, by decide, by decide⟩
theorem EncodeLegal.xformp (g : Grid) : EncodeLegal.Statement (.xformp g) := by
  cases g <;> exact ⟨by decide, by decide, by decide⟩
theorem EncodeLegal.mag : EncodeLegal.Statement .mag := ⟨by decide, by decide, by decide⟩
theorem EncodeLegal.sqmag : EncodeLegal.Statement .sqmag := ⟨by decide, by decide, by decide⟩
theorem EncodeLegal.wlaunch : EncodeLegal.Statement .wlaunch := ⟨by decide, by decide, by decide⟩
theorem EncodeLegal.lddict : EncodeLegal.Statement .lddict := ⟨by decide, by decide, by decide⟩
theorem EncodeLegal.dist : EncodeLegal.Statement .dist := ⟨by decide, by decide, by decide⟩
theorem EncodeLegal.classify : EncodeLegal.Statement .classify := ⟨by decide, by decide, by decide⟩
theorem EncodeLegal.rank : EncodeLegal.Statement .rank := ⟨by decide, by decide, by decide⟩
theorem EncodeLegal.repl : EncodeLegal.Statement .repl := ⟨by decide, by decide, by decide⟩
theorem EncodeLegal.pipe (m : PipeMode) : EncodeLegal.Statement (.pipe m) := by
  cases m <;> exact ⟨by decide, by decide, by decide⟩

end Sys2Proof.Laws
end

