-- ==== Sys2Proof/Laws/Values.lean ====
section
/-! SUPPORT. Small facts about the values commands compute: a NaN never vanishes and only a NaN depends on a draw
(00_scope.md rule R11), the order `flt` puts on data, rounding keeps order (R10), and the tables built by `tab`. -/

namespace Sys2Proof.Machine

/-! ### NaN -/

/-- Bits 30 to 22 of the NaN an operation gives are 1: it is a quiet NaN. -/
theorem qNaN_bits (n i : Nat) (h1 : 22 ≤ i) (h2 : i < 31) : (qNaN n).getLsbD i = true := by
  have e1 : (qNaN n).getLsbD i = if i < 22 then ((Config.nanDraw n).extractLsb' 0 22).getLsbD i else
      ((Config.nanDraw n).extractLsb' 22 1 ++ (0x1FF : BitVec 9)).getLsbD (i - 22) := BitVec.getLsbD_append
  rw [e1, if_neg (by omega), BitVec.getLsbD_append, if_pos (by omega)]
  interval_cases i <;> rfl

/-- What an operation gives for an invalid operation or a NaN operand is a NaN, whatever the draw. -/
@[simp] theorem qNaN_isNaN (n : Nat) : f32IsNaN (qNaN n) = true := by
  have h : (qNaN n).extractLsb' 23 8 = 0xFF := by
    apply BitVec.eq_of_getLsbD_eq
    intro i hi
    rw [BitVec.getLsbD_extractLsb', qNaN_bits n (23 + i) (by omega) (by omega)]
    interval_cases i <;> rfl
  have hf : f32Frac (qNaN n) ≠ 0 := by
    intro h0
    have hz : (qNaN n).extractLsb' 0 23 = 0 := BitVec.eq_of_toNat_eq (by simpa [f32Frac] using h0)
    have hb : ((qNaN n).extractLsb' 0 23).getLsbD 22 = true := by
      rw [BitVec.getLsbD_extractLsb', qNaN_bits n (0 + 22) (by omega) (by omega)]; rfl
    rw [hz] at hb; cases hb
  simp [f32IsNaN, f32Exp, h, hf]

theorem fadd_nan (n : Nat) {a b : Word} (h : f32IsNaN a = true ∨ f32IsNaN b = true) : fadd n a b = qNaN n := by
  rcases h with h | h <;> simp [fadd, h]

theorem fmul_nan (n : Nat) {a b : Word} (h : f32IsNaN a = true ∨ f32IsNaN b = true) : fmul n a b = qNaN n := by
  rcases h with h | h <;> simp [fmul, h]

theorem fdiv_nan (n : Nat) {a b : Word} (h : f32IsNaN a = true ∨ f32IsNaN b = true) : fdiv n a b = qNaN n := by
  rcases h with h | h <;> simp [fdiv, h]

theorem fsqrt_nan (n : Nat) {a : Word} (h : f32IsNaN a = true) : fsqrt n a = qNaN n := by simp [fsqrt, h]

/-- A sum depends on its draw only where it is a NaN. -/
theorem fadd_draw (n m : Nat) (a b : Word) (h : f32IsNaN (fadd n a b) = false) : fadd m a b = fadd n a b := by
  unfold fadd at h ⊢
  split_ifs at h ⊢ <;> simp_all

theorem fsub_draw (n m : Nat) (a b : Word) (h : f32IsNaN (fsub n a b) = false) : fsub m a b = fsub n a b :=
  fadd_draw n m a (fneg b) h

theorem fmul_draw (n m : Nat) (a b : Word) (h : f32IsNaN (fmul n a b) = false) : fmul m a b = fmul n a b := by
  unfold fmul at h ⊢
  split_ifs at h ⊢ <;> simp_all

theorem fdiv_draw (n m : Nat) (a b : Word) (h : f32IsNaN (fdiv n a b) = false) : fdiv m a b = fdiv n a b := by
  unfold fdiv at h ⊢
  split_ifs at h ⊢ <;> simp_all

theorem fsqrt_draw (n m : Nat) (a : Word) (h : f32IsNaN (fsqrt n a) = false) : fsqrt m a = fsqrt n a := by
  unfold fsqrt at h ⊢
  split_ifs at h ⊢ <;> simp_all

/-! ### The order of data (R14) -/

theorem flt_iff (a b : Word) :
    flt a b = true ↔ f32IsNaN a = false ∧ f32IsNaN b = false ∧ f32Key a < f32Key b := by
  simp [flt, and_assoc]

theorem feq_iff (a b : Word) :
    feq a b = true ↔ f32IsNaN a = false ∧ f32IsNaN b = false ∧ f32Key a = f32Key b := by
  simp [feq, and_assoc]

theorem flt_irrefl (a : Word) : flt a a = false := by simp [flt]

theorem flt_trans {a b c : Word} (h : flt a b = true) (k : flt b c = true) : flt a c = true := by
  rw [flt_iff] at h k ⊢
  exact ⟨h.1, k.2.1, lt_trans h.2.2 k.2.2⟩

/-! ### Rounding is monotone (R10) -/

/-- A rounded magnitude is at most a pattern whose value is at least the exact result; the pattern is `e` steps of `2^23`
and `m` above. -/
theorem roundMag_le {num den e m : Nat} (hd : 0 < den) (hm : m < 2 ^ 24) (he : e = 0 ∨ 2 ^ 23 ≤ m)
    (h : num ≤ m * 2 ^ e * den) : roundMag num den ≤ e * 2 ^ 23 + m := by
  unfold roundMag
  simp only []
  generalize hq : num / den = q
  have hqm : q ≤ m * 2 ^ e := by
    rw [← hq]; exact Nat.div_le_of_le_mul (by rwa [Nat.mul_comm] at h)
  generalize hE : q.log2 - 23 = E
  generalize hD : den * 2 ^ E = d
  have hdpos : 0 < d := by rw [← hD]; positivity
  have hnd : num / d = q / 2 ^ E := by rw [← hD, ← Nat.div_div_eq_div_mul, hq]
  rw [hnd]
  generalize hM : q / 2 ^ E = M
  refine le_trans (min_le_left _ _) ?_
  have hlog : q < 2 ^ (q.log2 + 1) := Nat.lt_log2_self
  have hMlt : M < 2 ^ 24 := by
    rw [← hM, Nat.div_lt_iff_lt_mul (by positivity), ← pow_add]
    exact lt_of_lt_of_le hlog (Nat.pow_le_pow_right (by decide) (by omega))
  have hMle : M + 1 ≤ 2 ^ 24 := hMlt
  rcases lt_trichotomy E e with hlt | heq | hgt
  · have : (if 2 * (num % d) > d ∨ 2 * (num % d) = d ∧ M % 2 = 1 then M + 1 else M) ≤ 2 ^ 24 := by split <;> omega
    have h2 : 2 ^ 23 ≤ m := by omega
    have h3 : (E + 1) * 2 ^ 23 ≤ e * 2 ^ 23 := Nat.mul_le_mul_right _ hlt
    omega
  · subst heq
    have hMm : M ≤ m := by
      rw [← hM]; exact Nat.div_le_of_le_mul (by rwa [Nat.mul_comm] at hqm)
    split
    · rename_i hr
      have : M ≠ m := by
        rintro rfl
        have h1 : num ≤ M * d := by rw [← hD]; calc num ≤ M * 2 ^ E * den := h
          _ = M * (den * 2 ^ E) := by ring
        have h2 := Nat.div_add_mod num d
        rw [hnd, hM, Nat.mul_comm d M] at h2
        omega
      omega
    · omega
  · exfalso
    have hl : q.log2 ≥ 24 := by omega
    have hq0 : q ≠ 0 := by rintro rfl; simp at hl
    have h1 : 2 ^ q.log2 ≤ q := Nat.log2_self_le hq0
    have h2 : m * 2 ^ e < 2 ^ 24 * 2 ^ e := Nat.mul_lt_mul_of_pos_right hm (by positivity)
    rw [← pow_add] at h2
    have h3 : 2 ^ (24 + e) ≤ 2 ^ q.log2 := Nat.pow_le_pow_right (by decide) (by omega)
    omega

/-- A finite datum's pattern and magnitude by the same two numbers. -/
theorem f32Mag_split {b : Word} (h : f32IsFinite b = true) :
    ∃ e m, m < 2 ^ 24 ∧ (e = 0 ∨ 2 ^ 23 ≤ m) ∧ f32Mag b = m * 2 ^ e ∧ e * 2 ^ 23 + m < 0x7F800000 := by
  have hE : f32Exp b < 256 := (b.extractLsb' 23 8).isLt
  have hF : f32Frac b < 2 ^ 23 := (b.extractLsb' 0 23).isLt
  have h255 : f32Exp b ≠ 255 := by simpa [f32IsFinite] using h
  by_cases h0 : f32Exp b = 0
  · exact ⟨0, f32Frac b, by omega, .inl rfl, by simp [f32Mag, h0], by omega⟩
  · exact ⟨f32Exp b - 1, 2 ^ 23 + f32Frac b, by omega, .inr (by omega), by simp [f32Mag, h0], by omega⟩

theorem f32Signed_fields (neg : Bool) {p : Nat} (h : p < 2 ^ 31) :
    f32Exp (f32Signed neg p) = p / 2 ^ 23 ∧ f32Frac (f32Signed neg p) = p % 2 ^ 23 := by
  have hn : (f32Signed neg p).toNat = (if neg then 2 ^ 31 else 0) + p := by
    unfold f32Signed
    rw [BitVec.toNat_ofNat, Nat.mod_eq_of_lt]
    split <;> omega
  constructor
  · simp only [f32Exp, BitVec.extractLsb'_toNat, hn, Nat.shiftRight_eq_div_pow]
    split <;> omega
  · simp only [f32Frac, BitVec.extractLsb'_toNat, hn, Nat.shiftRight_eq_div_pow]
    split <;> omega

/-- A magnitude pattern at most that of two numbers is finite, and its magnitude is at most theirs. -/
theorem f32Signed_le (neg : Bool) {p e m : Nat} (hm : m < 2 ^ 24) (he : e = 0 ∨ 2 ^ 23 ≤ m)
    (hf : e * 2 ^ 23 + m < 0x7F800000) (h : p ≤ e * 2 ^ 23 + m) :
    f32IsFinite (f32Signed neg p) = true ∧ f32Mag (f32Signed neg p) ≤ m * 2 ^ e := by
  obtain ⟨h1, h2⟩ := f32Signed_fields neg (show p < 2 ^ 31 by omega)
  have key : ∀ e' m', m' < 2 ^ 24 → (e' = 0 ∨ 2 ^ 23 ≤ m') → e' * 2 ^ 23 + m' ≤ e * 2 ^ 23 + m →
      m' * 2 ^ e' ≤ m * 2 ^ e := by
    intro e' m' hm' he' hle
    rcases lt_trichotomy e' e with hlt | rfl | hgt
    · have h3 : 2 ^ 23 ≤ m := by omega
      calc m' * 2 ^ e' ≤ 2 ^ 24 * 2 ^ e' := Nat.mul_le_mul_right _ hm'.le
        _ = 2 ^ 23 * 2 ^ (e' + 1) := by ring
        _ ≤ m * 2 ^ e := Nat.mul_le_mul h3 (Nat.pow_le_pow_right (by decide) hlt)
    · exact Nat.mul_le_mul_right _ (by omega)
    · have : (e + 1) * 2 ^ 23 ≤ e' * 2 ^ 23 := Nat.mul_le_mul_right _ hgt
      omega
  constructor
  · simp only [f32IsFinite, h1, bne_iff_ne]; omega
  · unfold f32Mag
    rw [h1, h2]
    split
    · have := key 0 (p % 2 ^ 23) (by omega) (.inl rfl) (by omega)
      simpa using this
    · exact key (p / 2 ^ 23 - 1) (2 ^ 23 + p % 2 ^ 23) (by omega) (.inr (by omega)) (by omega)

/-- A rounded result whose exact magnitude is at most that of a finite datum is finite and no larger. -/
theorem f32Signed_round_le (neg : Bool) {num den : Nat} {w : Word} (hd : 0 < den) (hw : f32IsFinite w = true)
    (h : num ≤ f32Mag w * den) :
    f32IsFinite (f32Signed neg (roundMag num den)) = true ∧ f32Mag (f32Signed neg (roundMag num den)) ≤ f32Mag w := by
  obtain ⟨e, m, hm, he, hmag, hf⟩ := f32Mag_split hw
  rw [hmag] at h ⊢
  exact f32Signed_le neg hm he hf (roundMag_le hd hm he h)

theorem f32_classes {a : Word} (h : f32IsFinite a = true) : f32IsNaN a = false ∧ f32IsInf a = false := by
  have : f32Exp a ≠ 255 := by simpa [f32IsFinite] using h
  simp [f32IsNaN, f32IsInf, this]

theorem f32Val_natAbs (a : Word) : (f32Val a).natAbs = f32Mag a := by unfold f32Val; split <;> simp

/-- A sum of finite data whose exact value is at most a finite datum's magnitude is finite and no larger. -/
theorem fadd_le (n : Nat) {a b w : Word} (ha : f32IsFinite a = true) (hb : f32IsFinite b = true)
    (hw : f32IsFinite w = true) (h : (f32Val a + f32Val b).natAbs ≤ f32Mag w) :
    f32IsFinite (fadd n a b) = true ∧ f32Mag (fadd n a b) ≤ f32Mag w := by
  obtain ⟨a1, a2⟩ := f32_classes ha
  obtain ⟨b1, b2⟩ := f32_classes hb
  simp only [fadd, a1, a2, b1, b2, Bool.or_self, Bool.false_eq_true, if_false]
  split
  · exact f32Signed_le (f32Sign a && f32Sign b) (e := 0) (m := 0) (by omega) (.inl rfl) (by omega) (Nat.zero_le _) |>.imp
      id (fun h => h.trans (by omega))
  · exact f32Signed_round_le _ Nat.one_pos hw (by omega)

theorem fneg_fields (b : Word) : f32Exp (fneg b) = f32Exp b ∧ f32Frac (fneg b) = f32Frac b := by
  constructor <;>
  · simp only [f32Exp, f32Frac, fneg]
    congr 1
    apply BitVec.eq_of_getLsbD_eq
    intro i hi
    simp only [BitVec.getLsbD_extractLsb', BitVec.getLsbD_xor]
    interval_cases i <;> simp

@[simp] theorem fneg_finite (b : Word) : f32IsFinite (fneg b) = f32IsFinite b := by
  simp [f32IsFinite, (fneg_fields b).1]

@[simp] theorem fneg_mag (b : Word) : f32Mag (fneg b) = f32Mag b := by
  simp [f32Mag, (fneg_fields b).1, (fneg_fields b).2]

/-- A difference of finite data, likewise, by the sum of the magnitudes. -/
theorem fsub_le (n : Nat) {a b w : Word} (ha : f32IsFinite a = true) (hb : f32IsFinite b = true)
    (hw : f32IsFinite w = true) (h : f32Mag a + f32Mag b ≤ f32Mag w) :
    f32IsFinite (fsub n a b) = true ∧ f32Mag (fsub n a b) ≤ f32Mag w := by
  refine fadd_le n ha (by simpa using hb) hw ?_
  have h1 := f32Val_natAbs a
  have h2 := f32Val_natAbs (fneg b)
  rw [fneg_mag] at h2
  omega

/-- A product of finite data, likewise. -/
theorem fmul_le (n : Nat) {a b w : Word} (ha : f32IsFinite a = true) (hb : f32IsFinite b = true)
    (hw : f32IsFinite w = true) (h : f32Mag a * f32Mag b ≤ f32Mag w * 2 ^ 149) :
    f32IsFinite (fmul n a b) = true ∧ f32Mag (fmul n a b) ≤ f32Mag w := by
  obtain ⟨a1, a2⟩ := f32_classes ha
  obtain ⟨b1, b2⟩ := f32_classes hb
  simp only [fmul, a1, a2, b1, b2, Bool.or_self, Bool.false_eq_true, if_false]
  exact f32Signed_round_le _ (by positivity) hw h

/-- The integer part of a finite datum, as a datum, is finite and no larger. -/
theorem cvtInt_ftrunc_le {s : Word} (hs : f32IsFinite s = true) :
    f32IsFinite (cvtInt (ftrunc s)) = true ∧ f32Mag (cvtInt (ftrunc s)) ≤ f32Mag s := by
  refine f32Signed_round_le _ Nat.one_pos hs ?_
  rw [ftrunc, Int.natAbs_tdiv, f32Val_natAbs, Nat.mul_one]
  exact Nat.div_mul_le_self _ _

/-! ### Tables -/

theorem tab_get {α : Type} (n : Nat) (f : Nat → α) (i : Fin n) : (tab n f).get i = f i.val := by
  have h : (tab n f).get i = (tab n f).toArray[i.val]'(by simp [tab]) := rfl
  rw [h]; simp [tab]

theorem tab_toList {α : Type} (n : Nat) (f : Nat → α) : (tab n f).toList = (List.range n).map f := by
  simp [tab, Vector.toList]

/-- Entry `v` of the distances a classification computes (R138, R140). -/
theorem distances_get (n : Nat) (spec : List Word) (dict : Vector (Vector Word Config.KC) Config.NDICT)
    (v : Fin 256) : (distances n spec dict).get v = distanceTo n spec dict v := by
  have h : (dict.toList.getD v.val (Vector.replicate _ 0)) = dict.get v := by
    simp [List.getD, Vector.get]
  rw [distances, tab_get, h]; rfl

/-- Entry `i` of byte value `v` of the dictionary an image makes (R55, R135). -/
theorem dictOf_get (ws : List Word) (v : Fin 256) (i : Fin 41) :
    ((dictOf ws).get v).get i = ws.getD (41 * v.val + i.val) 0 := by
  rw [dictOf, tab_get, tab_get]

/-! ### Plain memory -/

theorem Bytes.putByte_other (x : Bytes) (a c : Nat) (b : Byte) (h : c ≠ a) : x.putByte a b c = x c := by
  simp [Bytes.putByte, h]

theorem Bytes.putWord_other (x : Bytes) (a c : Nat) (w : Word) (h : c < a ∨ a + 4 ≤ c) : x.putWord a w c = x c := by
  have : ¬ (a ≤ c ∧ c < a + 4) := by omega
  simp [Bytes.putWord, this]

end Sys2Proof.Machine
end

