-- ==== Sys2Proof/Tests/Slice0.lean ====
section
/-! SUPPORT. Tests on small states, one step each. Expected values are those of spec/95_test_vectors.md and of the worked
examples of the rules named. The second half shows, for each statement with hypotheses, operands that meet them. -/

namespace Sys2Proof.Tests

open Sys2Proof.Machine

set_option Elab.async false

/-! ### Well-formedness and decoding -/

/-- `RSV` not 0 (R78). -/
theorem test_reserved_refused : ¬ (CW.WellFormed ⟨0x01, false, false, 1⟩) := by decide

/-- `OPC` 0 is none of the fifteen (R78). -/
theorem test_opcode_refused : ¬ (CW.WellFormed ⟨0x00, false, false, 0⟩) := by decide

/-- `G` on `PIPE`, `PAR` on `XFORM` (R77). -/
theorem test_flags_refused : ¬ (CW.WellFormed ⟨0x41, true, true, 0⟩) ∧ ¬ (CW.WellFormed ⟨0x11, false, true, 0⟩) := by
  decide

/-- Each word written out from R75 and R76: bits 7 to 0 `OPC`, bit 8 `G`, bit 9 `PAR`. -/
theorem test_decode_trig : decode 0b00000001 = .ok .init ∧ decode 0b00000010 = .ok .sin ∧
    decode 0b00000011 = .ok .cos := by decide

theorem test_decode_dtft : decode 0b00010000 = .ok .magat ∧ decode 0b000010001 = .ok (.xform .full) ∧
    decode 0b100010001 = .ok (.xform .half) ∧ decode 0b000010010 = .ok (.xformp .full) ∧
    decode 0b100010010 = .ok (.xformp .half) ∧ decode 0b00010011 = .ok .mag ∧ decode 0b00010100 = .ok .sqmag := by
  decide

theorem test_decode_sync : decode 0b00100000 = .ok .wlaunch := by decide

theorem test_decode_classifier : decode 0b00110000 = .ok .lddict ∧ decode 0b00110001 = .ok .dist ∧
    decode 0b00110010 = .ok .classify ∧ decode 0b00110011 = .ok .rank := by decide

theorem test_decode_pipeline : decode 0b01000000 = .ok .repl ∧ decode 0b0001000001 = .ok (.pipe .serial) ∧
    decode 0b1001000001 = .ok (.pipe .parallel) := by decide

/-- R78: refused by name. -/
theorem test_decode_illegal : decode 0 = .error .opcode ∧ decode 0x80000001 = .error .reserved ∧
    decode 0x00000101 = .error .flag ∧ decode 0x00000211 = .error .flag := by decide

/-- The eighteen legal words, as R77 lists them, are the words of the commands. -/
theorem test_encode : [Instr.init, .sin, .cos, .magat, .xform .full, .xform .half, .xformp .full, .xformp .half, .mag,
    .sqmag, .wlaunch, .lddict, .dist, .classify, .rank, .repl, .pipe .serial, .pipe .parallel].map encode = legalWords := by
  decide

/-! ### A small state -/

/-- A command has been accepted; the tables are filled, the dictionary is loaded with zeros, and memory holds the bytes
`01 00 01 01` at 0x100, the pattern of byte 0x4F at 0x200, and the pairs (3, 0), (0, 1) at 0x300. -/
def small : State :=
  { State.reset with
    busy := true, pstage := .begin, initd := true, dictv := true, sintab := sinTable, costab := cosTable
    mem := ⟨[(0x100, 1), (0x102, 1), (0x103, 1), (0x201, 1), (0x204, 1), (0x205, 1), (0x206, 1), (0x207, 1),
      (0x302, 0x40), (0x303, 0x40), (0x30E, 0x80), (0x30F, 0x3F)]⟩ }

/-- The state a step answers; the state after reset where it answers none. -/
def after (r : Host.Outcome State Fault Refusal) : State :=
  match r with
  | .next t => t
  | .fault _ => State.reset
  | .refused _ => State.reset

/-! ### Commands -/

/-- R95: `STATUS` after `INIT` is 0x0000000A, and after a second one 0x0000040A. -/
theorem test_init_status : (after (exec .init (State.reset.accept 1))).status = 0x0000000A := by decide +kernel

theorem test_init_repeat : (after (exec .init (after (exec .init (State.reset.accept 1))))).status = 0x0000040A := by
  decide +kernel

/-- R96 and T-LUT: `SIN` of -1.0; the first pattern that has no index. -/
theorem test_sin : (after (exec .sin { small with farg := 0xBF800000 })).resf = 0xBF576CA2 := by decide +kernel

theorem test_sin_range : (after (exec .sin { small with farg := 0x7BC90FDB })).status = 0x0000071A ∧
    (after (exec .sin { small with farg := 0x7BC90FDB })).errinfo = 0x7BC90FDB := by decide +kernel

/-- R97: `COS` of 1.0, and of -0.001, above 1. -/
theorem test_cos : (after (exec .cos { small with farg := 0x3F800000 })).resf = 0x3F0A513C := by decide +kernel

theorem test_cos_above_one : (after (exec .cos { small with farg := 0xBA83126F })).resf = 0x3F80001A := by
  decide +kernel

/-- R105: the magnitude of `01 00 01 01` at 1.0; an infinite frequency at the second sample. -/
theorem test_magat : (after (exec .magat { small with src := 0x100, len := 4, farg := 0x3F800000 })).resf =
    0x3F9028FF := by decide +kernel

theorem test_magat_infinite :
    (after (exec .magat { small with src := 0x102, len := 2, farg := 0x7F800000 })).errinfo = 0xFF800000 ∧
    (after (exec .magat { small with src := 0x102, len := 2, farg := 0x7F800000 })).code = .num := by decide +kernel

/-- R106: bin 1 of `01 00 01 01` on the full grid of 4 points is `j`. -/
theorem test_xform : let t := after (exec (.xform .full) { small with src := 0x100, len := 4, cnt := 4, dst := 0x400 })
    t.mem.readWord 0x400 = 0x40400000 ∧ t.mem.readWord 0x40C = 0x3F800000 ∧ t.resi = 4 := by decide +kernel

theorem test_xform_align : (after (exec (.xform .half) { small with dst := 0x402 })).code = .align := by
  decide +kernel

/-- R107: nothing is computed yet, the job is latched with its midpoint. -/
theorem test_xformp : let t := after (exec (.xformp .half) { small with src := 0x100, len := 4, cnt := 5, dst := 0x400 })
    t.pstage = .pub .sig ∧ t.pjob = ⟨0x100, 4, 2, 5, 5, .half, 0x400⟩ ∧ t.busy = true := by decide +kernel

/-- R108, R109: the magnitudes of (3, 0) and (0, 1), in place. -/
theorem test_mag : let t := after (exec .mag { small with src := 0x300, cnt := 2, dst := 0x300 })
    t.mem.readWord 0x300 = 0x40400000 ∧ t.mem.readWord 0x304 = 0x3F800000 := by decide +kernel

theorem test_sqmag : let t := after (exec .sqmag { small with src := 0x300, cnt := 2, dst := 0x400 })
    t.mem.readWord 0x400 = 0x41100000 ∧ t.mem.readWord 0x404 = 0x3F800000 := by decide +kernel

/-- R116: `STATUS` after `INIT` and `WLAUNCH` is 0x0010002A. -/
theorem test_wlaunch : (after (exec .wlaunch { small with dictv := false })).status = 0x0010002A := by decide +kernel

/-- R135, R154: a second load is refused; R156: so is a misaligned image. -/
theorem test_lddict_repeat : (after (exec .lddict small)).code = .state ∧ (after (exec .lddict small)).errinfo = 1 := by
  decide +kernel

theorem test_lddict_align : (after (exec .lddict { small with dictv := false, src := 0x302 })).code = .align := by
  decide +kernel

/-- R136: 41 times 0.25 is 10.25. -/
theorem test_distance : distF 0 (List.replicate 41 0x3FC00000) (List.replicate 41 0x3F800000) = 0x41240000 := by
  decide +kernel

/-- R137: a spectrum against itself. -/
theorem test_dist : (after (exec .dist { small with src := 0x300, aux := 0x300, resf := 5 })).resf = 0 := by
  decide +kernel

/-- R138: of two bytes at the least distance the lower wins; a NaN and an infinity never do. -/
theorem test_nearest : nearest [0x7FC00000, 0x7F800000, 0x41240000, 0x41240000, 0x42000000] = (2, 0x41240000) ∧
    nearest [0x7FC00000, 0x7F800000] = (0, 0x7F800000) := by decide +kernel

theorem test_classify_length : (after (exec .classify { small with len := 40 })).code = .usage ∧
    (after (exec .classify { small with len := 40 })).errinfo = 40 := by decide +kernel

/-- R139: NaN last, ties by byte value. -/
theorem test_ranked : (ranked [0x7FC00000, 0x42000000, 0x41240000, 0x41240000]).map (·.1) = [2, 3, 1, 0] := by
  decide +kernel

theorem test_rank_count : (after (exec .rank { small with len := 41, cnt := 257 })).errinfo = 257 := by decide +kernel

/-- R145: `RESI` is `LEN*CNT`, and a byte of a later copy; a product of 2^32 never fits. -/
theorem test_repl : let t := after (exec .repl { small with src := 0x200, len := 8, cnt := 10, dst := 0x500 })
    t.resi = 80 ∧ t.mem.read 0x549 = 1 ∧ t.mem.read 0x548 = 0 ∧ t.mem.read 0x550 = 0 := by decide +kernel

theorem test_repl_product :
    (after (exec .repl { small with len := 0x10000, cnt := 0x10000, dst := 0x44 })).code = .alloc := by decide +kernel

/-- R147: the length check, and what parallel `PIPE` publishes (R117). -/
theorem test_pipe_length : (after (exec (.pipe .serial) { small with len := 9 })).status = 0x0000021A := by
  decide +kernel

theorem test_pipe_publish : let t := after (exec (.pipe .parallel) { small with src := 0x200, len := 8, dst := 0x400 })
    t.pjob = ⟨0x400, 80, 20, 41, 41, .half, 0x450⟩ ∧ t.coreByte .p 0x44F = 1 ∧ t.mem.read 0x44F = 0 := by
  decide +kernel

/-! ### Arithmetic, grids, registers, steps -/

/-- R10, R11: a tie to even, a subnormal kept, an overflow, and `+0` from `x - x`. -/
theorem test_arithmetic : fadd 0 0x4B800000 0x3F800000 = 0x4B800000 ∧ fmul 0 0x00000001 0x3F800000 = 0x00000001 ∧
    fmul 0 0x7F7FFFFF 0x40000000 = 0x7F800000 ∧ fsub 0 0xC0490FDB 0xC0490FDB = 0 := by decide +kernel

/-- T-GRID: `K = 3` full, `K = 4` half, and the special case `K = 1`. -/
theorem test_grids : omegaOf 0 .full 1 3 = 0x40060A92 ∧ omegaOf 0 .half 1 4 = 0x3F860A92 ∧ omegaOf 0 .half 0 1 = 0 := by
  decide +kernel

/-- T-TAB: the sums of the tables' patterns. -/
theorem test_tables : (sinTable.toList.foldl (· + ·) 0 : Word) = 0xF1CDAFBC ∧
    (cosTable.toList.foldl (· + ·) 0 : Word) = 0xF1CDAFBC := by decide +kernel

/-- R148: byte 0x4F is 01001111. -/
theorem test_pattern : patternOf 0x4F = [0, 1, 0, 0, 1, 1, 1, 1] := by decide

/-- R83, R84: `xform` on the half-turn grid as host turns; byte and word writes at rising addresses. -/
theorem test_script : (scriptXform .half 0x100 4 5 0x200).flatMap HostStmt.turns =
      [.regWrite 0x00 0x100, .regWrite 0x04 4, .regWrite 0x08 5, .regWrite 0x0C 0x200, .regWrite 0x20 0x111,
        .regRead 0x24] ∧
    (HostStmt.mw8 0x10 [1, 2]).turns = [.memWrite8 0x10 1, .memWrite8 0x11 2] ∧
    (HostStmt.mw32 0x10 [1, 2]).turns = [.memWrite32 0x10 1, .memWrite32 0x14 2] := by decide +kernel

/-- R177: what the host reads after reset. -/
theorem test_reset_reads : State.reset.readReg 0x24 = some 0 ∧ State.reset.readReg 0x30 = some 0x44544654 ∧
    State.reset.readReg 0x34 = some 0x0A08292A := by decide +kernel

/-- The host's question: the word 0x111, placed, runs as `XFORM` on the half-turn grid; without tables it is refused with
`ERR_STATE` (R154). -/
theorem test_fetch : decodeTableWord 32 0x111 = some (.xform .half) ∧
    (after (step (State.reset.withFetchWord 32 0x111))).code = .state := by decide +kernel

/-! ### The hypotheses of the statements can be met -/

/-- `DecodeEncodeAgree`. -/
theorem test_meets_decode : decode 0x00000241 = .ok (.pipe .parallel) := by decide

/-- `StepRunsDecoded`. -/
theorem test_meets_step : let s := { small with cmdr := 2, turns := [.p [true], .w []] }
    s.turns = .p [true] :: [.w []] ∧ s.pstage = .begin ∧ decode s.cmdr = .ok .sin := ⟨rfl, rfl, by decide⟩

/-- `IllegalWordEnds`. -/
theorem test_meets_illegal : let s := { small with cmdr := 0x141, turns := [.p []] }
    s.turns = .p [] :: [] ∧ s.pstage = .begin ∧ s.cmdr ∉ legalWords := ⟨rfl, rfl, by decide⟩

/-- `CommandIssue`: both clauses. -/
theorem test_meets_issue :
    ({ State.reset with turns := [.regWrite 0x20 7] }.busy = false) ∧
      ({ small with turns := [.regWrite 0x14 7] }.busy = true ∧ (0x14 : Word) ∈ [0x00, 0x04, 0x08, 0x0C, 0x10, 0x14]) :=
  ⟨rfl, rfl, by decide⟩

/-- `RegisterWrites` and `RegisterReads`: an idle block, the last read-only register, the first offsets outside the
map. -/
theorem test_meets_registers : { State.reset with turns := [.regWrite 0x36 1] }.turns = .regWrite 0x36 1 :: [] ∧
    { State.reset with turns := [.regRead 0x34] }.turns = .regRead 0x34 :: [] ∧ State.reset.busy = false ∧ (0x34 : Word) ∈ [0x18, 0x1C, 0x24, 0x28, 0x30, 0x34] ∧
    0x38 ≤ (0x38 : Word).toNat ∧ (0x36 : Word).toNat % 4 ≠ 0 := by decide

/-- `ResetClears`, `SoftResetMemory`: a reset that finds `P` about to begin a command, one that finds an illegal word, one
that finds `P` polling, and one in the rest of a parallel `PIPE`. -/
theorem test_meets_reset : small.mem.wf = true ∧ small.pstage = .begin ∧ small.pview.sb = [] ∧
    decode { small with cmdr := 0x40, src := 0x200, len := 8, cnt := 1, dst := 0x500 }.cmdr = .ok .repl ∧
    (∃ t, exec .repl { small with cmdr := 0x40, src := 0x200, len := 8, cnt := 1, dst := 0x500 } = .next t) ∧
    ({ small with pstage := .waitRead }.pstage ≠ .begin ∧ { small with pstage := .waitRead }.pstage ≠ .tail) ∧
    (∃ e, decode { small with cmdr := 0x141 }.cmdr = .error e) ∧ 0x100 ∉ { small with disturbed := [0x101] }.disturbed ∧
    { small with dst := 0x1FDC4 }.dst.toNat + 572 ≤ small.memBytes ∧
    ∃ t, producerStep { small with pstage := .tail, dst := 0x1FDC4 } = .next t :=
  ⟨by decide, rfl, rfl, by decide, ⟨_, rfl⟩, ⟨by decide, by decide⟩, ⟨.flag, by decide⟩, by decide, by decide, _, rfl⟩

/-- A command runs with the four bytes from 0x500 on as its destination, and the host has written the byte before them. -/
def disturbed : State :=
  { small with cmdr := 0x40, src := 0x200, len := 4, cnt := 1, dst := 0x500, disturbed := [0x4FF] }

/-- `MemoryPort`, while a command runs: the last word and the last byte of memory; a byte on each side of the destination
that the host has not written. -/
theorem test_meets_port_busy : disturbed.busy = true ∧ (0x1FFFC : Word).toNat + 4 ≤ disturbed.memBytes ∧
    (0x1FFFF : Word).toNat + 1 ≤ disturbed.memBytes ∧ disturbed.destination = (0x500, 4) ∧ disturbed.mem.wf = true ∧
    0x4FE ∉ disturbed.disturbed ∧ 0x4FE < 0x500 ∧ 0x504 ∉ disturbed.disturbed := by decide

/-- R66, R179: while a command runs the host reads shared storage outside its destination, and its write is not refused. -/
theorem test_port_busy : (after (takeStep (.memRead8 0x201) disturbed)).hostRd = 1 ∧
    (after (takeStep (.memWrite8 0x600 7) disturbed)).disturbed = [0x600, 0x4FF] ∧
    (after (takeStep (.memRead8 0x100) { disturbed with len := 0, dst := 0x100 })).hostRd = 1 := by decide +kernel

/-- `EveryCommandAnswers`, its last clause: a byte outside every buffer of the command. -/
theorem test_meets_far : ∀ a ∈ disturbed.disturbed, ∀ b ∈ disturbed.destinationOf .repl :: disturbed.sourcesOf .repl,
    a < b.1.toNat ∨ b.1.toNat + b.2 ≤ a := by decide

/-- `MemoryPort`: the last word and the last byte of memory, and the first beyond. -/
theorem test_meets_port : State.reset.busy = false ∧ State.reset.mem.wf = true ∧
    (0x1FFFC : Word).toNat + 4 ≤ State.reset.memBytes ∧ (0x1FFFC : Word).toNat % 4 = 0 ∧
    (0x1FFFF : Word).toNat < State.reset.memBytes ∧ State.reset.memBytes < (0x1FFFD : Word).toNat + 4 ∧
    (0x1FFFE : Word).toNat % 4 ≠ 0 ∧ State.reset.memBytes ≤ (0x20000 : Word).toNat := by decide

/-- `ErrorsAtBegin`: each code of R151 to R156, at the edge of its check. -/
theorem test_meets_errors : State.beginError small .init = some (.state, 1) ∧
    State.beginError State.reset .cos = some (.state, 0) ∧
    State.beginError { small with len := 41, cnt := 257 } .rank = some (.usage, 257) ∧
    State.beginError { small with src := 2 } .mag = some (.align, 2) ∧
    State.beginError { small with len := 1, src := 0x20000 } .magat = some (.addr, 0x20000) ∧
    State.beginError { small with cnt := 2, dst := 0x1FFF4 } (.xform .full) = some (.alloc, 0x1FFF4) := by decide

/-- `NumericErrors`: an infinite `FARG`; and a bin that stops at its second sample. -/
theorem test_meets_numeric : ¬ Indexable { small with farg := 0x7F800000 }.farg ∧
    (let s := { small with src := 0x102, len := 2, farg := 0x7F800000 }
     s.beginError .magat = none ∧
      (dtftBin s.draws s.sintab s.costab (fun i => s.mem.read (s.src.toNat + i)) s.len.toNat s.farg).isNone = true) := by
  decide +kernel

/-- `ErrorsArePrecise`. -/
theorem test_meets_precise : small.code = .ok ∧ ∃ t, producerStep { small with cmdr := 1 } = .next t ∧ t.code ≠ .ok :=
  ⟨rfl, _, rfl, by decide⟩

/-- `InitFillsTables`, `WorkerLaunch`. -/
theorem test_meets_boot : State.reset.initd = false ∧ State.reset.wrun = false ∧ State.reset.Ready :=
  ⟨rfl, rfl, rfl, rfl⟩

/-- `SinCosInterpolate`, `LookupRange`: the largest angle that has an index, and the smallest that has none. -/
theorem test_meets_angles : small.initd = true ∧ small.Ready ∧ Indexable 0x7BC90FDA ∧ Indexable 0xFBC90FDA ∧
    ¬ Indexable 0x7BC90FDB := by decide

/-- `MagatResult`: both clauses. -/
theorem test_meets_magat : (let s := { small with src := 0x100, len := 4, farg := 0x3F800000 }
    s.beginError .magat = none ∧
      (dtftBin s.draws s.sintab s.costab (fun i => s.mem.read (s.src.toNat + i)) s.len.toNat s.farg).isSome = true) ∧
    State.beginError { small with len := 0, farg := 0x7FC00000 } .magat = none ∧ small.Ready := by decide +kernel

/-- `XformResult`: two bins of four samples; output and signal disjoint. -/
theorem test_meets_xform : let s := { small with src := 0x100, len := 4, cnt := 2, dst := 0x104 }
    s.beginError (.xform .half) = none ∧ s.Ready ∧ s.mem.wf = true ∧
    (plainBins s.sintab s.costab .half s.src.toNat s.len.toNat s.cnt s.dst.toNat s.draws s.cnt.toNat 0
      s.mem.read).isSome = true ∧ s.src.toNat + s.len.toNat ≤ s.dst.toNat ∧ 1 < s.cnt.toNat := by decide +kernel

/-- `ParallelCommandsPublish`. -/
theorem test_meets_publish :
    State.beginError { small with src := 0x100, len := 4, cnt := 5, dst := 0x400 } (.xformp .half) = none ∧
    State.beginError { small with src := 0x200, len := 8, dst := 0x400 } (.pipe .parallel) = none ∧
    small.Ready := by decide

/-- `MagnitudeSpectra`: in place, and disjoint. -/
theorem test_meets_magnitudes : small.mem.wf = true ∧ small.Ready ∧
    State.beginError { small with src := 0x300, cnt := 2, dst := 0x300 } .mag = none ∧
    State.beginError { small with src := 0x300, cnt := 2, dst := 0x310 } .sqmag = none ∧
    0x300 + 8 * 2 ≤ 0x310 := by decide

/-- `GridsAreIndexable`: the last bin of a grid, and a transform that answers. -/
theorem test_meets_grids : (40 : Word).toNat < (41 : Word).toNat ∧ small.code ≠ .num ∧
    ∃ t, exec (.xform .half) { small with cnt := 1, dst := 0x400 } = .next t := ⟨by decide, by decide, _, rfl⟩

/-- `GridBinsAreFinite`. -/
theorem test_meets_tables : small.sintab = sinTable ∧ small.costab = cosTable := ⟨rfl, rfl⟩

/-- `PublishWritesJob`: `P` about to publish, with a byte of the pattern pending. -/
theorem test_meets_publishing :
    let s := { small with pstage := .pub .sig, pview := { View.empty with sb := [.byte 0x400 1] } }
    s.pstage = .pub .sig ∧ (∀ i v, Pending.job i v ∉ s.pview.sb) ∧ s.mem.wf = true ∧
      (List.replicate 9 [true]).length = 9 :=
  ⟨rfl, by simp, by decide, rfl⟩

/-- `PollsReadFreshFlags`. -/
theorem test_meets_polls : { small with pstage := .waitFence }.pstage = .waitFence ∧
    { small with wstage := .pollFence }.wstage = .pollFence := ⟨rfl, rfl⟩

/-- `WorkerLoadsAndCompletes`: both clauses. -/
theorem test_meets_worker : { small with wstage := .load .sig }.wstage = .load .sig ∧
    (let s := { small with wstage := .rel, wview := { View.empty with sb := [.word 0x400 7] } }
     s.wstage = .rel ∧ (∀ i v, Pending.job i v ∉ s.wview.sb) ∧ s.mem.wf = true) :=
  ⟨rfl, rfl, by simp, by decide⟩

/-- R185: an empty signal inside the output range overlaps nothing; one sample there does. -/
theorem test_overlaps : Job.overlaps ⟨0x404, 0, 0, 2, 2, .full, 0x400⟩ = false ∧
    Job.overlaps ⟨0x404, 1, 0, 2, 2, .full, 0x400⟩ = true := by decide

/-- `BinStepsMakeOneBin`, an empty signal beyond memory. -/
theorem test_meets_bin_empty : let j : Job := ⟨0xFFFFFFFF, 0, 0, 1, 1, .full, 0x400⟩
    j.overlaps = false ∧ j.n = 0 ∧ binAddr j.out (small.regs .p).kidx.toNat + 8 ≤ small.memBytes ∧
      ∃ t, small.transformBin .p j = .ok t := ⟨by decide, rfl, by decide, _, rfl⟩

/-- `BinStepsMakeOneBin`: the last bin of a job of four samples, its pair the last eight bytes of memory. -/
theorem test_meets_bin : let j : Job := ⟨0x100, 4, 0, 1, 1, .full, 0x1FFF8⟩
    (small.regs .p).kidx.toNat + 1 = (1 : Word).toNat ∧ j.overlaps = false ∧
      j.sig.toNat + j.n.toNat ≤ small.memBytes ∧ binAddr j.out (small.regs .p).kidx.toNat + 8 ≤ small.memBytes ∧
      ∃ t, small.transformBin .p j = .ok t := ⟨by decide, by decide, by decide, by decide, _, rfl⟩

/-- `ParallelCommandsFinish`, `PipeParallelTail`. -/
theorem test_meets_finish :
    let s := { small with pstage := .fin, pview := { View.empty with sb := [.word 0x400 7] } }
    s.pstage = .fin ∧ (∀ i v, Pending.job i v ∉ s.pview.sb) ∧ s.mem.wf = true ∧ s.pcmd = .xformp ∧
      { s with pcmd := .pipe }.pcmd = .pipe ∧ { s with pstage := .tail }.pstage = .tail ∧ s.pview.mcopies = [] ∧
      s.dst.toNat + 572 ≤ s.memBytes ∧ s.disturbed = [] :=
  ⟨rfl, by simp, by decide, rfl, rfl, rfl, rfl, by decide, rfl⟩

/-- `WorkerTouchesOnlyItsOwn`. -/
theorem test_meets_worker_step : ∃ t, workerStep { small with wstage := .setDone } = .next t := ⟨_, rfl⟩

/-- A table of zeros. -/
def zeros : Vector Word Config.L := Vector.replicate _ 0

theorem fsub_zero (n : Nat) : fsub n 0 0 = 0 := fsub_draw 0 n 0 0 (by decide +kernel)

/-- Tables of zeros answer 0 for every angle of magnitude at most 640. -/
theorem lookup_zeros (n : Nat) {a : Word} (h : f32IsFinite a = true) (hm : f32Mag a ≤ 640 * 2 ^ 149) :
    lookup n zeros a = some 0 := by
  have e1 : f32IsFinite SCALE = true ∧ f32Mag SCALE = 10680707 * 2 ^ 133 := by decide +kernel
  have e2 : f32IsFinite 0x48000000 = true ∧ f32Mag 0x48000000 = 2 ^ 166 := by decide +kernel
  have e3 : f32IsFinite 0x48800000 = true ∧ f32Mag 0x48800000 = 2 ^ 167 := by decide +kernel
  obtain ⟨s1, s2⟩ := fmul_le n (w := 0x48000000) h e1.1 e2.1 (by
    rw [e1.2, e2.2]
    calc f32Mag a * (10680707 * 2 ^ 133) ≤ 640 * 2 ^ 149 * (10680707 * 2 ^ 133) := Nat.mul_le_mul_right _ hm
      _ ≤ 2 ^ 166 * 2 ^ 149 := by norm_num)
  obtain ⟨t1, t2⟩ := cvtInt_ftrunc_le s1
  obtain ⟨f1, -⟩ := fsub_le (n + 1) (w := 0x48800000) s1 t1 e3.1 (by rw [e2.2] at s2; rw [e3.2]; omega)
  generalize hf : fsub (n + 1) (fmul n a SCALE) (cvtInt (ftrunc (fmul n a SCALE))) = f at f1
  have hz (i : Fin Config.L) : zeros[i] = 0 := by simp [zeros]
  have hp : fmul (n + 3) f 0 = 0 ∨ fmul (n + 3) f 0 = 0x80000000 := by
    obtain ⟨c1, c2⟩ := f32_classes f1
    simp only [fmul, c1, c2, show f32IsNaN 0 = false from rfl, show f32IsInf 0 = false from rfl,
      show f32Mag 0 = 0 from by decide +kernel, Bool.or_self, Bool.false_eq_true, if_false, Nat.mul_zero]
    cases (f32Sign f != f32Sign 0)
    · left; decide +kernel
    · right; decide +kernel
  have hs : fadd (n + 4) 0 (fmul (n + 3) f 0) = 0 := by
    rcases hp with e | e <;> rw [e]
    · exact fadd_draw 0 (n + 4) 0 0 (by decide +kernel)
    · exact fadd_draw 0 (n + 4) 0 0x80000000 (by decide +kernel)
  have hg : (!f32IsNaN a && f32IsFinite (fmul n a SCALE)) = true := by simp [(f32_classes h).1, s1]
  unfold lookup
  simp only [hg, if_true, hf, hz, fsub_zero, hs]

/-- One sample on tables of zeros: both sums stay 0 and the angle falls by `OMEGA`. -/
theorem accumulate_zeros (n : Nat) (x : Byte) {r : Datapath} (h : f32IsFinite r.angle = true)
    (hm : f32Mag r.angle ≤ 640 * 2 ^ 149) (hr : r.re = 0) (hi : r.im = 0) :
    accumulate n zeros zeros x r = some { r with angle := fsub (n + 14) r.angle r.omega, nidx := r.nidx + 1 } := by
  have hx (n m : Nat) : fadd n 0 (fmul m (cvtU8 x) 0) = 0 := by
    have h1 : ∀ y : Byte, f32IsNaN (fmul 0 (cvtU8 y) 0) = false ∧ f32IsNaN (fadd 0 0 (fmul 0 (cvtU8 y) 0)) = false ∧
        fadd 0 0 (fmul 0 (cvtU8 y) 0) = 0 := by decide +kernel
    rw [fmul_draw 0 m _ _ (h1 x).1, fadd_draw 0 n _ _ (h1 x).2.1]; exact (h1 x).2.2
  unfold accumulate
  rw [lookup_zeros n h hm, lookup_zeros (n + 5) h hm]
  simp only [hr, hi, hx]

/-- Up to 80 samples on tables of zeros at a frequency of at most 8. -/
theorem kernel_zeros (x : Nat → Byte) {w : Word} (hw : f32IsFinite w = true) (hb : f32Mag w ≤ 8 * 2 ^ 149) (m : Nat) :
    ∀ (n j : Nat) (r : Datapath), j + m ≤ 80 → f32IsFinite r.angle = true → f32Mag r.angle ≤ 8 * j * 2 ^ 149 →
      r.omega = w → r.re = 0 → r.im = 0 →
      ∃ q, kernel n zeros zeros x m r = some q ∧ q.omega = w ∧ f32IsFinite q.angle = true ∧ q.re = 0 ∧ q.im = 0 := by
  have hv : ∀ k ≤ 80, f32IsFinite (cvtU32 (BitVec.ofNat 32 (8 * k))) = true ∧
      f32Mag (cvtU32 (BitVec.ofNat 32 (8 * k))) = 8 * k * 2 ^ 149 := by decide +kernel
  induction m with
  | zero => intro n j r _ h1 _ h3 h4 h5; exact ⟨r, rfl, h3, h1, h4, h5⟩
  | succ m ih =>
    intro n j r hj h1 h2 h3 h4 h5
    obtain ⟨v1, v2⟩ := hv (j + 1) (by omega)
    obtain ⟨a1, a2⟩ := fsub_le (n + 14) h1 (h3 ▸ hw) v1 (by rw [v2, h3]; omega)
    rw [v2] at a2
    simp only [kernel, accumulate_zeros n (x r.nidx.toNat) h1
      (h2.trans (Nat.mul_le_mul_right _ (show 8 * j ≤ 640 by omega))) h4 h5]
    exact ih (n + SAMPLE_DRAWS) (j + 1) { r with angle := fsub (n + 14) r.angle r.omega, nidx := r.nidx + 1 } (by omega)
      a1 a2 h3 h4 h5

/-- On tables of zeros the classification grid meets no NaN and no infinity. -/
theorem gridFinite_zeros (s : State) (h1 : s.sintab = zeros) (h2 : s.costab = zeros) : s.GridFinite .half 41 80 := by
  intro n m x k hk hm
  have hv : ∀ j < 41, f32IsNaN (fmul 0 PI_F (cvtU32 (BitVec.ofNat 32 j))) = false ∧
      f32IsFinite (omegaOf 0 .half (BitVec.ofNat 32 j) 41) = true ∧
      f32Mag (omegaOf 0 .half (BitVec.ofNat 32 j) 41) ≤ 8 * 2 ^ 149 := by decide +kernel
  obtain ⟨w1, w2, w3⟩ := hv k.toNat hk
  rw [BitVec.ofNat_toNat, BitVec.setWidth_eq] at w1 w2 w3
  have hw : omegaOf n .half k 41 = omegaOf 0 .half k 41 := by
    have e (n : Nat) : omegaOf n .half k 41 = fdiv (n + 1) (fmul n PI_F (cvtU32 k)) (cvtU32 40) := by
      rw [omegaOf, if_neg (by decide), show (41 : Word) - 1 = 40 from by decide]
    have w4 := (f32_classes w2).1
    rw [e] at w4
    rw [e n, e 0, fmul_draw 0 n _ _ w1]
    exact fdiv_draw (0 + 1) (n + 1) _ _ w4
  have hz : f32IsFinite 0 = true ∧ f32Mag 0 = 0 := by decide +kernel
  rw [h1, h2, hw]
  obtain ⟨q, g1, g2, g3, g4, g5⟩ := kernel_zeros x w2 w3 m n 0 (binStart (omegaOf 0 .half k 41) Datapath.reset)
    (by omega) hz.1 (by show f32Mag 0 ≤ _; rw [hz.2]; exact Nat.zero_le _) rfl rfl rfl
  exact ⟨q, g1, g2 ▸ w2, g3, by rw [g4]; exact hz.1, by rw [g5]; exact hz.1⟩

/-- A parallel transform of an empty signal on two points, with a launched worker: the state `ParallelEqualsSerial` and
`ParallelCanEnd` start from. -/
def parallel : State := { small with wrun := true, wstage := .pollFence, src := 0x100, cnt := 2, dst := 0x400 }

/-- A schedule that ends it: `P` publishes and computes its bin, the trigger drains, `W` does the same, the completion
flag drains, `P` ends. -/
def schedule : List Turn :=
  List.replicate 14 (.p []) ++ (.drain .p 0 :: List.replicate 15 (.w [])) ++ (.drain .w 0 :: List.replicate 4 (.p []))

theorem parallel_finite : parallel.GridFinite .full 2 0 := by
  intro n m x k hk hm
  obtain rfl : m = 0 := Nat.le_zero.1 hm
  refine ⟨_, rfl, ?_, ?_, ?_, ?_⟩
  · have omega_any (k : Word) (h1 : f32IsNaN (fmul 0 TWO_PI_F (cvtU32 k)) = false)
        (h2 : f32IsNaN (omegaOf 0 .full k 2) = false ∧ f32IsFinite (omegaOf 0 .full k 2) = true) :
        f32IsFinite (omegaOf n .full k 2) = true := by
      have : omegaOf n .full k 2 = omegaOf 0 .full k 2 := by
        show fdiv (n + 1) (fmul n TWO_PI_F (cvtU32 k)) (cvtU32 2) = _
        rw [fmul_draw 0 n _ _ h1]
        exact fdiv_draw 1 (n + 1) _ _ h2.1
      rw [this]; exact h2.2
    have : k = 0 ∨ k = 1 := by
      have h : k.toNat = 0 ∨ k.toNat = 1 := by have : k.toNat < 2 := hk; omega
      rcases h with h | h
      · exact .inl (BitVec.eq_of_toNat_eq h)
      · exact .inr (BitVec.eq_of_toNat_eq h)
    change f32IsFinite (omegaOf n .full k 2) = true
    rcases this with rfl | rfl
    · exact omega_any 0 (by decide +kernel) (by decide +kernel)
    · exact omega_any 1 (by decide +kernel) (by decide +kernel)
  all_goals show f32IsFinite (0 : Word) = true; decide +kernel

/-- `ParallelEqualsSerial`, `ParallelCanEnd`. -/
theorem test_meets_parallel : parallel.beginError (.xformp .full) = none ∧ parallel.Ready ∧
    parallel.mem.wf = true ∧ parallel.WorkerReady ∧ parallel.done = false ∧ parallel.GridFinite .full 2 0 ∧
    Disjoint parallel.src.toNat parallel.len.toNat parallel.dst.toNat (8 * parallel.cnt.toNat) ∧
    (∃ u, exec (.xform .full) parallel = .next u) ∧ ∀ τ ∈ schedule, τ.internal := by
  refine ⟨by decide, ⟨rfl, rfl⟩, by decide, ⟨rfl, .inr ⟨.inl rfl, .inr ⟨rfl, rfl⟩⟩⟩, rfl, parallel_finite, by decide,
    ⟨_, rfl⟩, ?_⟩
  intro τ hτ
  simp only [schedule, List.mem_append, List.mem_cons, List.mem_replicate] at hτ
  rcases hτ with (⟨-, rfl⟩ | rfl | ⟨-, rfl⟩) | rfl | ⟨-, rfl⟩ <;> trivial

theorem test_meets_parallel_ends :
    (after ((after (exec (.xformp .full) parallel)).runTurns schedule)).done = true := by decide +kernel

/-- `ParallelEqualsSerial`, `ParallelCanEnd`, for `PIPE`, with the pattern inside the 80 bytes it is replicated to. That some
schedule ends the command is what `ParallelCanEnd` states. -/
theorem test_meets_parallel_pipe :
    let s := { small with sintab := zeros, costab := zeros, wrun := true, wstage := .pollFence, src := 0x404, len := 8,
                          dst := 0x400 }
    s.beginError (.pipe .parallel) = none ∧ s.Ready ∧ s.mem.wf = true ∧ s.WorkerReady ∧ s.done = false ∧
      s.GridFinite .half 41 80 ∧ ∃ p, exec (.pipe .parallel) s = .next p :=
  ⟨by decide, ⟨rfl, rfl⟩, by decide, ⟨rfl, .inr ⟨.inl rfl, .inr ⟨rfl, rfl⟩⟩⟩, rfl, gridFinite_zeros _ rfl rfl, _, rfl⟩

/-- `WorkerReady`, the other positions: about to clear signal-present, and polling with that clear pending. -/
theorem test_meets_worker_ready : { parallel with wstage := .clear, job := JobSlot.fill 1 }.WorkerReady ∧
    { parallel with wstage := .pollRead, job := JobSlot.fill 1, wview := ⟨[.job .sigp 0], [], JobSlot.fill none⟩ }.WorkerReady :=
  ⟨⟨rfl, .inl ⟨rfl, rfl⟩⟩, rfl, .inr ⟨.inr ⟨rfl, rfl, rfl⟩, .inl rfl⟩⟩

/-! A fair execution: the schedule above, `W`'s clear and its drain, and then `P`, `W` and both drains in turn for ever. -/

/-- The turns up to the time everything is at rest. -/
def firstTurns : List Turn := schedule ++ [Turn.w [], .drain .w 0]

/-- All turns. -/
def fairTurn (n : Nat) : Turn :=
  if n < 37 then firstTurns.getD n (.p [])
  else match n % 4 with
    | 0 => .p []
    | 1 => .w []
    | 2 => .drain .p 0
    | _ => .drain .w 0

/-- The states. -/
def fairState : Nat → State
  | 0 => after (exec (.xformp .full) parallel)
  | n + 1 => after ((fairState n).runTurns [fairTurn n])

/-- Where `P` is in `P_TRIG`, `A-CLR` holds. -/
abbrev Tame (s : State) : Prop := s.pstage = .trig → s.wstage.number = 1 ∧ s.wview.sb = []

/-- The command is over and the worker polls a slot with signal-present clear. -/
abbrev AtRest (s : State) : Prop :=
  s.pstage = .idle ∧ s.pview.sb = [] ∧ s.wview.sb = [] ∧ s.job.sigp = 0 ∧ s.wview.jcopies.sigp = none ∧
    (s.wstage = .pollFence ∨ s.wstage = .pollRead)

/-- The state after some turns, if all are answered with a next state and every state on the way is tame. -/
def follow : List Turn → State → Option State
  | [], s => some s
  | τ :: ts, s =>
    match s.runTurns [τ] with
    | .next t => if Tame s then follow ts t else none
    | .fault _ => none
    | .refused _ => none

theorem fairState_succ {n : Nat} {t : State} (e : (fairState n).runTurns [fairTurn n] = .next t) : fairState (n + 1) = t :=
  (congrArg after e).trans rfl

theorem follow_spec (ts : List Turn) : ∀ {k : Nat} {u : State}, follow ts (fairState k) = some u →
    (∀ i (h : i < ts.length), ts[i] = fairTurn (k + i)) →
    fairState (k + ts.length) = u ∧
      ∀ i < ts.length, Tame (fairState (k + i)) ∧
        (fairState (k + i)).runTurns [fairTurn (k + i)] = .next (fairState (k + i + 1)) := by
  induction ts with
  | nil => intro k u h _; exact ⟨Option.some.inj h, fun i hi => absurd hi (Nat.not_lt_zero i)⟩
  | cons τ ts ih =>
    intro k u h hσ
    obtain rfl : τ = fairTurn k := hσ 0 (by simp)
    unfold follow at h
    split at h
    · next t e =>
      split at h
      · next ht =>
        rw [← fairState_succ e] at h e
        obtain ⟨h1, h2⟩ := ih h (fun i hi => by
          have := hσ (i + 1) (by simpa using hi)
          rw [show k + 1 + i = k + (i + 1) by omega]; simpa using this)
        refine ⟨by rw [← h1, List.length_cons]; congr 1; omega, ?_⟩
        rintro (_ | i) hi
        · exact ⟨ht, e⟩
        · have := h2 i (by simpa using hi)
          rwa [show k + 1 + i = k + (i + 1) by omega] at this
      · cases h
    · cases h
    · cases h

theorem follow_first : (follow firstTurns (fairState 0)).any (fun s => decide (AtRest s)) = true := by decide +kernel

/-- At rest, each of the four turns leaves everything at rest. -/
theorem atRest_step {s : State} (h : AtRest s) (n : Nat) :
    ∃ t, s.runTurns [fairTurn (37 + n)] = .next t ∧ AtRest t := by
  obtain ⟨h1, h2, h3, h4, h5, h6⟩ := h
  have hr (τ) {t : State} (e : takeStep τ { s with turns := [] } = .next t) : s.runTurns [τ] = .next t := by
    have e' : step { s with turns := [τ] } = .next t := e
    simp only [State.runTurns, List.length_singleton, Host.Core.run, Sys2Proof.core, e']
  have ht : fairTurn (37 + n) = .p [] ∨ fairTurn (37 + n) = .w [] ∨ fairTurn (37 + n) = .drain .p 0 ∨
      fairTurn (37 + n) = .drain .w 0 := by
    unfold fairTurn
    rw [if_neg (by omega)]
    split
    · exact .inl rfl
    · exact .inr (.inl rfl)
    · exact .inr (.inr (.inl rfl))
    · exact .inr (.inr (.inr rfl))
  rcases ht with e | e | e | e <;> rw [e]
  · exact ⟨{ s with turns := [], keeps := [] }, hr _ (by simp only [takeStep, producerStep, h1]), h1, h2, h3, h4, h5, h6⟩
  · rcases h6 with h6 | h6
    · exact ⟨pollFenceStep { s with turns := [], keeps := [] }, hr _ (by simp only [takeStep, workerStep, h6]), h1, h2, h3,
        h4, rfl, .inr rfl⟩
    · refine ⟨pollReadStep { s with turns := [], keeps := [] }, hr _ (by simp only [takeStep, workerStep, h6]), ?_⟩
      simp [pollReadStep, State.readJob, State.noteJob, State.coreJob, View.slot, State.view, JobSlot.get, State.keepNext,
        State.dropKeep, h1, h3, h4, h5]
      exact ⟨rfl, h2, h3, h4, h5, .inl rfl⟩
  · exact ⟨{ s with turns := [] }, hr _ (by simp [takeStep, State.drain, State.view, h2]), h1, h2, h3, h4, h5, h6⟩
  · exact ⟨{ s with turns := [] }, hr _ (by simp [takeStep, State.drain, State.view, h3]), h1, h2, h3, h4, h5, h6⟩

/-- Every state is tame, and every turn is answered. -/
theorem fair_all (n : Nat) :
    Tame (fairState n) ∧ (fairState n).runTurns [fairTurn n] = .next (fairState (n + 1)) := by
  obtain ⟨u, hu, hr⟩ := (Option.any_eq_true _ _).1 follow_first
  obtain ⟨h1, h2⟩ := follow_spec firstTurns (k := 0) hu (by decide)
  have rest (m : Nat) : AtRest (fairState (37 + m)) := by
    induction m with
    | zero => exact (show fairState (37 + 0) = u from h1) ▸ of_decide_eq_true hr
    | succ m ih =>
      obtain ⟨t, e, ht⟩ := atRest_step ih m
      exact (fairState_succ e).symm ▸ ht
  by_cases hn : n < 37
  · simpa using h2 n hn
  · obtain ⟨m, rfl⟩ : ∃ m, n = 37 + m := ⟨n - 37, by omega⟩
    obtain ⟨t, e, -⟩ := atRest_step (rest m) m
    exact ⟨fun h => absurd ((rest m).1.symm.trans h) (by decide), by rw [fairState_succ e, e]⟩

/-- `ParallelCanEnd`: its last clause, from a state that `test_meets_parallel` shows to meet the rest. -/
theorem test_meets_fair : fairState 0 = after (exec (.xformp .full) parallel) ∧ IsExecution fairState fairTurn ∧
    (∀ n, (fairTurn n).internal) ∧ IsFair fairState fairTurn ∧ ClearBeforeTrigger fairState fairTurn := by
  have late (r n : Nat) : ¬ 4 * (n + 10) + r < 37 := by omega
  refine ⟨rfl, fun n => (fair_all n).2, ?_, ⟨?_, ?_⟩, ?_⟩
  · intro n
    by_cases hn : n < 37
    · interval_cases n <;> exact True.intro
    · rw [fairTurn, if_neg hn]; split <;> trivial
  · rintro (_ | _) n -
    · exact ⟨4 * (n + 10), by omega, [], by simp [fairTurn, show ¬ 4 * (n + 10) < 37 by omega]⟩
    · exact ⟨4 * (n + 10) + 1, by omega, [], by simp [fairTurn, late 1 n, Nat.add_mod]⟩
  · rintro (_ | _) n
    · exact ⟨4 * (n + 10) + 2, by omega, .inl (by simp [fairTurn, late 2 n, Nat.add_mod])⟩
    · exact ⟨4 * (n + 10) + 3, by omega, .inl (by simp [fairTurn, late 3 n, Nat.add_mod])⟩
  · intro n ht _
    obtain ⟨h1, h2⟩ := (fair_all n).1 ht
    exact ⟨h1, by simp [h2]⟩

/-- `NoWorkerNeverEnds`. -/
theorem test_meets_no_worker : let s := { small with src := 0x100, len := 4, cnt := 2, dst := 0x400 }
    s.beginError (.xformp .full) = none ∧ s.pview.sb = [] ∧ s.wview.sb = [] ∧ s.wstage = .off ∧ s.busy = true ∧
      s.done = false ∧ ∃ p t, exec (.xformp .full) s = .next p ∧ p.runTurns [.p [], .w []] = .next t ∧
      ∀ τ ∈ [Turn.p [], .w []], τ.internal :=
  ⟨by decide, rfl, rfl, rfl, rfl, rfl, _, _, rfl, rfl, by simp [Turn.internal]⟩

/-- `LostJobHangs`: both clauses. -/
theorem test_meets_lost_job :
    (let s := { small with
        pview := { View.empty with sb := [.job .sigp 1] }, wview := { View.empty with sb := [.job .sigp 0] } }
     s.pview.sb = [.job .sigp 1] ∧ s.wview.sb = [.job .sigp 0]) ∧
    (let s := { small with pstage := .waitFence, wrun := true, wstage := .pollFence }
     s.pstage = .waitFence ∧ s.wstage = .pollFence ∧ (∀ i v, Pending.job i v ∉ s.pview.sb) ∧
      (∀ i v, Pending.job i v ∉ s.wview.sb) ∧ s.job.sigp = 0 ∧ s.job.done = 0 ∧ s.busy = true ∧ s.done = false ∧
      ∃ t, s.runTurns [.p [], .w [true], .p [], .w []] = .next t) :=
  ⟨⟨rfl, rfl⟩, rfl, rfl, (fun _ _ h => nomatch h), (fun _ _ h => nomatch h), rfl, rfl, rfl, rfl, _, rfl⟩

/-- `DictionaryLoad`: the image ends with memory. `DistResult`: the second spectrum ends with memory. -/
theorem test_meets_loads : State.beginError { small with dictv := false, src := 0x15C00 } .lddict = none ∧
    State.beginError { small with src := 0, aux := 0x1FF5C } .dist = none ∧ small.Ready := by decide

/-- `DistanceSymmetric`. -/
theorem test_meets_distance : ([0x3F800000, 0x80000000] : List Word).length = ([0, 0x40000000] : List Word).length ∧
    f32IsNaN (distF 0 [0x3F800000, 0x80000000] [0, 0x40000000]) = false ∧
    ∀ x ∈ ([0x3F800000, 0x80000000] : List Word), f32IsFinite x = true :=
  ⟨rfl, by decide +kernel, List.all_eq_true.1 (by decide +kernel)⟩

/-- `ClassifyNearest`, its last clause: a spectrum of 41 zeros against a dictionary of zeros. -/
theorem test_meets_self : small.mem.words 0x400 41 = (small.dict.get 7).toList ∧
    (small.mem.words 0x400 41).all f32IsFinite = true := by decide +kernel

/-- `ClassifyNearest`, `RankRecords`: all 256 records. -/
theorem test_meets_classify : State.beginError { small with src := 0x300, len := 41 } .classify = none ∧
    State.beginError { small with src := 0x300, len := 41, cnt := 256, dst := 0x1F800 } .rank = none ∧
    small.mem.wf = true ∧ small.Ready := by decide

/-- `RankOrderTotal`. -/
theorem test_meets_rank_order : ranksBefore 0 0x3F800000 1 0x3F800000 = true ∧
    ranksBefore 1 0x3F800000 2 0x7FC00000 = true ∧ f32IsNaN 0x7FC00000 = true ∧ flt 0x3F800000 POS_INF = true := by
  decide +kernel

/-- `ReplicateResult`: pattern and output adjacent. -/
theorem test_meets_repl : let s := { small with src := 0x200, len := 8, cnt := 10, dst := 0x208 }
    s.beginError .repl = none ∧ s.src.toNat + s.len.toNat ≤ s.dst.toNat ∧ 9 < s.cnt.toNat ∧ 7 < s.len.toNat ∧
      s.mem.wf = true ∧ s.Ready := by decide

/-- `PipeSerialResult`, `PipeIsFourCommands`: the work area ends with memory. -/
theorem test_meets_pipe : State.beginError { small with src := 0x200, len := 8, dst := 0x1FDC4 } (.pipe .serial) = none ∧
    small.Ready ∧ small.mem.wf = true := by decide

/-- Two pending writes of `P` that meet, and one that meets neither. -/
def pending : State := { small with pview := { View.empty with sb := [.word 0x400 7, .byte 0x402 1, .job .sigp 1] } }

/-- `DrainsKeepProgramOrder`: both clauses; `FencesDoAsNamed`. -/
theorem test_meets_drains : (pending.view .p).sb[1]? = some (.byte 0x402 1) ∧
    (∃ o ∈ (pending.view .p).sb.take 1, o.meets (.byte 0x402 1) = true) ∧
    (pending.view .p).sb[2]? = some (.job .sigp 1) ∧
    (∀ o ∈ (pending.view .p).sb.take 2, o.meets (.job .sigp 1) = false) ∧ pending.mem.wf = true := by decide

/-- R61, R63, R65 (L1): the release fence writes word 0x100 and the core's older copy of it, and another copy stays. -/
theorem test_release_patches_copies :
    let s := { pending with pview := { pending.pview with mcopies := [(0x100, 5), (0x101, 6)] } }
    (s.fenceRel .p).pview.mcopies = [(0x100, 0x00010007), (0x101, 6)] ∧ (s.fenceRel .p).pview.sb = [] ∧
      (s.fenceRel .p).mem.readWord 0x400 = 0x00010007 := by
  decide +kernel

/-- `OwnWritesAreRead`: no copies; a byte on each side of the word written. -/
theorem test_meets_own_writes : pending.pview.mcopies = [] ∧ pending.wview.mcopies = [] ∧ 0x3FF < 0x400 ∧
    0x400 + 4 ≤ 0x404 := by decide

/-- `MessagePassing`. -/
theorem test_meets_message : pending.mem.wf = true ∧ CoreId.p ≠ CoreId.w ∧
    (∀ e ∈ (pending.view .w).sb, ∀ y, e.overlayByte 0x400 y = y) ∧
    (∀ e ∈ (pending.view .w).sb, ∀ y, e.overlayJob .sigp y = y) ∧
    ∃ u, (pending.fenceRel .p).runTurns [.drain .w 0, .evict .w (.mem 0x100)] = .next u :=
  ⟨by decide +kernel, by decide, (by intro e he; cases he), (by intro e he; cases he), _, rfl⟩

/-- `ArithmeticRoundsOnce`, `SqrtRoundsOnce`, `ConversionsExact`: the least subnormal and the largest finite value. -/
theorem test_meets_finite : f32IsFinite 0x00000001 = true ∧ f32IsFinite 0x7F7FFFFF = true ∧ f32Mag 0x00000001 ≠ 0 ∧
    f32Sign 0x00000001 = false ∧ ftrunc 0x7F7FFFFF ≠ 0 := by decide +kernel

/-- `SpecialValues`: each premise. -/
theorem test_meets_special : f32IsFinite 0x80000000 = true ∧ f32Mag 0x80000000 = 0 ∧ f32IsNaN 0xFFC00001 = true ∧
    f32IsInf 0xFF800000 = true ∧ f32Sign 0xFF800000 = true ∧ f32Mag 0xFF800000 ≠ 0 := by decide +kernel

/-- The host is about to write `CMD`. -/
def accepting : State := { State.reset with turns := [.regWrite 0x20 0x20, .p []] }

/-- The invariants and the whole-machine rules: a state that meets every invariant and takes a step that is no reset. -/
theorem test_meets_invariants : accepting.StatusCoherent ∧ accepting.Canonical ∧ accepting.TablesFilled ∧
    accepting.ProducerDrained ∧ accepting.InsideMemory ∧ ¬ accepting.takeTurn.1.resets ∧
    ∃ t, step accepting = .next t ∧ t.StatusCoherent ∧ t.busy = true := by
  have e : step accepting = .next { State.reset.accept 0x20 with turns := [.p []] } := rfl
  refine ⟨?_, ⟨rfl, .nil, .nil⟩, ?_, fun _ => rfl, ⟨?_, ?_, ?_, ?_, ?_⟩, ?_, _, e, ?_, rfl⟩
  · refine ⟨?_, ?_, ?_, ?_, ?_⟩ <;> decide
  · intro h; cases h
  · exact fun c h => nomatch h
  · exact fun c h => nomatch h
  · exact fun c h => nomatch h
  · exact fun c h => nomatch h
  · rintro (h | ⟨h, -⟩) <;> cases h
  · rintro ⟨h, -⟩; revert h; decide
  · refine ⟨?_, ?_, ?_, ?_, ?_⟩ <;> decide

/-- `WriteOnceStores`, `HostOwnsOperands`: the step that takes `W` out of `W_OFF`; the turn is `P`'s. -/
theorem test_meets_launch : let s := { State.reset.accept 0x20 with turns := [.p []] }
    s.wstage = .off ∧ ¬ s.takeTurn.1.resets ∧ (∀ off v, s.takeTurn.1 ≠ .regWrite off v) ∧
      ∃ t, step s = .next t ∧ t.wstage ≠ .off :=
  ⟨rfl, id, (fun _ _ h => nomatch h), _, rfl, by decide⟩

end Sys2Proof.Tests
end

section
/-! PROOFS. Rounding (00_scope.md rule R10) said once: `roundMag` picks, of the two neighbouring magnitude patterns
around the exact result, the nearer one, the even one on a tie; each operation then has one exact result to round. -/

namespace Sys2Proof.Machine

/-! ### Magnitude patterns -/

/-- The units of `2^-149` a magnitude pattern stands for (R9), the exponent field of infinity read as any other: the
largest finite value's successor is where an unbounded exponent would go on. -/
def patMag (p : Nat) : Nat :=
  if p / 2 ^ 23 = 0 then p % 2 ^ 23 else (2 ^ 23 + p % 2 ^ 23) * 2 ^ (p / 2 ^ 23 - 1)

/-- A pattern written as `e` steps of `2^23` and a significand `m` stands for `m * 2^e`. -/
theorem patMag_steps {e m : Nat} (hm : m ≤ 2 ^ 24) (he : e = 0 ∨ 2 ^ 23 ≤ m) :
    patMag (e * 2 ^ 23 + m) = m * 2 ^ e := by
  unfold patMag
  rcases lt_trichotomy m (2 ^ 24) with hlt | rfl | hgt
  · by_cases hsub : m < 2 ^ 23
    · obtain rfl : e = 0 := by omega
      rw [if_pos (by omega)]; omega
    · have hq : (e * 2 ^ 23 + m) / 2 ^ 23 = e + 1 := by omega
      have hr : (e * 2 ^ 23 + m) % 2 ^ 23 = m - 2 ^ 23 := by omega
      rw [hq, hr, if_neg (by omega), Nat.add_sub_cancel, Nat.add_sub_cancel' (by omega)]
  · have hq : (e * 2 ^ 23 + 2 ^ 24) / 2 ^ 23 = e + 2 := by omega
    have hr : (e * 2 ^ 23 + 2 ^ 24) % 2 ^ 23 = 0 := by omega
    rw [hq, hr, if_neg (by omega)]
    simp only [Nat.add_zero, Nat.add_succ_sub_one, pow_succ]; omega
  · omega

theorem exists_steps (p : Nat) : ∃ e m, p = e * 2 ^ 23 + m ∧ m < 2 ^ 24 ∧ (e = 0 ∨ 2 ^ 23 ≤ m) := by
  by_cases h : p < 2 ^ 23
  · exact ⟨0, p, by omega, by omega, .inl rfl⟩
  · exact ⟨p / 2 ^ 23 - 1, p % 2 ^ 23 + 2 ^ 23, by omega, by omega, .inr (by omega)⟩

theorem patMag_strictMono : StrictMono patMag := by
  refine strictMono_nat_of_lt_succ fun p => ?_
  obtain ⟨e, m, rfl, hm, he⟩ := exists_steps p
  rw [patMag_steps hm.le he, Nat.add_assoc, patMag_steps (by omega) (by omega)]
  exact Nat.mul_lt_mul_of_pos_right (Nat.lt_succ_self m) (by positivity)

/-- Twice the overflow boundary is the sum of the largest finite value and of the next pattern's value (R10, R11). -/
theorem two_mul_overflow : patMag (0x7F800000 - 1) + patMag 0x7F800000 = 2 * OVERFLOW := by decide

/-! ### Fields of a word -/

theorem f32Exp_eq (b : Word) : f32Exp b = b.toNat % 2 ^ 31 / 2 ^ 23 := by
  simp only [f32Exp, BitVec.extractLsb'_toNat, Nat.shiftRight_eq_div_pow]; omega

theorem f32Frac_eq (b : Word) : f32Frac b = b.toNat % 2 ^ 31 % 2 ^ 23 := by
  simp only [f32Frac, BitVec.extractLsb'_toNat, Nat.shiftRight_eq_div_pow]; omega

theorem f32Mag_eq_patMag (b : Word) : f32Mag b = patMag (b.toNat % 2 ^ 31) := by
  rw [f32Mag, patMag, f32Exp_eq, f32Frac_eq]

theorem f32IsFinite_iff (b : Word) : f32IsFinite b = true ↔ b.toNat % 2 ^ 31 < 0x7F800000 := by
  rw [f32IsFinite, f32Exp_eq, bne_iff_ne]; omega

theorem f32IsInf_iff (b : Word) : f32IsInf b = true ↔ b.toNat % 2 ^ 31 = 0x7F800000 := by
  rw [f32IsInf, f32Exp_eq, f32Frac_eq, Bool.and_eq_true, beq_iff_eq, beq_iff_eq]; omega

theorem f32Sign_iff (b : Word) : f32Sign b = true ↔ 2 ^ 31 ≤ b.toNat := by
  rw [f32Sign, ← BitVec.msb_eq_getLsbD_last b, BitVec.msb_eq_decide, decide_eq_true_iff]

theorem f32Signed_toNat (neg : Bool) {p : Nat} (h : p < 2 ^ 31) :
    (f32Signed neg p).toNat = (if neg then 2 ^ 31 else 0) + p := by
  unfold f32Signed
  rw [BitVec.toNat_ofNat, Nat.mod_eq_of_lt]
  split <;> omega

theorem f32Signed_toNat_mod (neg : Bool) {p : Nat} (h : p < 2 ^ 31) : (f32Signed neg p).toNat % 2 ^ 31 = p := by
  rw [f32Signed_toNat neg h]; split <;> omega

theorem f32Sign_signed (neg : Bool) {p : Nat} (h : p < 2 ^ 31) : f32Sign (f32Signed neg p) = neg := by
  rw [Bool.eq_iff_iff, f32Sign_iff, f32Signed_toNat neg h]
  cases neg
  · simpa using h
  · simp

theorem f32Mag_signed (neg : Bool) {p : Nat} (h : p < 2 ^ 31) : f32Mag (f32Signed neg p) = patMag p := by
  rw [f32Mag_eq_patMag, f32Signed_toNat_mod neg h]

/-- The value of a finite datum is its magnitude, or minus its magnitude. -/
theorem f32Val_cases (b : Word) :
    (f32Sign b = false ∧ f32Val b = f32Mag b) ∨ (f32Sign b = true ∧ f32Val b = -(f32Mag b : Int)) := by
  cases h : f32Sign b <;> simp [f32Val, h]

theorem f32Val_signed (neg : Bool) {p : Nat} (h : p < 2 ^ 31) :
    f32Val (f32Signed neg p) = if neg then -(patMag p : Int) else patMag p := by
  rw [f32Val, f32Sign_signed neg h, f32Mag_signed neg h]

theorem f32Signed_finite (neg : Bool) {p : Nat} (h : p < 0x7F800000) : f32IsFinite (f32Signed neg p) = true := by
  rwa [f32IsFinite_iff, f32Signed_toNat_mod neg (by omega)]

/-! ### The nearest pattern -/

/-- The pattern `roundMag` computes before it stops at infinity. -/
def nearestPat (num den : Nat) : Nat :=
  let e := (num / den).log2 - 23
  let d := den * 2 ^ e
  let m := num / d
  let r := num % d
  e * 2 ^ 23 + if 2 * r > d ∨ (2 * r = d ∧ m % 2 = 1) then m + 1 else m

theorem roundMag_eq_min (num den : Nat) : roundMag num den = min (nearestPat num den) 0x7F800000 := rfl

/-- The exact result lies between the values of two neighbouring patterns; the nearer is taken, the even one where both
are as near. -/
theorem nearestPat_between (num : Nat) {den : Nat} (hd : 0 < den) :
    ∃ p, patMag p * den ≤ num ∧ num < patMag (p + 1) * den ∧
      nearestPat num den = if 2 * num > (patMag p + patMag (p + 1)) * den ∨
        (2 * num = (patMag p + patMag (p + 1)) * den ∧ p % 2 = 1) then p + 1 else p := by
  unfold nearestPat
  simp only []
  generalize hq : num / den = q
  generalize hE : q.log2 - 23 = e
  generalize hm : num / (den * 2 ^ e) = m
  have hm' : m = q / 2 ^ e := by rw [← hm, ← hq, Nat.div_div_eq_div_mul]
  have hlt : m < 2 ^ 24 := by
    rw [hm', Nat.div_lt_iff_lt_mul (by positivity), ← pow_add]
    exact Nat.lt_log2_self.trans_le (Nat.pow_le_pow_right (by decide) (by omega))
  have hge : e = 0 ∨ 2 ^ 23 ≤ m := by
    by_cases h0 : e = 0
    · exact .inl h0
    · have hq0 : q ≠ 0 := by rintro rfl; simp at hE; omega
      rw [hm', Nat.le_div_iff_mul_le (by positivity), ← pow_add]
      exact .inr ((Nat.pow_le_pow_right (by decide) (by omega)).trans (Nat.log2_self_le hq0))
  have hA : patMag (e * 2 ^ 23 + m) = m * 2 ^ e := patMag_steps hlt.le hge
  have hB : patMag (e * 2 ^ 23 + m + 1) = (m + 1) * 2 ^ e := by
    rw [Nat.add_assoc, patMag_steps (by omega) (by omega)]
  have hnum : den * 2 ^ e * m + num % (den * 2 ^ e) = num := by rw [← hm]; exact Nat.div_add_mod _ _
  have hr : num % (den * 2 ^ e) < den * 2 ^ e := Nat.mod_lt _ (by positivity)
  have eA : m * 2 ^ e * den = den * 2 ^ e * m := by ring
  have eB : (m + 1) * 2 ^ e * den = den * 2 ^ e * m + den * 2 ^ e := by ring
  refine ⟨e * 2 ^ 23 + m, ?_, ?_, ?_⟩
  · rw [hA, eA]; omega
  · rw [hB, eB]; omega
  · rw [hA, hB, Nat.add_mul, eA, eB]
    have hpar : (e * 2 ^ 23 + m) % 2 = m % 2 := by omega
    rw [hpar]
    split_ifs <;> omega

/-- No other pattern is nearer to the exact result, and one as near is so only where the pattern taken is even. -/
theorem nearestPat_nearest (num q : Nat) {den : Nat} (hd : 0 < den) :
    ((num : Int) - (patMag (nearestPat num den) * den : Nat)).natAbs ≤ ((num : Int) - (patMag q * den : Nat)).natAbs ∧
      (((num : Int) - (patMag (nearestPat num den) * den : Nat)).natAbs =
          ((num : Int) - (patMag q * den : Nat)).natAbs →
        q ≠ nearestPat num den → nearestPat num den % 2 = 0) := by
  obtain ⟨p, hA, hB, hp⟩ := nearestPat_between num hd
  rw [Nat.add_mul] at hp
  have mono : ∀ {i j : Nat}, i < j → patMag i * den < patMag j * den := fun h =>
    Nat.mul_lt_mul_of_pos_right (patMag_strictMono h) hd
  rw [hp]
  have hq : q < p ∨ q = p ∨ q = p + 1 ∨ p + 1 < q := by omega
  rcases hq with h | rfl | rfl | h
  · have := mono h
    split_ifs <;> omega
  · split_ifs <;> omega
  · split_ifs <;> omega
  · have := mono h
    split_ifs <;> omega

/-- The pattern taken is that of infinity or beyond exactly where the exact result reaches the overflow boundary. -/
theorem nearestPat_lt_inf_iff (num : Nat) {den : Nat} (hd : 0 < den) :
    nearestPat num den < 0x7F800000 ↔ num < OVERFLOW * den := by
  obtain ⟨p, hA, hB, hp⟩ := nearestPat_between num hd
  have hov : (patMag (0x7F800000 - 1) + patMag 0x7F800000) * den = 2 * (OVERFLOW * den) := by
    rw [two_mul_overflow]; ring
  have hmono : ∀ {i j : Nat}, i ≤ j → patMag i * den ≤ patMag j * den := fun h =>
    Nat.mul_le_mul_right _ (patMag_strictMono.monotone h)
  have hgap : patMag (0x7F800000 - 1) * den < patMag 0x7F800000 * den :=
    Nat.mul_lt_mul_of_pos_right (patMag_strictMono (by decide)) hd
  rw [Nat.add_mul] at hp hov
  rcases lt_trichotomy p (0x7F800000 - 1) with h | h | h
  · have := hmono (show p + 1 ≤ 0x7F800000 - 1 by omega)
    rw [hp]; split_ifs <;> omega
  · have hnext : 0x7F800000 = p + 1 := by omega
    rw [← h, hnext] at hov
    rw [hp, hnext]; split_ifs <;> omega
  · have := hmono (show 0x7F800000 ≤ p by omega)
    rw [hp]; split_ifs <;> omega

/-! ### Rounded once -/

theorem f32Val_mul_cases (b : Word) (den : Nat) :
    (f32Sign b = false ∧ f32Val b * den = (f32Mag b * den : Nat)) ∨
      (f32Sign b = true ∧ f32Val b * den = -((f32Mag b * den : Nat) : Int)) := by
  rcases f32Val_cases b with ⟨hs, hv⟩ | ⟨hs, hv⟩
  · exact .inl ⟨hs, by rw [hv, Nat.cast_mul]⟩
  · exact .inr ⟨hs, by rw [hv, Nat.cast_mul, Int.neg_mul]⟩

/-- Nearest among magnitudes is nearest among signed values for the one that carries the sign of the exact result, and
two signed values are as near only where their magnitudes are, and these then differ. -/
theorem nearest_of_magnitude {num vw vp : Int} {z y : Nat} (hw : (vw = z ∧ 0 ≤ num) ∨ (vw = -z ∧ num ≤ 0))
    (hp : vp = y ∨ vp = -y) (hzero : ((num.natAbs : Int) - z).natAbs ≤ num.natAbs)
    (hle : ((num.natAbs : Int) - z).natAbs ≤ ((num.natAbs : Int) - y).natAbs) :
    (num - vw).natAbs ≤ (num - vp).natAbs ∧
      ((num - vw).natAbs = (num - vp).natAbs → vp ≠ vw →
        ((num.natAbs : Int) - z).natAbs = ((num.natAbs : Int) - y).natAbs ∧ y ≠ z) := by
  omega

/-- A pattern that is nearest to the magnitude of an exact result, and no infinity, is with the sign of that result the
result rounded once. -/
theorem isRounded_nearest (neg : Bool) {num : Int} {den : Nat} (hd : 0 < den) (hs : num ≠ 0 → (neg = true ↔ num < 0))
    (hov : num.natAbs < OVERFLOW * den) : IsRounded num den (f32Signed neg (nearestPat num.natAbs den)) := by
  have hlt := (nearestPat_lt_inf_iff num.natAbs hd).2 hov
  have hnear := fun q => nearestPat_nearest num.natAbs q hd
  generalize nearestPat num.natAbs den = P at *
  have hP : P < 2 ^ 31 := by omega
  refine .inl ⟨f32Signed_finite neg hlt, hov, fun p _ => ?_⟩
  have hsign := f32Sign_signed neg hP
  have hmag := f32Mag_signed neg hP
  have heven : P % 2 = 0 → (f32Signed neg P).toNat % 2 = 0 := by
    intro h; rw [f32Signed_toNat neg hP]; split <;> omega
  generalize f32Signed neg P = w at *
  obtain ⟨hle, htie⟩ := hnear (p.toNat % 2 ^ 31)
  have hzero := (hnear 0).1
  rw [← f32Mag_eq_patMag, ← hmag] at hle htie
  rw [← hmag, show patMag 0 = 0 from rfl, Nat.zero_mul, Nat.cast_zero, Int.sub_zero, Int.natAbs_natCast] at hzero
  have hvw : (f32Val w * den = (f32Mag w * den : Nat) ∧ 0 ≤ num) ∨
      (f32Val w * den = -((f32Mag w * den : Nat) : Int) ∧ num ≤ 0) := by
    by_cases h0 : num = 0
    · subst h0
      rcases f32Val_mul_cases w den with ⟨-, h⟩ | ⟨-, h⟩
      · exact .inl ⟨h, le_rfl⟩
      · exact .inr ⟨h, le_rfl⟩
    · have hneg := hs h0
      rcases f32Val_mul_cases w den with ⟨h1, h⟩ | ⟨h1, h⟩ <;> rw [hsign] at h1 <;> rw [h1] at hneg
      · exact .inl ⟨h, not_lt.1 fun h => Bool.false_ne_true (hneg.2 h)⟩
      · exact .inr ⟨h, (hneg.1 rfl).le⟩
  have hvp := (f32Val_mul_cases p den).imp And.right And.right
  obtain ⟨hnear', htie'⟩ := nearest_of_magnitude hvw hvp hzero hle
  refine ⟨hnear', fun heq hne => ?_⟩
  obtain ⟨heq', hmne⟩ := htie' heq fun h => hne (Int.eq_of_mul_eq_mul_right (by omega) h)
  refine heven (htie heq' fun hq => hmne ?_)
  rw [f32Mag_eq_patMag p, hq, hmag]

/-- A sign put on the rounded magnitude of an exact result gives that result rounded once (R10, R11). -/
theorem isRounded_signed (neg : Bool) {num : Int} {den : Nat} (hd : 0 < den)
    (hs : num ≠ 0 → (neg = true ↔ num < 0)) : IsRounded num den (f32Signed neg (roundMag num.natAbs den)) := by
  have hclip := nearestPat_lt_inf_iff num.natAbs hd
  rw [roundMag_eq_min]
  by_cases hov : num.natAbs < OVERFLOW * den
  · rw [min_eq_left (hclip.2 hov).le]
    exact isRounded_nearest neg hd hs hov
  · rw [min_eq_right (not_lt.1 (mt hclip.1 hov))]
    have hnum : num ≠ 0 := by
      rintro rfl; exact hov (Nat.mul_pos (Nat.mul_pos (by decide) (Nat.two_pow_pos 252)) hd)
    refine .inr ⟨by rw [f32IsInf_iff, f32Signed_toNat_mod neg (by decide)], not_lt.1 hov, ?_⟩
    rw [f32Sign_signed neg (by decide), hs hnum]

end Sys2Proof.Machine
end

section
/-! PROOFS. What each operation of binary32 gives, from rounding once (R10 to R13). -/

namespace Sys2Proof.Machine

/-! ### Zero and the sign -/

@[simp] theorem roundMag_zero (den : Nat) : roundMag 0 den = 0 := by simp [roundMag]

@[simp] theorem fneg_sign (b : Word) : f32Sign (fneg b) = !f32Sign b := by simp [f32Sign, fneg]

@[simp] theorem fneg_val (b : Word) : f32Val (fneg b) = -f32Val b := by
  cases h : f32Sign b <;> simp [f32Val, h]

@[simp] theorem fneg_isNaN (b : Word) : f32IsNaN (fneg b) = f32IsNaN b := by
  simp [f32IsNaN, (fneg_fields b).1, (fneg_fields b).2]

@[simp] theorem fneg_isInf (b : Word) : f32IsInf (fneg b) = f32IsInf b := by
  simp [f32IsInf, (fneg_fields b).1, (fneg_fields b).2]

theorem f32Sign_iff_neg {a : Word} (h : f32Val a ≠ 0) : f32Sign a = true ↔ f32Val a < 0 := by
  rcases f32Val_cases a with ⟨hs, hv⟩ | ⟨hs, hv⟩
  · simp [hs, hv]
  · simp only [hs, true_iff]; omega

/-- The sign of a product that is not zero. -/
theorem f32Val_mul_neg_iff {a b : Word} (h : f32Val a * f32Val b ≠ 0) :
    (f32Sign a != f32Sign b) = true ↔ f32Val a * f32Val b < 0 := by
  have ha := left_ne_zero_of_mul h
  have hb := right_ne_zero_of_mul h
  rw [mul_neg_iff, bne_iff_ne, Ne, Bool.eq_iff_iff, f32Sign_iff_neg ha, f32Sign_iff_neg hb]
  omega

/-! ### Each operation on finite data -/

theorem fadd_finite_eq (n : Nat) {a b : Word} (ha : f32IsFinite a = true) (hb : f32IsFinite b = true) :
    fadd n a b = if f32Val a + f32Val b = 0 then f32Signed (f32Sign a && f32Sign b) 0
      else f32Signed (decide (f32Val a + f32Val b < 0)) (roundMag (f32Val a + f32Val b).natAbs 1) := by
  simp [fadd, f32_classes ha, f32_classes hb]

theorem fmul_finite_eq (n : Nat) {a b : Word} (ha : f32IsFinite a = true) (hb : f32IsFinite b = true) :
    fmul n a b = f32Signed (f32Sign a != f32Sign b) (roundMag (f32Mag a * f32Mag b) (2 ^ 149)) := by
  simp [fmul, f32_classes ha, f32_classes hb]

theorem fdiv_finite_eq (n : Nat) {a b : Word} (ha : f32IsFinite a = true) (hb : f32IsFinite b = true)
    (h0 : f32Mag b ≠ 0) :
    fdiv n a b = f32Signed (f32Sign a != f32Sign b) (roundMag (f32Mag a * 2 ^ 149) (f32Mag b)) := by
  simp [fdiv, f32_classes ha, f32_classes hb, h0]

theorem fadd_isRounded (n : Nat) {a b : Word} (ha : f32IsFinite a = true) (hb : f32IsFinite b = true) :
    IsRounded (f32Val a + f32Val b) 1 (fadd n a b) := by
  rw [fadd_finite_eq n ha hb]
  split_ifs with h0
  · have := isRounded_signed (f32Sign a && f32Sign b) (num := 0) Nat.one_pos (by simp)
    rw [h0]; simpa using this
  · exact isRounded_signed _ Nat.one_pos (by simp)

theorem fsub_isRounded (n : Nat) {a b : Word} (ha : f32IsFinite a = true) (hb : f32IsFinite b = true) :
    IsRounded (f32Val a - f32Val b) 1 (fsub n a b) := by
  have := fadd_isRounded n ha (b := fneg b) (by simpa using hb)
  rwa [fneg_val, ← Int.sub_eq_add_neg] at this

theorem fmul_isRounded (n : Nat) {a b : Word} (ha : f32IsFinite a = true) (hb : f32IsFinite b = true) :
    IsRounded (f32Val a * f32Val b) (2 ^ 149) (fmul n a b) := by
  have hmag : f32Mag a * f32Mag b = (f32Val a * f32Val b).natAbs := by
    rw [Int.natAbs_mul, f32Val_natAbs, f32Val_natAbs]
  rw [fmul_finite_eq n ha hb, hmag]
  exact isRounded_signed _ (Nat.two_pow_pos 149) f32Val_mul_neg_iff

/-- The quotient's exact value is the dividend's with the divisor's sign put on, over the divisor's magnitude. -/
theorem fdiv_isRounded (n : Nat) {a b : Word} (ha : f32IsFinite a = true) (hb : f32IsFinite b = true)
    (h0 : f32Mag b ≠ 0) :
    IsRounded (f32Val a * (if f32Sign b then -1 else 1) * 2 ^ 149) (f32Mag b) (fdiv n a b) := by
  generalize hu : f32Val a * (if f32Sign b then -1 else 1) = u
  have hmag : u.natAbs = f32Mag a := by
    rw [← hu, ← f32Val_natAbs a]; split <;> simp
  have hneg : u ≠ 0 → ((f32Sign a != f32Sign b) = true ↔ u < 0) := by
    intro hne
    have ha := f32Sign_iff_neg (left_ne_zero_of_mul (hu ▸ hne))
    have ha0 := left_ne_zero_of_mul (hu ▸ hne)
    cases hsb : f32Sign b
    · rw [hsb, if_neg Bool.false_ne_true, Int.mul_one] at hu
      rw [← hu, ← ha, Bool.bne_false]
    · rw [hsb, if_pos rfl] at hu
      rw [Bool.bne_true, Bool.not_eq_true', ← Bool.not_eq_true, ha]
      omega
  have hnum : f32Mag a * 2 ^ 149 = (u * 2 ^ 149).natAbs := by rw [Int.natAbs_mul, hmag]; rfl
  rw [fdiv_finite_eq n ha hb h0, hnum]
  refine isRounded_signed _ (Nat.pos_of_ne_zero h0) fun hne => ?_
  rw [hneg (left_ne_zero_of_mul hne)]; omega

/-- An integer converted: R12's conversions, and R13's of a truncated value. -/
theorem cvtInt_isRounded (t : Int) : IsRounded (t * 2 ^ 149) 1 (cvtInt t) := by
  have hnum : t.natAbs * 2 ^ 149 = (t * 2 ^ 149).natAbs := by rw [Int.natAbs_mul]; rfl
  rw [cvtInt, hnum]
  refine isRounded_signed _ Nat.one_pos fun _ => ?_
  rw [decide_eq_true_iff]; omega

theorem cvtU32_eq_cvtInt (k : Word) : cvtU32 k = cvtInt k.toNat := by
  rw [cvtU32, cvtInt, decide_eq_false (by omega), Int.natAbs_natCast]

theorem cvtU8_eq_cvtInt (b : Byte) : cvtU8 b = cvtInt b.toNat := by
  rw [cvtU8, cvtInt, decide_eq_false (by omega), Int.natAbs_natCast]

/-- Settles O51: each operation computes one exact result and rounds it by `roundMag`, which is to nearest. -/
theorem arithmeticRoundsOnce : Obligations.ArithmeticRoundsOnce := by
  refine ⟨fun n a b ha hb => ⟨fadd_isRounded n ha hb, fsub_isRounded n ha hb, fmul_isRounded n ha hb,
    fdiv_isRounded n ha hb⟩, fun k => ?_⟩
  rw [cvtU32_eq_cvtInt]
  exact cvtInt_isRounded k.toNat

end Sys2Proof.Machine
end

section
/-! PROOFS. Where the exact result is a binary32 value nothing is rounded: conversions, truncation and the fraction of
a lookup (R12, R13, R91). Then the special values (R11), and the square root, whose exact result is no ratio (R10). -/

namespace Sys2Proof.Machine

/-! ### Exact results -/

theorem overflow_lt_next : OVERFLOW < patMag 0x7F800000 := by
  have := two_mul_overflow
  have := patMag_strictMono (show 0x7F800000 - 1 < 0x7F800000 by decide)
  omega

theorem f32Mag_lt_overflow {b : Word} (h : f32IsFinite b = true) : f32Mag b < OVERFLOW := by
  have hb := (f32IsFinite_iff b).1 h
  have hle := patMag_strictMono.monotone (show b.toNat % 2 ^ 31 ≤ 0x7F800000 - 1 by omega)
  have := two_mul_overflow
  have := patMag_strictMono (show 0x7F800000 - 1 < 0x7F800000 by decide)
  rw [f32Mag_eq_patMag]; omega

/-- A number of at most 24 significant bits that is below the overflow boundary is the magnitude of a pattern. -/
theorem exists_patMag {m e : Nat} (hm : m < 2 ^ 24) (hov : m * 2 ^ e < OVERFLOW) :
    ∃ p, p < 0x7F800000 ∧ patMag p = m * 2 ^ e := by
  induction e generalizing m with
  | zero => exact ⟨m, by omega, by simpa using patMag_steps (e := 0) hm.le (.inl rfl)⟩
  | succ e ih =>
    by_cases hsub : m < 2 ^ 23
    · have hdouble : 2 * m * 2 ^ e = m * 2 ^ (e + 1) := by ring
      rw [← hdouble] at hov ⊢
      exact ih (by omega) hov
    · have hv := patMag_steps (e := e + 1) hm.le (.inr (by omega))
      refine ⟨(e + 1) * 2 ^ 23 + m, patMag_strictMono.lt_iff_lt.1 ?_, hv⟩
      rw [hv]; exact hov.trans overflow_lt_next

theorem exists_finite_val {v : Int} {m e : Nat} (hv : v.natAbs = m * 2 ^ e) (hm : m < 2 ^ 24)
    (hov : v.natAbs < OVERFLOW) : ∃ p, f32IsFinite p = true ∧ f32Val p = v := by
  obtain ⟨p, hp, hmag⟩ := exists_patMag hm (hv ▸ hov)
  refine ⟨f32Signed (decide (v < 0)) p, f32Signed_finite _ hp, ?_⟩
  rw [f32Val_signed _ (by omega), hmag, ← hv]
  simp only [decide_eq_true_iff]
  split_ifs <;> omega

/-- An exact result that is a binary32 value is not changed by rounding. -/
theorem IsRounded.eq_of_exact {num : Int} {den : Nat} {w p : Word} (h : IsRounded num den w) (hd : 0 < den)
    (hp : f32IsFinite p = true) (hnum : num = f32Val p * den) : f32IsFinite w = true ∧ f32Val w = f32Val p := by
  rcases h with ⟨hw, -, hnear⟩ | ⟨-, hov, -⟩
  · refine ⟨hw, ?_⟩
    have hle := (hnear p hp).1
    rw [hnum, Int.sub_self, Int.natAbs_zero, Nat.le_zero, Int.natAbs_eq_zero] at hle
    exact Int.eq_of_mul_eq_mul_right (by omega) (Int.sub_eq_zero.1 hle).symm
  · rw [hnum, Int.natAbs_mul, f32Val_natAbs, Int.natAbs_natCast] at hov
    exact absurd (Nat.le_of_mul_le_mul_right hov hd) (not_le.2 (f32Mag_lt_overflow hp))

theorem cvtInt_val {t : Int} {m e : Nat} (h : t.natAbs * 2 ^ 149 = m * 2 ^ e) (hm : m < 2 ^ 24)
    (hov : t.natAbs * 2 ^ 149 < OVERFLOW) : f32IsFinite (cvtInt t) = true ∧ f32Val (cvtInt t) = t * 2 ^ 149 := by
  have habs : (t * 2 ^ 149).natAbs = t.natAbs * 2 ^ 149 := by rw [Int.natAbs_mul]; rfl
  obtain ⟨p, hp, hv⟩ := exists_finite_val (habs.trans h) hm (habs ▸ hov)
  rw [← hv]
  exact (cvtInt_isRounded t).eq_of_exact Nat.one_pos hp (by rw [hv, Nat.cast_one, Int.mul_one])

theorem cvtU8_val (b : Byte) : f32IsFinite (cvtU8 b) = true ∧ f32Val (cvtU8 b) = (b.toNat : Int) * 2 ^ 149 := by
  have hb : b.toNat < 2 ^ 8 := b.isLt
  rw [cvtU8_eq_cvtInt]
  refine cvtInt_val rfl (by omega) ?_
  rw [Int.natAbs_natCast]
  calc b.toNat * 2 ^ 149 < 2 ^ 8 * 2 ^ 149 := by omega
    _ < OVERFLOW := by decide

/-! ### Truncation (R13) and the fraction of a lookup (R91) -/

theorem ftrunc_natAbs (x : Word) : (ftrunc x).natAbs = f32Mag x / 2 ^ 149 := by
  rw [ftrunc, Int.natAbs_tdiv, f32Val_natAbs]; rfl

theorem fraction_natAbs (x : Word) : (f32Val x - ftrunc x * 2 ^ 149).natAbs = f32Mag x % 2 ^ 149 := by
  have h : f32Val x - ftrunc x * 2 ^ 149 = (f32Val x).tmod (2 ^ 149) := by
    have := Int.tdiv_mul_add_tmod (f32Val x) (2 ^ 149)
    rw [ftrunc]; omega
  rw [h, Int.natAbs_tmod, f32Val_natAbs]; rfl

/-- The integer part and the fraction of a finite datum have no more significant bits than the datum. -/
theorem parts_steps {m : Nat} (e : Nat) (hm : m < 2 ^ 24) :
    (∃ m' e', m' < 2 ^ 24 ∧ m * 2 ^ e / 2 ^ 149 * 2 ^ 149 = m' * 2 ^ e') ∧
      ∃ m' e', m' < 2 ^ 24 ∧ m * 2 ^ e % 2 ^ 149 = m' * 2 ^ e' := by
  by_cases he : 149 ≤ e
  · obtain ⟨k, rfl⟩ := Nat.exists_eq_add_of_le' he
    have hdvd : m * 2 ^ (k + 149) = m * 2 ^ k * 2 ^ 149 := by rw [pow_add, Nat.mul_assoc]
    rw [hdvd, Nat.mul_div_cancel _ (Nat.two_pow_pos 149), Nat.mul_mod_left]
    exact ⟨⟨m, k + 149, hm, hdvd.symm⟩, 0, 0, by decide, rfl⟩
  · obtain ⟨k, hk⟩ := Nat.exists_eq_add_of_le' (not_le.1 he).le
    have hpow : 2 ^ 149 = 2 ^ k * 2 ^ e := by rw [hk, pow_add]
    refine ⟨⟨m / 2 ^ k, 149, (Nat.div_le_self _ _).trans_lt hm, ?_⟩, m % 2 ^ k, e, (Nat.mod_le _ _).trans_lt hm, ?_⟩
    · rw [hpow, Nat.mul_div_mul_right _ _ (Nat.two_pow_pos e)]
    · rw [hpow, Nat.mul_mod_mul_right]

theorem cvtInt_ftrunc_val {x : Word} (hx : f32IsFinite x = true) :
    f32IsFinite (cvtInt (ftrunc x)) = true ∧ f32Val (cvtInt (ftrunc x)) = ftrunc x * 2 ^ 149 := by
  obtain ⟨e, m, hm, -, hmag, -⟩ := f32Mag_split hx
  obtain ⟨⟨m', e', hm', h⟩, -⟩ := parts_steps e hm
  have hle := (Nat.div_mul_le_self (f32Mag x) (2 ^ 149)).trans_lt (f32Mag_lt_overflow hx)
  rw [← ftrunc_natAbs] at hle
  rw [← hmag, ← ftrunc_natAbs] at h
  exact cvtInt_val h hm' hle

/-- The fraction a lookup takes is computed exactly (R91). -/
theorem fraction_exact (n : Nat) {x : Word} (hx : f32IsFinite x = true) :
    f32IsFinite (fsub n x (cvtInt (ftrunc x))) = true ∧
      f32Val (fsub n x (cvtInt (ftrunc x))) = f32Val x - ftrunc x * 2 ^ 149 := by
  obtain ⟨ht, hval⟩ := cvtInt_ftrunc_val hx
  obtain ⟨e, m, hm, -, hmag, -⟩ := f32Mag_split hx
  obtain ⟨-, m', e', hm', h⟩ := parts_steps e hm
  rw [← hmag, ← fraction_natAbs] at h
  have hlt : (f32Val x - ftrunc x * 2 ^ 149).natAbs < OVERFLOW := by
    rw [fraction_natAbs]; exact (Nat.mod_le _ _).trans_lt (f32Mag_lt_overflow hx)
  obtain ⟨p, hp, hv⟩ := exists_finite_val h hm' hlt
  have hround := fsub_isRounded n hx ht
  rw [hval] at hround
  rw [← hv] at hround ⊢
  exact hround.eq_of_exact Nat.one_pos hp (by rw [Nat.cast_one, Int.mul_one])

theorem ftrunc_pos_iff {x : Word} (h : ftrunc x ≠ 0) : 0 < ftrunc x ↔ f32Sign x = false := by
  rcases f32Val_cases x with ⟨hs, hv⟩ | ⟨hs, hv⟩
  · have : 0 ≤ ftrunc x := by rw [ftrunc, hv]; exact Int.tdiv_nonneg (Int.natCast_nonneg _) (by positivity)
    simp only [hs, iff_true]; omega
  · have : ftrunc x ≤ 0 := by
      rw [ftrunc, hv, Int.neg_tdiv, Int.neg_nonpos_iff]
      exact Int.tdiv_nonneg (Int.natCast_nonneg _) (by positivity)
    simp only [hs, Bool.true_eq_false, iff_false]; omega

/-- Settles O54: a byte, a truncated value and a fraction are binary32 values, which rounding does not change. -/
theorem conversionsExact : Obligations.ConversionsExact := by
  refine ⟨fun b => (cvtU8_val b).2, fun n x hx => ?_⟩
  obtain ⟨hfin, hval⟩ := fraction_exact n hx
  refine ⟨(cvtInt_ftrunc_val hx).2, ?_, ?_, ftrunc_pos_iff, hfin, hval⟩
  · rw [ftrunc_natAbs]; exact Nat.div_mul_le_self _ _
  · rw [ftrunc_natAbs]; omega

/-! ### Special values (R11) -/

theorem fsub_nan (n : Nat) {a b : Word} (h : f32IsNaN a = true ∨ f32IsNaN b = true) : fsub n a b = qNaN n :=
  fadd_nan n (by simpa using h)

/-- A zero is its sign. -/
theorem f32Signed_zero (neg : Bool) : f32Signed neg 0 = if neg then 0x80000000 else 0 := by cases neg <;> rfl

theorem fsub_self (n : Nat) {a : Word} (ha : f32IsFinite a = true) : fsub n a a = 0 := by
  rw [fsub, fadd_finite_eq n ha (by simpa using ha), if_pos (by simp), f32Signed_zero]
  simp

/-- The product of a zero and a finite value is a zero of the exclusive-or sign. -/
theorem fmul_zero_mag (n : Nat) {a b : Word} (ha : f32IsFinite a = true) (hb : f32IsFinite b = true)
    (h : f32Mag a = 0 ∨ f32Mag b = 0) :
    fmul n a b = if f32Sign a != f32Sign b then 0x80000000 else 0 := by
  rw [fmul_finite_eq n ha hb, Nat.mul_eq_zero.2 h, roundMag_zero, f32Signed_zero]

theorem f32IsInf_classes {a : Word} (h : f32IsInf a = true) : f32IsNaN a = false ∧ f32IsFinite a = false := by
  simp only [f32IsInf, Bool.and_eq_true, beq_iff_eq] at h
  obtain ⟨he, hf⟩ := h
  simp [f32IsNaN, f32IsFinite, he, hf]

theorem fsub_inf_self (n : Nat) {a : Word} (h : f32IsInf a = true) : fsub n a a = qNaN n := by
  simp [fsub, fadd, h]

theorem fdiv_inf_self (n : Nat) {a : Word} (h : f32IsInf a = true) : fdiv n a a = qNaN n := by
  simp [fdiv, h]

theorem fmul_inf_zero (n : Nat) {a b : Word} (ha : f32IsInf a = true) (hb : f32IsFinite b = true)
    (h0 : f32Mag b = 0) : fmul n a b = qNaN n ∧ fmul n b a = qNaN n := by
  simp [fmul, ha, hb, h0]

theorem fdiv_zero_zero (n : Nat) {a b : Word} (ha : f32IsFinite a = true) (hb : f32IsFinite b = true)
    (h : f32Mag a = 0) (h0 : f32Mag b = 0) : fdiv n a b = qNaN n := by
  simp [fdiv, f32_classes ha, f32_classes hb, h, h0]

theorem fsqrt_zero (n : Nat) {a : Word} (ha : f32IsFinite a = true) (h0 : f32Mag a = 0) : fsqrt n a = a := by
  simp [fsqrt, f32_classes ha, ha, h0]

theorem fsqrt_negative (n : Nat) {a : Word} (hs : f32Sign a = true) (h0 : f32Mag a ≠ 0) : fsqrt n a = qNaN n := by
  simp [fsqrt, hs, h0]

theorem fadd_inf_finite (n : Nat) {a b : Word} (ha : f32IsInf a = true) (hb : f32IsFinite b = true) :
    fadd n a b = a := by
  simp [fadd, ha, f32IsInf_classes ha, f32_classes hb]

/-- Settles O53, a clause at a time. -/
theorem specialValues : Obligations.SpecialValues := by
  intro n a b
  refine ⟨⟨qNaN_isNaN n, qNaN_bits n 22 le_rfl (by decide)⟩, fsub_self n, ?_, fmul_zero_mag n, ?_, fsqrt_nan n, ?_,
    fmul_inf_zero n, ?_, fsqrt_negative n, ?_, fadd_inf_finite n⟩
  · rw [fadd_finite_eq n (by decide) (by decide)]; decide
  · exact fun h => ⟨fadd_nan n h, fsub_nan n h, fmul_nan n h, fdiv_nan n h⟩
  · exact fun h => ⟨fsub_inf_self n h, fdiv_inf_self n h⟩
  · exact fdiv_zero_zero n (by decide) (by decide) (by decide) (by decide)
  · exact fsqrt_zero n (by decide) (by decide)

/-! ### The square root (R10) -/

/-- The search by bits ends at the greatest root, if it starts below the root and within its bits. -/
theorem isqrtFrom_spec (n k r : Nat) (hle : r * r ≤ n) (hlt : n < (r + 2 ^ k) * (r + 2 ^ k)) :
    isqrtFrom n k r * isqrtFrom n k r ≤ n ∧ n < (isqrtFrom n k r + 1) * (isqrtFrom n k r + 1) := by
  induction k generalizing r with
  | zero => exact ⟨hle, hlt⟩
  | succ k ih =>
    rw [isqrtFrom]
    split
    · next h => exact ih _ h (by rwa [Nat.add_assoc, ← two_mul, ← pow_succ'])
    · next h => exact ih _ hle (not_le.1 h)

theorem isqrt_spec (n : Nat) : isqrt n * isqrt n ≤ n ∧ n < (isqrt n + 1) * (isqrt n + 1) := by
  refine isqrtFrom_spec n _ 0 (Nat.zero_le n) ?_
  rw [Nat.zero_add, ← pow_add]
  exact Nat.lt_log2_self.trans_le (Nat.pow_le_pow_right (by decide) (by omega))

/-- The half units `fsqrt` rounds: twice the integer root, and one more where the root is not exact. -/
def rootHalves (x : Nat) : Nat := 2 * isqrt x + if isqrt x * isqrt x = x then 0 else 1

theorem fsqrt_eq (n : Nat) {a : Word} (ha : f32IsFinite a = true) (hs : f32Sign a = false) (h0 : f32Mag a ≠ 0) :
    fsqrt n a = f32Signed false (roundMag (rootHalves (f32Mag a * 2 ^ 149)) 2) := by
  simp [fsqrt, f32_classes ha, hs, h0, rootHalves]

/-- An even midpoint `S` (in half units) lies on the same side of the root as of the half units that stand for it. -/
theorem root_side (x S : Nat) :
    (rootHalves x ≤ S → (S = rootHalves x → S % 2 = 0) → 4 * x ≤ S ^ 2) ∧
      (S ≤ rootHalves x → (S = rootHalves x → S % 2 = 0) → S ^ 2 ≤ 4 * x) ∧ (S ^ 2 = 4 * x → S = rootHalves x) := by
  obtain ⟨hle, hlt⟩ := isqrt_spec x
  unfold rootHalves
  generalize isqrt x = r at *
  refine ⟨fun h hev => ?_, fun h hev => ?_, fun h => ?_⟩
  · split_ifs at h hev with hx
    · nlinarith
    · have : 2 * (r + 1) ≤ S := by omega
      nlinarith
  · split_ifs at h hev with hx
    · nlinarith
    · have : S ≤ 2 * r := by omega
      nlinarith
  · have heven : 2 ∣ S ^ 2 := ⟨2 * x, by rw [h]; ring⟩
    obtain ⟨k, rfl⟩ := Nat.prime_two.dvd_of_dvd_pow heven
    have hk : k * k = x := by nlinarith
    have h1 : r ≤ k := Nat.mul_self_le_mul_self_iff.1 (hk ▸ hle)
    have h2 : k < r + 1 := Nat.mul_self_lt_mul_self_iff.1 (hk ▸ hlt)
    obtain rfl : r = k := by omega
    rw [if_pos hk, Nat.add_zero]

/-- Above `2^24` units every datum is an even number of units. -/
theorem f32Mag_even {b : Word} (hb : f32IsFinite b = true) (h : 2 ^ 24 ≤ f32Mag b) : f32Mag b % 2 = 0 := by
  obtain ⟨e, m, hm, -, hmag, -⟩ := f32Mag_split hb
  cases e with
  | zero => rw [hmag, pow_zero, Nat.mul_one] at h; omega
  | succ e => rw [hmag, pow_succ, ← Nat.mul_assoc, Nat.mul_mod_left]

theorem rootHalves_range {x : Nat} (hlow : 2 ^ 149 ≤ x) (hhigh : x < OVERFLOW * OVERFLOW) :
    2 ^ 75 ≤ rootHalves x ∧ rootHalves x < OVERFLOW * 2 := by
  obtain ⟨hle, hlt⟩ := isqrt_spec x
  have h1 : 2 ^ 74 < isqrt x + 1 := Nat.mul_self_lt_mul_self_iff.1 (by omega)
  have h2 : isqrt x < OVERFLOW := Nat.mul_self_lt_mul_self_iff.1 (hle.trans_lt hhigh)
  unfold rootHalves
  split_ifs <;> omega

/-- The half units of the root of a positive datum, in square units, are far above the last place and below the overflow
boundary. -/
theorem rootHalves_mag_range {a : Word} (ha : f32IsFinite a = true) (h0 : f32Mag a ≠ 0) :
    2 ^ 75 ≤ rootHalves (f32Mag a * 2 ^ 149) ∧ rootHalves (f32Mag a * 2 ^ 149) < OVERFLOW * 2 := by
  have hunit : 2 ^ 149 ≤ OVERFLOW := by decide
  refine rootHalves_range (Nat.le_mul_of_pos_left _ (Nat.pos_of_ne_zero h0)) ?_
  calc f32Mag a * 2 ^ 149 < OVERFLOW * 2 ^ 149 :=
        Nat.mul_lt_mul_of_pos_right (f32Mag_lt_overflow ha) (Nat.two_pow_pos 149)
    _ ≤ OVERFLOW * OVERFLOW := Nat.mul_le_mul_left _ hunit

/-- Where `2 * W` is as near to the half units `N` as `2 * P` is, the midpoint `W + P` is not on the side of `N` that
`W` is on; a midpoint that meets `N` has both its sides above any `Q` that is no nearer than `W` and not above. -/
theorem midpoint_of_nearest {N W P Q : Nat} (hQ : 2 * Q ≤ N)
    (hP : ((N : Int) - (W : Int) * (2 : Nat)).natAbs ≤ ((N : Int) - (P : Int) * (2 : Nat)).natAbs)
    (hW : ((N : Int) - (W : Int) * (2 : Nat)).natAbs ≤ ((N : Int) - (Q : Int) * (2 : Nat)).natAbs) :
    (W < P → N ≤ W + P) ∧ (P < W → W + P ≤ N) ∧
      (W ≠ P → W + P = N → Q ≤ W ∧ Q ≤ P ∧
        ((N : Int) - (W : Int) * (2 : Nat)).natAbs = ((N : Int) - (P : Int) * (2 : Nat)).natAbs) := by
  omega

/-- Settles O52: `fsqrt` rounds the half units of the root, and no midpoint of two data lies strictly between those half
units and the root, since near the root every datum is an even number of units. -/
theorem sqrtRoundsOnce : Obligations.SqrtRoundsOnce := by
  intro n a ha hs h0
  obtain ⟨hlow, hhigh⟩ := rootHalves_mag_range ha h0
  rw [fsqrt_eq n ha hs h0]
  generalize hx : f32Mag a * 2 ^ 149 = x at *
  have hround := isRounded_signed false (num := rootHalves x) (den := 2) (by decide) (by simp)
  have hsign := f32Sign_signed false (p := roundMag (rootHalves x) 2)
    ((min_le_right _ _).trans_lt (by decide))
  rw [Int.natAbs_natCast] at hround
  generalize f32Signed false (roundMag (rootHalves x) 2) = w at *
  rcases hround with ⟨hw, -, hnear⟩ | ⟨-, hov, -⟩
  · obtain ⟨q, hq, hq74⟩ := exists_patMag (m := 1) (e := 74) (by decide) (by decide)
    have hq31 : q < 2 ^ 31 := by omega
    have hpos : ∀ {p}, f32Sign p = false → f32Val p = f32Mag p := fun h => by simp [f32Val, h]
    have hfar := (hnear (f32Signed false q) (f32Signed_finite _ hq)).1
    rw [hpos hsign, hpos (f32Sign_signed _ hq31), f32Mag_signed _ hq31, hq74] at hfar
    refine ⟨hw, hsign, fun p hp hps => ?_⟩
    obtain ⟨hle, htie⟩ := hnear p hp
    rw [hpos hsign, hpos hps] at hle htie
    obtain ⟨habove, hbelow, hmeet⟩ := midpoint_of_nearest (by omega) hle hfar
    obtain ⟨hside1, hside2, hside3⟩ := root_side x (f32Mag w + f32Mag p)
    have heven : f32Mag w ≠ f32Mag p → f32Mag w + f32Mag p = rootHalves x → (f32Mag w + f32Mag p) % 2 = 0 := by
      intro hne hS
      obtain ⟨h1, h2, -⟩ := hmeet hne hS
      have := f32Mag_even hw (by omega)
      have := f32Mag_even hp (by omega)
      omega
    refine ⟨fun h => hside1 (habove h) (heven h.ne), fun h => hside2 (hbelow h) (heven h.ne'), fun hne hS => ?_⟩
    obtain ⟨-, -, heq⟩ := hmeet hne.symm (hside3 hS)
    exact htie heq (by exact_mod_cast hne)
  · rw [Int.natAbs_natCast] at hov
    exact absurd hhigh (not_lt.2 hov)

end Sys2Proof.Machine
end

section
/-! PROOFS. No NaN and no infinity in a grid transform (42_dtft.md rule R112, 00_scope.md rule R11). The accumulators
and the angle never leave `2^40`, however many samples there are: from there on one more sample, at most `2^10`, is
less than half a last place. -/

namespace Sys2Proof.Machine

/-! ### Finite, of magnitude at most a power of two -/

/-- Finite, and of magnitude at most `2^k`. -/
def Within (k : Nat) (b : Word) : Prop := f32IsFinite b = true ∧ f32Mag b ≤ 2 ^ (149 + k)

theorem Within.mono {i k : Nat} {b : Word} (h : Within i b) (hik : i ≤ k) : Within k b :=
  ⟨h.1, h.2.trans (Nat.pow_le_pow_right (by decide) (by omega))⟩

theorem two_pow_lt_overflow {k : Nat} (hk : k ≤ 127) : 2 ^ (149 + k) < OVERFLOW := by
  calc 2 ^ (149 + k) ≤ 2 ^ (24 + 252) := Nat.pow_le_pow_right (by decide) (by omega)
    _ = 2 ^ 24 * 2 ^ 252 := pow_add _ _ _
    _ < OVERFLOW := Nat.mul_lt_mul_of_pos_right (by decide) (Nat.two_pow_pos 252)

/-- What is within `2^k`, but for less than half of that bound's last place, is within `2^k` once rounded. -/
theorem IsRounded.within {num : Int} {k : Nat} {w : Word} (h : IsRounded num 1 w) (hk : k ≤ 126)
    (hnum : num.natAbs ≤ 2 ^ (149 + k) + 2 ^ (124 + k)) : Within k w := by
  have hB : patMag ((126 + k) * 2 ^ 23 + 2 ^ 23) = 2 ^ (149 + k) := by
    rw [patMag_steps (by decide) (.inr le_rfl), ← pow_add]; congr 1; omega
  have hnext : patMag ((126 + k) * 2 ^ 23 + 2 ^ 23 + 1) = 2 ^ (149 + k) + 4 * 2 ^ (124 + k) := by
    rw [Nat.add_assoc, patMag_steps (by decide) (.inr (by decide)), Nat.add_mul, ← pow_add, Nat.one_mul]
    congr 2
    · omega
    · rw [show 126 + k = 124 + k + 2 by omega, pow_add]; omega
  obtain ⟨P, hP⟩ : ∃ P, P = (126 + k) * 2 ^ 23 + 2 ^ 23 := ⟨_, rfl⟩
  have hP31 : P < 2 ^ 31 := by omega
  rw [← hP] at hB hnext
  rcases h with ⟨hw, -, hnear⟩ | ⟨-, hov, -⟩
  · refine ⟨hw, not_lt.1 fun hgt => ?_⟩
    have hbeyond : patMag (P + 1) ≤ f32Mag w := by
      rw [← hB, f32Mag_eq_patMag] at hgt
      rw [f32Mag_eq_patMag]
      exact patMag_strictMono.monotone (patMag_strictMono.lt_iff_lt.1 hgt)
    have hle := (hnear (f32Signed (decide (num < 0)) P) (f32Signed_finite _ (by omega))).1
    rw [f32Val_signed _ hP31, hB] at hle
    simp only [decide_eq_true_iff] at hle
    rw [hnext] at hbeyond
    have hval := f32Val_cases w
    have hpos := Nat.two_pow_pos (124 + k)
    generalize 2 ^ (149 + k) = B at *
    generalize 2 ^ (124 + k) = D at *
    split_ifs at hle <;> omega
  · have h1 := two_pow_lt_overflow (show k + 1 ≤ 127 by omega)
    have h2 : 2 ^ (124 + k) ≤ 2 ^ (149 + k) := Nat.pow_le_pow_right (by decide) (by omega)
    rw [← Nat.add_assoc, pow_succ] at h1
    omega

theorem Within.natAbs_val {k : Nat} {b : Word} (h : Within k b) : (f32Val b).natAbs ≤ 2 ^ (149 + k) := by
  rw [f32Val_natAbs]; exact h.2

/-- A sum with a term so small that it is less than half a last place of the other's bound stays within that bound. -/
theorem Within.fadd_small {j k : Nat} {a b : Word} (n : Nat) (ha : Within k a) (hb : Within j b) (hjk : j + 25 ≤ k)
    (hk : k ≤ 126) : Within k (fadd n a b) := by
  refine (fadd_isRounded n ha.1 hb.1).within hk ((Int.natAbs_add_le _ _).trans (Nat.add_le_add ha.natAbs_val ?_))
  exact hb.natAbs_val.trans (Nat.pow_le_pow_right (by decide) (by omega))

theorem Within.fneg {k : Nat} {b : Word} (h : Within k b) : Within k (fneg b) :=
  ⟨by rw [fneg_finite]; exact h.1, by rw [fneg_mag]; exact h.2⟩

theorem Within.fsub_small {j k : Nat} {a b : Word} (n : Nat) (ha : Within k a) (hb : Within j b) (hjk : j + 25 ≤ k)
    (hk : k ≤ 126) : Within k (fsub n a b) :=
  ha.fadd_small n hb.fneg hjk hk

theorem Within.fadd {k : Nat} {a b : Word} (n : Nat) (ha : Within k a) (hb : Within k b) (hk : k ≤ 125) :
    Within (k + 1) (fadd n a b) := by
  refine (fadd_isRounded n ha.1 hb.1).within (by omega) (le_trans ?_ (Nat.le_add_right _ _))
  have := Int.natAbs_add_le (f32Val a) (f32Val b)
  have := ha.natAbs_val
  have := hb.natAbs_val
  rw [← Nat.add_assoc, pow_succ]
  omega

theorem Within.fsub {k : Nat} {a b : Word} (n : Nat) (ha : Within k a) (hb : Within k b) (hk : k ≤ 125) :
    Within (k + 1) (fsub n a b) :=
  ha.fadd n hb.fneg hk

/-- A product with a factor of magnitude at most `2^j` is at most `2^j` times the other factor. -/
theorem fmul_le_scaled {i j : Nat} {a b : Word} (n : Nat) (ha : Within j a) (hb : Within i b) (hij : i + j ≤ 127) :
    f32IsFinite (fmul n a b) = true ∧ f32Mag (fmul n a b) ≤ 2 ^ j * f32Mag b := by
  obtain ⟨e, m, hm, -, hmag, -⟩ := f32Mag_split hb.1
  have hscaled : m * 2 ^ (e + j) = 2 ^ j * f32Mag b := by rw [hmag]; ring
  have hlt : m * 2 ^ (e + j) < OVERFLOW := by
    rw [hscaled]
    calc 2 ^ j * f32Mag b ≤ 2 ^ j * 2 ^ (149 + i) := Nat.mul_le_mul_left _ hb.2
      _ = 2 ^ (149 + (i + j)) := by ring
      _ < OVERFLOW := two_pow_lt_overflow hij
  obtain ⟨p, hp, hpm⟩ := exists_patMag hm hlt
  have hp31 : p < 2 ^ 31 := by omega
  have hw : f32Mag (f32Signed false p) = 2 ^ j * f32Mag b := by rw [f32Mag_signed _ hp31, hpm, hscaled]
  rw [← hw]
  refine fmul_le n ha.1 hb.1 (f32Signed_finite _ hp) ?_
  calc f32Mag a * f32Mag b ≤ 2 ^ (149 + j) * f32Mag b := Nat.mul_le_mul_right _ ha.2
    _ = f32Mag (f32Signed false p) * 2 ^ 149 := by rw [hw]; ring

theorem Within.fmul {i j : Nat} {a b : Word} (n : Nat) (ha : Within j a) (hb : Within i b) (hij : i + j ≤ 127) :
    Within (i + j) (fmul n a b) := by
  obtain ⟨hf, hle⟩ := fmul_le_scaled n ha hb hij
  refine ⟨hf, hle.trans ((Nat.mul_le_mul_left _ hb.2).trans_eq ?_)⟩
  ring

/-- A quotient is at most `2^j` where the dividend is at most `2^j` times the divisor. -/
theorem fdiv_within {j : Nat} {a b : Word} (n : Nat) (ha : f32IsFinite a = true) (hb : f32IsFinite b = true)
    (h0 : f32Mag b ≠ 0) (hj : j ≤ 127) (h : f32Mag a ≤ 2 ^ j * f32Mag b) : Within j (fdiv n a b) := by
  obtain ⟨p, hp, hpm⟩ := exists_patMag (m := 1) (e := 149 + j) (by decide)
    (by rw [Nat.one_mul]; exact two_pow_lt_overflow hj)
  rw [Nat.one_mul] at hpm
  have hp31 : p < 2 ^ 31 := by omega
  rw [fdiv_finite_eq n ha hb h0]
  have := f32Signed_round_le (f32Sign a != f32Sign b) (num := f32Mag a * 2 ^ 149) (w := f32Signed false p)
    (Nat.pos_of_ne_zero h0) (f32Signed_finite _ hp) (by
      rw [f32Mag_signed _ hp31, hpm]
      calc f32Mag a * 2 ^ 149 ≤ 2 ^ j * f32Mag b * 2 ^ 149 := Nat.mul_le_mul_right _ h
        _ = 2 ^ (149 + j) * f32Mag b := by ring)
  rwa [f32Mag_signed _ hp31, hpm] at this

/-! ### The grid frequencies (R103, R104) -/

theorem IsRounded.val_mono {u v : Int} {den : Nat} {w z : Word} (hw : IsRounded u den w) (hz : IsRounded v den z)
    (hwf : f32IsFinite w = true) (hzf : f32IsFinite z = true) (hd : 0 < den) (huv : u < v) :
    f32Val w ≤ f32Val z := by
  have notInf : ∀ {b}, f32IsFinite b = true → ¬ f32IsInf b = true := fun h => by simp [f32_classes h]
  obtain ⟨-, -, hw⟩ := hw.resolve_right fun h => notInf hwf h.1
  obtain ⟨-, -, hz⟩ := hz.resolve_right fun h => notInf hzf h.1
  by_contra hlt
  have h1 := (hw z hzf).1
  have h2 := (hz w hwf).1
  have hmul := Int.mul_lt_mul_of_pos_right (not_le.1 hlt) (Int.natCast_pos.2 hd)
  generalize f32Val w * (den : Int) = W at *
  generalize f32Val z * (den : Int) = Z at *
  omega

theorem cvtU32_within (k : Word) : Within 32 (cvtU32 k) := by
  have hk : k.toNat < 2 ^ 32 := k.isLt
  rw [cvtU32_eq_cvtInt]
  refine (cvtInt_isRounded _).within (by decide) (le_trans ?_ (Nat.le_add_right _ _))
  rw [Int.natAbs_mul, Int.natAbs_natCast, show ((2 : Int) ^ 149).natAbs = 2 ^ 149 from rfl, pow_add, Nat.mul_comm]
  exact Nat.mul_le_mul_left _ hk.le

theorem cvtU32_val (k : Word) : f32Val (cvtU32 k) = f32Mag (cvtU32 k) := by
  have hs : f32Sign (cvtU32 k) = false := f32Sign_signed false ((min_le_right _ _).trans_lt (by decide))
  simp [f32Val, hs]

theorem cvtU32_mono {k K : Word} (h : k.toNat ≤ K.toNat) : f32Mag (cvtU32 k) ≤ f32Mag (cvtU32 K) := by
  rcases h.eq_or_lt with heq | hlt
  · rw [BitVec.eq_of_toNat_eq heq]
  · have hk := cvtInt_isRounded k.toNat
    have hK := cvtInt_isRounded K.toNat
    rw [← cvtU32_eq_cvtInt] at hk hK
    have := hk.val_mono hK (cvtU32_within k).1 (cvtU32_within K).1 Nat.one_pos (by omega)
    rw [cvtU32_val, cvtU32_val] at this
    omega

theorem cvtU32_ne_zero {K : Word} (h : 1 ≤ K.toNat) : f32Mag (cvtU32 K) ≠ 0 := by
  have hone : f32Mag (cvtU32 1) ≠ 0 := by decide
  have := cvtU32_mono (k := 1) (K := K) h
  omega

theorem zero_within (k : Nat) : Within k 0 := by
  have hmag : f32Mag 0 = 0 := by decide
  exact ⟨by decide, hmag ▸ Nat.zero_le _⟩

theorem pi_within : Within 3 PI_F ∧ Within 3 TWO_PI_F ∧ Within 8 SCALE := by
  refine ⟨⟨?_, ?_⟩, ⟨?_, ?_⟩, ?_, ?_⟩ <;> decide

/-- `k` steps out of `K` of an angle below 8. -/
theorem frequency_within {c k K : Word} (n m : Nat) (hc : Within 3 c) (hk : k.toNat ≤ K.toNat) (hK : 1 ≤ K.toNat) :
    Within 3 (fdiv m (fmul n c (cvtU32 k)) (cvtU32 K)) := by
  obtain ⟨hf, hle⟩ := fmul_le_scaled n hc (cvtU32_within k) (by decide)
  exact fdiv_within m hf (cvtU32_within K).1 (cvtU32_ne_zero hK) (by decide)
    (hle.trans (Nat.mul_le_mul_left _ (cvtU32_mono hk)))

theorem omegaOf_within (n : Nat) (g : Grid) {k K : Word} (h : k.toNat < K.toNat) : Within 3 (omegaOf n g k K) := by
  cases g with
  | full => exact frequency_within _ _ pi_within.2.1 h.le (by omega)
  | half =>
    rw [omegaOf]
    split
    · exact zero_within 3
    · next hK =>
      have hpred : (K - 1).toNat = K.toNat - 1 := BitVec.toNat_sub_of_le (by rw [BitVec.le_def]; show 1 ≤ _; omega)
      have hne : K.toNat ≠ 1 := fun h => hK (BitVec.eq_of_toNat_eq h)
      exact frequency_within _ _ pi_within.1 (by omega) (by omega)

/-! ### The lookup on filled tables (R90 to R94) -/

/-- A pattern at most that of 1. -/
theorem within_of_toNat_le {w : Word} (h : w.toNat ≤ 0x3F800000) : Within 0 w := by
  have hone : patMag (126 * 2 ^ 23 + 2 ^ 23) = 2 ^ 23 * 2 ^ 126 := patMag_steps (by decide) (.inr le_rfl)
  refine ⟨(f32IsFinite_iff w).2 (by omega), ?_⟩
  rw [f32Mag_eq_patMag, Nat.add_zero, show 149 = 23 + 126 from rfl, pow_add, ← hone]
  exact patMag_strictMono.monotone (by omega)

theorem within_of_mem_quadrant {w : Word} (h : w ∈ quadrant) : Within 0 w := by
  have hall0 : quadrant0.all (fun w => decide (w.toNat ≤ 0x3F800000)) = true := by decide
  have hall1 : quadrant1.all (fun w => decide (w.toNat ≤ 0x3F800000)) = true := by decide
  have hall2 : quadrant2.all (fun w => decide (w.toNat ≤ 0x3F800000)) = true := by decide
  have hall3 : quadrant3.all (fun w => decide (w.toNat ≤ 0x3F800000)) = true := by decide
  have hall : quadrant.all (fun w => decide (w.toNat ≤ 0x3F800000)) = true := by
    rw [quadrant, List.all_append, List.all_append, List.all_append, hall0, hall1, hall2, hall3]; rfl
  exact within_of_toNat_le (of_decide_eq_true (List.all_eq_true.1 hall w h))

theorem quadrant_within (i : Nat) : Within 0 (quadrant.getD i 0) := by
  rcases lt_or_ge i quadrant.length with h | h
  · rw [List.getD_eq_getElem _ _ h]; exact within_of_mem_quadrant (List.getElem_mem h)
  · rw [List.getD_eq_default _ _ h]; exact zero_within 0

theorem sinEntry_within (i : Nat) : Within 0 (sinEntry i) := by
  unfold sinEntry
  split_ifs
  · exact quadrant_within _
  · exact quadrant_within _
  · exact (quadrant_within _).fneg
  · exact (quadrant_within _).fneg

theorem tab_getElem {α : Type} (n : Nat) (f : Nat → α) (i : Fin n) : (tab n f)[i] = f i.val := tab_get n f i

theorem sinTable_within (i : Fin Config.L) : Within 0 sinTable[i] := by
  rw [sinTable, tab_getElem]; exact sinEntry_within _

theorem cosTable_within (i : Fin Config.L) : Within 0 cosTable[i] := by
  rw [cosTable, tab_getElem]; exact sinEntry_within _

/-- What a lookup answers where its scaled angle is finite (R91, R92). -/
theorem lookup_finite (n : Nat) (T : Vector Word Config.L) {a : Word} (ha : f32IsFinite a = true)
    (hs : f32IsFinite (fmul n a SCALE) = true) :
    lookup n T a = some (fadd (n + 4) T[tableIndex (ftrunc (fmul n a SCALE))]
      (fmul (n + 3) (fsub (n + 1) (fmul n a SCALE) (cvtInt (ftrunc (fmul n a SCALE))))
        (fsub (n + 2) T[nextIndex (tableIndex (ftrunc (fmul n a SCALE)))]
          T[tableIndex (ftrunc (fmul n a SCALE))]))) := by
  simp [lookup, (f32_classes ha).1, hs]

/-- The fraction a lookup takes is at most 1 in magnitude. -/
theorem fraction_within (n : Nat) {s : Word} (hs : f32IsFinite s = true) :
    Within 0 (fsub n s (cvtInt (ftrunc s))) := by
  obtain ⟨hff, hfv⟩ := fraction_exact n hs
  refine ⟨hff, ?_⟩
  rw [← f32Val_natAbs, hfv, fraction_natAbs]
  exact (Nat.mod_lt _ (Nat.two_pow_pos 149)).le

/-- Interpolation (R92) between values within 1 by a fraction within 1. -/
theorem interpolation_within (n : Nat) {u v f : Word} (hu : Within 0 u) (hv : Within 0 v) (hf : Within 0 f) :
    Within 2 (fadd (n + 4) u (fmul (n + 3) f (fsub (n + 2) v u))) := by
  have hdiff := hv.fsub (n + 2) hu (by decide)
  have hprod := hf.fmul (n + 3) hdiff (by decide)
  exact (hu.mono (Nat.zero_le 1)).fadd (n + 4) hprod (by decide)

/-- A lookup of an angle within `2^40` in a table of values within 1 has an index, and answers a value within 4. -/
theorem lookup_within (n : Nat) {T : Vector Word Config.L} {a : Word} (hT : ∀ i : Fin Config.L, Within 0 T[i])
    (ha : Within 40 a) : ∃ v, lookup n T a = some v ∧ Within 2 v := by
  obtain ⟨-, -, hscale⟩ := pi_within
  have hs : Within 48 (fmul n a SCALE) := ha.fmul n hscale (by decide)
  exact ⟨_, lookup_finite n T ha.1 hs.1, interpolation_within n (hT _) (hT _) (fraction_within _ hs.1)⟩

/-! ### The kernel (R101) -/

/-- What every sample of a grid transform keeps. -/
structure Datapath.Bounded (r : Datapath) : Prop where
  omega : Within 3 r.omega
  angle : Within 40 r.angle
  re : Within 40 r.re
  im : Within 40 r.im

theorem cvtU8_within (b : Byte) : Within 8 (cvtU8 b) := by
  have hb : b.toNat < 2 ^ 8 := b.isLt
  obtain ⟨hf, hv⟩ := cvtU8_val b
  refine ⟨hf, ?_⟩
  rw [← f32Val_natAbs, hv, Int.natAbs_mul, Int.natAbs_natCast, show ((2 : Int) ^ 149).natAbs = 2 ^ 149 from rfl,
    pow_add, Nat.mul_comm]
  exact Nat.mul_le_mul_left _ hb.le

section
variable {S C : Vector Word Config.L} (hS : ∀ i : Fin Config.L, Within 0 S[i]) (hC : ∀ i : Fin Config.L, Within 0 C[i])
include hS hC

/-- One sample on tables of values within 1: both lookups answer, and the registers stay bounded. -/
theorem accumulate_bounded (n : Nat) (x : Byte) {r : Datapath} (hr : r.Bounded) :
    ∃ cv sv r', accumulate n S C x r = some r' ∧ r'.Bounded ∧ Within 2 cv ∧ Within 2 sv ∧
      r'.re = fadd (n + 11) r.re (fmul (n + 10) (cvtU8 x) cv) ∧
      r'.im = fadd (n + 13) r.im (fmul (n + 12) (cvtU8 x) sv) := by
  obtain ⟨cv, hcv, hcw⟩ := lookup_within n hC hr.angle
  obtain ⟨sv, hsv, hsw⟩ := lookup_within (n + 5) hS hr.angle
  have hx := cvtU8_within x
  have hacc : accumulate n S C x r = some { r with
      re := fadd (n + 11) r.re (fmul (n + 10) (cvtU8 x) cv), im := fadd (n + 13) r.im (fmul (n + 12) (cvtU8 x) sv),
      angle := fsub (n + 14) r.angle r.omega, nidx := r.nidx + 1 } := by
    simp only [accumulate, hcv, hsv]
  refine ⟨cv, sv, _, hacc, ⟨hr.omega, ?_, ?_, ?_⟩, hcw, hsw, rfl, rfl⟩
  · exact hr.angle.fsub_small _ hr.omega (by decide) (by decide)
  · exact hr.re.fadd_small _ (hx.fmul _ hcw (by decide)) (by decide) (by decide)
  · exact hr.im.fadd_small _ (hx.fmul _ hsw (by decide)) (by decide) (by decide)

omit hS hC in
/-- What each sample answers and keeps, the kernel answers and keeps. -/
theorem kernel_keeps {I : Datapath → Prop} (x : Nat → Byte)
    (hstep : ∀ n i r, I r → ∃ r', accumulate n S C (x i) r = some r' ∧ I r') (n m : Nat) {r : Datapath} (hr : I r) :
    ∃ r', kernel n S C x m r = some r' ∧ I r' := by
  induction m generalizing n r with
  | zero => exact ⟨r, rfl, hr⟩
  | succ m ih =>
    obtain ⟨r', h, hr'⟩ := hstep n r.nidx.toNat r hr
    obtain ⟨q, hq, hIq⟩ := ih (n + SAMPLE_DRAWS) hr'
    exact ⟨q, by simp only [kernel, h, hq], hIq⟩

theorem kernel_bounded (n m : Nat) (x : Nat → Byte) {r : Datapath} (hr : r.Bounded) :
    ∃ r', kernel n S C x m r = some r' ∧ r'.Bounded :=
  kernel_keeps x (fun n i _ hr =>
    let ⟨_, _, r', h, hr', _⟩ := accumulate_bounded hS hC n (x i) hr
    ⟨r', h, hr'⟩) n m hr

omit hS hC in
/-- A zero sample adds a zero of some sign, which leaves `+0` as it is. -/
theorem fadd_zero_sample (n m : Nat) {v : Word} (hv : f32IsFinite v = true) : fadd n 0 (fmul m (cvtU8 0) v) = 0 := by
  have hx : f32IsFinite (cvtU8 0) = true ∧ f32Mag (cvtU8 0) = 0 := by decide
  rw [fmul_zero_mag m hx.1 hv (.inl hx.2)]
  split
  · rw [fadd_finite_eq n (by decide) (by decide)]; decide
  · rw [fadd_finite_eq n (by decide) (by decide)]; decide

/-- All-zero samples leave both accumulators at `+0`. -/
theorem kernel_silent (n m : Nat) {r : Datapath} (hr : r.Bounded) (hre : r.re = 0) (him : r.im = 0) :
    ∃ r', kernel n S C (fun _ => 0) m r = some r' ∧ r'.Bounded ∧ r'.re = 0 ∧ r'.im = 0 := by
  refine kernel_keeps (I := fun r => r.Bounded ∧ r.re = 0 ∧ r.im = 0) _ ?_ n m ⟨hr, hre, him⟩
  rintro n - r ⟨hr, hre, him⟩
  obtain ⟨cv, sv, r', h, hr', hcv, hsv, hre', him'⟩ := accumulate_bounded hS hC n 0 hr
  refine ⟨r', h, hr', ?_, ?_⟩
  · rw [hre', hre, fadd_zero_sample _ _ hcv.1]
  · rw [him', him, fadd_zero_sample _ _ hsv.1]

end

theorem binStart_bounded {w : Word} (hw : Within 3 w) : (binStart w Datapath.reset).Bounded :=
  ⟨hw, zero_within 40, zero_within 40, zero_within 40⟩

/-- Settles O25: the registers stay bounded from the start of a bin on, sample by sample. -/
theorem gridBinsAreFinite : Obligations.GridBinsAreFinite := by
  intro s g K N hsin hcos
  have hS : ∀ i : Fin Config.L, Within 0 s.sintab[i] := hsin ▸ sinTable_within
  have hC : ∀ i : Fin Config.L, Within 0 s.costab[i] := hcos ▸ cosTable_within
  refine ⟨fun n m x k hk _ => ?_, fun n k hk => ?_⟩
  · obtain ⟨r, h, hr⟩ := kernel_bounded hS hC n m x (binStart_bounded (omegaOf_within n g hk))
    exact ⟨r, h, hr.omega.1, hr.angle.1, hr.re.1, hr.im.1⟩
  · obtain ⟨r, h, -, hre, him⟩ := kernel_silent hS hC n N (binStart_bounded (omegaOf_within n g hk)) rfl rfl
    rw [dtftBin, h, Option.map_some, hre, him]

end Sys2Proof.Machine
end

section
/-! PROOFS. What is the host's own (10_state.md rules R21, R25, R26; 00_scope.md rule R6): one relation, `HostFrame`,
that every part of a step keeps but the host's register writes and the resets. -/

namespace Sys2Proof.Machine

/-! ### The relation -/

/-- What only the host's register writes and resets may change, and `MEM_BYTES`. -/
def State.hostOwned (s : State) : (Word × Word × Word × Word × Word × Word) × Word × Bool × Fin (2 ^ 30) :=
  ((s.src, s.len, s.cnt, s.dst, s.aux, s.farg), s.cmdr, s.ovr, s.memTop)

/-- `t` has what is the host's as `s` has it, and `BUSY` is not raised. -/
structure HostFrame (s t : State) : Prop where
  owned : t.hostOwned = s.hostOwned
  busy : s.busy = false → t.busy = false

theorem HostFrame.refl (s : State) : HostFrame s s := ⟨rfl, id⟩

theorem HostFrame.trans {s t u : State} (h : HostFrame s t) (k : HostFrame t u) : HostFrame s u :=
  ⟨k.owned.trans h.owned, k.busy ∘ h.busy⟩

/-- The host's part, field by field. -/
theorem HostFrame.fields {s t : State} (h : HostFrame s t) :
    t.src = s.src ∧ t.len = s.len ∧ t.cnt = s.cnt ∧ t.dst = s.dst ∧ t.aux = s.aux ∧ t.farg = s.farg ∧
      t.cmdr = s.cmdr ∧ t.ovr = s.ovr ∧ t.memTop = s.memTop := by
  have := h.owned
  simp only [State.hostOwned, Prod.mk.injEq] at this
  obtain ⟨⟨h1, h2, h3, h4, h5, h6⟩, h7, h8, h9⟩ := this
  exact ⟨h1, h2, h3, h4, h5, h6, h7, h8, h9⟩

/-- An outcome keeps the host's part if its next state does; a stop has none. -/
def KeepsHost (s : State) (o : Host.Outcome State Fault Refusal) : Prop := ∀ t, o = .next t → HostFrame s t

theorem HostFrame.next {s t : State} (h : HostFrame s t) : KeepsHost s (.next t) := by
  intro u hu; cases hu; exact h

theorem keepsHost_fault (s : State) (r : Fault) : KeepsHost s (.fault r) := fun _ h => nomatch h

theorem KeepsHost.of_frame {s s' : State} {o : Host.Outcome State Fault Refusal} (h : HostFrame s s')
    (k : KeepsHost s' o) : KeepsHost s o := fun t ht => h.trans (k t ht)

/-! ### Shared operations -/

/-- A core's own work is no concern of the host's. -/
theorem OnlyCore.hostFrame {c : CoreId} {s t : State} (h : OnlyCore c s t) : HostFrame s t := by
  cases c <;> · simp only [OnlyCore] at h; rw [h]; exact ⟨rfl, id⟩

theorem Work.hostFrame {c : CoreId} {s t : State} (h : Work c s t) : HostFrame s t := h.only.hostFrame

theorem State.setView_hostFrame (s : State) (c : CoreId) (v : View) : HostFrame s (s.setView c v) :=
  (OnlyCore.setView c s v).hostFrame

theorem State.land_hostFrame (s : State) (c : CoreId) (e : Pending) : HostFrame s (s.land c e) := by
  have happly : HostFrame s (s.apply e) := by cases e <;> exact ⟨rfl, id⟩
  exact happly.trans (State.setView_hostFrame _ c _)

theorem State.landAll_hostFrame (s : State) (c : CoreId) (es : List Pending) : HostFrame s (s.landAll c es) := by
  induction es generalizing s with
  | nil => exact .refl s
  | cons e es ih => exact (s.land_hostFrame c e).trans (ih _)

theorem State.fenceRel_hostFrame (s : State) (c : CoreId) : HostFrame s (s.fenceRel c) :=
  (s.setView_hostFrame c _).trans (State.landAll_hostFrame _ c _)

theorem State.fenceAcq_hostFrame (s : State) (c : CoreId) : HostFrame s (s.fenceAcq c) := s.setView_hostFrame c _

theorem State.drain_hostFrame (s : State) (c : CoreId) (n : Nat) : HostFrame s (s.drain c n) := by
  unfold State.drain
  split
  · exact .refl s
  · split
    · exact .refl s
    · exact (s.setView_hostFrame c _).trans (State.land_hostFrame _ c _)

theorem State.evict_hostFrame (s : State) (c : CoreId) (l : WordLoc) : HostFrame s (s.evict c l) := by
  cases l <;> exact s.setView_hostFrame c _

theorem State.noteJob_hostFrame (s : State) (c : CoreId) (i : JobIx) : HostFrame s (s.noteJob c i) := by
  unfold State.noteJob
  split
  · exact .refl s
  · split
    · exact (OnlyCore.dropKeep c s).hostFrame.trans (State.setView_hostFrame _ c _)
    · exact (OnlyCore.dropKeep c s).hostFrame

theorem State.writeJob_hostFrame (s : State) (c : CoreId) (i : JobIx) (v : Word) : HostFrame s (s.writeJob c i v) :=
  s.setView_hostFrame c _

theorem State.raise_hostFrame (s : State) (e : Code) (info : Word) : HostFrame s (s.raise e info) :=
  ⟨rfl, fun _ => rfl⟩

theorem State.finish_hostFrame (s : State) : HostFrame s s.finish := by
  have h : HostFrame s (s.fenceRel .p).settle := (s.fenceRel_hostFrame .p).trans ⟨rfl, id⟩
  exact h.trans ⟨rfl, fun _ => rfl⟩

/-- A command that ends after what only touched its own. -/
theorem HostFrame.finish {s t : State} (h : HostFrame s t) : KeepsHost s (.next t.finish) :=
  (h.trans t.finish_hostFrame).next

theorem State.checked_keepsHost {s : State} {f : State → List Check}
    {body : State → Host.Outcome State Fault Refusal} (h : ∀ u, KeepsHost u (body u)) :
    KeepsHost s (s.checked f body) := by
  have hbegin : HostFrame s s.beginCommand := s.fenceAcq_hostFrame .p
  unfold State.checked
  split
  · exact (hbegin.trans (State.raise_hostFrame _ _ _)).next
  · exact (h _).of_frame hbegin

theorem orNum_keepsHost {s : State} {r : Except Angle State} {k : State → Host.Outcome State Fault Refusal}
    (hr : ∀ t, r = .ok t → HostFrame s t) (hk : ∀ t, KeepsHost t (k t)) : KeepsHost s (orNum s r k) := by
  cases r with
  | ok t => exact (hk t).of_frame (hr t rfl)
  | error e =>
    have hdraws : HostFrame s { s with draws := e.2 } := ⟨rfl, id⟩
    exact (hdraws.trans (State.raise_hostFrame _ _ _)).next

theorem answerLookup_keepsHost (s : State) (r : Option Word) : KeepsHost s (answerLookup s r) := by
  cases r with
  | none => exact (s.raise_hostFrame _ _).next
  | some v =>
    have h : HostFrame s ({ s with resf := v }.draw LOOKUP_DRAWS) := ⟨rfl, id⟩
    exact h.finish

/-! ### The loops of the commands -/

theorem State.readWords_work (s : State) (c : CoreId) (a n : Nat) : Work c s (s.readWords c a n).2 := by
  induction n generalizing s a with
  | zero => exact .refl c s
  | succ n ih => exact (Work.noteRead c s a 4).trans (ih _ _)

theorem State.readPairs_work (s : State) (a b n : Nat) : Work .p s (s.readPairs a b n).2.2 := by
  induction n generalizing s a b with
  | zero => exact .refl .p s
  | succ n ih => exact ((Work.noteRead .p s a 4).trans (.noteRead .p _ b 4)).trans (ih _ _ _)

theorem State.sample_work {s t : State} {c : CoreId} {sig : Nat} (h : s.sample c sig = .ok t) : Work c s t := by
  simp only [State.sample, State.readByte] at h
  split at h
  · cases h; exact ((Work.noteRead c s _ 1).trans (.setRegs c _ _)).trans (.draw c _ _)
  · cases h

theorem State.samples_work {s t : State} {c : CoreId} {sig m : Nat} (h : s.samples c sig m = .ok t) : Work c s t := by
  induction m generalizing s with
  | zero => cases h; exact .refl c _
  | succ m ih =>
    rw [State.samples] at h
    split at h
    · next hs => exact (State.sample_work hs).trans (ih h)
    · cases h

theorem State.bin_work {s t : State} {c : CoreId} {sig n : Nat} {w : Word} (h : s.bin c sig n w = .ok t) :
    Work c s t := (Work.setRegs c s _).trans (State.samples_work h)

theorem State.transformBin_work {s t : State} {c : CoreId} {j : Job} (h : s.transformBin c j = .ok t) : Work c s t := by
  simp only [State.transformBin] at h
  split at h
  · next hb =>
    cases h
    exact ((((Work.draw c s _).trans (State.bin_work hb)).trans (.writeWord c _ _ _)).trans (.writeWord c _ _ _)).trans
      (.setRegs c _ _)
  · cases h

theorem State.transform_work {s t : State} {c : CoreId} {j : Job} (h : s.transform c j = .ok t) : Work c s t := by
  suffices hbins : ∀ m (u : State), u.transformBins c j m = .ok t → Work c u t from
    (Work.setRegs c s _).trans (hbins _ _ h)
  intro m
  induction m with
  | zero => intro u hu; cases hu; exact .refl c _
  | succ m ih =>
    intro u hu
    rw [State.transformBins] at hu
    split at hu
    · next hb => exact (State.transformBin_work hb).trans (ih _ hu)
    · cases hu

theorem State.magEntry_work (s : State) (f : Nat → Word → Word → Word) (src dst : Nat) :
    Work .p s (s.magEntry f src dst) :=
  ((((Work.noteRead .p s _ 4).trans (.noteRead .p _ _ 4)).trans (.writeWord .p _ _ _)).trans (.draw .p _ _)).trans
    (.setRegs .p _ _)

theorem State.magSpectrum_work (s : State) (f : Nat → Word → Word → Word) (src dst n : Nat) :
    Work .p s (s.magSpectrum f src dst n) := by
  suffices hentries : ∀ u : State, Work .p u (u.magEntries f src dst n) from (Work.setRegs .p s _).trans (hentries _)
  induction n with
  | zero => exact .refl .p
  | succ n ih => exact fun u => (u.magEntry_work f src dst).trans (ih _)

theorem State.copyBytes_work (s : State) (src dst n : Nat) : Work .p s (s.copyBytes src dst n) := by
  induction n generalizing s src dst with
  | zero => exact .refl .p s
  | succ n ih => exact ((Work.noteRead .p s src 1).trans (.writeByte .p _ dst _)).trans (ih _ _ _)

theorem State.replicate_work (s : State) (src dst n r : Nat) : Work .p s (s.replicate src dst n r) := by
  induction r generalizing s dst with
  | zero => exact .refl .p s
  | succ r ih => exact (s.copyBytes_work src dst n).trans (ih _ _)

theorem State.writeRecords_work (s : State) (a : Nat) (rs : List (Nat × Word)) : Work .p s (s.writeRecords a rs) := by
  induction rs generalizing s a with
  | nil => exact .refl .p s
  | cons r rs ih => exact ((Work.writeWord .p s a _).trans (.writeWord .p _ _ _)).trans (ih _ _)

/-! ### The commands -/

theorem State.setResults_hostFrame (s : State) (i f : Word) : HostFrame s { s with resi := i, resf := f } := ⟨rfl, id⟩

theorem State.classifySpectrum_hostFrame (s : State) (spec : List Word) : HostFrame s (s.classifySpectrum spec) :=
  ⟨rfl, id⟩

theorem pipeTail_hostFrame (s : State) : HostFrame s (pipeTail s) := by
  have hsquares := s.magSpectrum_work sqmagOf (s.dst + SPECTRUM_AT).toNat (s.dst + SQUARES_AT).toNat Config.KC
  rw [pipeTail]
  generalize s.magSpectrum sqmagOf (s.dst + SPECTRUM_AT).toNat (s.dst + SQUARES_AT).toNat Config.KC = s1 at hsquares ⊢
  have hread := s1.readWords_work .p (s.dst + SQUARES_AT).toNat Config.KC
  generalize s1.readWords .p (s.dst + SQUARES_AT).toNat Config.KC = r at hread ⊢
  exact ((hsquares.trans hread).hostFrame.trans (State.classifySpectrum_hostFrame _ _)).trans
    (State.finish_hostFrame _)

theorem execInit_keepsHost (s : State) : KeepsHost s (execInit s) :=
  State.checked_keepsHost fun _ => HostFrame.finish ⟨rfl, id⟩

theorem execSin_keepsHost (s : State) : KeepsHost s (execSin s) :=
  State.checked_keepsHost fun _ => answerLookup_keepsHost _ _

theorem execCos_keepsHost (s : State) : KeepsHost s (execCos s) :=
  State.checked_keepsHost fun _ => answerLookup_keepsHost _ _

theorem execMagat_keepsHost (s : State) : KeepsHost s (execMagat s) :=
  State.checked_keepsHost fun _ => orNum_keepsHost (fun _ h => (State.bin_work h).hostFrame)
    fun _ => HostFrame.finish ⟨rfl, id⟩

/-- `RESI` written, and the command ends. -/
theorem HostFrame.finish_resi {s t : State} (h : HostFrame s t) (v : Word) :
    KeepsHost s (.next { t with resi := v }.finish) :=
  (h.trans (t.setResults_hostFrame v t.resf)).finish

theorem execXform_keepsHost (g : Grid) (s : State) : KeepsHost s (execXform g s) :=
  State.checked_keepsHost fun _ => orNum_keepsHost (fun _ h => (State.transform_work h).hostFrame)
    fun t => (HostFrame.refl t).finish_resi _

theorem State.publish_hostFrame (s : State) (j : Job) (cmd : Publisher) : HostFrame s (s.publish j cmd) := ⟨rfl, id⟩

theorem execXformp_keepsHost (g : Grid) (s : State) : KeepsHost s (execXformp g s) :=
  State.checked_keepsHost fun u => (u.publish_hostFrame _ _).next

theorem execMag_keepsHost (s : State) : KeepsHost s (execMag s) :=
  State.checked_keepsHost fun u =>
    (u.magSpectrum_work magOf u.src.toNat u.dst.toNat u.cnt.toNat).hostFrame.finish_resi u.cnt

theorem execSqmag_keepsHost (s : State) : KeepsHost s (execSqmag s) :=
  State.checked_keepsHost fun u =>
    (u.magSpectrum_work sqmagOf u.src.toNat u.dst.toNat u.cnt.toNat).hostFrame.finish_resi u.cnt

theorem execWlaunch_keepsHost (s : State) : KeepsHost s (execWlaunch s) :=
  State.checked_keepsHost fun _ => HostFrame.finish ⟨rfl, id⟩

/-- A dictionary image read and kept, and the command ends. -/
theorem lddict_finish_keepsHost {s : State} {r : List Word × State} (h : Work .p s r.2) :
    KeepsHost s (.next { r.2 with dict := dictOf r.1, dictv := true }.finish) :=
  HostFrame.finish (h.hostFrame.trans ⟨rfl, id⟩)

theorem execLddict_keepsHost (s : State) : KeepsHost s (execLddict s) :=
  State.checked_keepsHost fun u =>
    lddict_finish_keepsHost (u.readWords_work .p u.src.toNat (Config.NDICT * Config.KC))

theorem execDist_keepsHost (s : State) : KeepsHost s (execDist s) := by
  refine State.checked_keepsHost fun u => ?_
  have hread := (u.readPairs_work u.src.toNat u.aux.toNat Config.KC).hostFrame
  generalize u.readPairs u.src.toNat u.aux.toNat Config.KC = r at hread ⊢
  exact HostFrame.finish (hread.trans ⟨rfl, id⟩)

theorem execClassify_keepsHost (s : State) : KeepsHost s (execClassify s) := by
  refine State.checked_keepsHost fun u => ?_
  have hread := (u.readWords_work .p u.src.toNat Config.KC).hostFrame
  generalize u.readWords .p u.src.toNat Config.KC = r at hread ⊢
  exact (hread.trans (State.classifySpectrum_hostFrame _ _)).finish

theorem execRank_keepsHost (s : State) : KeepsHost s (execRank s) := by
  refine State.checked_keepsHost fun u => ?_
  have hread := (u.readWords_work .p u.src.toNat Config.KC).hostFrame
  generalize u.readWords .p u.src.toNat Config.KC = r at hread ⊢
  have hranked : HostFrame r.2 { (r.2.computeDistances r.1).2 with rd := (r.2.computeDistances r.1).1 } := ⟨rfl, id⟩
  exact ((hread.trans hranked).trans (State.writeRecords_work _ _ _).hostFrame).finish_resi u.cnt

theorem execRepl_keepsHost (s : State) : KeepsHost s (execRepl s) :=
  State.checked_keepsHost fun u =>
    (u.replicate_work u.src.toNat u.dst.toNat u.len.toNat u.cnt.toNat).hostFrame.finish_resi (wordOf (replSize u))

theorem pipeBody_keepsHost (m : PipeMode) (s : State) : KeepsHost s (pipeBody m s) := by
  have hrep := (s.replicate_work s.src.toNat s.dst.toNat Config.PLEN Config.REP).hostFrame
  cases m with
  | serial =>
    exact orNum_keepsHost (fun _ h => hrep.trans (State.transform_work h).hostFrame)
      fun t => (pipeTail_hostFrame t).next
  | parallel => exact (hrep.trans (State.publish_hostFrame _ _ _)).next

theorem execPipe_keepsHost (m : PipeMode) (s : State) : KeepsHost s (execPipe m s) :=
  State.checked_keepsHost (pipeBody_keepsHost m)

theorem exec_keepsHost (i : Instr) (s : State) : KeepsHost s (exec i s) := by
  cases i with
  | init => exact execInit_keepsHost s
  | sin => exact execSin_keepsHost s
  | cos => exact execCos_keepsHost s
  | magat => exact execMagat_keepsHost s
  | xform g => exact execXform_keepsHost g s
  | xformp g => exact execXformp_keepsHost g s
  | mag => exact execMag_keepsHost s
  | sqmag => exact execSqmag_keepsHost s
  | wlaunch => exact execWlaunch_keepsHost s
  | lddict => exact execLddict_keepsHost s
  | dist => exact execDist_keepsHost s
  | classify => exact execClassify_keepsHost s
  | rank => exact execRank_keepsHost s
  | repl => exact execRepl_keepsHost s
  | pipe m => exact execPipe_keepsHost m s

/-! ### The cores' steps -/

/-- One step of a transform bin keeps the host's part wherever it goes on. -/
def BinStep.KeepsHost (s : State) : BinStep → Prop
  | .at _ t => HostFrame s t
  | .done t => HostFrame s t
  | .stuck _ => True
  | .outside _ => True

theorem State.binStep_keepsHost (s : State) (c : CoreId) (j : Job) (kEnd : Word) (b : BinPos) :
    (s.binStep c j kEnd b).KeepsHost s := by
  unfold State.binStep
  cases b with
  | next =>
    dsimp only
    split
    · exact ((Work.setRegs c s _).trans (.draw c _ _)).hostFrame
    · exact .refl s
  | sample =>
    dsimp only
    split
    · split
      · next hs => exact (State.sample_work hs).hostFrame
      · trivial
    · trivial
  | re =>
    dsimp only
    split
    · exact ((Work.writeWord c s _ _).trans (.draw c _ _)).hostFrame
    · trivial
  | im =>
    dsimp only
    split
    · exact (((Work.writeWord c s _ _).trans (.setRegs c _ _)).trans (.draw c _ _)).hostFrame
    · trivial

theorem ownStep_keepsHost (b : BinPos) (s : State) : KeepsHost s (ownStep b s) := by
  have h := s.binStep_keepsHost .p s.pjob s.pjob.k0 b
  unfold ownStep
  generalize s.binStep .p s.pjob s.pjob.k0 b = o at h ⊢
  rcases o with ⟨b', t⟩ | ⟨t⟩ | ⟨a⟩ | ⟨a⟩
  · exact HostFrame.next (HostFrame.trans h ⟨rfl, id⟩)
  · exact HostFrame.next (HostFrame.trans h ⟨rfl, id⟩)
  · exact keepsHost_fault _ _
  · exact keepsHost_fault _ _

theorem runStep_keepsHost (b : BinPos) (s : State) : KeepsHost s (runStep b s) := by
  have h := s.binStep_keepsHost .w s.wjob s.wjob.k1 b
  unfold runStep
  generalize s.binStep .w s.wjob s.wjob.k1 b = o at h ⊢
  rcases o with ⟨b', t⟩ | ⟨t⟩ | ⟨a⟩ | ⟨a⟩
  · exact HostFrame.next (HostFrame.trans h ⟨rfl, id⟩)
  · exact HostFrame.next (HostFrame.trans h ⟨rfl, id⟩)
  · exact keepsHost_fault _ _
  · exact keepsHost_fault _ _

theorem pubStep_hostFrame (s : State) (i : JobIx) : HostFrame s (pubStep i s) :=
  HostFrame.trans (s.writeJob_hostFrame .p i (s.pjob.slotWord i)) ⟨rfl, id⟩

theorem producerStep_keepsHost (s : State) : KeepsHost s (producerStep s) := by
  unfold producerStep
  split
  · exact (HostFrame.refl s).next
  · split
    · exact exec_keepsHost _ s
    · exact ((s.fenceAcq_hostFrame .p).trans (State.raise_hostFrame _ _ _)).next
  · exact (pubStep_hostFrame s _).next
  · exact HostFrame.next ((s.fenceRel_hostFrame .p).trans ⟨rfl, id⟩)
  · exact HostFrame.next ((pubStep_hostFrame s .sigp).trans ⟨rfl, id⟩)
  · exact ownStep_keepsHost _ s
  · exact HostFrame.next ((s.fenceAcq_hostFrame .p).trans ⟨rfl, id⟩)
  · exact HostFrame.next ((s.noteJob_hostFrame .p .done).trans ⟨rfl, id⟩)
  · exact HostFrame.next ((s.fenceAcq_hostFrame .p).trans ⟨rfl, id⟩)
  · exact HostFrame.finish ⟨rfl, id⟩
  · exact (pipeTail_hostFrame s).next

theorem workerStep_keepsHost (s : State) : KeepsHost s (workerStep s) := by
  unfold workerStep
  split
  · exact (HostFrame.refl s).next
  · exact HostFrame.next ((s.fenceAcq_hostFrame .w).trans ⟨rfl, id⟩)
  · exact HostFrame.next ((s.noteJob_hostFrame .w .sigp).trans ⟨rfl, id⟩)
  · exact HostFrame.next ((s.noteJob_hostFrame .w _).trans ⟨rfl, id⟩)
  · exact runStep_keepsHost _ s
  · exact HostFrame.next ((s.fenceRel_hostFrame .w).trans ⟨rfl, id⟩)
  · exact HostFrame.next ((s.writeJob_hostFrame .w .done 1).trans ⟨rfl, id⟩)
  · exact HostFrame.next ((s.writeJob_hostFrame .w .sigp 0).trans ⟨rfl, id⟩)

/-! ### The host's accesses -/

theorem State.hostWrite_keepsHost (s : State) (a : Word) (n : Nat) (m : Memory) : KeepsHost s (s.hostWrite a n m) := by
  unfold State.hostWrite
  split
  · exact fun _ h => nomatch h
  · refine HostFrame.next ?_
    split <;> exact ⟨rfl, id⟩

theorem State.hostRead_keepsHost (s : State) (a : Word) (n : Nat) (v : Word) : KeepsHost s (s.hostRead a n v) := by
  unfold State.hostRead
  split
  · exact fun _ h => nomatch h
  · exact HostFrame.next ⟨rfl, id⟩

theorem State.hostReadReg_keepsHost (s : State) (off : Word) : KeepsHost s (s.hostReadReg off) := by
  unfold State.hostReadReg
  split
  · exact HostFrame.next ⟨rfl, id⟩
  · exact fun _ h => nomatch h

/-- Every turn but a reset and a host register write. -/
theorem takeStep_keepsHost {τ : Turn} (s : State) (hreset : ¬ τ.resets) (hwrite : ∀ off v, τ ≠ .regWrite off v) :
    KeepsHost s (takeStep τ s) := by
  have hkeeps : ∀ keeps, HostFrame s { s with keeps := keeps } := fun _ => ⟨rfl, id⟩
  cases τ with
  | regWrite off v => exact absurd rfl (hwrite off v)
  | regRead off => exact s.hostReadReg_keepsHost off
  | memWrite8 a v => exact s.hostWrite_keepsHost a 1 _
  | memWrite32 a v => exact s.hostWrite_keepsHost a 4 _
  | memRead8 a => exact s.hostRead_keepsHost a 1 _
  | memRead32 a => exact s.hostRead_keepsHost a 4 _
  | hardReset contents => exact absurd trivial hreset
  | p keeps => exact (producerStep_keepsHost _).of_frame (hkeeps keeps)
  | w keeps => exact (workerStep_keepsHost _).of_frame (hkeeps keeps)
  | drain c n => exact (s.drain_hostFrame c n).next
  | evict c l => exact (s.evict_hostFrame c l).next

/-! ### `MEM_BYTES` -/

/-- A host register write, a soft reset included, leaves `MEM_BYTES` (R6). -/
theorem State.writeReg_memTop {s t : State} {off v : Word} (h : s.writeReg off v = some t) : t.memTop = s.memTop := by
  have hctrl : (s.writeCtrl v).memTop = s.memTop := by
    unfold State.writeCtrl
    split
    · rfl
    · split <;> rfl
  have hoperand : (s.setOperand off v).memTop = s.memTop := by
    unfold State.setOperand
    split <;> rfl
  unfold State.writeReg at h
  split_ifs at h <;> cases h
  · exact hctrl
  · rfl
  · rfl
  · rfl
  · exact hoperand
  · rfl

theorem takeStep_memTop {τ : Turn} {s t : State} (h : takeStep τ s = .next t) : t.memTop = s.memTop := by
  by_cases hwrite : ∃ off v, τ = .regWrite off v
  · obtain ⟨off, v, rfl⟩ := hwrite
    simp only [takeStep, State.hostWriteReg] at h
    split at h
    · next hw => cases h; exact State.writeReg_memTop hw
    · cases h
  · by_cases hreset : τ.resets
    · cases τ with
      | hardReset contents => cases h; rfl
      | regWrite off v => exact absurd ⟨off, v, rfl⟩ hwrite
      | _ => exact hreset.elim
    · have hframe := takeStep_keepsHost s hreset (fun off v he => hwrite ⟨off, v, he⟩) t h
      obtain ⟨-, -, -, -, -, -, -, -, hmem⟩ := hframe.fields
      exact hmem

theorem State.takeTurn_hostFrame (s : State) : HostFrame s s.takeTurn.2 := by
  unfold State.takeTurn
  split <;> exact ⟨rfl, id⟩

/-- Settles O60: every part of a step that is no host register write and no reset keeps what is the host's. -/
theorem hostOwnsOperands : Obligations.HostOwnsOperands := by
  intro s t hstep
  have hturn := s.takeTurn_hostFrame
  obtain ⟨-, -, -, -, -, -, -, -, hmem⟩ := hturn.fields
  refine ⟨(takeStep_memTop hstep).trans hmem, fun hreset hwrite => ?_⟩
  have hframe := hturn.trans (takeStep_keepsHost _ hreset hwrite t hstep)
  obtain ⟨hsrc, hlen, hcnt, hdst, haux, hfarg, hcmdr, hovr, -⟩ := hframe.fields
  exact ⟨hsrc, hlen, hcnt, hdst, haux, hfarg, hcmdr, hovr, hframe.busy⟩

end Sys2Proof.Machine
end

section
/-! PROOFS. What one step can do, said once: `CoreDoes` for the accesses and computations of a core, one inversion for
each agent (`ProducerDoes`, `WorkerDoes`, `HostDoes`), and `TurnDoes` for a turn whoever takes it. What every step keeps
is then a case analysis over these. -/

namespace Sys2Proof.Machine

/-! ### Copies in rising order (R58) -/

theorem mem_insertCopy {cs : List (Nat × Word)} {k : Nat} {w : Word} {x : Nat × Word} (h : x ∈ insertCopy cs k w) :
    x.1 = k ∨ x ∈ cs := by
  induction cs with
  | nil => exact .inl (congrArg Prod.fst (List.mem_singleton.1 h))
  | cons c t ih =>
    simp only [insertCopy] at h
    split_ifs at h
    · exact (List.mem_cons.1 h).imp (congrArg Prod.fst) id
    · exact (List.mem_cons.1 h).imp (congrArg Prod.fst) (List.mem_cons_of_mem c)
    · rcases List.mem_cons.1 h with rfl | h
      · exact .inr List.mem_cons_self
      · exact (ih h).imp_right (List.mem_cons_of_mem c)

theorem risingCopies_insertCopy {cs : List (Nat × Word)} (h : risingCopies cs) (k : Nat) (w : Word) :
    risingCopies (insertCopy cs k w) := by
  induction cs with
  | nil => exact List.pairwise_singleton _ _
  | cons c t ih =>
    obtain ⟨hc, ht⟩ := List.pairwise_cons.1 h
    simp only [insertCopy]
    split_ifs with hlt heq
    · refine List.pairwise_cons.2 ⟨fun x hx => ?_, h⟩
      rcases List.mem_cons.1 hx with rfl | hx
      · exact hlt
      · exact hlt.trans (hc x hx)
    · exact List.pairwise_cons.2 ⟨fun x hx => heq ▸ hc x hx, ht⟩
    · refine List.pairwise_cons.2 ⟨fun x hx => ?_, ih ht⟩
      rcases mem_insertCopy hx with hx | hx
      · omega
      · exact hc x hx

theorem View.patch_rising {v : View} (h : risingCopies v.mcopies) (e : Pending) : risingCopies (v.patch e).mcopies :=
  List.pairwise_map.2 h

theorem View.enqueue_rising {v : View} (h : risingCopies v.mcopies) (e : Pending) :
    risingCopies (v.enqueue e).mcopies := List.Pairwise.filter _ h

/-- The copies of core `c` are in rising order. -/
def State.CopiesRise (s : State) (c : CoreId) : Prop := risingCopies (s.view c).mcopies

theorem State.setView_copiesRise {s : State} {c : CoreId} {v : View} (h : risingCopies v.mcopies) :
    (s.setView c v).CopiesRise c := by
  rw [State.CopiesRise, State.setView_view]; exact h

theorem State.setRegs_copiesRise {s : State} {c : CoreId} (h : s.CopiesRise c) (r : Datapath) :
    (s.setRegs c r).CopiesRise c := by
  rw [State.CopiesRise, State.setRegs_view]; exact h

theorem State.draw_copiesRise {s : State} {c : CoreId} (h : s.CopiesRise c) (n : Nat) : (s.draw n).CopiesRise c := by
  rw [State.CopiesRise, State.draw_view]; exact h

theorem State.dropKeep_copiesRise {s : State} {c : CoreId} (h : s.CopiesRise c) : s.dropKeep.CopiesRise c := by
  cases c <;> exact h

theorem State.enqueue_copiesRise {s : State} {c : CoreId} (h : s.CopiesRise c) (e : Pending) :
    (s.enqueue c e).CopiesRise c := State.setView_copiesRise (View.enqueue_rising h e)

theorem State.noteWord_copiesRise {s : State} {c : CoreId} (h : s.CopiesRise c) (k : Nat) :
    (s.noteWord c k).CopiesRise c := by
  rcases s.noteWord_cases c k with he | he | ⟨-, he⟩ <;> rw [he]
  · exact h
  · exact State.dropKeep_copiesRise h
  · exact State.setView_copiesRise (risingCopies_insertCopy h _ _)

theorem State.noteRead_copiesRise {s : State} {c : CoreId} (h : s.CopiesRise c) (a n : Nat) :
    (s.noteRead c a n).CopiesRise c := by
  rcases s.noteRead_cases c a n with he | he <;> rw [he]
  · exact State.noteWord_copiesRise h _
  · exact State.draw_copiesRise (State.noteWord_copiesRise h _) 1

theorem State.land_copiesRise {s : State} {c : CoreId} (h : s.CopiesRise c) (e : Pending) :
    (s.land c e).CopiesRise c := State.setView_copiesRise (View.patch_rising h e)

/-! ### Copies in rising order after the loops of the commands -/

theorem State.readWords_copiesRise {s : State} {c : CoreId} (h : s.CopiesRise c) (a n : Nat) :
    (s.readWords c a n).2.CopiesRise c := by
  induction n generalizing s a with
  | zero => exact h
  | succ n ih => exact ih (State.noteRead_copiesRise h a 4) _

theorem State.readPairs_copiesRise {s : State} (h : s.CopiesRise .p) (a b n : Nat) :
    (s.readPairs a b n).2.2.CopiesRise .p := by
  induction n generalizing s a b with
  | zero => exact h
  | succ n ih => exact ih (State.noteRead_copiesRise (State.noteRead_copiesRise h a 4) b 4) _ _

theorem State.sample_copiesRise {s t : State} {c : CoreId} {sig : Nat} (ht : s.sample c sig = .ok t)
    (h : s.CopiesRise c) : t.CopiesRise c := by
  simp only [State.sample, State.readByte] at ht
  split at ht <;> cases ht
  exact State.draw_copiesRise (State.setRegs_copiesRise (State.noteRead_copiesRise h _ 1) _) _

theorem State.samples_copiesRise {s t : State} {c : CoreId} {sig m : Nat} (ht : s.samples c sig m = .ok t)
    (h : s.CopiesRise c) : t.CopiesRise c := by
  induction m generalizing s with
  | zero => cases ht; exact h
  | succ m ih =>
    rw [State.samples] at ht
    split at ht
    · next hs => exact ih ht (State.sample_copiesRise hs h)
    · cases ht

theorem State.bin_copiesRise {s t : State} {c : CoreId} {sig n : Nat} {w : Word} (ht : s.bin c sig n w = .ok t)
    (h : s.CopiesRise c) : t.CopiesRise c := State.samples_copiesRise ht (State.setRegs_copiesRise h _)

theorem State.transformBin_copiesRise {s t : State} {c : CoreId} {j : Job} (ht : s.transformBin c j = .ok t)
    (h : s.CopiesRise c) : t.CopiesRise c := by
  simp only [State.transformBin] at ht
  split at ht
  · next hb =>
    cases ht
    have hbin := State.bin_copiesRise hb (State.draw_copiesRise h _)
    exact State.setRegs_copiesRise (State.enqueue_copiesRise (State.enqueue_copiesRise hbin _) _) _
  · cases ht

theorem State.transform_copiesRise {s t : State} {c : CoreId} {j : Job} (ht : s.transform c j = .ok t)
    (h : s.CopiesRise c) : t.CopiesRise c := by
  suffices hbins : ∀ m (u : State), u.transformBins c j m = .ok t → u.CopiesRise c → t.CopiesRise c from
    hbins _ _ ht (State.setRegs_copiesRise h _)
  intro m
  induction m with
  | zero => intro u hu hr; cases hu; exact hr
  | succ m ih =>
    intro u hu hr
    rw [State.transformBins] at hu
    split at hu
    · next hb => exact ih _ hu (State.transformBin_copiesRise hb hr)
    · cases hu

theorem State.magSpectrum_copiesRise {s : State} (h : s.CopiesRise .p) (f : Nat → Word → Word → Word)
    (src dst n : Nat) : (s.magSpectrum f src dst n).CopiesRise .p := by
  have hentry : ∀ u : State, u.CopiesRise .p → (u.magEntry f src dst).CopiesRise .p := fun u hu =>
    State.setRegs_copiesRise (State.draw_copiesRise (State.enqueue_copiesRise
      (State.noteRead_copiesRise (State.noteRead_copiesRise hu _ 4) _ 4) _) _) _
  suffices hentries : ∀ u : State, u.CopiesRise .p → (u.magEntries f src dst n).CopiesRise .p from
    hentries _ (State.setRegs_copiesRise h _)
  induction n with
  | zero => exact fun _ hu => hu
  | succ n ih => exact fun u hu => ih _ (hentry u hu)

theorem State.replicate_copiesRise {s : State} (h : s.CopiesRise .p) (src dst n r : Nat) :
    (s.replicate src dst n r).CopiesRise .p := by
  have hcopy : ∀ m (u : State) (x y : Nat), u.CopiesRise .p → (u.copyBytes x y m).CopiesRise .p := by
    intro m
    induction m with
    | zero => exact fun _ _ _ hu => hu
    | succ m ih => exact fun u x y hu => ih _ _ _ (State.enqueue_copiesRise (State.noteRead_copiesRise hu x 1) _)
  induction r generalizing s dst with
  | zero => exact h
  | succ r ih => exact ih (hcopy n s src dst h) _

theorem State.writeRecords_copiesRise {s : State} (h : s.CopiesRise .p) (a : Nat) (rs : List (Nat × Word)) :
    (s.writeRecords a rs).CopiesRise .p := by
  induction rs generalizing s a with
  | nil => exact h
  | cons r rs ih => exact ih (State.enqueue_copiesRise (State.enqueue_copiesRise h _) _) _

/-! ### What a core does between the moves of its sequencer -/

/-- `t` is `s` but for what core `c` may change while its sequencer stands still: its datapath, job and result
registers, its view, shared storage, and the model's counters. -/
def OnlyOwn : CoreId → State → State → Prop
  | .p, s, t => t = { s with
      pview := t.pview, pregs := t.pregs, resi := t.resi, resf := t.resf, best := t.best, bestd := t.bestd, rd := t.rd,
      pjob := t.pjob, pcmd := t.pcmd, mem := t.mem, job := t.job, keeps := t.keeps, draws := t.draws }
  | .w, s, t => t = { s with
      wview := t.wview, wregs := t.wregs, wjob := t.wjob, mem := t.mem, job := t.job, keeps := t.keeps,
      draws := t.draws }

/-- What accesses, fences and computation of core `c`, or `MSYS` on its behalf, can do. -/
structure CoreDoes (c : CoreId) (s t : State) : Prop where
  only : OnlyOwn c s t
  wf : s.mem.wf = true → t.mem.wf = true
  rise : s.CopiesRise c → t.CopiesRise c

theorem CoreDoes.refl (c : CoreId) (s : State) : CoreDoes c s s := ⟨by cases c <;> rfl, id, id⟩

theorem CoreDoes.trans {c : CoreId} {s t u : State} (h : CoreDoes c s t) (k : CoreDoes c t u) : CoreDoes c s u := by
  refine ⟨?_, k.wf ∘ h.wf, k.rise ∘ h.rise⟩
  have hs := h.only
  have ht := k.only
  cases c <;> · simp only [OnlyOwn] at hs ht ⊢; rw [ht, hs]

/-- Work on the core's own view and datapath. -/
theorem CoreDoes.of_only {c : CoreId} {s t : State} (h : OnlyCore c s t) (hr : s.CopiesRise c → t.CopiesRise c) :
    CoreDoes c s t := by
  refine ⟨?_, fun hm => h.mem.symm ▸ hm, hr⟩
  cases c <;> · simp only [OnlyCore] at h; simp only [OnlyOwn]; rw [h]

theorem CoreDoes.setView {c : CoreId} {s : State} {v : View} (hr : s.CopiesRise c → risingCopies v.mcopies) :
    CoreDoes c s (s.setView c v) :=
  .of_only (.setView c s v) fun h => State.setView_copiesRise (hr h)

theorem CoreDoes.setBuffer (c : CoreId) (s : State) (es : List Pending) :
    CoreDoes c s (s.setView c { s.view c with sb := es }) := .setView fun h => h

theorem CoreDoes.setRegs (c : CoreId) (s : State) (r : Datapath) : CoreDoes c s (s.setRegs c r) :=
  .of_only (.setRegs c s r) fun h => State.setRegs_copiesRise h r

theorem CoreDoes.enqueue (c : CoreId) (s : State) (e : Pending) : CoreDoes c s (s.enqueue c e) :=
  .setView fun h => View.enqueue_rising h e

theorem CoreDoes.fenceAcq (c : CoreId) (s : State) : CoreDoes c s (s.fenceAcq c) :=
  .setView fun _ => List.Pairwise.nil

theorem CoreDoes.noteJob (c : CoreId) (s : State) (i : JobIx) : CoreDoes c s (s.noteJob c i) := by
  have hdrop : CoreDoes c s s.dropKeep := .of_only (.dropKeep c s) State.dropKeep_copiesRise
  rcases s.noteJob_cases c i with h | h | ⟨-, h⟩ <;> rw [h]
  · exact .refl c s
  · exact hdrop
  · refine hdrop.trans (.setView fun hr => ?_)
    cases c <;> exact hr

theorem CoreDoes.land (c : CoreId) (s : State) (e : Pending) : CoreDoes c s (s.land c e) := by
  refine ⟨by cases c <;> cases e <;> rfl, fun h => ?_, fun h => State.land_copiesRise h e⟩
  rw [State.land_mem]; exact s.apply_wf e h

theorem CoreDoes.fenceRel (c : CoreId) (s : State) : CoreDoes c s (s.fenceRel c) := by
  suffices hall : ∀ (es : List Pending) (u : State), CoreDoes c u (u.landAll c es) from
    (CoreDoes.setBuffer c s []).trans (hall _ _)
  intro es
  induction es with
  | nil => exact .refl c
  | cons e es ih => exact fun u => (CoreDoes.land c u e).trans (ih _)

theorem CoreDoes.drain (c : CoreId) (s : State) (n : Nat) : CoreDoes c s (s.drain c n) := by
  unfold State.drain
  split
  · exact .refl c s
  · split
    · exact .refl c s
    · exact (CoreDoes.setBuffer c s _).trans (.land c _ _)

theorem CoreDoes.evict (c : CoreId) (s : State) (l : WordLoc) : CoreDoes c s (s.evict c l) := by
  cases l with
  | mem k => exact .setView fun h => List.Pairwise.filter _ h
  | job i => exact .setView fun h => h

theorem CoreDoes.bin {c : CoreId} {s t : State} {sig n : Nat} {w : Word} (h : s.bin c sig n w = .ok t) :
    CoreDoes c s t := .of_only (State.bin_work h).only (State.bin_copiesRise h)

theorem CoreDoes.transform {c : CoreId} {s t : State} {j : Job} (h : s.transform c j = .ok t) : CoreDoes c s t :=
  .of_only (State.transform_work h).only (State.transform_copiesRise h)

theorem CoreDoes.readWords (c : CoreId) (s : State) (a n : Nat) : CoreDoes c s (s.readWords c a n).2 :=
  .of_only (s.readWords_work c a n).only fun h => State.readWords_copiesRise h a n

theorem CoreDoes.readPairs (s : State) (a b n : Nat) : CoreDoes .p s (s.readPairs a b n).2.2 :=
  .of_only (s.readPairs_work a b n).only fun h => State.readPairs_copiesRise h a b n

theorem CoreDoes.magSpectrum (s : State) (f : Nat → Word → Word → Word) (src dst n : Nat) :
    CoreDoes .p s (s.magSpectrum f src dst n) :=
  .of_only (s.magSpectrum_work f src dst n).only fun h => State.magSpectrum_copiesRise h f src dst n

theorem CoreDoes.replicate (s : State) (src dst n r : Nat) : CoreDoes .p s (s.replicate src dst n r) :=
  .of_only (s.replicate_work src dst n r).only fun h => State.replicate_copiesRise h src dst n r

theorem CoreDoes.writeRecords (s : State) (a : Nat) (rs : List (Nat × Word)) :
    CoreDoes .p s (s.writeRecords a rs) :=
  .of_only (s.writeRecords_work a rs).only fun h => State.writeRecords_copiesRise h a rs

theorem CoreDoes.setResi {s t : State} (h : CoreDoes .p s t) (v : Word) : CoreDoes .p s { t with resi := v } :=
  h.trans ⟨rfl, id, id⟩

theorem CoreDoes.classifySpectrum (s : State) (spec : List Word) : CoreDoes .p s (s.classifySpectrum spec) :=
  ⟨rfl, id, id⟩

/-- The once-only stores (R32, R33, R35) are as they were, and `W` stands where it stood. -/
structure SameStores (s t : State) : Prop where
  initd : t.initd = s.initd
  sintab : t.sintab = s.sintab
  costab : t.costab = s.costab
  dictv : t.dictv = s.dictv
  dict : t.dict = s.dict
  wrun : t.wrun = s.wrun
  wstage : t.wstage = s.wstage

/-- So are the status fields, and `P` stands where it stood. -/
structure SameControl (s t : State) : Prop extends SameStores s t where
  busy : t.busy = s.busy
  done : t.done = s.done
  code : t.code = s.code
  pstage : t.pstage = s.pstage
  disturbed : t.disturbed = s.disturbed

theorem SameStores.refl (s : State) : SameStores s s := ⟨rfl, rfl, rfl, rfl, rfl, rfl, rfl⟩

theorem SameStores.trans {s t u : State} (h : SameStores s t) (k : SameStores t u) : SameStores s u :=
  ⟨k.initd.trans h.initd, k.sintab.trans h.sintab, k.costab.trans h.costab, k.dictv.trans h.dictv,
    k.dict.trans h.dict, k.wrun.trans h.wrun, k.wstage.trans h.wstage⟩

/-- Command end (R86) touches none of them. -/
theorem State.finish_sameStores (s : State) : SameStores s s.finish :=
  ⟨s.finish_initd, s.finish_sintab, s.finish_costab, s.finish_dictv, s.finish_dict, s.finish_wrun, s.finish_wstage⟩

theorem CoreDoes.same {c : CoreId} {s t : State} (h : CoreDoes c s t) : SameControl s t := by
  have ho := h.only
  cases c <;>
  · simp only [OnlyOwn] at ho
    rw [ho]
    exact ⟨⟨rfl, rfl, rfl, rfl, rfl, rfl, rfl⟩, rfl, rfl, rfl, rfl, rfl⟩

/-- What `P` does leaves the view of `W` alone, and the other way round. -/
theorem CoreDoes.wview {s t : State} (h : CoreDoes .p s t) : t.wview = s.wview := by
  have ho := h.only
  simp only [OnlyOwn] at ho
  rw [ho]

theorem CoreDoes.pview {s t : State} (h : CoreDoes .w s t) : t.pview = s.pview := by
  have ho := h.only
  simp only [OnlyOwn] at ho
  rw [ho]

/-! ### The producer -/

/-- `P` at command begin has not yet written: `u` is where its command stands before any effect. -/
structure Begun (s u : State) : Prop where
  atBegin : s.pstage = .begin
  does : CoreDoes .p s u
  sb : u.pview.sb = s.pview.sb

/-- All that a step of `P` can come to. -/
inductive ProducerDoes (s : State) : State → Prop
  /-- Idle, it takes no step. -/
  | rests (hp : s.pstage = .idle) : ProducerDoes s s
  /-- The command ends with an error (R160). -/
  | fails {u : State} (h : Begun s u) (e : Code) (info : Word) : ProducerDoes s (u.raise e info)
  /-- The command ends (R86). -/
  | ends {u : State} (h : CoreDoes .p s u) : ProducerDoes s u.finish
  /-- `INIT` fills the tables and ends (R95). -/
  | fills {u : State} (h : CoreDoes .p s u) (h0 : s.initd = false) : ProducerDoes s (fillTables u).finish
  /-- `LDDICT` fills the dictionary and ends (R135). -/
  | loads {u : State} (h : CoreDoes .p s u) (h0 : s.dictv = false) (d : Vector (Vector Word Config.KC) Config.NDICT) :
      ProducerDoes s { u with dict := d, dictv := true }.finish
  /-- `WLAUNCH` starts the worker and ends (R116). -/
  | launches {u : State} (h : Begun s u) (hd : decode s.cmdr = .ok .wlaunch) :
      ProducerDoes s { u with wrun := true, wstage := .pollFence }.finish
  /-- The command goes on. -/
  | goesOn {u : State} {q : PStage} (h : CoreDoes .p s u) (hp : s.pstage ≠ .idle) (hq : q ≠ .idle ∧ q ≠ .begin) :
      ProducerDoes s { u with pstage := q }

/-- Every next state an outcome answers is one a step of `P` can come to. -/
def Answers (s : State) (o : Host.Outcome State Fault Refusal) : Prop := ∀ t, o = .next t → ProducerDoes s t

theorem ProducerDoes.next {s t : State} (h : ProducerDoes s t) : Answers s (.next t) := by
  intro u hu; cases hu; exact h

/-- The acquire fence of command begin (R85). -/
theorem Begun.beginCommand {s : State} (hp : s.pstage = .begin) : Begun s s.beginCommand := ⟨hp, .fenceAcq .p s, rfl⟩

theorem State.checked_answers {s : State} {f : State → List Check} {body : State → Host.Outcome State Fault Refusal}
    (hp : s.pstage = .begin) (h : ∀ u, Begun s u → (f u).find? (·.fails) = none → Answers s (body u)) :
    Answers s (s.checked f body) := by
  have hb := Begun.beginCommand hp
  unfold State.checked
  split
  · exact (ProducerDoes.fails hb _ _).next
  · next hf => exact h _ hb hf

theorem orNum_answers {s u : State} {r : Except Angle State} {k : State → Host.Outcome State Fault Refusal}
    (h : Begun s u) (hr : ∀ t, r = .ok t → CoreDoes .p u t) (hk : ∀ t, CoreDoes .p s t → Answers s (k t)) :
    Answers s (orNum u r k) := by
  cases r with
  | ok t => exact hk t (h.does.trans (hr t rfl))
  | error e =>
    have hdraws : Begun s { u with draws := e.2 } := ⟨h.atBegin, h.does.trans ⟨rfl, id, id⟩, h.sb⟩
    exact (ProducerDoes.fails hdraws _ _).next

theorem answerLookup_answers {s u : State} (h : Begun s u) (r : Option Word) : Answers s (answerLookup u r) := by
  cases r with
  | none => exact (ProducerDoes.fails h _ _).next
  | some v =>
    have hresf : CoreDoes .p u ({ u with resf := v }.draw LOOKUP_DRAWS) := ⟨rfl, id, id⟩
    exact (ProducerDoes.ends (h.does.trans hresf)).next

/-- What a parallel or serial `PIPE` still does once it has the spectrum, up to its end (R147). -/
theorem pipeTail_does {s u : State} (h : CoreDoes .p s u) : ProducerDoes s (pipeTail u) := by
  have hsquares := CoreDoes.magSpectrum u sqmagOf (u.dst + SPECTRUM_AT).toNat (u.dst + SQUARES_AT).toNat Config.KC
  rw [pipeTail]
  generalize u.magSpectrum sqmagOf (u.dst + SPECTRUM_AT).toNat (u.dst + SQUARES_AT).toNat Config.KC = s1 at hsquares ⊢
  have hread := CoreDoes.readWords .p s1 (u.dst + SQUARES_AT).toNat Config.KC
  generalize s1.readWords .p (u.dst + SQUARES_AT).toNat Config.KC = r at hread ⊢
  exact .ends ((h.trans (hsquares.trans hread)).trans (.classifySpectrum _ _))

/-- `PUBLISH` begins (R117). -/
theorem Begun.publish {s u : State} (hp : s.pstage = .begin) (h : CoreDoes .p s u) (j : Job) (cmd : Publisher) :
    ProducerDoes s (u.publish j cmd) := by
  have hlatch : CoreDoes .p u { u with pjob := j, pcmd := cmd } := ⟨rfl, id, id⟩
  exact .goesOn (h.trans hlatch) (by simp [hp]) (by simp)

/-! ### The commands -/

theorem execInit_answers {s : State} (hp : s.pstage = .begin) : Answers s (execInit s) := by
  refine State.checked_answers hp fun u h hf => ?_
  have hinitd : u.initd = false := by simpa [ckRepeat] using hf
  exact (ProducerDoes.fills h.does (h.does.same.initd.symm.trans hinitd)).next

theorem execSin_answers {s : State} (hp : s.pstage = .begin) : Answers s (execSin s) :=
  State.checked_answers hp fun _ h _ => answerLookup_answers h _

theorem execCos_answers {s : State} (hp : s.pstage = .begin) : Answers s (execCos s) :=
  State.checked_answers hp fun _ h _ => answerLookup_answers h _

theorem execMagat_answers {s : State} (hp : s.pstage = .begin) : Answers s (execMagat s) := by
  refine State.checked_answers hp fun _ h _ => orNum_answers h (fun _ => CoreDoes.bin) fun t ht => ?_
  have hresf : CoreDoes .p t ({ t with resf := magOf t.draws t.pregs.re t.pregs.im }.draw MAG_DRAWS) := ⟨rfl, id, id⟩
  exact (ProducerDoes.ends (ht.trans hresf)).next

theorem execXform_answers {s : State} (hp : s.pstage = .begin) (g : Grid) : Answers s (execXform g s) :=
  State.checked_answers hp fun _ h _ => orNum_answers h (fun _ => CoreDoes.transform)
    fun _ ht => (ProducerDoes.ends (ht.setResi _)).next

theorem execXformp_answers {s : State} (hp : s.pstage = .begin) (g : Grid) : Answers s (execXformp g s) :=
  State.checked_answers hp fun _ h _ => (Begun.publish hp h.does _ _).next

theorem execMag_answers {s : State} (hp : s.pstage = .begin) : Answers s (execMag s) :=
  State.checked_answers hp fun u h _ =>
    (ProducerDoes.ends ((h.does.trans (.magSpectrum u _ _ _ _)).setResi u.cnt)).next

theorem execSqmag_answers {s : State} (hp : s.pstage = .begin) : Answers s (execSqmag s) :=
  State.checked_answers hp fun u h _ =>
    (ProducerDoes.ends ((h.does.trans (.magSpectrum u _ _ _ _)).setResi u.cnt)).next

theorem execWlaunch_answers {s : State} (hp : s.pstage = .begin) (hd : decode s.cmdr = .ok .wlaunch) :
    Answers s (execWlaunch s) :=
  State.checked_answers hp fun _ h _ => (ProducerDoes.launches h hd).next

theorem execLddict_answers {s : State} (hp : s.pstage = .begin) : Answers s (execLddict s) := by
  refine State.checked_answers hp fun u h hf => ?_
  have hdictv : u.dictv = false := by
    rw [List.find?_eq_none] at hf
    simpa [ckRepeat] using hf (ckRepeat u.dictv) List.mem_cons_self
  have hread := CoreDoes.readWords .p u u.src.toNat (Config.NDICT * Config.KC)
  generalize u.readWords .p u.src.toNat (Config.NDICT * Config.KC) = r at hread ⊢
  exact (ProducerDoes.loads (h.does.trans hread) (h.does.same.dictv.symm.trans hdictv) (dictOf r.1)).next

theorem execDist_answers {s : State} (hp : s.pstage = .begin) : Answers s (execDist s) := by
  refine State.checked_answers hp fun u h _ => ?_
  have hread := CoreDoes.readPairs u u.src.toNat u.aux.toNat Config.KC
  generalize u.readPairs u.src.toNat u.aux.toNat Config.KC = r at hread ⊢
  obtain ⟨a, b, t⟩ := r
  have hresf : CoreDoes .p t ({ t with
      pregs := { t.pregs with re := distF t.draws a b }, resf := distF t.draws a b }.draw DIST_DRAWS) := ⟨rfl, id, id⟩
  exact (ProducerDoes.ends ((h.does.trans hread).trans hresf)).next

theorem execClassify_answers {s : State} (hp : s.pstage = .begin) : Answers s (execClassify s) := by
  refine State.checked_answers hp fun u h _ => ?_
  have hread := CoreDoes.readWords .p u u.src.toNat Config.KC
  generalize u.readWords .p u.src.toNat Config.KC = r at hread ⊢
  exact (ProducerDoes.ends ((h.does.trans hread).trans (.classifySpectrum _ _))).next

theorem execRank_answers {s : State} (hp : s.pstage = .begin) : Answers s (execRank s) := by
  refine State.checked_answers hp fun u h _ => ?_
  have hread := CoreDoes.readWords .p u u.src.toNat Config.KC
  generalize u.readWords .p u.src.toNat Config.KC = r at hread ⊢
  have hranked : CoreDoes .p r.2 { (r.2.computeDistances r.1).2 with rd := (r.2.computeDistances r.1).1 } :=
    ⟨rfl, id, id⟩
  exact (ProducerDoes.ends ((((h.does.trans hread).trans hranked).trans (.writeRecords _ _ _)).setResi u.cnt)).next

theorem execRepl_answers {s : State} (hp : s.pstage = .begin) : Answers s (execRepl s) :=
  State.checked_answers hp fun u h _ =>
    (ProducerDoes.ends ((h.does.trans (.replicate u _ _ _ _)).setResi (wordOf (replSize u)))).next

theorem execPipe_answers {s : State} (hp : s.pstage = .begin) (m : PipeMode) : Answers s (execPipe m s) := by
  refine State.checked_answers hp fun u h _ => ?_
  have hrep := CoreDoes.replicate u u.src.toNat u.dst.toNat Config.PLEN Config.REP
  cases m with
  | serial =>
    exact orNum_answers h (fun _ ht => hrep.trans (CoreDoes.transform ht)) fun _ ht => (pipeTail_does ht).next
  | parallel => exact (Begun.publish hp (h.does.trans hrep) _ _).next

theorem exec_answers {s : State} {i : Instr} (hp : s.pstage = .begin) (hd : decode s.cmdr = .ok i) :
    Answers s (exec i s) := by
  cases i with
  | init => exact execInit_answers hp
  | sin => exact execSin_answers hp
  | cos => exact execCos_answers hp
  | magat => exact execMagat_answers hp
  | xform g => exact execXform_answers hp g
  | xformp g => exact execXformp_answers hp g
  | mag => exact execMag_answers hp
  | sqmag => exact execSqmag_answers hp
  | wlaunch => exact execWlaunch_answers hp hd
  | lddict => exact execLddict_answers hp
  | dist => exact execDist_answers hp
  | classify => exact execClassify_answers hp
  | rank => exact execRank_answers hp
  | repl => exact execRepl_answers hp
  | pipe m => exact execPipe_answers hp m

/-! ### Steps of a parallel transform -/

/-- One step of a transform bin does only what a core may do, and leaves shared storage to the drains and fences. -/
theorem State.binStep_does (s : State) (c : CoreId) (j : Job) (kEnd : Word) (b : BinPos) :
    (∃ b' t, s.binStep c j kEnd b = .at b' t ∧ CoreDoes c s t ∧ t.mem = s.mem ∧ t.job = s.job) ∨
      s.binStep c j kEnd b = .done s ∨ (∃ a, s.binStep c j kEnd b = .stuck a) ∨
      ∃ a, s.binStep c j kEnd b = .outside a := by
  have hat : ∀ {b' t}, s.binStep c j kEnd b = .at b' t → Work c s t → (s.CopiesRise c → t.CopiesRise c) →
      ∃ b' t, s.binStep c j kEnd b = .at b' t ∧ CoreDoes c s t ∧ t.mem = s.mem ∧ t.job = s.job :=
    fun h hw hr => ⟨_, _, h, .of_only hw.only hr, hw.only.mem, hw.only.job⟩
  cases b with
  | next =>
    by_cases hk : (s.regs c).kidx.toNat < kEnd.toNat
    · exact .inl (hat (if_pos hk) ((Work.setRegs c s _).trans (.draw c _ _)) fun h =>
        State.draw_copiesRise (State.setRegs_copiesRise h _) _)
    · exact .inr (.inl (if_neg hk))
  | sample =>
    by_cases ha : j.sig.toNat + (s.regs c).nidx.toNat < s.memBytes
    · cases hs : s.sample c j.sig.toNat with
      | ok t =>
        have hstep : s.binStep c j kEnd .sample =
            .at (if (t.regs c).nidx.toNat < j.n.toNat then .sample else .re) t := by simp [State.binStep, ha, hs]
        exact .inl (hat hstep (State.sample_work hs) (State.sample_copiesRise hs))
      | error e => exact .inr (.inr (.inl ⟨e.1, by simp [State.binStep, ha, hs]⟩))
    · exact .inr (.inr (.inr ⟨_, if_neg ha⟩))
  | re =>
    by_cases ha : binAddr j.out (s.regs c).kidx.toNat + 4 ≤ s.memBytes
    · exact .inl (hat (if_pos ha) ((Work.writeWord c s _ _).trans (.draw c _ _)) fun h =>
        State.draw_copiesRise (State.enqueue_copiesRise h _) _)
    · exact .inr (.inr (.inr ⟨_, if_neg ha⟩))
  | im =>
    by_cases ha : binAddr j.out (s.regs c).kidx.toNat + 4 + 4 ≤ s.memBytes
    · exact .inl (hat (if_pos ha) (((Work.writeWord c s _ _).trans (.setRegs c _ _)).trans (.draw c _ _)) fun h =>
        State.draw_copiesRise (State.setRegs_copiesRise (State.enqueue_copiesRise h _) _) _)
    · exact .inr (.inr (.inr ⟨_, if_neg ha⟩))

theorem ownStep_answers {s : State} (hp : s.pstage ≠ .idle) (b : BinPos) : Answers s (ownStep b s) := by
  unfold ownStep
  rcases s.binStep_does .p s.pjob s.pjob.k0 b with ⟨b', t, h, hd, -⟩ | h | ⟨a, h⟩ | ⟨a, h⟩ <;> rw [h]
  · exact (ProducerDoes.goesOn hd hp (by simp)).next
  · exact (ProducerDoes.goesOn (.refl .p s) hp (by simp)).next
  · exact fun _ ht => nomatch ht
  · exact fun _ ht => nomatch ht

theorem pubNext_ne (i : JobIx) : pubNext i ≠ .idle ∧ pubNext i ≠ .begin := by cases i <;> simp [pubNext]

theorem producerStep_answers (s : State) : Answers s (producerStep s) := by
  unfold producerStep
  split
  · next hp => exact (ProducerDoes.rests hp).next
  · next hp =>
    split
    · next hd => exact exec_answers hp hd
    · exact (ProducerDoes.fails (.beginCommand hp) _ _).next
  · next hp => exact (ProducerDoes.goesOn (.enqueue .p s _) (by simp [hp]) (pubNext_ne _)).next
  · next hp => exact (ProducerDoes.goesOn (.fenceRel .p s) (by simp [hp]) (by simp)).next
  · next hp =>
    have htrig : CoreDoes .p s ((s.enqueue .p (.job .sigp 1)).setRegs .p { s.pregs with kidx := 0 }) :=
      (CoreDoes.enqueue .p s _).trans (.setRegs .p _ _)
    exact (ProducerDoes.goesOn (q := .own .next) htrig (by simp [hp]) (by simp)).next
  · next hp => exact ownStep_answers (by simp [hp]) _
  · next hp => exact (ProducerDoes.goesOn (.fenceAcq .p s) (by simp [hp]) (by simp)).next
  · next hp => exact (ProducerDoes.goesOn (.noteJob .p s .done) (by simp [hp]) (by split <;> simp)).next
  · next hp => exact (ProducerDoes.goesOn (.fenceAcq .p s) (by simp [hp]) (by split <;> simp)).next
  · exact (ProducerDoes.ends ((CoreDoes.refl .p s).setResi _)).next
  · exact (pipeTail_does (.refl .p s)).next

/-! ### The worker -/

/-- All that a step of `W` can come to; only its release fence changes shared storage (R126). -/
inductive WorkerDoes (s : State) : State → Prop
  /-- Off, it takes no step. -/
  | rests (hw : s.wstage = .off) : WorkerDoes s s
  /-- It moves on. -/
  | moves {u : State} {q : WStage} (h : CoreDoes .w s u) (hw : s.wstage ≠ .off) (hq : q ≠ .off)
      (hstore : s.wstage ≠ .rel → u.mem = s.mem ∧ u.job = s.job) : WorkerDoes s { u with wstage := q }

theorem loadNext_ne (i : JobIx) : loadNext i ≠ .off := by cases i <;> simp [loadNext]

@[simp] theorem State.noteJob_mem (s : State) (c : CoreId) (i : JobIx) : (s.noteJob c i).mem = s.mem := by
  rcases s.noteJob_cases c i with h | h | ⟨-, h⟩ <;> simp [h]

@[simp] theorem State.noteJob_job (s : State) (c : CoreId) (i : JobIx) : (s.noteJob c i).job = s.job := by
  rcases s.noteJob_cases c i with h | h | ⟨-, h⟩ <;> simp [h]

theorem runStep_does {s t : State} {b : BinPos} (hw : s.wstage = .run b) (ht : runStep b s = .next t) :
    WorkerDoes s t := by
  unfold runStep at ht
  rcases s.binStep_does .w s.wjob s.wjob.k1 b with ⟨b', u, h, hd, hmem, hjob⟩ | h | ⟨a, h⟩ | ⟨a, h⟩ <;>
    rw [h] at ht <;> cases ht
  · exact .moves hd (by simp [hw]) (by simp) fun _ => ⟨hmem, hjob⟩
  · exact .moves (.refl .w s) (by simp [hw]) (by simp) fun _ => ⟨rfl, rfl⟩

/-- A slot word goes to its job register; the last sets the bin counter too (R124). -/
theorem loadStep_does {s : State} {i : JobIx} (hw : s.wstage = .load i) : WorkerDoes s (loadStep i s) := by
  have hread := CoreDoes.noteJob .w s i
  have hmem := s.noteJob_mem .w i
  have hjob := s.noteJob_job .w i
  simp only [loadStep, State.readJob]
  generalize s.noteJob .w i = u at hread hmem hjob ⊢
  generalize u.wjob.load i (s.coreJob .w i) = j
  generalize (if i = .out then { u.wregs with kidx := j.k0 } else u.wregs) = r
  have hload : CoreDoes .w u { u with wjob := j, wregs := r } := ⟨rfl, id, id⟩
  exact .moves (hread.trans hload) (by simp [hw]) (loadNext_ne i) fun _ => ⟨hmem, hjob⟩

theorem workerStep_does {s t : State} (ht : workerStep s = .next t) : WorkerDoes s t := by
  unfold workerStep at ht
  split at ht
  · next hw => cases ht; exact .rests hw
  · next hw => cases ht; exact .moves (.fenceAcq .w s) (by simp [hw]) (by simp) fun _ => ⟨rfl, rfl⟩
  · next hw =>
    cases ht
    exact .moves (.noteJob .w s .sigp) (by simp [hw]) (by split <;> simp) fun _ =>
      ⟨s.noteJob_mem .w _, s.noteJob_job .w _⟩
  · next hw => cases ht; exact loadStep_does hw
  · next hw => exact runStep_does hw ht
  · next hw => cases ht; exact .moves (.fenceRel .w s) (by simp [hw]) (by simp) fun h => absurd hw h
  · next hw => cases ht; exact .moves (.enqueue .w s _) (by simp [hw]) (by simp) fun _ => ⟨rfl, rfl⟩
  · next hw => cases ht; exact .moves (.enqueue .w s _) (by simp [hw]) (by simp) fun _ => ⟨rfl, rfl⟩

/-! ### The host, and a whole turn -/

/-- `t` is `s` but for the operand registers, `OVR`, shared storage and what the host's last read left. -/
structure HostDoes (s t : State) : Prop where
  only : t = { s with
    src := t.src, len := t.len, cnt := t.cnt, dst := t.dst, aux := t.aux, farg := t.farg, ovr := t.ovr, mem := t.mem,
    hostRd := t.hostRd, draws := t.draws }
  wf : s.mem.wf = true → t.mem.wf = true

theorem HostDoes.same {s t : State} (h : HostDoes s t) : SameControl s t := by
  rw [h.only]; exact ⟨⟨rfl, rfl, rfl, rfl, rfl, rfl, rfl⟩, rfl, rfl, rfl, rfl, rfl⟩

theorem HostDoes.pview {s t : State} (h : HostDoes s t) : t.pview = s.pview := by rw [h.only]

theorem HostDoes.wview {s t : State} (h : HostDoes s t) : t.wview = s.wview := by rw [h.only]

/-- All that a turn can come to, whoever takes it. -/
inductive TurnDoes (τ : Turn) (s : State) : State → Prop
  /-- A reset (R175). -/
  | resets {m : Memory} (hτ : τ.resets) (hm : s.mem.wf = true → m.wf = true) : TurnDoes τ s (s.resetTo m)
  /-- A command word is accepted (R81). -/
  | accepts (hb : s.busy = false) (v : Word) : TurnDoes τ s (s.accept v)
  /-- The host writes `MEM` against R179. -/
  | disturbs (hb : s.busy = true) (a n : Nat) : TurnDoes τ s (s.disturb a n)
  /-- Any other access of the host. -/
  | host {t : State} (h : HostDoes s t) : TurnDoes τ s t
  /-- `P` takes a step. -/
  | producer {t : State} {ks : List Bool} (h : ProducerDoes { s with keeps := ks } t) : TurnDoes τ s t
  /-- `W` takes a step. -/
  | worker {t : State} {ks : List Bool} (h : WorkerDoes { s with keeps := ks } t) : TurnDoes τ s t
  /-- `MSYS` drains or evicts (R61, R62); nothing becomes pending. -/
  | system {c : CoreId} {t : State} (h : CoreDoes c s t) (hsb : s.pview.sb = [] → t.pview.sb = []) : TurnDoes τ s t

theorem State.setOperand_does (s : State) (off v : Word) : HostDoes s (s.setOperand off v) := by
  unfold State.setOperand
  split <;> exact ⟨rfl, id⟩

theorem State.writeReg_does {s t : State} {off v : Word} (h : s.writeReg off v = some t) :
    TurnDoes (.regWrite off v) s t := by
  have hovr : ∀ b, HostDoes s { s with ovr := b } := fun _ => ⟨rfl, id⟩
  have hself : HostDoes s s := ⟨rfl, id⟩
  unfold State.writeReg at h
  split_ifs at h with hctrl hcmd hbusy hoperand hbusy <;> cases h
  · unfold State.writeCtrl
    split_ifs with hreset
    · exact .resets ⟨BitVec.eq_of_toNat_eq hctrl, hreset⟩ fun hm => Memory.wf_writeAll _ (Memory.wf_writeAll _ hm)
    · exact .host (hovr false)
    · exact .host hself
  · exact .host (hovr true)
  · exact .accepts (by simpa using hbusy) v
  · exact .host (hovr true)
  · exact .host (s.setOperand_does off v)
  · exact .host hself

theorem State.hostWrite_does {τ : Turn} {s t : State} {a : Word} {n : Nat} {m : Memory}
    (hm : s.mem.wf = true → m.wf = true) (h : s.hostWrite a n m = .next t) : TurnDoes τ s t := by
  unfold State.hostWrite at h
  split_ifs at h with haccepts hbusy <;> cases h
  · exact .disturbs hbusy _ _
  · exact .host ⟨rfl, hm⟩

theorem State.hostRead_does {s t : State} {a : Word} {n : Nat} {v : Word} (h : s.hostRead a n v = .next t) :
    HostDoes s t := by
  unfold State.hostRead at h
  split at h <;> cases h
  exact ⟨rfl, id⟩

theorem State.hostReadReg_does {s t : State} {off : Word} (h : s.hostReadReg off = .next t) : HostDoes s t := by
  unfold State.hostReadReg at h
  split at h <;> cases h
  exact ⟨rfl, id⟩

/-- A drain leaves an empty buffer empty. -/
theorem State.drain_pview_sb {s : State} (h : s.pview.sb = []) (c : CoreId) (n : Nat) :
    (s.drain c n).pview.sb = [] := by
  unfold State.drain
  split
  · exact h
  · next e he =>
    cases c with
    | p => simp [h] at he
    | w =>
      split
      · exact h
      · cases e <;> exact h

theorem takeStep_does {τ : Turn} {s t : State} (h : takeStep τ s = .next t) : TurnDoes τ s t := by
  cases τ with
  | regWrite off v =>
    simp only [takeStep, State.hostWriteReg] at h
    split at h
    · next hw => cases h; exact State.writeReg_does hw
    · cases h
  | regRead off => exact .host (State.hostReadReg_does h)
  | memWrite8 a v => exact State.hostWrite_does (Memory.wf_write _ _) h
  | memWrite32 a v => exact State.hostWrite_does (Memory.wf_writeWord _ _) h
  | memRead8 a => exact .host (State.hostRead_does h)
  | memRead32 a => exact .host (State.hostRead_does h)
  | hardReset contents => cases h; exact .resets trivial fun _ => Memory.wf_writeAll _ Memory.wf_empty
  | p keeps => exact .producer (producerStep_answers _ t h)
  | w keeps => exact .worker (workerStep_does h)
  | drain c n => cases h; exact .system (.drain c s n) fun hs => State.drain_pview_sb hs c n
  | evict c l => cases h; exact .system (.evict c s l) fun hs => by cases c <;> cases l <;> exact hs

/-- A step is a turn taken from the state without it on its schedule. -/
theorem step_does {s t : State} (h : step s = .next t) :
    ∃ ts n, TurnDoes s.takeTurn.1 { s with turns := ts, clock := n } t := by
  have hturn : ∃ ts n, s.takeTurn.2 = { s with turns := ts, clock := n } := by
    unfold State.takeTurn
    split <;> exact ⟨_, _, rfl⟩
  obtain ⟨ts, n, he⟩ := hturn
  exact ⟨ts, n, he ▸ takeStep_does h⟩

end Sys2Proof.Machine
end

section
/-! PROOFS. What every step keeps (10_state.md rules R24, R26, R32, R33, R35; 20_memory.md rule R58), and what a step of
the worker leaves alone (R40): each invariant first for what `P` and `W` can do, then for any turn, then for a step. -/

namespace Sys2Proof.Machine

/-! ### The status fields (R24, R26, R35, R160, R179) -/

/-- `WRUN` and `WSTATE` agree wherever both are as they were. -/
theorem SameStores.wrun_iff {s t : State} (h : SameStores s t) (hs : s.wrun = true ↔ s.wstage ≠ .off) :
    t.wrun = true ↔ t.wstage ≠ .off := by rw [h.wrun, h.wstage]; exact hs

theorem SameControl.statusCoherent {s t : State} (h : SameControl s t) (hs : s.StatusCoherent) : t.StatusCoherent := by
  rw [State.StatusCoherent, h.busy, h.done, h.code, h.pstage, h.wrun, h.wstage, h.disturbed]
  exact hs

/-- A block that is idle has only `WRUN` left to agree with `WSTATE`. -/
theorem State.statusCoherent_of_idle {t : State} (hbusy : t.busy = false) (hp : t.pstage = .idle)
    (hd : t.disturbed = []) (hw : t.wrun = true ↔ t.wstage ≠ .off) : t.StatusCoherent := by
  simp [State.StatusCoherent, hbusy, hp, hd, hw]

theorem State.finish_statusCoherent {u : State} (hw : u.wrun = true ↔ u.wstage ≠ .off) : u.finish.StatusCoherent :=
  State.statusCoherent_of_idle rfl rfl rfl (u.finish_sameStores.wrun_iff hw)

theorem ProducerDoes.statusCoherent {s t : State} (h : ProducerDoes s t) (hs : s.StatusCoherent) :
    t.StatusCoherent := by
  obtain ⟨hdone, hbusy, hcode, hwrun, hcalm⟩ := id hs
  cases h with
  | rests => exact hs
  | fails hb e info => exact State.statusCoherent_of_idle rfl rfl rfl (hb.does.same.wrun_iff hwrun)
  | ends hu => exact State.finish_statusCoherent (hu.same.wrun_iff hwrun)
  | fills hu => exact State.finish_statusCoherent (hu.same.wrun_iff hwrun)
  | loads hu => exact State.finish_statusCoherent (hu.same.wrun_iff hwrun)
  | launches => exact State.finish_statusCoherent (by simp)
  | @goesOn u q hu hp hq =>
    obtain ⟨udone, -, ucode, uwrun, ucalm⟩ := hu.same.statusCoherent hs
    have ubusy : u.busy = true := hu.same.busy.trans (hbusy.2 hp)
    exact ⟨udone, iff_of_true ubusy hq.1, ucode, uwrun, ucalm⟩

theorem WorkerDoes.statusCoherent {s t : State} (h : WorkerDoes s t) (hs : s.StatusCoherent) : t.StatusCoherent := by
  cases h with
  | rests => exact hs
  | @moves u q hu hw hq =>
    obtain ⟨udone, ubusy, ucode, uwrun, ucalm⟩ := hu.same.statusCoherent hs
    have hrun : u.wrun = true := uwrun.2 (hu.same.wstage ▸ hw)
    exact ⟨udone, ubusy, ucode, iff_of_true hrun hq, ucalm⟩

theorem State.resetTo_statusCoherent (s : State) (m : Memory) : (s.resetTo m).StatusCoherent :=
  State.statusCoherent_of_idle rfl rfl rfl (by simp [State.resetTo, State.reset])

theorem TurnDoes.statusCoherent {τ : Turn} {s t : State} (h : TurnDoes τ s t) (hs : s.StatusCoherent) :
    t.StatusCoherent := by
  obtain ⟨hdone, hbusy, hcode, hwrun, hcalm⟩ := id hs
  cases h with
  | resets => exact s.resetTo_statusCoherent _
  | accepts hb v =>
    exact ⟨fun _ => rfl, iff_of_true rfl (by simp [State.accept]), fun _ => rfl, hwrun, fun hf => nomatch hf⟩
  | disturbs hb a n => exact ⟨hdone, hbusy, hcode, hwrun, fun hf => nomatch hb.symm.trans hf⟩
  | host ht => exact ht.same.statusCoherent hs
  | producer ht => exact ht.statusCoherent hs
  | worker ht => exact ht.statusCoherent hs
  | system ht => exact ht.same.statusCoherent hs

/-! ### Nothing of `P` pending between commands (R86, R160) -/

theorem State.finish_pview_sb (s : State) : s.finish.pview.sb = [] := s.fenceRel_sb .p

theorem ProducerDoes.producerDrained {s t : State} (h : ProducerDoes s t) (hs : s.ProducerDrained) :
    t.ProducerDrained := by
  cases h with
  | rests => exact hs
  | fails hb e info => exact fun _ => hb.sb.trans (hs (.inr hb.atBegin))
  | ends => exact fun _ => State.finish_pview_sb _
  | fills => exact fun _ => State.finish_pview_sb _
  | loads => exact fun _ => State.finish_pview_sb _
  | launches => exact fun _ => State.finish_pview_sb _
  | goesOn hu hp hq => exact fun ht => (ht.elim hq.1 hq.2).elim

theorem WorkerDoes.producerDrained {s t : State} (h : WorkerDoes s t) (hs : s.ProducerDrained) :
    t.ProducerDrained := by
  cases h with
  | rests => exact hs
  | @moves u q hu =>
    intro hp
    exact (congrArg View.sb hu.pview).trans (hs (hu.same.pstage ▸ hp))

theorem TurnDoes.producerDrained {τ : Turn} {s t : State} (h : TurnDoes τ s t) (hc : s.StatusCoherent)
    (hs : s.ProducerDrained) : t.ProducerDrained := by
  cases h with
  | resets => exact fun _ => rfl
  | accepts hb v =>
    obtain ⟨-, hbusy, -⟩ := hc
    have hidle : s.pstage = .idle := by simpa [hb] using hbusy
    exact fun _ => hs (.inl hidle)
  | disturbs => exact hs
  | host ht => exact fun hp => (congrArg View.sb ht.pview).trans (hs (ht.same.pstage ▸ hp))
  | producer ht => exact ht.producerDrained hs
  | worker ht => exact ht.producerDrained hs
  | system ht hsb => exact fun hp => hsb (hs (ht.same.pstage ▸ hp))

/-- Settles O55: case analysis over what a turn can come to. -/
theorem statusCoherentKept : Obligations.StatusCoherentKept := by
  intro s t hs hstep
  obtain ⟨ts, n, ht⟩ := step_does hstep
  exact ⟨ht.statusCoherent hs, fun hd => ht.producerDrained hs hd⟩

/-! ### Memory and copies in canonical form (R58) -/

theorem CoreDoes.canonical {c : CoreId} {s t : State} (h : CoreDoes c s t) (hs : s.Canonical) : t.Canonical := by
  obtain ⟨hmem, hp, hw⟩ := hs
  cases c with
  | p => exact ⟨h.wf hmem, h.rise hp, h.wview ▸ hw⟩
  | w => exact ⟨h.wf hmem, h.pview ▸ hp, h.rise hw⟩

theorem State.finish_canonical {u : State} (hu : u.Canonical) : u.finish.Canonical := by
  obtain ⟨hmem, hp, hw⟩ := (CoreDoes.fenceRel .p u).canonical hu
  exact ⟨Memory.wf_writeAll _ hmem, hp, hw⟩

theorem ProducerDoes.canonical {s t : State} (h : ProducerDoes s t) (hs : s.Canonical) : t.Canonical := by
  cases h with
  | rests => exact hs
  | fails hb e info => exact hb.does.canonical hs
  | ends hu => exact State.finish_canonical (hu.canonical hs)
  | fills hu => exact State.finish_canonical (hu.canonical hs)
  | loads hu => exact State.finish_canonical (hu.canonical hs)
  | launches hb => exact State.finish_canonical (hb.does.canonical hs)
  | goesOn hu => exact hu.canonical hs

theorem WorkerDoes.canonical {s t : State} (h : WorkerDoes s t) (hs : s.Canonical) : t.Canonical := by
  cases h with
  | rests => exact hs
  | moves hu => exact hu.canonical hs

theorem TurnDoes.canonical {τ : Turn} {s t : State} (h : TurnDoes τ s t) (hs : s.Canonical) : t.Canonical := by
  obtain ⟨hmem, hp, hw⟩ := id hs
  cases h with
  | resets _ hm => exact ⟨hm hmem, .nil, .nil⟩
  | accepts => exact hs
  | disturbs => exact ⟨Memory.wf_writeAll _ hmem, hp, hw⟩
  | host ht => exact ⟨ht.wf hmem, ht.pview ▸ hp, ht.wview ▸ hw⟩
  | producer ht => exact ht.canonical hs
  | worker ht => exact ht.canonical hs
  | system ht => exact ht.canonical hs

/-- Settles O56: case analysis over what a turn can come to. -/
theorem canonicalKept : Obligations.CanonicalKept := by
  intro s t hs hstep
  obtain ⟨ts, n, ht⟩ := step_does hstep
  exact ht.canonical hs

/-! ### What is written once (R32, R33, R35, R90, R116) -/

theorem SameStores.tablesFilled {s t : State} (h : SameStores s t) (hs : s.TablesFilled) : t.TablesFilled := by
  rw [State.TablesFilled, h.initd, h.sintab, h.costab]; exact hs

theorem ProducerDoes.tablesFilled {s t : State} (h : ProducerDoes s t) (hs : s.TablesFilled) : t.TablesFilled := by
  cases h with
  | rests => exact hs
  | fails hb e info => exact hb.does.same.tablesFilled hs
  | ends hu => exact (hu.same.trans (State.finish_sameStores _)).tablesFilled hs
  | fills => exact (State.finish_sameStores _).tablesFilled fun _ => ⟨rfl, rfl⟩
  | loads hu => exact (State.finish_sameStores _).tablesFilled (hu.same.tablesFilled hs)
  | launches hb => exact (State.finish_sameStores _).tablesFilled (hb.does.same.tablesFilled hs)
  | goesOn hu => exact hu.same.tablesFilled hs

theorem TurnDoes.tablesFilled {τ : Turn} {s t : State} (h : TurnDoes τ s t) (hs : s.TablesFilled) :
    t.TablesFilled := by
  cases h with
  | resets => exact fun hi => nomatch hi
  | accepts => exact hs
  | disturbs => exact hs
  | host ht => exact ht.same.tablesFilled hs
  | producer ht => exact ht.tablesFilled hs
  | worker ht =>
    cases ht with
    | rests => exact hs
    | moves hu => exact hu.same.tablesFilled hs
  | system ht => exact ht.same.tablesFilled hs

/-- The once-only stores, once set, stay; `W` is launched only by `WLAUNCH` and never stops. -/
structure OnceKept (s t : State) : Prop where
  tables : s.initd = true → t.initd = true ∧ t.sintab = s.sintab ∧ t.costab = s.costab
  dictionary : s.dictv = true → t.dictv = true ∧ t.dict = s.dict
  wrun : s.wrun = true → t.wrun = true
  stays : s.wstage ≠ .off → t.wstage ≠ .off
  launch : s.wstage = .off → t.wstage ≠ .off →
    s.pstage = .begin ∧ decode s.cmdr = .ok .wlaunch ∧ t.wstage = .pollFence

theorem SameStores.onceKept {s t : State} (h : SameStores s t) : OnceKept s t where
  tables hi := ⟨h.initd.trans hi, h.sintab, h.costab⟩
  dictionary hd := ⟨h.dictv.trans hd, h.dict⟩
  wrun hw := h.wrun.trans hw
  stays hw := h.wstage ▸ hw
  launch hoff hon := absurd (h.wstage.trans hoff) hon

/-- What command end touches is none of the once-only stores. -/
theorem OnceKept.finish {s u : State} (h : OnceKept s u) : OnceKept s u.finish := by
  have hu := u.finish_sameStores
  refine ⟨?_, ?_, ?_, ?_, ?_⟩
  · rw [hu.initd, hu.sintab, hu.costab]; exact h.tables
  · rw [hu.dictv, hu.dict]; exact h.dictionary
  · rw [hu.wrun]; exact h.wrun
  · rw [hu.wstage]; exact h.stays
  · rw [hu.wstage]; exact h.launch

theorem ProducerDoes.onceKept {s t : State} (h : ProducerDoes s t) : OnceKept s t := by
  cases h with
  | rests => exact (SameStores.refl s).onceKept
  | fails hb e info =>
    have hkept := hb.does.same.onceKept
    exact { hkept with }
  | ends hu => exact hu.same.onceKept.finish
  | fills hu h0 =>
    have hkept := hu.same.onceKept
    exact OnceKept.finish { hkept with tables := fun hi => nomatch h0.symm.trans hi }
  | loads hu h0 d =>
    have hkept := hu.same.onceKept
    exact OnceKept.finish { hkept with dictionary := fun hd => nomatch h0.symm.trans hd }
  | launches hb hd =>
    have hkept := hb.does.same.onceKept
    exact OnceKept.finish
      { hkept with wrun := fun _ => rfl, stays := fun _ => by simp, launch := fun _ _ => ⟨hb.atBegin, hd, rfl⟩ }
  | goesOn hu =>
    have hkept := hu.same.onceKept
    exact { hkept with }

theorem WorkerDoes.onceKept {s t : State} (h : WorkerDoes s t) : OnceKept s t := by
  cases h with
  | rests => exact (SameStores.refl s).onceKept
  | moves hu hw hq =>
    have hkept := hu.same.onceKept
    exact { hkept with stays := fun _ => hq, launch := fun hoff => absurd hoff hw }

theorem TurnDoes.onceKept {τ : Turn} {s t : State} (h : TurnDoes τ s t) (hτ : ¬ τ.resets) : OnceKept s t := by
  cases h with
  | resets hr => exact absurd hr hτ
  | accepts => exact { (SameStores.refl s).onceKept with }
  | disturbs => exact { (SameStores.refl s).onceKept with }
  | host ht => exact ht.same.onceKept
  | producer ht => exact { ht.onceKept with }
  | worker ht => exact { ht.onceKept with }
  | system ht => exact ht.same.onceKept

/-- Settles O59: case analysis over what a turn can come to. -/
theorem writeOnceStores : Obligations.WriteOnceStores := by
  intro s t hstep
  obtain ⟨ts, n, ht⟩ := step_does hstep
  refine ⟨fun hs => ht.tablesFilled hs, fun hreset => ?_⟩
  obtain ⟨htables, hdict, hwrun, hstays, hlaunch⟩ := ht.onceKept hreset
  exact ⟨htables, hdict, hwrun, hstays, hlaunch⟩

/-! ### What the worker leaves alone (R40) -/

/-- Settles O32: case analysis over what a step of `W` can come to. -/
theorem workerTouchesOnlyItsOwn : Obligations.WorkerTouchesOnlyItsOwn := by
  intro s t hstep
  cases workerStep_does hstep with
  | rests => exact ⟨rfl, fun _ => ⟨rfl, rfl⟩, fun _ => rfl⟩
  | @moves u q hu hw hq hstore =>
    refine ⟨?_, hstore, fun hoff => absurd hoff hw⟩
    have honly := hu.only
    simp only [OnlyOwn] at honly
    rw [honly]

/-! ### The state after reset (R39) -/

/-- Settles O58. -/
theorem resetMeetsInvariants : Obligations.ResetMeetsInvariants := by
  have hcoherent : State.reset.StatusCoherent :=
    State.statusCoherent_of_idle rfl rfl rfl (by simp [State.reset])
  have hcanonical : State.reset.Canonical := ⟨Memory.wf_empty, .nil, .nil⟩
  have hinside : State.reset.InsideMemory := by simp [State.InsideMemory, State.reset, View.empty]
  exact ⟨hcoherent, hcanonical, (fun hi => nomatch hi), fun _ => rfl, hinside⟩

end Sys2Proof.Machine
end

section
/-! PROOFS. The registers as the host reads and writes them (10_state.md rules R21 to R31), and what either reset leaves
(R39, R175, R177). -/

namespace Sys2Proof.Machine

/-! ### A turn of the schedule -/

theorem step_of_turns {s : State} {τ : Turn} {ts : List Turn} (h : s.turns = τ :: ts) :
    step s = takeStep τ { s with turns := ts } := by
  simp only [step, State.takeTurn, h]

theorem step_regWrite {s : State} {off v : Word} {ts : List Turn} (h : s.turns = .regWrite off v :: ts) :
    step s = { s with turns := ts }.hostWriteReg off v := step_of_turns h

theorem step_regRead {s : State} {off : Word} {ts : List Turn} (h : s.turns = .regRead off :: ts) :
    step s = { s with turns := ts }.hostReadReg off := step_of_turns h

/-! ### Register writes (R21, R28, R31) -/

/-- An offset of the register map is below 0x38 and a multiple of 4 (R31). -/
theorem State.writeReg_outside (s : State) {off : Word} (v : Word) (h : 0x38 ≤ off.toNat ∨ off.toNat % 4 ≠ 0) :
    s.writeReg off v = none := by
  unfold State.writeReg
  rw [if_neg (by omega), if_neg (by omega), if_neg (by omega), if_neg (by omega)]

/-- An operand register of an idle block takes the value. -/
theorem State.writeReg_operand {s : State} {off : Word} (v : Word) (hb : s.busy = false)
    (h : off.toNat ≤ 0x14 ∧ off.toNat % 4 = 0) : s.writeReg off v = some (s.setOperand off v) := by
  unfold State.writeReg
  rw [if_neg (by omega), if_neg (by omega), if_pos h, hb]
  rfl

/-- A read-only register ignores the write. -/
theorem State.writeReg_readOnly (s : State) {off : Word} (v : Word)
    (h : off ∈ [0x18, 0x1C, 0x24, 0x28, 0x30, 0x34]) : s.writeReg off v = some s := by
  simp only [List.mem_cons, List.not_mem_nil, or_false] at h
  rcases h with rfl | rfl | rfl | rfl | rfl | rfl <;> rfl

/-- Settles O7. -/
theorem registerWrites : Obligations.RegisterWrites := by
  intro s off v ts hturn
  rw [step_regWrite hturn, State.hostWriteReg]
  refine ⟨fun hb => ?_, ?_, fun hoff => ?_, fun hoff => ?_⟩
  · have hoperand : ∀ h : off.toNat ≤ 0x14 ∧ off.toNat % 4 = 0,
        { s with turns := ts }.writeReg off v = some ({ s with turns := ts }.setOperand off v) :=
      State.writeReg_operand v hb
    refine ⟨?_, ?_, ?_, ?_, ?_, ?_⟩ <;> rintro rfl <;> rw [hoperand (by decide)] <;> rfl
  · rintro rfl; rfl
  · rw [State.writeReg_readOnly _ v hoff]
  · rw [State.writeReg_outside _ v hoff]

/-! ### Register reads (R23, R29, R30, R31) -/

theorem State.readReg_outside (s : State) {off : Word} (h : 0x38 ≤ off.toNat ∨ off.toNat % 4 ≠ 0) :
    s.readReg off = none := by
  unfold State.readReg
  split
  case h_15 => rfl
  all_goals omega

/-- Settles O8. -/
theorem registerReads : Obligations.RegisterReads := by
  intro s off v ts hturn
  rw [step_regRead hturn, State.hostReadReg]
  refine ⟨fun hoff => ?_, fun hoff => ?_⟩
  · simp only [List.mem_cons, List.not_mem_nil, or_false, Prod.mk.injEq] at hoff
    rcases hoff with ⟨rfl, rfl⟩ | ⟨rfl, rfl⟩ | ⟨rfl, rfl⟩ | ⟨rfl, rfl⟩ | ⟨rfl, rfl⟩ | ⟨rfl, rfl⟩ | ⟨rfl, rfl⟩ |
      ⟨rfl, rfl⟩ | ⟨rfl, rfl⟩ | ⟨rfl, rfl⟩ | ⟨rfl, rfl⟩ | ⟨rfl, rfl⟩ | ⟨rfl, rfl⟩ | ⟨rfl, rfl⟩ <;> rfl
  · rw [State.readReg_outside _ hoff]

/-! ### The fields of `STATUS` (R24, R26) -/

theorem State.status_flags (s : State) :
    s.status.getLsbD 0 = s.busy ∧ s.status.getLsbD 1 = s.done ∧ s.status.getLsbD 2 = s.ovr ∧
      s.status.getLsbD 3 = s.initd ∧ s.status.getLsbD 4 = s.dictv ∧ s.status.getLsbD 5 = s.wrun := by
  simp only [State.status, BitVec.getLsbD_append]
  simp

theorem State.status_numbers (s : State) :
    s.status.extractLsb' 6 2 = 0 ∧ s.status.extractLsb' 8 4 = s.code.number ∧ s.status.extractLsb' 12 4 = 0 ∧
      s.status.extractLsb' 16 4 = s.pstage.number ∧ s.status.extractLsb' 20 4 = s.wstage.number ∧
      s.status.extractLsb' 24 8 = 0 := by
  simp (disch := decide) only [State.status, BitVec.extractLsb'_append_eq_of_le, BitVec.extractLsb'_append_eq_right,
    Nat.reduceSub, true_and]
  rfl

/-- Settles O9. -/
theorem statusFields : Obligations.StatusFields := by
  refine ⟨fun s => ?_, by decide, by decide, fun _ => rfl, fun _ => rfl, by decide, fun _ => rfl, fun _ => rfl⟩
  obtain ⟨hbusy, hdone, hovr, hinitd, hdictv, hwrun⟩ := s.status_flags
  exact ⟨hbusy, hdone, hovr, hinitd, hdictv, hwrun, s.status_numbers⟩

/-! ### Reset (R39, R175, R177) -/

/-- What a reset to any memory leaves. -/
theorem State.resetTo_clears (s : State) (m : Memory) :
    (s.resetTo m).status = 0 ∧ (s.resetTo m).job = JobSlot.fill 0 ∧ (s.resetTo m).pview = View.empty ∧
      (s.resetTo m).wview = View.empty ∧ (s.resetTo m).memTop = s.memTop := by
  refine ⟨?_, rfl, rfl, rfl, rfl⟩
  have h : (s.resetTo m).status = State.reset.status := rfl
  rw [h]; decide

/-- Settles O10: either reset is a reset to some memory. -/
theorem resetClears : Obligations.ResetClears := by
  intro s t ht
  have hreset : ∃ m, t = s.resetTo m := by
    rcases ht with rfl | ⟨contents, rfl⟩
    · exact ⟨_, rfl⟩
    · exact ⟨_, rfl⟩
  obtain ⟨m, rfl⟩ := hreset
  obtain ⟨hstatus, hjob, hpview, hwview, hmem⟩ := s.resetTo_clears m
  exact ⟨rfl, rfl, rfl, rfl, rfl, rfl, rfl, rfl, rfl, rfl, hstatus, rfl, rfl, rfl, rfl, rfl, rfl, rfl, rfl, hjob,
    hpview, hwview, hmem⟩

end Sys2Proof.Machine
end

section
/-! PROOFS. What a command's checks find (60_exceptions.md rules R150 to R156), said once for each command that reads or
writes a whole buffer: its checks pass, and the statements' `beginError` names no error, exactly where it fits. -/

namespace Sys2Proof.Machine

/-! ### The single checks -/

@[simp] theorem ckRepeat_fails (b : Bool) : (ckRepeat b).fails = b := rfl

@[simp] theorem ckNeeds_fails (b : Bool) : (ckNeeds b).fails = !b := rfl

@[simp] theorem ckUsage_fails (b : Bool) (v : Word) : (ckUsage b v).fails = b := rfl

@[simp] theorem ckAlign_fails (b : Word) : (ckAlign b).fails = (b.toNat % 4 != 0) := rfl

@[simp] theorem State.ckAddr_fails (s : State) (b : Word) (n : Nat) : (s.ckAddr b n).fails = !s.inMemory b n := rfl

@[simp] theorem State.ckAlloc_fails (s : State) (b : Word) (n : Nat) : (s.ckAlloc b n).fails = !s.inMemory b n := rfl

/-- The checks of a command all pass. -/
def Pass (cs : List Check) : Prop := cs.find? (·.fails) = none

@[simp] theorem pass_nil : Pass [] := rfl

@[simp] theorem pass_cons (c : Check) (cs : List Check) : Pass (c :: cs) ↔ c.fails = false ∧ Pass cs := by
  cases h : c.fails <;> simp [Pass, List.find?, h]

/-! ### Transforms (R106, R107) -/

/-- `XFORM` and `XFORMP` may begin. -/
structure State.XformFits (s : State) : Prop where
  initd : s.initd = true
  aligned : s.dst.toNat % 4 = 0
  source : s.holds s.src s.len.toNat
  output : s.holds s.dst (8 * s.cnt.toNat)

theorem xformChecks_pass (s : State) : Pass (xformChecks s) ↔ s.XformFits := by
  simp only [xformChecks, pass_cons, pass_nil, and_true, ckNeeds_fails, ckAlign_fails, State.ckAddr_fails,
    State.ckAlloc_fails, Bool.not_eq_false', bne_eq_false_iff_eq, State.inMemory_iff]
  exact ⟨fun ⟨h1, h2, h3, h4⟩ => ⟨h1, h2, h3, h4⟩, fun ⟨h1, h2, h3, h4⟩ => ⟨h1, h2, h3, h4⟩⟩

theorem State.beginError_xform (s : State) (g : Grid) : s.beginError (.xform g) = none ↔ s.XformFits := by
  refine ⟨fun h => ?_, fun ⟨h1, h2, h3, h4⟩ => by simp only [State.beginError, h1, h2, h3, h4]; rfl⟩
  simp only [State.beginError] at h
  split_ifs at h with h1 h2 h3 h4
  exact ⟨h1, not_not.1 h2, h3, h4⟩

/-! ### Magnitudes (R108) -/

/-- `MAG` and `SQMAG` may begin. -/
structure State.MagFits (s : State) : Prop where
  sourceAligned : s.src.toNat % 4 = 0
  aligned : s.dst.toNat % 4 = 0
  source : s.holds s.src (8 * s.cnt.toNat)
  output : s.holds s.dst (4 * s.cnt.toNat)

theorem magChecks_pass (s : State) : Pass (magChecks s) ↔ s.MagFits := by
  simp only [magChecks, pass_cons, pass_nil, and_true, ckAlign_fails, State.ckAddr_fails, State.ckAlloc_fails,
    Bool.not_eq_false', bne_eq_false_iff_eq, State.inMemory_iff]
  exact ⟨fun ⟨h1, h2, h3, h4⟩ => ⟨h1, h2, h3, h4⟩, fun ⟨h1, h2, h3, h4⟩ => ⟨h1, h2, h3, h4⟩⟩

theorem State.beginError_mag (s : State) : s.beginError .mag = none ↔ s.MagFits := by
  refine ⟨fun h => ?_, fun ⟨h1, h2, h3, h4⟩ => by simp only [State.beginError, h1, h2, h3, h4]; rfl⟩
  simp only [State.beginError] at h
  split_ifs at h with h1 h2 h3 h4
  exact ⟨not_not.1 h1, not_not.1 h2, h3, h4⟩

/-! ### The dictionary (R135, R140) -/

/-- `LDDICT` may begin. -/
structure State.LddictFits (s : State) : Prop where
  empty : s.dictv = false
  aligned : s.src.toNat % 4 = 0
  source : s.holds s.src 41984

theorem lddictChecks_pass (s : State) :
    Pass [ckRepeat s.dictv, ckAlign s.src, s.ckAddr s.src IMAGE_BYTES] ↔ s.LddictFits := by
  simp only [pass_cons, pass_nil, and_true, ckRepeat_fails, ckAlign_fails, State.ckAddr_fails, Bool.not_eq_false',
    bne_eq_false_iff_eq, State.inMemory_iff]
  exact ⟨fun ⟨h1, h2, h3⟩ => ⟨h1, h2, h3⟩, fun ⟨h1, h2, h3⟩ => ⟨h1, h2, h3⟩⟩

theorem State.beginError_lddict (s : State) : s.beginError .lddict = none ↔ s.LddictFits := by
  refine ⟨fun h => ?_, fun ⟨h1, h2, h3⟩ => by simp only [State.beginError, h1, h2, h3]; rfl⟩
  simp only [State.beginError] at h
  split_ifs at h with h1 h2 h3
  exact ⟨by simpa using h1, not_not.1 h2, h3⟩

/-- `RANK` may begin. -/
structure State.RankFits (s : State) : Prop where
  dictv : s.dictv = true
  len : s.len = 41
  cnt : s.cnt.toNat ≤ 256
  sourceAligned : s.src.toNat % 4 = 0
  aligned : s.dst.toNat % 4 = 0
  source : s.holds s.src 164
  output : s.holds s.dst (8 * s.cnt.toNat)

theorem rankChecks_pass (s : State) :
    Pass [ckNeeds s.dictv, ckUsage (s.len != wordOf Config.KC) s.len,
      ckUsage (decide (Config.NDICT < s.cnt.toNat)) s.cnt, ckAlign s.src, ckAlign s.dst, s.ckAddr s.src SPEC_BYTES,
      s.ckAlloc s.dst (8 * s.cnt.toNat)] ↔ s.RankFits := by
  simp only [pass_cons, pass_nil, and_true, ckNeeds_fails, ckUsage_fails, ckAlign_fails, State.ckAddr_fails,
    State.ckAlloc_fails, Bool.not_eq_false', bne_eq_false_iff_eq, decide_eq_false_iff_not, not_lt, State.inMemory_iff]
  exact ⟨fun ⟨h1, h2, h3, h4, h5, h6, h7⟩ => ⟨h1, h2, h3, h4, h5, h6, h7⟩,
    fun ⟨h1, h2, h3, h4, h5, h6, h7⟩ => ⟨h1, h2, h3, h4, h5, h6, h7⟩⟩

theorem State.beginError_rank (s : State) : s.beginError .rank = none ↔ s.RankFits := by
  refine ⟨fun h => ?_, fun ⟨h1, h2, h3, h4, h5, h6, h7⟩ => by
    simp only [State.beginError, h1, h2, h4, h5, h6, h7, not_lt.2 h3]; rfl⟩
  simp only [State.beginError] at h
  split_ifs at h with h1 h2 h3 h4 h5 h6 h7
  exact ⟨h1, not_not.1 h2, not_lt.1 h3, not_not.1 h4, not_not.1 h5, h6, h7⟩

/-! ### Replicate and the pipeline (R145, R146) -/

/-- `REPL` may begin. -/
structure State.ReplFits (s : State) : Prop where
  source : s.holds s.src s.len.toNat
  size : s.len.toNat * s.cnt.toNat < 2 ^ 32
  output : s.holds s.dst (s.len.toNat * s.cnt.toNat)

theorem replChecks_pass (s : State) : Pass [s.ckAddr s.src s.len.toNat, ckReplAlloc s] ↔ s.ReplFits := by
  simp only [pass_cons, pass_nil, and_true, State.ckAddr_fails, ckReplAlloc, State.ckAlloc_fails, Bool.or_eq_false_iff,
    Bool.not_eq_false', decide_eq_false_iff_not, not_le, State.inMemory_iff]
  exact ⟨fun ⟨h1, h2, h3⟩ => ⟨h1, h2, h3⟩, fun ⟨h1, h2, h3⟩ => ⟨h1, h2, h3⟩⟩

/-- `PIPE` may begin. -/
structure State.PipeFits (s : State) : Prop where
  initd : s.initd = true
  dictv : s.dictv = true
  len : s.len = 8
  aligned : s.dst.toNat % 4 = 0
  source : s.holds s.src 8
  output : s.dst.toNat + 572 ≤ s.memBytes

theorem pipeChecks_pass (s : State) :
    Pass [ckNeeds (s.initd && s.dictv), ckUsage (s.len != wordOf Config.PLEN) s.len, ckAlign s.dst,
      s.ckAddr s.src Config.PLEN, s.ckAlloc s.dst Config.WORK_BYTES] ↔ s.PipeFits := by
  simp only [pass_cons, pass_nil, and_true, ckNeeds_fails, ckUsage_fails, ckAlign_fails, State.ckAddr_fails,
    State.ckAlloc_fails, Bool.not_eq_false', bne_eq_false_iff_eq, Bool.and_eq_true, State.inMemory_iff]
  exact ⟨fun ⟨⟨h1, h2⟩, h3, h4, h5, h6⟩ => ⟨h1, h2, h3, h4, h5, h6.resolve_left (by decide)⟩,
    fun ⟨h1, h2, h3, h4, h5, h6⟩ => ⟨⟨h1, h2⟩, h3, h4, h5, .inr h6⟩⟩

theorem State.beginError_pipe (s : State) (m : PipeMode) : s.beginError (.pipe m) = none ↔ s.PipeFits := by
  refine ⟨fun h => ?_, fun ⟨h1, h2, h3, h4, h5, h6⟩ => by
    have : s.holds s.dst 572 := .inr h6
    simp only [State.beginError, h1, h2, h3, h4, h5, this]; rfl⟩
  simp only [State.beginError] at h
  split_ifs at h with h1 h2 h3 h4 h5
  exact ⟨h1.1, h1.2, not_not.1 h2, not_not.1 h3, h4, h5.resolve_left (by decide)⟩

end Sys2Proof.Machine
end

section
/-! PROOFS. Nothing is ever stored outside `MEM` (20_memory.md rule R49, 45_pipeline.md rule R146): `Below` bounds every
stored, pending and disturbed byte, each operation keeps it where its own writes are bounded, and the checks at command
begin bound the writes of a command. -/

namespace Sys2Proof.Machine

/-! ### Shared storage -/

/-- Every listed byte lies below `n`. -/
def Memory.Below (m : Memory) (n : Nat) : Prop := ∀ c ∈ m.cells, c.1 < n

theorem mem_writeCells {cs : List Host.Cell} {a : Nat} {v : Byte} {x : Host.Cell} (h : x ∈ writeCells cs a v) :
    x.1 = a ∨ x ∈ cs := by
  induction cs with
  | nil =>
    simp only [writeCells] at h
    split at h
    · exact .inr h
    · exact .inl (congrArg Prod.fst (List.mem_singleton.1 h))
  | cons c t ih =>
    simp only [writeCells] at h
    split_ifs at h
    · exact .inr h
    · exact (List.mem_cons.1 h).imp_left (congrArg Prod.fst)
    · exact .inr (List.mem_cons_of_mem c h)
    · exact (List.mem_cons.1 h).imp (congrArg Prod.fst) (List.mem_cons_of_mem c)
    · rcases List.mem_cons.1 h with rfl | h
      · exact .inr List.mem_cons_self
      · exact (ih h).imp_right (List.mem_cons_of_mem c)

section
variable {m : Memory} {n : Nat} (h : m.Below n)
include h

theorem Memory.Below.write {a : Nat} (ha : a < n) (v : Byte) : (m.write a v).Below n := by
  intro c hc
  rcases mem_writeCells hc with rfl | hc
  · exact ha
  · exact h c hc

theorem Memory.Below.writeWord {a : Nat} (ha : a + 4 ≤ n) (w : Word) : (m.writeWord a w).Below n :=
  (((h.write (by omega) _).write (by omega) _).write (by omega) _).write (by omega) _

theorem Memory.Below.writeAll {cs : List Host.Cell} (hcs : ∀ c ∈ cs, c.1 < n) : (m.writeAll cs).Below n := by
  induction cs generalizing m with
  | nil => exact h
  | cons c t ih =>
    obtain ⟨hc, ht⟩ := List.forall_mem_cons.1 hcs
    exact ih (h.write hc c.2) ht

end

/-! ### The state, and the operations shared by the commands -/

/-- Every byte listed, pending or written by the host meanwhile lies below `n`. -/
def State.Below (s : State) (n : Nat) : Prop :=
  s.mem.Below n ∧ (∀ e ∈ s.pview.sb, e.within n) ∧ (∀ e ∈ s.wview.sb, e.within n) ∧ ∀ a ∈ s.disturbed, a < n

section
variable {s : State} {n : Nat} (h : s.Below n)
include h

theorem State.Below.view (c : CoreId) : ∀ e ∈ (s.view c).sb, e.within n := by
  obtain ⟨-, hp, hw, -⟩ := h
  cases c with
  | p => exact hp
  | w => exact hw

theorem State.Below.setView (c : CoreId) {v : View} (hv : ∀ e ∈ v.sb, e.within n) : (s.setView c v).Below n := by
  obtain ⟨hm, hp, hw, hd⟩ := h
  cases c with
  | p => exact ⟨hm, hv, hw, hd⟩
  | w => exact ⟨hm, hp, hv, hd⟩

theorem State.Below.setRegs (c : CoreId) (r : Datapath) : (s.setRegs c r).Below n := by cases c <;> exact h

theorem State.Below.enqueue (c : CoreId) {e : Pending} (he : e.within n) : (s.enqueue c e).Below n := by
  refine h.setView c fun f hf => ?_
  rcases List.mem_append.1 hf with hf | hf
  · exact h.view c f hf
  · rw [List.mem_singleton.1 hf]; exact he

theorem State.Below.noteWord (c : CoreId) (k : Nat) : (s.noteWord c k).Below n := by
  have hdrop : s.dropKeep.Below n := h
  rcases s.noteWord_cases c k with he | he | ⟨-, he⟩ <;> rw [he]
  · exact h
  · exact h
  · exact hdrop.setView c (h.view c)

theorem State.Below.noteRead (c : CoreId) (a k : Nat) : (s.noteRead c a k).Below n := by
  rcases s.noteRead_cases c a k with he | he <;> rw [he]
  · exact h.noteWord c _
  · exact h.noteWord c _

theorem State.Below.noteJob (c : CoreId) (i : JobIx) : (s.noteJob c i).Below n := by
  have hdrop : s.dropKeep.Below n := h
  rcases s.noteJob_cases c i with he | he | ⟨-, he⟩ <;> rw [he]
  · exact h
  · exact h
  · exact hdrop.setView c (h.view c)

theorem State.Below.land (c : CoreId) {e : Pending} (he : e.within n) : (s.land c e).Below n := by
  have happly : (s.apply e).Below n := by
    obtain ⟨hm, hrest⟩ := h
    cases e with
    | byte a v => exact ⟨hm.write he v, hrest⟩
    | word a v => exact ⟨hm.writeWord he v, hrest⟩
    | job i v => exact ⟨hm, hrest⟩
  exact happly.setView c (h.view c)

theorem State.Below.landAll (c : CoreId) {es : List Pending} (hes : ∀ e ∈ es, e.within n) :
    (s.landAll c es).Below n := by
  induction es generalizing s with
  | nil => exact h
  | cons e es ih =>
    obtain ⟨he, hes⟩ := List.forall_mem_cons.1 hes
    exact ih (h.land c he) hes

theorem State.Below.fenceRel (c : CoreId) : (s.fenceRel c).Below n :=
  (h.setView c (v := { s.view c with sb := [] }) fun _ he => nomatch he).landAll c (h.view c)

theorem State.Below.fenceAcq (c : CoreId) : (s.fenceAcq c).Below n := h.setView c (h.view c)

theorem State.Below.drain (c : CoreId) (k : Nat) : (s.drain c k).Below n := by
  unfold State.drain
  split
  · exact h
  · next e he =>
    split
    · exact h
    · exact (h.setView c fun f hf => h.view c f (List.mem_of_mem_eraseIdx hf)).land c
        (h.view c e (List.mem_of_getElem? he))

theorem State.Below.evict (c : CoreId) (l : WordLoc) : (s.evict c l).Below n := by
  cases l <;> exact h.setView c (h.view c)

theorem State.Below.settle : s.settle.Below n := by
  obtain ⟨hm, hp, hw, hd⟩ := h
  refine ⟨hm.writeAll fun c hc => ?_, hp, hw, fun a ha => nomatch ha⟩
  obtain ⟨a, ha, rfl⟩ := List.mem_map.1 hc
  exact hd a ha

theorem State.Below.disturb {a k : Nat} (ha : a + k ≤ n) : (s.disturb a k).Below n := by
  obtain ⟨hm, hp, hw, hd⟩ := h
  have hxs : ∀ x ∈ (List.range k).map (a + ·), x < n := by
    intro x hx
    obtain ⟨i, hi, rfl⟩ := List.mem_map.1 hx
    have := List.mem_range.1 hi
    omega
  refine ⟨hm.writeAll fun c hc => ?_, hp, hw, fun x hx => ?_⟩
  · obtain ⟨x, hx, rfl⟩ := List.mem_map.1 hc
    exact hxs x hx
  · rcases List.mem_append.1 hx with hx | hx
    · exact hxs x (List.mem_of_mem_filter hx)
    · exact hd x hx

/-! ### The loops of the commands -/

theorem State.Below.readWords (c : CoreId) (a k : Nat) : (s.readWords c a k).2.Below n := by
  induction k generalizing s a with
  | zero => exact h
  | succ k ih => exact ih (h.noteRead c a 4) _

theorem State.Below.readPairs (a b k : Nat) : (s.readPairs a b k).2.2.Below n := by
  induction k generalizing s a b with
  | zero => exact h
  | succ k ih => exact ih ((h.noteRead .p a 4).noteRead .p b 4) _ _

theorem State.Below.sample {t : State} {c : CoreId} {sig : Nat} (ht : s.sample c sig = .ok t) : t.Below n := by
  simp only [State.sample, State.readByte] at ht
  split at ht <;> cases ht
  exact (h.noteRead c _ 1).setRegs c _

theorem State.Below.samples {t : State} {c : CoreId} {sig m : Nat} (ht : s.samples c sig m = .ok t) : t.Below n := by
  induction m generalizing s with
  | zero => cases ht; exact h
  | succ m ih =>
    rw [State.samples] at ht
    split at ht
    · next hs => exact ih (h.sample hs) ht
    · cases ht

theorem State.Below.bin {t : State} {c : CoreId} {sig m : Nat} {w : Word} (ht : s.bin c sig m w = .ok t) :
    t.Below n := (h.setRegs c _).samples ht

theorem State.Below.transformBin {t : State} {c : CoreId} {j : Job} (ht : s.transformBin c j = .ok t)
    (hout : binAddr j.out (s.regs c).kidx.toNat + 8 ≤ n) :
    t.Below n ∧ (t.regs c).kidx = (s.regs c).kidx + 1 := by
  simp only [State.transformBin] at ht
  split at ht
  · next u hu =>
    cases ht
    have hdraw : (s.draw OMEGA_DRAWS).Below n := h
    have hre : Pending.within n (.word (binAddr j.out (s.regs c).kidx.toNat) (u.regs c).re) := by
      simp only [Pending.within]; omega
    have him : Pending.within n (.word (binAddr j.out (s.regs c).kidx.toNat + 4) (u.regs c).im) := hout
    exact ⟨(((hdraw.bin hu).enqueue c hre).enqueue c him).setRegs c _, by rw [State.setRegs_regs]⟩
  · cases ht

theorem State.Below.transformBins {t : State} {c : CoreId} {j : Job} {m : Nat} (ht : s.transformBins c j m = .ok t)
    (hn : n ≤ 2 ^ 32) (hout : m ≠ 0 → j.out.toNat + 8 * ((s.regs c).kidx.toNat + m) ≤ n) : t.Below n := by
  induction m generalizing s with
  | zero => cases ht; exact h
  | succ m ih =>
    have hout := hout (Nat.succ_ne_zero m)
    rw [State.transformBins] at ht
    split at ht
    · next u hu =>
      obtain ⟨hbelow, hk⟩ := h.transformBin hu (by simp only [binAddr]; omega)
      have hnext : (u.regs c).kidx.toNat = (s.regs c).kidx.toNat + 1 := by
        rw [hk]; exact BitVec.toNat_add_of_lt (by show _ + 1 < _; omega)
      exact ih hbelow ht (by omega)
    · cases ht

theorem State.Below.transform {t : State} {c : CoreId} {j : Job} (ht : s.transform c j = .ok t) (hn : n ≤ 2 ^ 32)
    (hout : j.k0.toNat < j.k1.toNat → j.out.toNat + 8 * j.k1.toNat ≤ n) : t.Below n := by
  refine (h.setRegs c _).transformBins ht hn fun hm => ?_
  have hout := hout (by omega)
  rw [State.setRegs_regs]
  simp only
  omega

omit h in
@[simp] theorem State.noteRead_regs (s : State) (c : CoreId) (a k : Nat) : (s.noteRead c a k).regs c = s.regs c := by
  rcases s.noteRead_cases c a k with he | he <;> simp [he]

theorem State.Below.magEntry (f : Nat → Word → Word → Word) (src dst : Nat)
    (hdst : dst + 4 * s.pregs.kidx.toNat + 4 ≤ n) :
    (s.magEntry f src dst).Below n ∧ (s.magEntry f src dst).pregs.kidx = s.pregs.kidx + 1 := by
  have hread : ∀ a b, ((s.noteRead .p a 4).noteRead .p b 4).pregs = s.pregs := fun a b =>
    (State.noteRead_regs _ .p b 4).trans (s.noteRead_regs .p a 4)
  obtain ⟨a, b, w, r, he, hr⟩ : ∃ a b w r, s.magEntry f src dst = ((((s.noteRead .p a 4).noteRead .p b 4).writeWord .p
      (dst + 4 * s.pregs.kidx.toNat) w).draw MAG_DRAWS).setRegs .p r ∧ r.kidx = s.pregs.kidx + 1 :=
    ⟨_, _, _, _, rfl, congrArg (·.kidx + 1) (hread _ _)⟩
  have hword : Pending.within n (.word (dst + 4 * s.pregs.kidx.toNat) w) := hdst
  have hwritten : ((((s.noteRead .p a 4).noteRead .p b 4).writeWord .p (dst + 4 * s.pregs.kidx.toNat) w).draw
      MAG_DRAWS).Below n := ((h.noteRead .p a 4).noteRead .p b 4).enqueue .p hword
  rw [he]
  exact ⟨hwritten.setRegs .p r, hr⟩

theorem State.Below.magEntries (f : Nat → Word → Word → Word) (src dst : Nat) {m : Nat} (hn : n ≤ 2 ^ 32)
    (hdst : m ≠ 0 → dst + 4 * (s.pregs.kidx.toNat + m) ≤ n) : (s.magEntries f src dst m).Below n := by
  induction m generalizing s with
  | zero => exact h
  | succ m ih =>
    have hdst := hdst (Nat.succ_ne_zero m)
    obtain ⟨hbelow, hk⟩ := h.magEntry f src dst (by omega)
    have hnext : (s.magEntry f src dst).pregs.kidx.toNat = s.pregs.kidx.toNat + 1 := by
      rw [hk]; exact BitVec.toNat_add_of_lt (by show _ + 1 < _; omega)
    exact ih hbelow (by omega)

theorem State.Below.magSpectrum (f : Nat → Word → Word → Word) (src dst : Nat) {m : Nat} (hn : n ≤ 2 ^ 32)
    (hdst : m ≠ 0 → dst + 4 * m ≤ n) : (s.magSpectrum f src dst m).Below n := by
  refine (h.setRegs .p { s.pregs with kidx := 0 }).magEntries f src dst hn fun hm => ?_
  have hzero : (s.setRegs .p { s.pregs with kidx := 0 }).pregs.kidx.toNat = 0 := rfl
  have := hdst hm
  omega

theorem State.Below.copyBytes (src dst : Nat) {m : Nat} (hdst : m ≠ 0 → dst + m ≤ n) :
    (s.copyBytes src dst m).Below n := by
  induction m generalizing s src dst with
  | zero => exact h
  | succ m ih =>
    have hdst := hdst (Nat.succ_ne_zero m)
    have hbyte : ∀ v, Pending.within n (.byte dst v) := fun _ => show dst < n by omega
    exact ih ((h.noteRead .p src 1).enqueue .p (hbyte _)) _ _ (by omega)

theorem State.Below.replicate (src dst : Nat) {m r : Nat} (hdst : m * r ≠ 0 → dst + m * r ≤ n) :
    (s.replicate src dst m r).Below n := by
  induction r generalizing s dst with
  | zero => exact h
  | succ r ih =>
    rw [Nat.mul_succ] at hdst
    exact ih (h.copyBytes src dst (by omega)) _ (by omega)

theorem State.Below.writeRecords {a : Nat} {rs : List (Nat × Word)} (ha : rs ≠ [] → a + 8 * rs.length ≤ n) :
    (s.writeRecords a rs).Below n := by
  induction rs generalizing s a with
  | nil => exact h
  | cons r rs ih =>
    have ha := ha (List.cons_ne_nil r rs)
    rw [List.length_cons] at ha
    have hfirst : Pending.within n (.word a (wordOf r.1)) := show a + 4 ≤ n by omega
    have hsecond : Pending.within n (.word (a + 4) r.2) := show a + 4 + 4 ≤ n by omega
    exact ih ((h.enqueue .p hfirst).enqueue .p hsecond) (fun _ => by omega)

end

/-! ### The work area of a `PIPE`, and what a command leaves (R146, R147) -/

/-- While a `PIPE` is under way its work area lies below `n`. -/
def State.WorkBelow (s : State) (n : Nat) : Prop :=
  s.pstage = .tail ∨ (s.pcmd = .pipe ∧ s.pstage ≠ .idle ∧ s.pstage ≠ .begin) → s.dst.toNat + 572 ≤ n

/-- The invariant for a memory of `n` bytes. -/
def State.Inside (s : State) (n : Nat) : Prop := s.Below n ∧ s.WorkBelow n

theorem State.insideMemory_iff (s : State) : s.InsideMemory ↔ s.Inside s.memBytes := by
  simp only [State.InsideMemory, State.Inside, State.Below, Memory.Below, State.WorkBelow, and_assoc]

theorem State.memBytes_le (s : State) : s.memBytes ≤ 2 ^ 32 := by
  have := s.memTop.isLt
  simp only [State.memBytes]
  omega

/-- An idle `P` has no work area. -/
theorem State.Below.inside_of_idle {s : State} {n : Nat} (h : s.Below n) (hp : s.pstage = .idle) : s.Inside n :=
  ⟨h, by simp [State.WorkBelow, hp]⟩

/-- Command end (R86). -/
theorem State.Below.finish {s : State} {n : Nat} (h : s.Below n) : s.finish.Inside n :=
  State.Below.inside_of_idle (h.fenceRel .p).settle rfl

/-- An error end (R160). -/
theorem State.Below.raise {s : State} {n : Nat} (h : s.Below n) (e : Code) (info : Word) :
    (s.raise e info).Inside n := by
  obtain ⟨hm, hp, hw, -⟩ := h
  exact State.Below.inside_of_idle ⟨hm, hp, hw, fun _ ha => nomatch ha⟩ rfl

/-- Every next state an outcome answers keeps the invariant. -/
def StaysInside (n : Nat) (o : Host.Outcome State Fault Refusal) : Prop := ∀ t, o = .next t → t.Inside n

theorem State.Inside.next {s : State} {n : Nat} (h : s.Inside n) : StaysInside n (.next s) := by
  intro t ht; cases ht; exact h

theorem State.Below.checked {s : State} {n : Nat} (h : s.Below n) {f : State → List Check}
    {body : State → Host.Outcome State Fault Refusal}
    (hbody : ∀ u : State, u.Below n → u.memBytes = s.memBytes → Pass (f u) → StaysInside n (body u)) :
    StaysInside n (s.checked f body) := by
  unfold State.checked
  split
  · exact ((h.fenceAcq .p).raise _ _).next
  · next hf => exact hbody _ (h.fenceAcq .p) rfl hf

theorem State.Below.orNum {s : State} {n : Nat} (h : s.Below n) {r : Except Angle State}
    {k : State → Host.Outcome State Fault Refusal} (hk : ∀ t, r = .ok t → StaysInside n (k t)) :
    StaysInside n (orNum s r k) := by
  cases r with
  | ok t => exact hk t rfl
  | error e =>
    have hdraws : State.Below { s with draws := e.2 } n := h
    exact (hdraws.raise _ _).next

theorem State.Below.answerLookup {s : State} {n : Nat} (h : s.Below n) (r : Option Word) :
    StaysInside n (answerLookup s r) := by
  cases r with
  | none => exact (h.raise _ _).next
  | some v =>
    have hresf : ({ s with resf := v }.draw LOOKUP_DRAWS).Below n := h
    exact hresf.finish.next

theorem State.Below.setResi {s : State} {n : Nat} (h : s.Below n) (v : Word) : State.Below { s with resi := v } n := h

/-- The two buffers of the work area behind the pattern, where the area lies in memory (R146). -/
theorem workArea_toNat {b : Word} (h : b.toNat + 572 ≤ 2 ^ 32) :
    (b + SPECTRUM_AT).toNat = b.toNat + 0x50 ∧ (b + SQUARES_AT).toNat = b.toNat + 0x198 :=
  ⟨BitVec.toNat_add_of_lt (by show _ + 0x50 < _; omega), BitVec.toNat_add_of_lt (by show _ + 0x198 < _; omega)⟩

theorem pipeTail_inside {s : State} {n : Nat} (h : s.Below n) (hn : n ≤ 2 ^ 32) (hdst : s.dst.toNat + 572 ≤ n) :
    (pipeTail s).Inside n := by
  obtain ⟨-, hsquares⟩ := workArea_toNat (hdst.trans hn)
  have hmags := h.magSpectrum sqmagOf (s.dst + SPECTRUM_AT).toNat (s.dst + SQUARES_AT).toNat (m := Config.KC) hn
    (fun _ => by rw [hsquares]; show _ + 4 * 41 ≤ _; omega)
  rw [pipeTail]
  generalize s.magSpectrum sqmagOf (s.dst + SPECTRUM_AT).toNat (s.dst + SQUARES_AT).toNat Config.KC = s1 at hmags ⊢
  have hread := hmags.readWords .p (s.dst + SQUARES_AT).toNat Config.KC
  generalize s1.readWords .p (s.dst + SQUARES_AT).toNat Config.KC = r at hread ⊢
  have hbest : (r.2.classifySpectrum r.1).Below n := hread
  exact hbest.finish

/-! ### The commands -/

section
variable {s : State} (h : s.Below s.memBytes)
include h

theorem execInit_inside : StaysInside s.memBytes (execInit s) :=
  h.checked fun u hu _ _ => (show (fillTables u).Below s.memBytes from hu).finish.next

theorem execWlaunch_inside : StaysInside s.memBytes (execWlaunch s) :=
  h.checked fun u hu _ _ =>
    (show State.Below { u with wrun := true, wstage := .pollFence } s.memBytes from hu).finish.next

theorem execSin_inside : StaysInside s.memBytes (execSin s) := h.checked fun _ hu _ _ => hu.answerLookup _

theorem execCos_inside : StaysInside s.memBytes (execCos s) := h.checked fun _ hu _ _ => hu.answerLookup _

theorem execMagat_inside : StaysInside s.memBytes (execMagat s) :=
  h.checked fun u hu _ _ => hu.orNum fun t ht => by
    have hbin : t.Below s.memBytes := hu.bin ht
    have hresf : ({ t with resf := magOf t.draws t.pregs.re t.pregs.im }.draw MAG_DRAWS).Below s.memBytes := hbin
    exact hresf.finish.next

theorem execXform_inside (g : Grid) : StaysInside s.memBytes (execXform g s) :=
  h.checked fun u hu hmem hpass => hu.orNum fun t ht => by
    have hfits := (xformChecks_pass u).1 hpass
    refine ((hu.transform ht s.memBytes_le fun hk => ?_).setResi u.cnt).finish.next
    have hpos : 0 < u.cnt.toNat := hk
    exact hmem ▸ hfits.output.resolve_left (by omega)

theorem execXformp_inside (g : Grid) : StaysInside s.memBytes (execXformp g s) :=
  h.checked fun u hu _ _ => State.Inside.next ⟨hu, by simp [State.WorkBelow, State.publish]⟩

/-- `MAG` and `SQMAG`. -/
theorem mags_inside (f : Nat → Word → Word → Word) : StaysInside s.memBytes (s.checked magChecks fun s =>
    .next { s.magSpectrum f s.src.toNat s.dst.toNat s.cnt.toNat with resi := s.cnt }.finish) :=
  h.checked fun u hu hmem hpass => by
    have hfits := (magChecks_pass u).1 hpass
    refine ((hu.magSpectrum f u.src.toNat u.dst.toNat s.memBytes_le fun hk => ?_).setResi u.cnt).finish.next
    exact hmem ▸ hfits.output.resolve_left (by omega)

omit h in
theorem lddict_finish_inside {n : Nat} {r : List Word × State} (hr : r.2.Below n) :
    StaysInside n (.next { r.2 with dict := dictOf r.1, dictv := true }.finish) := by
  have hdict : State.Below { r.2 with dict := dictOf r.1, dictv := true } n := hr
  exact hdict.finish.next

theorem execLddict_inside : StaysInside s.memBytes (execLddict s) :=
  h.checked fun u hu _ _ => lddict_finish_inside (hu.readWords .p u.src.toNat (Config.NDICT * Config.KC))

theorem execDist_inside : StaysInside s.memBytes (execDist s) := by
  refine h.checked fun u hu _ _ => ?_
  have hread := hu.readPairs u.src.toNat u.aux.toNat Config.KC
  generalize u.readPairs u.src.toNat u.aux.toNat Config.KC = r at hread ⊢
  obtain ⟨a, b, t⟩ := r
  have hresf : ({ t with
      pregs := { t.pregs with re := distF t.draws a b }, resf := distF t.draws a b }.draw DIST_DRAWS).Below
        s.memBytes := hread
  exact hresf.finish.next

theorem execClassify_inside : StaysInside s.memBytes (execClassify s) := by
  refine h.checked fun u hu _ _ => ?_
  have hread := hu.readWords .p u.src.toNat Config.KC
  generalize u.readWords .p u.src.toNat Config.KC = r at hread ⊢
  have hbest : (r.2.classifySpectrum r.1).Below s.memBytes := hread
  exact hbest.finish.next

theorem execRank_inside : StaysInside s.memBytes (execRank s) := by
  refine h.checked fun u hu hmem hpass => ?_
  have hfits := (rankChecks_pass u).1 hpass
  have hread := hu.readWords .p u.src.toNat Config.KC
  generalize u.readWords .p u.src.toNat Config.KC = r at hread ⊢
  have hranked : State.Below { (r.2.computeDistances r.1).2 with rd := (r.2.computeDistances r.1).1 } s.memBytes :=
    hread
  refine ((hranked.writeRecords fun hne => ?_).setResi u.cnt).finish.next
  have hlen := List.length_take_le u.cnt.toNat (ranked (r.2.computeDistances r.1).1.toList)
  have hpos : 0 < (List.take u.cnt.toNat (ranked (r.2.computeDistances r.1).1.toList)).length := List.length_pos_iff.2 hne
  have := hfits.output.resolve_left (by omega)
  exact (Nat.add_le_add_left (Nat.mul_le_mul_left 8 hlen) _).trans (hmem ▸ this)

theorem execRepl_inside : StaysInside s.memBytes (execRepl s) := by
  refine h.checked fun u hu hmem hpass => ?_
  have hfits := (replChecks_pass u).1 hpass
  refine ((hu.replicate u.src.toNat u.dst.toNat fun hk => ?_).setResi (wordOf (replSize u))).finish.next
  exact hmem ▸ hfits.output.resolve_left hk

theorem execPipe_inside (m : PipeMode) : StaysInside s.memBytes (execPipe m s) := by
  refine h.checked fun u hu hmem hpass => ?_
  have hfits := (pipeChecks_pass u).1 hpass
  have hdst : u.dst.toNat + 572 ≤ s.memBytes := hmem ▸ hfits.output
  obtain ⟨hspectrum, -⟩ := workArea_toNat (hdst.trans s.memBytes_le)
  have hrep := hu.replicate u.src.toNat u.dst.toNat (m := Config.PLEN) (r := Config.REP)
    (fun _ => by show _ + 80 ≤ _; omega)
  have hframe := (u.replicate_work u.src.toNat u.dst.toNat Config.PLEN Config.REP).hostFrame.fields
  unfold pipeBody
  generalize u.replicate u.src.toNat u.dst.toNat Config.PLEN Config.REP = v at hrep hframe ⊢
  obtain ⟨-, -, -, hsame, -⟩ := hframe
  have hvdst : v.dst.toNat + 572 ≤ s.memBytes := by rw [hsame]; exact hdst
  cases m with
  | serial =>
    refine hu.orNum fun t ht => ?_
    have htdst : t.dst = v.dst := by
      obtain ⟨-, -, -, hd, -⟩ := (State.transform_work ht).hostFrame.fields
      exact hd
    refine (pipeTail_inside (hrep.transform ht s.memBytes_le fun _ => ?_) s.memBytes_le (htdst ▸ hvdst)).next
    show (u.dst + SPECTRUM_AT).toNat + 8 * 41 ≤ _
    rw [hspectrum]
    omega
  | parallel => exact State.Inside.next ⟨hrep, fun _ => hvdst⟩

theorem exec_inside (i : Instr) : StaysInside s.memBytes (exec i s) := by
  cases i with
  | init => exact execInit_inside h
  | sin => exact execSin_inside h
  | cos => exact execCos_inside h
  | magat => exact execMagat_inside h
  | xform g => exact execXform_inside h g
  | xformp g => exact execXformp_inside h g
  | mag => exact mags_inside h magOf
  | sqmag => exact mags_inside h sqmagOf
  | wlaunch => exact execWlaunch_inside h
  | lddict => exact execLddict_inside h
  | dist => exact execDist_inside h
  | classify => exact execClassify_inside h
  | rank => exact execRank_inside h
  | repl => exact execRepl_inside h
  | pipe m => exact execPipe_inside h m

end

/-! ### The cores' steps -/

/-- One step of a transform bin is the core's own work, and writes inside memory wherever it goes on. -/
theorem State.Below.binStep {s : State} (h : s.Below s.memBytes) (c : CoreId) (j : Job) (kEnd : Word) (b : BinPos) :
    (∃ b' t, s.binStep c j kEnd b = .at b' t ∧ t.Below s.memBytes ∧ OnlyCore c s t) ∨
      s.binStep c j kEnd b = .done s ∨ (∃ a, s.binStep c j kEnd b = .stuck a) ∨
      ∃ a, s.binStep c j kEnd b = .outside a := by
  cases b with
  | next =>
    by_cases hk : (s.regs c).kidx.toNat < kEnd.toNat
    · exact .inl ⟨_, _, if_pos hk, h.setRegs c _, ((Work.setRegs c s _).trans (.draw c _ _)).only⟩
    · exact .inr (.inl (if_neg hk))
  | sample =>
    by_cases ha : j.sig.toNat + (s.regs c).nidx.toNat < s.memBytes
    · cases hs : s.sample c j.sig.toNat with
      | ok t =>
        have hstep : s.binStep c j kEnd .sample =
            .at (if (t.regs c).nidx.toNat < j.n.toNat then .sample else .re) t := by simp [State.binStep, ha, hs]
        exact .inl ⟨_, t, hstep, h.sample hs, (State.sample_work hs).only⟩
      | error e => exact .inr (.inr (.inl ⟨e.1, by simp [State.binStep, ha, hs]⟩))
    · exact .inr (.inr (.inr ⟨_, if_neg ha⟩))
  | re =>
    by_cases ha : binAddr j.out (s.regs c).kidx.toNat + 4 ≤ s.memBytes
    · exact .inl ⟨_, _, if_pos ha, h.enqueue c (e := .word _ _) ha, ((Work.writeWord c s _ _).trans (.draw c _ _)).only⟩
    · exact .inr (.inr (.inr ⟨_, if_neg ha⟩))
  | im =>
    by_cases ha : binAddr j.out (s.regs c).kidx.toNat + 4 + 4 ≤ s.memBytes
    · exact .inl ⟨_, _, if_pos ha, (h.enqueue c (e := .word _ _) ha).setRegs c _,
        (((Work.writeWord c s _ _).trans (.setRegs c _ _)).trans (.draw c _ _)).only⟩
    · exact .inr (.inr (.inr ⟨_, if_neg ha⟩))

/-- `P` between command begin and command end: `DST` and the latched command stay, and `P` comes to the rest of a `PIPE`
only in a `PIPE`. -/
theorem State.Inside.goesOn {s u : State} {n : Nat} (h : s.Inside n) (hp : s.pstage ≠ .idle ∧ s.pstage ≠ .begin)
    (hu : u.Below n) (hdst : u.dst = s.dst) (hcmd : u.pcmd = s.pcmd) (htail : u.pstage = .tail → s.pcmd = .pipe) :
    u.Inside n := by
  obtain ⟨-, hwork⟩ := h
  refine ⟨hu, fun hunder => ?_⟩
  have hpipe : s.pcmd = .pipe := hunder.elim htail fun hc => hcmd ▸ hc.1
  rw [hdst]
  exact hwork (.inr ⟨hpipe, hp⟩)

theorem ownStep_inside {s : State} (h : s.Inside s.memBytes) {b : BinPos} (hp : s.pstage = .own b) :
    StaysInside s.memBytes (ownStep b s) := by
  have hstage : s.pstage ≠ .idle ∧ s.pstage ≠ .begin := by simp [hp]
  unfold ownStep
  rcases h.1.binStep .p s.pjob s.pjob.k0 b with ⟨b', t, hstep, hbelow, honly⟩ | hstep | ⟨a, hstep⟩ | ⟨a, hstep⟩ <;>
    rw [hstep]
  · simp only [OnlyCore] at honly
    refine (h.goesOn hstage (u := { t with pstage := .own b' }) hbelow ?_ ?_ (by simp)).next <;> rw [honly]
  · exact (h.goesOn hstage (u := { s with pstage := .waitFence }) h.1 rfl rfl (by simp)).next
  · exact fun _ ht => nomatch ht
  · exact fun _ ht => nomatch ht

theorem pubNext_ne_tail (i : JobIx) : pubNext i ≠ .tail := by cases i <;> simp [pubNext]

theorem producerStep_inside {s : State} (h : s.Inside s.memBytes) : StaysInside s.memBytes (producerStep s) := by
  obtain ⟨hbelow, hwork⟩ := id h
  have hslot : ∀ i v, (s.writeJob .p i v).Below s.memBytes := fun i v => hbelow.enqueue .p (e := .job i v) trivial
  unfold producerStep
  split
  · exact h.next
  · split
    · exact exec_inside hbelow _
    · exact ((hbelow.fenceAcq .p).raise _ _).next
  · next i hp =>
    exact (h.goesOn (by simp [hp]) (u := pubStep i s) (hslot i _) rfl rfl fun ht => absurd ht (pubNext_ne_tail i)).next
  · next hp =>
    exact (h.goesOn (by simp [hp]) (u := fenceStep s) (hbelow.fenceRel .p) (s.fenceRel_dst .p) (s.fenceRel_pcmd .p)
      fun ht => nomatch ht).next
  · next hp =>
    exact (h.goesOn (by simp [hp]) (u := trigStep s) (hslot .sigp _) rfl rfl fun ht => nomatch ht).next
  · next hp => exact ownStep_inside h hp
  · next hp =>
    exact (h.goesOn (by simp [hp]) (u := waitFenceStep s) (hbelow.fenceAcq .p) rfl rfl fun ht => nomatch ht).next
  · next hp =>
    have hframe : (s.noteJob .p .done).dst = s.dst ∧ (s.noteJob .p .done).pcmd = s.pcmd := by
      rcases s.noteJob_cases .p .done with he | he | ⟨-, he⟩ <;> rw [he] <;> exact ⟨rfl, rfl⟩
    refine (h.goesOn (by simp [hp]) (u := waitReadStep s) (hbelow.noteJob .p .done) hframe.1 hframe.2 ?_).next
    simp only [waitReadStep]
    split <;> exact fun ht => nomatch ht
  · next hp =>
    refine (h.goesOn (by simp [hp]) (u := finStep s) (hbelow.fenceAcq .p) rfl rfl ?_).next
    simp only [finStep]
    cases s.pcmd <;> simp
  · exact (hbelow.setResi s.cnt).finish.next
  · next hp => exact (pipeTail_inside hbelow s.memBytes_le (hwork (.inl hp))).next

/-- `W` and `MSYS` leave `DST` and the sequencer of `P` alone. -/
theorem State.Inside.frame {s t : State} {n : Nat} (h : s.Inside n) (ht : t.Below n) (hdst : t.dst = s.dst)
    (hcmd : t.pcmd = s.pcmd) (hp : t.pstage = s.pstage) : t.Inside n := by
  refine ⟨ht, ?_⟩
  rw [State.WorkBelow, hp, hcmd, hdst]
  exact h.2

theorem runStep_below {s t : State} (h : s.Below s.memBytes) {b : BinPos} (ht : runStep b s = .next t) :
    t.Below s.memBytes := by
  unfold runStep at ht
  rcases h.binStep .w s.wjob s.wjob.k1 b with ⟨b', u, hstep, hbelow, -⟩ | hstep | ⟨a, hstep⟩ | ⟨a, hstep⟩ <;>
    rw [hstep] at ht <;> cases ht
  · exact hbelow
  · exact h

theorem workerStep_inside {s : State} (h : s.Inside s.memBytes) : StaysInside s.memBytes (workerStep s) := by
  intro t ht
  have hframe : t.dst = s.dst ∧ t.pcmd = s.pcmd ∧ t.pstage = s.pstage := by
    obtain ⟨honly, -⟩ := workerTouchesOnlyItsOwn s t ht
    rw [honly]
    exact ⟨rfl, rfl, rfl⟩
  refine h.frame ?_ hframe.1 hframe.2.1 hframe.2.2
  have hbelow := h.1
  have hslot : ∀ i v, (s.writeJob .w i v).Below s.memBytes := fun i v => hbelow.enqueue .w (e := .job i v) trivial
  unfold workerStep at ht
  split at ht
  · cases ht; exact hbelow
  · cases ht; exact hbelow.fenceAcq .w
  · cases ht; exact hbelow.noteJob .w .sigp
  · next i _ => cases ht; exact hbelow.noteJob .w i
  · exact runStep_below hbelow ht
  · cases ht; exact hbelow.fenceRel .w
  · cases ht; exact hslot .done 1
  · cases ht; exact hslot .sigp 0

/-! ### Reset (R175, R176) -/

theorem State.Below.memoryToCome {s : State} (h : s.Inside s.memBytes) : s.memoryToCome.Below s.memBytes := by
  obtain ⟨hbelow, hwork⟩ := h
  unfold State.memoryToCome
  split
  · split
    · next i _ =>
      split
      · next t ht => exact ((exec_inside hbelow i t ht).1.fenceRel .p).1
      · exact hbelow.1
    · exact hbelow.1
  · next hp => exact (pipeTail_inside hbelow s.memBytes_le (hwork (.inl hp))).1.1
  · exact hbelow.1

theorem Memory.Below.partly {m m' : Memory} {n : Nat} (h : m.Below n) (h' : m'.Below n) (k : Nat) :
    (m.partly m' k).Below n := by
  refine h.writeAll fun c hc => ?_
  obtain ⟨d, hd, hcd⟩ := List.mem_filterMap.1 hc
  have hdn : d.1 < n := (List.mem_append.1 hd).elim (h' d) (h d)
  split at hcd <;> cases hcd
  exact hdn

theorem State.resetTo_inside (s : State) {m : Memory} {n : Nat} (hm : m.Below n) : (s.resetTo m).Inside n :=
  State.Below.inside_of_idle ⟨hm, (fun _ he => nomatch he), (fun _ he => nomatch he), fun _ ha => nomatch ha⟩ rfl

theorem State.softReset_inside {s : State} (h : s.Inside s.memBytes) : s.softReset.Inside s.memBytes := by
  have hpartly : State.Below { s with mem := s.mem.partly s.memoryToCome s.draws } s.memBytes :=
    ⟨h.1.1.partly (State.Below.memoryToCome h) _, h.1.2⟩
  exact s.resetTo_inside hpartly.settle.1

/-! ### The host, and a whole turn -/

theorem State.writeReg_inside {s t : State} {off v : Word} (hs : s.StatusCoherent) (h : s.Inside s.memBytes)
    (ht : s.writeReg off v = some t) : t.Inside s.memBytes := by
  obtain ⟨-, hbusy, -⟩ := hs
  unfold State.writeReg at ht
  split_ifs at ht with hctrl hcmd hb hoff hb <;> cases ht
  · unfold State.writeCtrl
    split_ifs
    · exact State.softReset_inside h
    · exact h
    · exact h
  · exact h
  · exact ⟨h.1, by simp [State.WorkBelow, State.accept]⟩
  · exact h
  · have hidle : s.pstage = .idle := by simpa [hb] using hbusy
    unfold State.setOperand
    split <;> exact State.Below.inside_of_idle h.1 hidle
  · exact h

theorem State.hostWrite_inside {s t : State} {a : Word} {k : Nat} {m : Memory} (h : s.Inside s.memBytes)
    (hm : a.toNat + k ≤ s.memBytes → m.Below s.memBytes) (ht : s.hostWrite a k m = .next t) : t.Inside s.memBytes := by
  unfold State.hostWrite at ht
  split at ht
  · cases ht
  · next haccepts =>
    have hrange : a.toNat + k ≤ s.memBytes := by
      simp only [State.portAccepts, Bool.not_eq_true', Bool.not_eq_false, decide_eq_true_eq] at haccepts
      exact haccepts.1
    cases ht
    split
    · exact ⟨h.1.disturb hrange, h.2⟩
    · exact ⟨⟨hm hrange, h.1.2⟩, h.2⟩

theorem takeStep_inside {τ : Turn} {s t : State} (hs : s.StatusCoherent) (h : s.Inside s.memBytes)
    (ht : takeStep τ s = .next t) : t.Inside s.memBytes := by
  cases τ with
  | regWrite off v =>
    simp only [takeStep, State.hostWriteReg] at ht
    split at ht
    · next hw => cases ht; exact State.writeReg_inside hs h hw
    · cases ht
  | regRead off =>
    simp only [takeStep, State.hostReadReg] at ht
    split at ht <;> cases ht
    exact h
  | memWrite8 a v => exact State.hostWrite_inside h (fun ha => h.1.1.write ha v) ht
  | memWrite32 a v => exact State.hostWrite_inside h (fun ha => h.1.1.writeWord ha v) ht
  | memRead8 a =>
    simp only [takeStep, State.hostRead] at ht
    split at ht <;> cases ht
    exact h
  | memRead32 a =>
    simp only [takeStep, State.hostRead] at ht
    split at ht <;> cases ht
    exact h
  | hardReset contents =>
    cases ht
    have hempty : Memory.Below ⟨[]⟩ s.memBytes := fun _ hc => nomatch hc
    exact s.resetTo_inside (hempty.writeAll fun c hc => by simpa using List.of_mem_filter hc)
  | p keeps => exact producerStep_inside (s := { s with keeps := keeps }) h t ht
  | w keeps => exact workerStep_inside (s := { s with keeps := keeps }) h t ht
  | drain c k =>
    cases ht
    have hframe : (s.drain c k).dst = s.dst ∧ (s.drain c k).pcmd = s.pcmd ∧ (s.drain c k).pstage = s.pstage := by
      unfold State.drain
      split
      · exact ⟨rfl, rfl, rfl⟩
      · split <;> simp
    exact h.frame (h.1.drain c k) hframe.1 hframe.2.1 hframe.2.2
  | evict c l =>
    cases ht
    refine h.frame (h.1.evict c l) ?_ ?_ ?_ <;> cases l <;> simp [State.evict]

/-- Settles O57: every turn keeps the invariant for the memory it finds, and no turn changes the size of memory. -/
theorem insideMemoryKept : Obligations.InsideMemoryKept := by
  intro s t hs hin hstep
  obtain ⟨ts, n, hturn⟩ : ∃ ts n, s.takeTurn.2 = { s with turns := ts, clock := n } := by
    unfold State.takeTurn
    split <;> exact ⟨_, _, rfl⟩
  rw [step, hturn] at hstep
  have htop : t.memTop = s.memTop := (takeStep_memTop hstep).trans rfl
  rw [State.insideMemory_iff] at hin ⊢
  rw [State.memBytes_of_top htop]
  exact takeStep_inside (s := { s with turns := ts, clock := n }) hs hin hstep

end Sys2Proof.Machine
end

section
/-! PROOFS. What a core sees of its own writes, of a drain and of the fences (20_memory.md rules R59 to R65): a drain and
a release fence move pending writes from the overlay a core reads through into what lies under it, so that the core
reads as before; and what is released is read by the other core once it has fenced. -/

namespace Sys2Proof.Machine

/-! ### A core's own writes (R59, R60) -/

/-- A core reads its own write whatever copies it holds: the new entry lies on top. -/
theorem State.enqueue_coreByte_own (s : State) (c : CoreId) (e : Pending) (a : Nat) {v : Byte}
    (h : ∀ b, e.overlayByte a b = v) : (s.enqueue c e).coreByte c a = v := by
  rw [State.coreByte, State.enqueue, State.setView_view, State.setView_mem, View.byte, View.enqueue,
    foldl_overlayByte_append, h]

/-- With no copies held, a core's write lies on top of what it read before. -/
theorem State.enqueue_coreByte_no_copies (s : State) (c : CoreId) (e : Pending) (a : Nat)
    (h : (s.view c).mcopies = []) : (s.enqueue c e).coreByte c a = e.overlayByte a (s.coreByte c a) :=
  s.enqueue_coreByte c e a (View.fresh_of_no_copies _ h)

/-- Settles O47: a write is the newest pending entry, and overlays its own bytes only. -/
theorem ownWritesAreRead : Obligations.OwnWritesAreRead := by
  intro s c a w b
  refine ⟨fun i hi => ?_, ?_, s.enqueue_mem c _, s.enqueue_mem c _, fun x hp hw => ?_⟩
  · refine s.enqueue_coreByte_own c _ _ fun y => ?_
    simp [Pending.overlayByte, hi, wordByte]
  · exact s.enqueue_coreByte_own c _ _ fun y => by simp [Pending.overlayByte]
  · have hcopies : (s.view c).mcopies = [] := by
      cases c with
      | p => exact hp
      | w => exact hw
    refine ⟨fun hx => ?_, fun hx => ?_⟩
    · have hout : ¬ (a ≤ x ∧ x < a + 4) := by omega
      rw [State.writeWord, s.enqueue_coreByte_no_copies c _ x hcopies]
      simp [Pending.overlayByte, hout]
    · rw [State.writeByte, s.enqueue_coreByte_no_copies c _ x hcopies]
      simp [Pending.overlayByte, hx]

/-! ### Writes that meet in nothing commute (R61) -/

/-- A pending write has a byte for address `a`. -/
def Pending.Covers (e : Pending) (a : Nat) : Prop :=
  match e with
  | .byte x _ => a = x
  | .word x _ => x ≤ a ∧ a < x + 4
  | .job _ _ => False

theorem Pending.overlayByte_of_not_covers {e : Pending} {a : Nat} (h : ¬ e.Covers a) (b : Byte) :
    e.overlayByte a b = b := by
  cases e with
  | byte x v => exact if_neg h
  | word x v => exact if_neg h
  | job i v => rfl

theorem Pending.meets_of_covers {o e : Pending} {a : Nat} (ho : o.Covers a) (he : e.Covers a) : o.meets e = true := by
  cases o <;> cases e <;> simp only [Pending.Covers] at ho he <;>
    simp only [Pending.meets, beq_iff_eq, decide_eq_true_eq] <;> omega

theorem Pending.overlayByte_comm {o e : Pending} (h : o.meets e = false) (a : Nat) (b : Byte) :
    o.overlayByte a (e.overlayByte a b) = e.overlayByte a (o.overlayByte a b) := by
  by_cases ho : o.Covers a
  · have he : ¬ e.Covers a := fun he => by simp [Pending.meets_of_covers ho he] at h
    rw [Pending.overlayByte_of_not_covers he, Pending.overlayByte_of_not_covers he]
  · rw [Pending.overlayByte_of_not_covers ho, Pending.overlayByte_of_not_covers ho]

theorem Pending.overlayJob_comm {o e : Pending} (h : o.meets e = false) (i : JobIx) (w : Word) :
    o.overlayJob i (e.overlayJob i w) = e.overlayJob i (o.overlayJob i w) := by
  cases o with
  | byte a v => rfl
  | word a v => rfl
  | job j v =>
    cases e with
    | byte a u => rfl
    | word a u => rfl
    | job k u =>
      have hjk : j ≠ k := by simpa [Pending.meets] using h
      by_cases hj : i = j
      · simp [Pending.overlayJob, hj, hjk]
      · simp [Pending.overlayJob, hj]

/-- An entry that commutes with all older ones can be overlaid first. -/
theorem foldl_eraseIdx {α β : Type} (f : α → β → α) {l : List β} {n : Nat} {e : β} (he : l[n]? = some e)
    (hcomm : ∀ o ∈ l.take n, ∀ x, f (f x e) o = f (f x o) e) (x : α) :
    (l.eraseIdx n).foldl f (f x e) = l.foldl f x := by
  obtain ⟨hn, rfl⟩ := List.getElem?_eq_some_iff.1 he
  have hfront : ∀ (k : List β), (∀ o ∈ k, ∀ y, f (f y l[n]) o = f (f y o) l[n]) → ∀ y,
      k.foldl f (f y l[n]) = f (k.foldl f y) l[n] := by
    intro k
    induction k with
    | nil => exact fun _ _ => rfl
    | cons o k ih =>
      intro hk y
      obtain ⟨ho, hk⟩ := List.forall_mem_cons.1 hk
      rw [List.foldl_cons, ho, ih hk, List.foldl_cons]
  rw [List.eraseIdx_eq_take_drop_succ, List.foldl_append, hfront _ hcomm]
  conv_rhs => rw [← List.take_append_drop n l, List.drop_eq_getElem_cons hn, List.foldl_append, List.foldl_cons]

/-! ### An entry that reaches shared storage (R61) -/

theorem copyOf_map (cs : List (Nat × Word)) (f : Nat → Word → Word) (k : Nat) :
    copyOf (cs.map (fun c => (c.1, f c.1 c.2))) k = (copyOf cs k).map (f k) := by
  induction cs with
  | nil => rfl
  | cons c t ih =>
    by_cases hk : k = c.1
    · simp [copyOf, hk]
    · simp [copyOf, hk, ih]

/-- A byte of a word after a pending write. -/
theorem wordByte_overlayWord (e : Pending) (a : Nat) (w : Word) :
    wordByte (e.overlayWord (a / 4) w) (a % 4) = e.overlayByte a (wordByte w (a % 4)) := by
  obtain ⟨h0, h1, h2, h3⟩ := wordByte_wordOfBytes (e.overlayByte (4 * (a / 4)) (wordByte w 0))
    (e.overlayByte (4 * (a / 4) + 1) (wordByte w 1)) (e.overlayByte (4 * (a / 4) + 2) (wordByte w 2))
    (e.overlayByte (4 * (a / 4) + 3) (wordByte w 3))
  have ha : 4 * (a / 4) + a % 4 = a := Nat.div_add_mod a 4
  have hlt : a % 4 < 4 := Nat.mod_lt _ (by decide)
  unfold Pending.overlayWord
  generalize a % 4 = r at ha hlt ⊢
  generalize 4 * (a / 4) = q at *
  subst ha
  interval_cases r
  · exact h0
  · exact h1
  · exact h2
  · exact h3

/-- Under the buffer, a core sees a patched copy, or shared storage, after the write. -/
theorem View.base_patch (v : View) (e : Pending) {m m' : Memory} {a : Nat}
    (hm : m'.read a = e.overlayByte a (m.read a)) : (v.patch e).base m' a = e.overlayByte a (v.base m a) := by
  unfold View.base View.patch
  rw [copyOf_map v.mcopies e.overlayWord]
  cases copyOf v.mcopies (a / 4) with
  | none => exact hm
  | some w => exact wordByte_overlayWord e a w

/-- What a core sees of a slot word under its buffer. -/
def View.slotBase (v : View) (j : JobSlot Word) (i : JobIx) : Word := (v.jcopies.get i).getD (j.get i)

theorem View.slotBase_patch (v : View) (e : Pending) {j j' : JobSlot Word} {i : JobIx}
    (hj : j'.get i = e.overlayJob i (j.get i)) : (v.patch e).slotBase j' i = e.overlayJob i (v.slotBase j i) := by
  cases e with
  | byte a w => rw [View.slotBase, hj]; rfl
  | word a w => rw [View.slotBase, hj]; rfl
  | job k w =>
    have hpatch : (v.patch (.job k w)).jcopies = v.jcopies.set k ((v.jcopies.get k).map fun _ => w) := rfl
    rw [View.slotBase, View.slotBase, hpatch, JobSlot.get_set, hj]
    by_cases hi : i = k
    · subst hi
      cases v.jcopies.get i <;> simp [Pending.overlayJob]
    · simp [Pending.overlayJob, hi]

theorem State.apply_job_get (s : State) (e : Pending) (i : JobIx) :
    (s.apply e).job.get i = e.overlayJob i (s.job.get i) := by
  cases e with
  | byte a v => rfl
  | word a v => rfl
  | job k v => exact JobSlot.get_set _ _ _ _

/-- Settles O48: the entry commutes with the older ones it does not meet, and lies under the rest of the buffer in shared
storage and in the core's own copies alike. -/
theorem drainsKeepProgramOrder : Obligations.DrainsKeepProgramOrder := by
  intro s c n e he hwf
  refine ⟨fun ⟨o, ho, hmeets⟩ => ?_, fun hfree => ?_⟩
  · have hany : ((s.view c).sb.take n).any (fun o => o.meets e) = true := List.any_eq_true.2 ⟨o, ho, hmeets⟩
    simp only [State.drain, he, hany, if_true]
  · have hany : ((s.view c).sb.take n).any (fun o => o.meets e) = false := by
      rw [List.any_eq_false]
      exact fun o ho => by simp [hfree o ho]
    generalize hu : s.setView c { s.view c with sb := (s.view c).sb.eraseIdx n } = u
    have hdrain : s.drain c n = u.land c e := by
      simp only [State.drain, he, hany, Bool.false_eq_true, if_false, hu]
    have humem : u.mem = s.mem := by rw [← hu, State.setView_mem]
    have hujob : u.job = s.job := by rw [← hu, State.setView_job]
    have huview : u.view c = { s.view c with sb := (s.view c).sb.eraseIdx n } := by rw [← hu, State.setView_view]
    have hview : (u.land c e).view c = (u.view c).patch e := by rw [State.land, State.setView_view]
    have hread : ∀ a, (u.land c e).mem.read a = e.overlayByte a (s.mem.read a) := fun a => by
      rw [State.land_mem, State.apply_read _ _ _ (humem ▸ hwf), humem]
    have hslot : ∀ i, (u.land c e).job.get i = e.overlayJob i (s.job.get i) := fun i => by
      rw [State.land_job, State.apply_job_get, hujob]
    rw [hdrain]
    refine ⟨by rw [hview, huview]; rfl, hread, hslot, fun a => ?_, fun i => ?_⟩
    · rw [State.coreByte, hview, huview, State.coreByte, View.byte, View.base_patch _ e (hread a)]
      exact foldl_eraseIdx _ he (fun o ho x => Pending.overlayByte_comm (hfree o ho) a x) _
    · have hbase := View.slotBase_patch { s.view c with sb := (s.view c).sb.eraseIdx n } e (hslot i)
      rw [State.coreJob, hview, huview]
      refine Eq.trans (congrArg (List.foldl _ · _) hbase) ?_
      exact foldl_eraseIdx _ he (fun o ho x => Pending.overlayJob_comm (hfree o ho) i x) _

/-! ### The fences (R63, R64) -/

/-- Entries that reach shared storage one after another lie under a core's buffer as they lay in it. -/
theorem View.base_patchAll (es : List Pending) {v : View} {m m' : Memory} {a : Nat}
    (hm : m'.read a = es.foldl (fun b e => e.overlayByte a b) (m.read a)) :
    (es.foldl View.patch v).base m' a = es.foldl (fun b e => e.overlayByte a b) (v.base m a) := by
  have hcopies : ∀ es : List Pending, ∀ v : View, copyOf (es.foldl View.patch v).mcopies (a / 4) =
      (copyOf v.mcopies (a / 4)).map (fun w => es.foldl (fun w e => e.overlayWord (a / 4) w) w) := by
    intro es
    induction es with
    | nil => intro v; cases h : copyOf v.mcopies (a / 4) <;> simp [h]
    | cons e es ih =>
      intro v
      have hpatch : (v.patch e).mcopies = v.mcopies.map (fun c => (c.1, e.overlayWord c.1 c.2)) := rfl
      rw [List.foldl_cons, ih, hpatch, copyOf_map v.mcopies e.overlayWord]
      cases copyOf v.mcopies (a / 4) <;> rfl
  have hbytes : ∀ es : List Pending, ∀ w : Word,
      wordByte (es.foldl (fun w e => e.overlayWord (a / 4) w) w) (a % 4) =
        es.foldl (fun b e => e.overlayByte a b) (wordByte w (a % 4)) := by
    intro es
    induction es with
    | nil => exact fun _ => rfl
    | cons e es ih => intro w; rw [List.foldl_cons, ih, wordByte_overlayWord, List.foldl_cons]
  unfold View.base
  rw [hcopies]
  cases copyOf v.mcopies (a / 4) with
  | none => exact hm
  | some w => exact hbytes es w

theorem View.patchAll_copied (es : List Pending) (v : View) :
    (es.foldl View.patch v).mcopies.map (·.1) = v.mcopies.map (·.1) ∧
      ∀ i, ((es.foldl View.patch v).jcopies.get i).isSome = (v.jcopies.get i).isSome := by
  induction es generalizing v with
  | nil => exact ⟨rfl, fun _ => rfl⟩
  | cons e es ih =>
    obtain ⟨hm, hj⟩ := ih (v.patch e)
    refine ⟨hm.trans (by simp [View.patch]), fun i => (hj i).trans ?_⟩
    cases e with
    | byte a w => rfl
    | word a w => rfl
    | job k w =>
      have hpatch : (v.patch (.job k w)).jcopies = v.jcopies.set k ((v.jcopies.get k).map fun _ => w) := rfl
      rw [hpatch, JobSlot.get_set]
      split
      · next hi => rw [hi, Option.isSome_map]
      · rfl

theorem State.landAll_job_get (s : State) (c : CoreId) (es : List Pending) (i : JobIx) :
    (s.landAll c es).job.get i = es.foldl (fun w e => e.overlayJob i w) (s.job.get i) := by
  induction es generalizing s with
  | nil => rfl
  | cons e es ih =>
    refine (ih (s.land c e)).trans ?_
    rw [State.land_job, State.apply_job_get]
    rfl

theorem State.fenceRel_job_get (s : State) (c : CoreId) (i : JobIx) :
    (s.fenceRel c).job.get i = (s.view c).sb.foldl (fun w e => e.overlayJob i w) (s.job.get i) := by
  rw [State.fenceRel, State.landAll_job_get, State.setView_job]

theorem View.slotBase_patchAll (es : List Pending) {v : View} {j : JobSlot Word} {i : JobIx}
    {j' : JobSlot Word} (hj : j'.get i = es.foldl (fun w e => e.overlayJob i w) (j.get i)) :
    (es.foldl View.patch v).slotBase j' i = es.foldl (fun w e => e.overlayJob i w) (v.slotBase j i) := by
  induction es generalizing v j with
  | nil => rw [View.slotBase, hj]; rfl
  | cons e es ih =>
    have hstep : (j.set i (e.overlayJob i (j.get i))).get i = e.overlayJob i (j.get i) := JobSlot.get_set_same _ _ _
    refine (ih (j := j.set i (e.overlayJob i (j.get i))) (by rw [hstep, hj]; rfl)).trans ?_
    rw [View.slotBase_patch v e hstep]
    rfl

/-- A release fence hides no byte from the core that made it. -/
theorem State.fenceRel_coreByte (s : State) (c : CoreId) (hwf : s.mem.wf = true) (a : Nat) :
    (s.fenceRel c).coreByte c a = s.coreByte c a := by
  have hbase := View.base_patchAll (s.view c).sb (v := { s.view c with sb := [] }) (s.fenceRel_read c a hwf)
  rw [State.coreByte, View.byte, State.fenceRel_sb, State.fenceRel_view, if_pos rfl]
  exact hbase

/-- … and no slot word. -/
theorem State.fenceRel_coreJob (s : State) (c : CoreId) (i : JobIx) :
    (s.fenceRel c).coreJob c i = s.coreJob c i := by
  have hbase := View.slotBase_patchAll (s.view c).sb (v := { s.view c with sb := [] }) (s.fenceRel_job_get c i)
  rw [State.coreJob, View.slot, State.fenceRel_sb, State.fenceRel_view, if_pos rfl]
  exact hbase

/-- After its acquire fence a core sees a slot word of shared storage under its own pending writes. -/
theorem State.fenceAcq_coreJob (s : State) (c : CoreId) (i : JobIx) :
    (s.fenceAcq c).coreJob c i = (s.view c).sb.foldl (fun w e => e.overlayJob i w) (s.job.get i) := by
  cases c <;> cases i <;> rfl

/-- Settles O49: the entries of the buffer come to lie, in their order, under what the core reads through. -/
theorem fencesDoAsNamed : Obligations.FencesDoAsNamed := by
  intro s c hwf
  have hview : (s.fenceRel c).view c = (s.view c).sb.foldl View.patch { s.view c with sb := [] } := by
    rw [State.fenceRel_view, if_pos rfl]
  obtain ⟨hmcopies, hjcopies⟩ := View.patchAll_copied (s.view c).sb { s.view c with sb := [] }
  exact ⟨s.fenceRel_sb c, fun d hd => by rw [State.fenceRel_view, if_neg hd], by rw [hview]; exact hmcopies,
    by rw [hview]; exact hjcopies, fun a => s.fenceRel_read c a hwf, s.fenceRel_job_get c, s.fenceRel_coreByte c hwf,
    s.fenceRel_coreJob c, rfl, s.fenceAcq_coreByte c, s.fenceAcq_coreJob c⟩

end Sys2Proof.Machine
end

section
/-! PROOFS. Runs under a schedule written out (00_scope.md rule R20) taken turn by turn, and message passing between the
cores (20_memory.md rule R65). -/

namespace Sys2Proof.Machine

/-! ### One turn of a run -/

theorem CoreDoes.turns {c : CoreId} {s t : State} (h : CoreDoes c s t) : t.turns = s.turns := by
  have ho := h.only
  cases c <;>
  · simp only [OnlyOwn] at ho
    rw [ho]

theorem ProducerDoes.turns {s t : State} (h : ProducerDoes s t) : t.turns = s.turns := by
  cases h with
  | rests => rfl
  | fails hb => exact hb.does.turns
  | ends hu => exact (State.finish_turns _).trans hu.turns
  | fills hu => exact (State.finish_turns _).trans hu.turns
  | loads hu => exact (State.finish_turns _).trans hu.turns
  | launches hb => exact (State.finish_turns _).trans hb.does.turns
  | goesOn hu => exact hu.turns

theorem WorkerDoes.turns {s t : State} (h : WorkerDoes s t) : t.turns = s.turns := by
  cases h with
  | rests => rfl
  | moves hu => exact hu.turns

/-- A turn uses up no other turn of the schedule. -/
theorem takeStep_turns {τ : Turn} {s t : State} (h : takeStep τ s = .next t) : t.turns = s.turns := by
  cases takeStep_does h with
  | resets => rfl
  | accepts => rfl
  | disturbs => rfl
  | host ht => rw [ht.only]
  | producer ht => exact ht.turns
  | worker ht => exact ht.turns
  | system ht => exact ht.turns

theorem State.runTurns_nil (s : State) : s.runTurns [] = .next { s with turns := [] } := rfl

/-- A run is its first turn, and from there the run of the others. -/
theorem State.runTurns_cons {s t : State} {τ : Turn} {ts : List Turn}
    (h : takeStep τ { s with turns := ts } = .next t) : s.runTurns (τ :: ts) = t.runTurns ts := by
  have hturns : { t with turns := ts } = t := by rw [← show t.turns = ts from takeStep_turns h]
  have hstep : step { s with turns := τ :: ts } = .next t := h
  simp only [State.runTurns, List.length_cons, Host.Core.run, Sys2Proof.core, hstep, hturns]

/-- A run that is answered answered its first turn. -/
theorem State.runTurns_cons_inv {s u : State} {τ : Turn} {ts : List Turn} (h : s.runTurns (τ :: ts) = .next u) :
    ∃ t, takeStep τ { s with turns := ts } = .next t ∧ t.runTurns ts = .next u := by
  cases ht : takeStep τ { s with turns := ts } with
  | next t => exact ⟨t, rfl, State.runTurns_cons ht ▸ h⟩
  | fault r =>
    have hstep : step { s with turns := τ :: ts } = .fault r := ht
    simp only [State.runTurns, List.length_cons, Host.Core.run, Sys2Proof.core, hstep] at h
    cases h
  | refused r =>
    have hstep : step { s with turns := τ :: ts } = .refused r := ht
    simp only [State.runTurns, List.length_cons, Host.Core.run, Sys2Proof.core, hstep] at h
    cases h

/-- What every turn of a schedule keeps holds after the run; `P` is to say nothing of the schedule. -/
theorem State.runTurns_keeps {P : State → Prop} {ts : List Turn} (hfree : ∀ s us, P s → P { s with turns := us })
    (hstep : ∀ τ ∈ ts, ∀ s t, P s → takeStep τ s = .next t → P t) {s u : State} (hs : P s)
    (h : s.runTurns ts = .next u) : P u := by
  induction ts generalizing s with
  | nil => cases h; exact hfree s [] hs
  | cons τ ts ih =>
    obtain ⟨t, ht, hrun⟩ := State.runTurns_cons_inv h
    obtain ⟨hτ, hts⟩ := List.forall_mem_cons.1 hstep
    exact ih hts (hτ _ t (hfree s ts hs) ht) hrun

/-! ### Message passing (R65) -/

/-- Nothing either core has pending changes a byte by `f`, and shared storage holds `v` there. -/
structure Settled {α : Type} (f : Pending → α → α) (get : State → α) (v : α) (s : State) : Prop where
  wf : s.mem.wf = true
  untouched : ∀ c, ∀ e ∈ (s.view c).sb, ∀ y, f e y = y
  stored : get s = v

theorem State.setView_view_of_ne (s : State) {c d : CoreId} (v : View) (h : d ≠ c) :
    (s.setView c v).view d = s.view d := by
  cases c <;> cases d
  · exact absurd rfl h
  · rfl
  · rfl
  · exact absurd rfl h

theorem State.apply_view (s : State) (e : Pending) (c : CoreId) : (s.apply e).view c = s.view c := by
  cases c
  · exact s.apply_pview e
  · exact s.apply_wview e

/-- A part of shared storage on which a pending write acts as `f` says. -/
structure Storage {α : Type} (f : Pending → α → α) (get : State → α) : Prop where
  setView : ∀ (s : State) c w, get (s.setView c w) = get s
  apply : ∀ (s : State) e, s.mem.wf = true → get (s.apply e) = f e (get s)
  turns : ∀ (s : State) us, get { s with turns := us } = get s

theorem storage_byte (a : Nat) : Storage (fun e => e.overlayByte a) (fun s => s.mem.read a) :=
  ⟨fun s c w => by rw [State.setView_mem], fun s e h => s.apply_read e a h, fun _ _ => rfl⟩

theorem storage_job (i : JobIx) : Storage (fun e => e.overlayJob i) (fun s => s.job.get i) :=
  ⟨fun s c w => by rw [State.setView_job], fun s e _ => s.apply_job_get e i, fun _ _ => rfl⟩

section
variable {α : Type} {f : Pending → α → α} {get : State → α} (hget : Storage f get) {v : α} {s : State}
  (h : Settled f get v s)
include hget h

theorem Settled.setView (c : CoreId) {w : View} (hw : ∀ e ∈ w.sb, ∀ y, f e y = y) :
    Settled f get v (s.setView c w) := by
  refine ⟨by rw [State.setView_mem]; exact h.wf, fun d => ?_, (hget.setView s c w).trans h.stored⟩
  by_cases hdc : d = c
  · subst hdc; rw [State.setView_view]; exact hw
  · rw [State.setView_view_of_ne s w hdc]; exact h.untouched d

theorem Settled.land (c : CoreId) {e : Pending} (he : ∀ y, f e y = y) : Settled f get v (s.land c e) := by
  have happly : Settled f get v (s.apply e) :=
    ⟨s.apply_wf e h.wf, fun d => by rw [State.apply_view]; exact h.untouched d,
      by rw [hget.apply s e h.wf, he, h.stored]⟩
  exact happly.setView hget c (h.untouched c)

/-- What nothing pending touches, drains and evictions leave. -/
theorem Settled.takeStep {τ : Turn} {t : State} (hτ : (∃ c n, τ = .drain c n) ∨ ∃ c l, τ = .evict c l)
    (ht : Machine.takeStep τ s = .next t) : Settled f get v t := by
  rcases hτ with ⟨c, n, rfl⟩ | ⟨c, l, rfl⟩
  · cases ht
    unfold State.drain
    split
    · exact h
    · next e he =>
      split
      · exact h
      · exact (h.setView hget c fun e' he' => h.untouched c e' (List.mem_of_mem_eraseIdx he')).land hget c
          (h.untouched c e (List.mem_of_getElem? he))
  · cases ht
    cases l <;> exact h.setView hget c (h.untouched c)

/-- So does every schedule of them. -/
theorem Settled.runTurns {ts : List Turn} {u : State}
    (hts : ∀ τ ∈ ts, (∃ c n, τ = .drain c n) ∨ ∃ c l, τ = .evict c l) (hu : s.runTurns ts = .next u) :
    Settled f get v u :=
  State.runTurns_keeps (P := Settled f get v)
    (fun s us hs => ⟨hs.wf, CoreId.rec (hs.untouched .p) (hs.untouched .w), (hget.turns s us).trans hs.stored⟩)
    (fun τ hτ _ _ hs ht => hs.takeStep hget (hts τ hτ) ht) h hu

omit hget h in
/-- A release fence of one core, where the other has nothing pending that touches it, settles a part of storage. -/
theorem Settled.fenceRel {a b : CoreId} (hab : a ≠ b) (hwf : s.mem.wf = true)
    (hb : ∀ e ∈ (s.view b).sb, ∀ y, f e y = y) : Settled f get (get (s.fenceRel a)) (s.fenceRel a) := by
  refine ⟨s.fenceRel_wf a hwf, fun c e he => ?_, rfl⟩
  by_cases hc : c = a
  · subst hc; rw [State.fenceRel_sb] at he; cases he
  · have hcb : c = b := by cases a <;> cases b <;> cases c <;> simp_all
    rw [State.fenceRel_view, if_neg hc, hcb] at he
    exact hb e he

end

/-- Overlays that change nothing. -/
theorem foldl_untouched {α β : Type} {f : α → β → α} {l : List β} (h : ∀ e ∈ l, ∀ y, f y e = y) (x : α) :
    l.foldl f x = x := by
  induction l with
  | nil => rfl
  | cons e l ih =>
    obtain ⟨he, hl⟩ := List.forall_mem_cons.1 h
    rw [List.foldl_cons, he, ih hl]

/-- `P` has written data and then a flag, neither fenced (R65 L3). -/
def unreleased : State := { State.reset with pview := { View.empty with sb := [.word 0 1, .job .sigp 1] } }

/-- Shared storage has signal-present set, and `W` holds an older copy of it (R65 L4). -/
def unacquired : State :=
  { State.reset with
    job := (JobSlot.fill 0).set .sigp 1
    wview := { View.empty with jcopies := (JobSlot.fill none).set .sigp (some 0) } }

/-- Settles O50: what the release fence stored, no drain or eviction changes, and the acquire fence lets the other core
read it; without either fence, `unreleased` and `unacquired`. -/
theorem messagePassing : Obligations.MessagePassing := by
  refine ⟨fun s u a b ts hwf hab hts hu => ⟨fun x hx => ?_, fun i hi => ?_⟩, ⟨unreleased, ?_⟩, ⟨unacquired, ?_⟩⟩
  · have hget := storage_byte x
    have hsettled := (Settled.fenceRel (get := fun s => s.mem.read x) hab hwf hx).runTurns hget hts hu
    rw [State.fenceAcq_coreByte, foldl_untouched (hsettled.untouched b), hsettled.stored, s.fenceRel_read a x hwf]
  · have hget := storage_job i
    have hsettled := (Settled.fenceRel (get := fun s => s.job.get i) hab hwf hi).runTurns hget hts hu
    rw [State.fenceAcq_coreJob, foldl_untouched (hsettled.untouched b), hsettled.stored, s.fenceRel_job_get a i]
  · exact ⟨rfl, rfl, rfl, rfl, rfl⟩
  · exact ⟨rfl, rfl, rfl, rfl, rfl⟩

end Sys2Proof.Machine
end

section
/-! PROOFS. The host's memory port (20_memory.md rules R46, R50, R66; 70_reset_and_hazards.md rule R179): what an access
does that is accepted, idle or while a command runs, and that any other is refused. -/

namespace Sys2Proof.Machine

/-! ### Accesses accepted and refused (R50, U9) -/

section
variable {s : State} {a : Word} {n : Nat}

theorem State.portAccepts_iff (a n : Nat) : s.portAccepts a n = true ↔ a + n ≤ s.memBytes ∧ a % n = 0 := by
  simp [State.portAccepts]

theorem State.hostWrite_accepted (h : a.toNat + n ≤ s.memBytes ∧ a.toNat % n = 0) (m : Memory) :
    s.hostWrite a n m = .next (if s.busy then s.disturb a.toNat n else { s with mem := m }) := by
  rw [State.hostWrite, (s.portAccepts_iff _ _).2 h]; rfl

theorem State.hostRead_accepted (h : a.toNat + n ≤ s.memBytes ∧ a.toNat % n = 0) (v : Word) :
    s.hostRead a n v = .next ({ s with hostRd := v }.draw (if s.busy then 1 else 0)) := by
  rw [State.hostRead, (s.portAccepts_iff _ _).2 h]; rfl

theorem State.hostAccess_refused (h : ¬ (a.toNat + n ≤ s.memBytes ∧ a.toNat % n = 0)) (m : Memory) (v : Word) :
    s.hostWrite a n m = .refused (.hostMemory a) ∧ s.hostRead a n v = .refused (.hostMemory a) := by
  have hport : s.portAccepts a.toNat n = false := Bool.eq_false_iff.2 fun hp => h ((s.portAccepts_iff _ _).1 hp)
  rw [State.hostWrite, State.hostRead, hport]
  exact ⟨rfl, rfl⟩

end

/-! ### What is read and what becomes unspecified (R66, R179) -/

theorem State.portByte_settled (s : State) (a : Nat) (h : s.unsettled a = false) : s.portByte a = s.mem.read a := by
  rw [State.portByte, h]; rfl

theorem State.portByte_idle (s : State) (hb : s.busy = false) : s.portByte = s.mem.read := by
  funext a
  exact s.portByte_settled a (by rw [State.unsettled, hb, Bool.false_and])

theorem State.portWord_idle (s : State) (a : Nat) (hb : s.busy = false) : s.portWord a = s.mem.readWord a := by
  rw [State.portWord, s.portByte_idle hb]; rfl

theorem State.unsettled_outside (s : State) (a : Nat) (hd : a ∉ s.disturbed)
    (ha : a < s.destination.1.toNat ∨ s.destination.1.toNat + s.destination.2 ≤ a) : s.unsettled a = false := by
  have hdest : ¬ (s.destination.1.toNat ≤ a ∧ a < s.destination.1.toNat + s.destination.2) := by omega
  simp [State.unsettled, hdest, hd]

/-- The word a host read returns for `n` bytes at `a`: those bytes, and nothing above them. -/
def State.PortReads (s : State) (a n : Nat) (v : Word) : Prop :=
  v.toNat < 2 ^ (8 * n) ∧ ∀ i, i < n → v.extractLsb' (8 * i) 8 = s.portByte (a + i)

theorem State.portReads_byte (s : State) (a : Nat) : s.PortReads a 1 ((s.portByte a).setWidth 32) := by
  refine ⟨?_, fun i hi => ?_⟩
  · have := (s.portByte a).isLt
    rw [BitVec.toNat_setWidth]
    exact (Nat.mod_le _ _).trans_lt this
  · obtain rfl : i = 0 := by omega
    generalize s.portByte (a + 0) = b
    apply BitVec.eq_of_toNat_eq
    have := b.isLt
    simp
    omega

theorem State.portReads_word (s : State) (a : Nat) : s.PortReads a 4 (s.portWord a) := by
  refine ⟨(s.portWord a).isLt, fun i hi => ?_⟩
  obtain ⟨h0, h1, h2, h3⟩ :=
    wordByte_wordOfBytes (s.portByte a) (s.portByte (a + 1)) (s.portByte (a + 2)) (s.portByte (a + 3))
  interval_cases i
  · exact h0
  · exact h1
  · exact h2
  · exact h3

theorem State.mem_disturb (s : State) (a n x : Nat) :
    x ∈ (s.disturb a n).disturbed ↔ x ∈ s.disturbed ∨ (a ≤ x ∧ x < a + n) := by
  have hrange : x ∈ (List.range n).map (a + ·) ↔ a ≤ x ∧ x < a + n := by
    simp only [List.mem_map, List.mem_range]
    exact ⟨fun ⟨i, hi, hx⟩ => by omega, fun ⟨h1, h2⟩ => ⟨x - a, by omega, by omega⟩⟩
  simp only [State.disturb, List.mem_append, List.mem_filter, hrange, List.contains_eq_mem, Bool.not_eq_true',
    decide_eq_false_iff_not]
  tauto

/-! ### The turns of the host -/

section
variable {s : State} {a : Word}

theorem takeStep_write_idle (hb : s.busy = false) :
    (a.toNat + 4 ≤ s.memBytes → a.toNat % 4 = 0 → ∀ v,
      takeStep (.memWrite32 a v) s = .next { s with mem := s.mem.writeWord a.toNat v }) ∧
    (a.toNat + 1 ≤ s.memBytes → ∀ b, takeStep (.memWrite8 a b) s = .next { s with mem := s.mem.write a.toNat b }) := by
  refine ⟨fun hin hal v => ?_, fun hin b => ?_⟩
  · rw [takeStep, State.hostWrite_accepted ⟨hin, hal⟩, hb]; rfl
  · rw [takeStep, State.hostWrite_accepted ⟨hin, Nat.mod_one _⟩, hb]; rfl

theorem takeStep_read_idle (hb : s.busy = false) :
    (a.toNat + 4 ≤ s.memBytes → a.toNat % 4 = 0 →
      takeStep (.memRead32 a) s = .next { s with hostRd := s.mem.readWord a.toNat }) ∧
    (a.toNat + 1 ≤ s.memBytes →
      takeStep (.memRead8 a) s = .next { s with hostRd := (s.mem.read a.toNat).setWidth 32 }) := by
  refine ⟨fun hin hal => ?_, fun hin => ?_⟩
  · rw [takeStep, State.hostRead_accepted ⟨hin, hal⟩, hb, s.portWord_idle _ hb]; rfl
  · rw [takeStep, State.hostRead_accepted ⟨hin, Nat.mod_one _⟩, hb, s.portByte_idle hb]; rfl

theorem takeStep_word_refused (h : s.memBytes < a.toNat + 4 ∨ a.toNat % 4 ≠ 0) :
    (∀ v, takeStep (.memWrite32 a v) s = .refused (.hostMemory a)) ∧
      takeStep (.memRead32 a) s = .refused (.hostMemory a) := by
  have hout : ¬ (a.toNat + 4 ≤ s.memBytes ∧ a.toNat % 4 = 0) := by omega
  exact ⟨fun v => (State.hostAccess_refused hout (s.mem.writeWord a.toNat v) 0).1,
    (State.hostAccess_refused hout s.mem (s.portWord a.toNat)).2⟩

theorem takeStep_byte_refused (h : s.memBytes ≤ a.toNat) :
    (∀ b, takeStep (.memWrite8 a b) s = .refused (.hostMemory a)) ∧
      takeStep (.memRead8 a) s = .refused (.hostMemory a) := by
  have hout : ¬ (a.toNat + 1 ≤ s.memBytes ∧ a.toNat % 1 = 0) := by omega
  exact ⟨fun b => (State.hostAccess_refused hout (s.mem.write a.toNat b) 0).1,
    (State.hostAccess_refused hout s.mem ((s.portByte a.toNat).setWidth 32)).2⟩

/-- A write while a command runs (R179). -/
theorem State.hostWrite_busy {n : Nat} (hb : s.busy = true) (hwf : s.mem.wf = true)
    (h : a.toNat + n ≤ s.memBytes ∧ a.toNat % n = 0) (m : Memory) :
    ∃ t, s.hostWrite a n m = .next t ∧
      t = { s with mem := t.mem, disturbed := t.disturbed, draws := t.draws } ∧ t.mem.wf = true ∧
      (∀ x, x ∈ t.disturbed ↔ x ∈ s.disturbed ∨ (a.toNat ≤ x ∧ x < a.toNat + n)) ∧
      ∀ x, (x < a.toNat ∨ a.toNat + n ≤ x) → t.mem.read x = s.mem.read x := by
  refine ⟨s.disturb a.toNat n, ?_, rfl, State.disturb_wf _ _ _ hwf, State.mem_disturb _ _ _,
    fun x hx => State.disturb_read _ _ _ _ hwf hx⟩
  rw [State.hostWrite_accepted h, if_pos hb]

/-- A read while a command runs (R179). -/
theorem State.hostRead_busy {n : Nat} (h : a.toNat + n ≤ s.memBytes ∧ a.toNat % n = 0) {v : Word}
    (hv : s.PortReads a.toNat n v) :
    ∃ t, s.hostRead a n v = .next t ∧
      t = { s with hostRd := t.hostRd, draws := t.draws } ∧ t.hostRd.toNat < 2 ^ (8 * n) ∧
      ∀ i, i < n → a.toNat + i ∉ s.disturbed →
        (a.toNat + i < s.destination.1.toNat ∨ s.destination.1.toNat + s.destination.2 ≤ a.toNat + i) →
        t.hostRd.extractLsb' (8 * i) 8 = s.mem.read (a.toNat + i) := by
  obtain ⟨hlt, hbytes⟩ := hv
  refine ⟨_, State.hostRead_accepted h v, rfl, hlt, fun i hi hd hout => ?_⟩
  exact (hbytes i hi).trans (s.portByte_settled _ (s.unsettled_outside _ hd hout))

end

/-- Settles O12: each clause is what the turn does to the state without it on its schedule. -/
theorem memoryPort : Obligations.MemoryPort := by
  intro s a v b ts hwf
  have hstep : ∀ {τ o}, takeStep τ { s with turns := ts } = o → s.turns = τ :: ts → step s = o :=
    fun h hturn => (step_of_turns hturn).trans h
  refine ⟨fun hb hin hal => ?_, fun hb hin => ?_, fun hb n wr rd hacc hin hal => ?_, fun hout => ?_, fun hout => ?_⟩
  · obtain ⟨hwrite, -⟩ := takeStep_write_idle (s := { s with turns := ts }) (a := a) hb
    obtain ⟨hread, -⟩ := takeStep_read_idle (s := { s with turns := ts }) (a := a) hb
    refine ⟨⟨s.mem.writeWord a.toNat v, hstep (hwrite hin hal v), Memory.wf_writeWord _ _ hwf,
      Memory.readWord_writeWord _ _ hwf, fun x hx => ?_⟩, hstep (hread hin hal)⟩
    have hx : ¬ (a.toNat ≤ x ∧ x < a.toNat + 4) := by omega
    rw [Memory.read_writeWord _ _ _ hwf, if_neg hx]
  · obtain ⟨-, hwrite⟩ := takeStep_write_idle (s := { s with turns := ts }) (a := a) hb
    obtain ⟨-, hread⟩ := takeStep_read_idle (s := { s with turns := ts }) (a := a) hb
    exact ⟨⟨s.mem.write a.toNat b, hstep (hwrite hin b), Memory.wf_write _ _ hwf,
      fun x => Memory.read_write _ _ _ hwf⟩, hstep (hread hin)⟩
  · have hwrite := State.hostWrite_busy (s := { s with turns := ts }) (a := a) (n := n) hb hwf ⟨hin, hal⟩
    have hread := @State.hostRead_busy { s with turns := ts } a n ⟨hin, hal⟩
    simp only [List.mem_cons, List.not_mem_nil, or_false, Prod.mk.injEq] at hacc
    rcases hacc with ⟨rfl, rfl, rfl⟩ | ⟨rfl, rfl, rfl⟩
    · exact ⟨fun hturn => step_of_turns hturn ▸ hwrite _,
        fun hturn => step_of_turns hturn ▸ hread (State.portReads_byte _ _)⟩
    · exact ⟨fun hturn => step_of_turns hturn ▸ hwrite _,
        fun hturn => step_of_turns hturn ▸ hread (State.portReads_word _ _)⟩
  · obtain ⟨hwrite, hread⟩ := takeStep_word_refused (s := { s with turns := ts }) hout
    exact ⟨hstep (hwrite v), hstep hread⟩
  · obtain ⟨hwrite, hread⟩ := takeStep_byte_refused (s := { s with turns := ts }) hout
    exact ⟨hstep (hwrite b), hstep hread⟩

end Sys2Proof.Machine
end

section
/-! PROOFS. How a command that writes no slot word ends (30_encoding.md rule R86), and the dictionary load
(44_classifier.md rule R135). -/

namespace Sys2Proof.Machine

/-! ### Command end -/

theorem State.landAll_p_eq (s : State) (es : List Pending) :
    s.landAll .p es =
      { s with mem := (s.landAll .p es).mem, job := (s.landAll .p es).job, pview := (s.landAll .p es).pview } := by
  induction es generalizing s with
  | nil => rfl
  | cons e es ih =>
    have hcons : s.landAll .p (e :: es) = (s.land .p e).landAll .p es := rfl
    rw [hcons, ih (s.land .p e)]
    cases e <;> rfl

/-- Command end changes shared storage, the view of `P` and the status fields, where the host has written nothing
meanwhile and nothing pending is to the slot. -/
theorem State.finish_eq (u : State) (hd : u.disturbed = []) (hj : JobFree u.pview.sb) :
    u.finish = { u with
      mem := u.finish.mem, pview := u.finish.pview, code := .ok, busy := false, done := true, pstage := .idle,
      disturbed := [] } := by
  have hjob : (u.fenceRel .p).job = u.job := u.fenceRel_job .p hj
  have hfence : u.fenceRel .p = { u with mem := (u.fenceRel .p).mem, pview := (u.fenceRel .p).pview } := by
    conv_rhs => rw [← hjob]
    exact State.landAll_p_eq _ _
  rw [u.finish_calm hd, hfence]
  simp only [hd]

/-- With nothing pending, command end changes the status fields alone. -/
theorem State.finish_drained (u : State) (hd : u.disturbed = []) (hsb : u.pview.sb = []) :
    u.finish = { u with code := .ok, busy := false, done := true, pstage := .idle } := by
  have hfence : u.fenceRel .p = u := by
    have hview : ({ u.pview with sb := [] } : View) = u.pview := by rw [← hsb]
    rw [State.fenceRel, State.view_p, hsb, hview]
    rfl
  rw [u.finish_calm hd, hfence]

/-! ### The dictionary load -/

/-- The load of a dictionary whose image is `n` words: what it reads, and what it leaves as it was. -/
theorem dictionary_loaded (s : State) (hs : s.Ready) (a n : Nat) :
    ∃ t, (let r := s.beginCommand.readWords .p a n
        ({ r.2 with dict := dictOf r.1, dictv := true } : State).finish) = t ∧
      t = { s.endedAs t with dict := t.dict, dictv := true } ∧ t.pview.sb = [] ∧
      t.dict = dictOf ((List.range n).map fun i => s.mem.readWord (a + 4 * i)) := by
  obtain ⟨hsb, hd⟩ := hs
  obtain ⟨-, hbytes, -⟩ := s.beginCommand_spec hsb
  have hspec := s.beginCommand.readWords_spec .p a n hd
  dsimp only
  generalize s.beginCommand.readWords .p a n = r at hspec
  obtain ⟨hwords, hwork, -, hregs, -, hrsb⟩ := hspec
  have honly := hwork.only
  have hrd : r.2.disturbed = [] := honly.disturbed.trans hd
  simp only [OnlyCore] at honly
  have hpregs : r.2.pregs = s.pregs := hregs
  have hdrained := State.finish_drained { r.2 with dict := dictOf r.1, dictv := true } hrd (hrsb.trans hsb)
  refine ⟨_, rfl, ?_, ?_, ?_⟩
  · rw [hdrained, honly, hpregs]
    have hnone : s.beginCommand.disturbed = [] := hd
    simp only [State.endedAs, hnone]
    rfl
  · rw [hdrained]; exact hrsb.trans hsb
  · rw [hdrained]
    show dictOf r.1 = _
    rw [hwords, hbytes]
    rfl

/-- Settles O37: the words read are those of shared storage, and nothing is pending when the command ends. -/
theorem dictionaryLoad : Obligations.DictionaryLoad := by
  intro s hbegin hs
  obtain ⟨t, ht, hframe, hsb, hdict⟩ := dictionary_loaded s hs s.beginCommand.src.toNat (Config.NDICT * Config.KC)
  have hpass := (lddictChecks_pass s.beginCommand).2 ((State.beginError_lddict s.beginCommand).1 hbegin)
  have hexec := State.checked_passes (s := s)
    (f := fun s => [ckRepeat s.dictv, ckAlign s.src, s.ckAddr s.src IMAGE_BYTES])
    (body := fun s =>
      let r := s.readWords .p s.src.toNat (Config.NDICT * Config.KC)
      .next { r.2 with dict := dictOf r.1, dictv := true }.finish) hpass
  refine ⟨t, hexec.trans (congrArg _ ht), hframe, hsb, fun v i => ?_⟩
  have hentry : 41 * v.val + i.val < Config.NDICT * Config.KC := by
    have := v.isLt; have := i.isLt; simp only [Config.NDICT, Config.KC]; omega
  have hsrc : s.beginCommand.src.toNat = s.src.toNat := rfl
  rw [hdict, hsrc, dictOf_get, List.getD_eq_getElem?_getD, List.getElem?_map, List.getElem?_range hentry]
  rfl

end Sys2Proof.Machine
end

section
/-! PROOFS. Plain memory word by word; how a command that stores a result ends; the magnitude spectra (42_dtft.md rules
R108, R109). -/

namespace Sys2Proof.Machine

/-! ### Words of plain memory -/

/-- `y` is `x` but for the `n` bytes at `a`. -/
def Bytes.EqOff (a n : Nat) (x y : Bytes) : Prop := ∀ c, c < a ∨ a + n ≤ c → y c = x c

theorem Bytes.EqOff.refl (a n : Nat) (x : Bytes) : EqOff a n x x := fun _ _ => rfl

theorem Bytes.EqOff.trans {a n : Nat} {x y z : Bytes} (h : EqOff a n x y) (k : EqOff a n y z) : EqOff a n x z :=
  fun c hc => (k c hc).trans (h c hc)

theorem Bytes.EqOff.mono {a n b m : Nat} {x y : Bytes} (h : EqOff a n x y) (hb : b ≤ a) (hm : a + n ≤ b + m) :
    EqOff b m x y := fun c hc => h c (by omega)

theorem Bytes.EqOff.word {a n c : Nat} {x y : Bytes} (h : EqOff a n x y) (hc : c + 4 ≤ a ∨ a + n ≤ c) :
    y.word c = x.word c := by
  simp only [Bytes.word]
  rw [h c (by omega), h (c + 1) (by omega), h (c + 2) (by omega), h (c + 3) (by omega)]

theorem Bytes.eqOff_putWord (x : Bytes) (a : Nat) (w : Word) : EqOff a 4 x (x.putWord a w) :=
  fun c hc => x.putWord_other a c w hc

theorem Bytes.word_putWord (x : Bytes) (a : Nat) (w : Word) : (x.putWord a w).word a = w := by
  conv_rhs => rw [← wordOfBytes_wordByte w]
  simp [Bytes.word, Bytes.putWord]

/-- A pair of words at `a`, written one after the other. -/
theorem Bytes.eqOff_putPair (x : Bytes) (a : Nat) (v w : Word) : EqOff a 8 x ((x.putWord a v).putWord (a + 4) w) :=
  ((x.eqOff_putWord a v).mono (by omega) (by omega)).trans
    ((Bytes.eqOff_putWord _ (a + 4) w).mono (by omega) (by omega))

theorem Bytes.word_putPair (x : Bytes) (a : Nat) (v w : Word) :
    ((x.putWord a v).putWord (a + 4) w).word a = v ∧ ((x.putWord a v).putWord (a + 4) w).word (a + 4) = w :=
  ⟨((Bytes.eqOff_putWord _ (a + 4) w).word (by omega)).trans (x.word_putWord a v), Bytes.word_putWord _ _ _⟩

/-! ### Results that a command stores -/

/-- How a command ends that has computed `v` from `s`: of what `P` computes with, `v` differs from `s` in results and
private registers only. -/
theorem State.finish_endedAs {s v : State} (hs : s.Ready)
    (hv : v = { s.beginCommand with
      resi := v.resi, rd := v.rd, pregs := v.pregs, pview := v.pview, keeps := v.keeps, draws := v.draws })
    (hj : JobFree v.pview.sb) :
    v.finish = { s.endedAs v.finish with resi := v.resi, rd := v.rd, mem := v.finish.mem, pregs := v.pregs } := by
  have hnone : s.beginCommand.disturbed = [] := hs.2
  have hd : v.disturbed = [] := by rw [hv]; exact hnone
  have hend := v.finish_eq hd hj
  generalize v.finish = t at hend ⊢
  rw [hend, hv]
  rfl

/-- What `MEM` holds after a command that has computed `v` from `s`: what `P` read there. -/
theorem State.finish_stores {s v : State} (hs : s.Ready) (hw : s.mem.wf = true) (hm : v.mem = s.mem)
    (hd : v.disturbed = s.disturbed) (hf : v.pview.fresh v.mem) (hj : JobFree v.pview.sb) :
    v.finish.mem.read = v.coreByte .p ∧ v.finish.mem.wf = true ∧ v.finish.pview.sb = [] := by
  obtain ⟨hread, hwf, -, hsb, -⟩ := v.finish_spec hf (hd.trans hs.2) (by rw [hm]; exact hw) hj
  exact ⟨hread, hwf, hsb⟩

/-! ### Magnitude spectra -/

theorem plainMags_eqOff (f : Nat → Word → Word → Word) (src dst n m k : Nat) (x : Bytes) :
    x.EqOff (dst + 4 * k) (4 * m) (plainMags f src dst n m k x) := by
  induction m generalizing n k x with
  | zero => exact .refl _ _ x
  | succ m ih =>
    exact ((x.eqOff_putWord _ _).mono (by omega) (by omega)).trans ((ih _ (k + 1) _).mono (by omega) (by omega))

/-- No entry written meets a pair still to be read: the output is not above the input, or disjoint from it. -/
theorem plainMags_entry (f : Nat → Word → Word → Word) {src dst k m : Nat}
    (h : dst ≤ src ∨ src + 8 * (k + m) ≤ dst ∨ dst + 4 * (k + m) ≤ src) (n : Nat) (x : Bytes) {i : Nat} (hi : i < m) :
    (plainMags f src dst n m k x).word (dst + 4 * (k + i)) =
      f (n + MAG_DRAWS * i) (x.word (src + 8 * (k + i))) (x.word (src + 8 * (k + i) + 4)) := by
  induction m generalizing n k x i with
  | zero => omega
  | succ m ih =>
    simp only [plainMags]
    generalize hw : f n (x.word (src + 8 * k)) (x.word (src + 8 * k + 4)) = w
    cases i with
    | zero => exact ((plainMags_eqOff f src dst _ m (k + 1) _).word (by omega)).trans ((x.word_putWord _ w).trans hw.symm)
    | succ i =>
      have hrest := ih (k := k + 1) (by omega) (n + MAG_DRAWS) (x.putWord (dst + 4 * k) w) (i := i) (by omega)
      have hput := x.eqOff_putWord (dst + 4 * k) w
      rw [hput.word (by omega), hput.word (by omega)] at hrest
      rw [show k + (i + 1) = k + 1 + i by omega, hrest]
      congr 1
      rw [Nat.mul_succ]
      omega

/-- `MAG` and `SQMAG` at once: the spectrum by `f`. -/
theorem magnitudes_stored (f : Nat → Word → Word → Word) (s : State) (hs : s.Ready) (hw : s.mem.wf = true)
    {t : State}
    (ht : ({ s.beginCommand.magSpectrum f s.src.toNat s.dst.toNat s.cnt.toNat with resi := s.cnt } : State).finish = t) :
    t = { s.endedAs t with resi := s.cnt, mem := t.mem, pregs := t.pregs } ∧ t.mem.wf = true ∧ t.pview.sb = [] ∧
      t.mem.read = plainMags f s.src.toNat s.dst.toNat s.draws s.cnt.toNat 0 s.mem.read := by
  obtain ⟨hfresh, hbytes, hfree⟩ := s.beginCommand_spec hs.1
  obtain ⟨hwork, -, hmags⟩ := s.beginCommand.magSpectrum_spec f s.src.toNat s.dst.toNat s.cnt.toNat hfresh hs.2
    (by have := s.cnt.isLt; omega)
  generalize s.beginCommand.magSpectrum f s.src.toNat s.dst.toNat s.cnt.toNat = u at hwork hmags ht
  have honly := hwork.only
  have hj : JobFree u.pview.sb := hwork.jobFree hfree
  obtain ⟨hread, hwf, hsb⟩ := State.finish_stores (v := { u with resi := s.cnt }) hs hw honly.mem honly.disturbed
    (hwork.fresh hfresh) hj
  simp only [OnlyCore] at honly
  have hframe := State.finish_endedAs (v := { u with resi := s.cnt }) hs (by rw [honly]) hj
  have hrd : u.rd = s.rd := by rw [honly]; rfl
  have hpregs : t.pregs = u.pregs := by rw [← ht, hframe]
  rw [ht] at hread hwf hsb hframe
  refine ⟨?_, hwf, hsb, hread.trans (hmags.trans ?_)⟩
  · rw [hpregs]
    refine hframe.trans ?_
    simp only [hrd]
    rfl
  · rw [hbytes]; rfl

theorem execMag_passes {s : State} (h : s.beginError .mag = none) (f : Nat → Word → Word → Word) :
    s.checked magChecks (fun s =>
      .next { s.magSpectrum f s.src.toNat s.dst.toNat s.cnt.toNat with resi := s.cnt }.finish) =
    .next { s.beginCommand.magSpectrum f s.src.toNat s.dst.toNat s.cnt.toNat with resi := s.cnt }.finish :=
  State.checked_passes ((magChecks_pass s.beginCommand).2 ((State.beginError_mag s.beginCommand).1 h))

/-- Settles O23: the spectrum is that of plain memory. -/
theorem magnitudeSpectra : Obligations.MagnitudeSpectra := by
  intro i f s hi hbegin hs hw
  have hexec : exec i s =
      .next { s.beginCommand.magSpectrum f s.src.toNat s.dst.toNat s.cnt.toNat with resi := s.cnt }.finish := by
    simp only [List.mem_cons, Prod.mk.injEq, List.not_mem_nil, or_false] at hi
    obtain ⟨rfl, rfl⟩ | ⟨rfl, rfl⟩ := hi <;> exact execMag_passes hbegin _
  obtain ⟨hframe, hwf, hsb, hread⟩ := magnitudes_stored f s hs hw rfl
  refine ⟨_, hexec, hframe, hwf, hsb, fun a ha => ?_, fun a => congrFun hread a, fun hdisjoint k hk => ?_⟩
  · rw [hread]
    exact plainMags_eqOff f _ _ _ _ 0 _ a (by omega)
  · rw [← Memory.word_read, hread]
    have hentry := plainMags_entry f (src := s.src.toNat) (dst := s.dst.toNat) (k := 0) (m := s.cnt.toNat) (by omega)
      s.draws s.mem.read hk
    rwa [Nat.zero_add] at hentry

end Sys2Proof.Machine
end

section
/-! PROOFS. The rank order (44_classifier.md rule R139), and the records `RANK` writes (R140). -/

namespace Sys2Proof.Machine

/-! ### The rank order -/

/-- One record ranks before another. -/
def RanksBefore (r x : Nat × Word) : Prop := ranksBefore r.1 r.2 x.1 x.2 = true

theorem ranksBefore_iff (u : Nat) (x : Word) (v : Nat) (y : Word) : ranksBefore u x v y = true ↔
    if f32IsNaN x = true then f32IsNaN y = true ∧ u < v
    else f32IsNaN y = true ∨ f32Key x < f32Key y ∨ (f32Key x = f32Key y ∧ u < v) := by
  simp only [ranksBefore, flt, feq]
  cases f32IsNaN x <;> cases f32IsNaN y <;> simp

theorem ranksBefore_trans {u v w : Nat} {x y z : Word} (h : ranksBefore u x v y = true)
    (k : ranksBefore v y w z = true) : ranksBefore u x w z = true := by
  rw [ranksBefore_iff] at h k ⊢
  split_ifs at h k ⊢ with hx hy
  · exact ⟨k.1, h.2.trans k.2⟩
  · exact absurd h.1 hy
  · exact .inl k.1
  · rcases k with hz | hlt | ⟨heq, hlt⟩
    · exact .inl hz
    · rcases h with hn | h | ⟨h, -⟩
      · contradiction
      · exact .inr (.inl (h.trans hlt))
      · exact .inr (.inl (h ▸ hlt))
    · rcases h with hn | h | ⟨h, hu⟩
      · contradiction
      · exact .inr (.inl (heq ▸ h))
      · exact .inr (.inr ⟨h.trans heq, hu.trans hlt⟩)

theorem ranksBefore_of_not {u v : Nat} {x y : Word} (huv : u ≠ v) (h : ¬ ranksBefore u x v y = true) :
    ranksBefore v y u x = true := by
  rw [ranksBefore_iff] at h ⊢
  by_cases hx : f32IsNaN x = true <;> by_cases hy : f32IsNaN y = true <;>
    simp only [hx, hy, if_true, if_false, Bool.false_eq_true, true_and, true_or, false_or, not_true_eq_false] at h ⊢
  · omega
  · omega

theorem rankInsert_perm (r : Nat × Word) (l : List (Nat × Word)) : (rankInsert r l).Perm (r :: l) := by
  induction l with
  | nil => exact .refl _
  | cons x xs ih =>
    simp only [rankInsert]
    split
    · exact .refl _
    · exact (ih.cons x).trans (.swap r x xs)

theorem rankInsert_pairwise {r : Nat × Word} {l : List (Nat × Word)} (hl : l.Pairwise RanksBefore)
    (hr : ∀ x ∈ l, r.1 ≠ x.1) : (rankInsert r l).Pairwise RanksBefore := by
  induction l with
  | nil => exact List.pairwise_singleton _ _
  | cons x xs ih =>
    obtain ⟨hx, hxs⟩ := List.pairwise_cons.1 hl
    simp only [rankInsert]
    split
    · next hrx =>
      refine List.pairwise_cons.2 ⟨fun y hy => ?_, hl⟩
      rcases List.mem_cons.1 hy with rfl | hy
      · exact hrx
      · exact ranksBefore_trans hrx (hx y hy)
    · next hrx =>
      refine List.pairwise_cons.2 ⟨fun y hy => ?_, ih hxs fun y hy => hr y (List.mem_cons_of_mem x hy)⟩
      rcases List.mem_cons.1 ((rankInsert_perm r xs).mem_iff.1 hy) with rfl | hy
      · exact ranksBefore_of_not (hr x List.mem_cons_self) hrx
      · exact hx y hy

theorem numbered_getElem? (v : Nat) (ds : List Word) (i : Nat) :
    (numbered v ds)[i]? = ds[i]?.map fun d => (v + i, d) := by
  induction ds generalizing v i with
  | nil => rfl
  | cons d ds ih =>
    cases i with
    | zero => rfl
    | succ i =>
      simp only [numbered, List.getElem?_cons_succ, ih]
      congr 1
      funext x
      rw [Nat.add_assoc, Nat.add_comm 1 i]

theorem le_of_mem_numbered {v : Nat} {ds : List Word} {r : Nat × Word} (h : r ∈ numbered v ds) : v ≤ r.1 := by
  obtain ⟨i, hi⟩ := List.mem_iff_getElem?.1 h
  rw [numbered_getElem?] at hi
  obtain ⟨d, -, rfl⟩ := Option.map_eq_some_iff.1 hi
  exact Nat.le_add_right v i

theorem foldr_rankInsert (v : Nat) (ds : List Word) :
    ((numbered v ds).foldr rankInsert []).Perm (numbered v ds) ∧
      ((numbered v ds).foldr rankInsert []).Pairwise RanksBefore := by
  induction ds generalizing v with
  | nil => exact ⟨.refl _, .nil⟩
  | cons d ds ih =>
    obtain ⟨hperm, hsorted⟩ := ih (v + 1)
    refine ⟨(rankInsert_perm _ _).trans (hperm.cons _), rankInsert_pairwise hsorted fun x hx => ?_⟩
    have := le_of_mem_numbered (hperm.mem_iff.1 hx)
    dsimp only
    omega

theorem ranked_perm (ds : List Word) : (ranked ds).Perm (numbered 0 ds) := (foldr_rankInsert 0 ds).1

theorem ranked_pairwise (ds : List Word) : (ranked ds).Pairwise RanksBefore := (foldr_rankInsert 0 ds).2

/-- Byte value `v` with its distance. -/
def record (d : Vector Word 256) (v : Fin 256) : Nat × Word := (v.val, d.get v)

theorem numbered_eq_records (d : Vector Word 256) : numbered 0 d.toList = (List.finRange 256).map (record d) := by
  refine List.ext_getElem? fun i => ?_
  rw [numbered_getElem?, List.getElem?_map, Vector.getElem?_toList]
  by_cases hi : i < 256
  · rw [Vector.getElem?_eq_getElem hi, List.getElem?_eq_getElem (by simpa using hi)]
    simp [record, Vector.get]
  · rw [Vector.getElem?_eq_none (by omega), List.getElem?_eq_none (by simp; omega)]
    rfl

/-- The byte value of a record. -/
def valueOf (r : Nat × Word) : Fin 256 := Fin.ofNat 256 r.1

theorem valueOf_record (d : Vector Word 256) (v : Fin 256) : valueOf (record d v) = v := by
  simp [valueOf, record]

/-- The byte values in rank order. -/
def rankOrder (d : Vector Word 256) : List (Fin 256) := (ranked d.toList).map valueOf

theorem ranked_eq_records (d : Vector Word 256) : ranked d.toList = (rankOrder d).map (record d) := by
  have hrecord : ∀ r ∈ ranked d.toList, record d (valueOf r) = r := by
    intro r hr
    have hmem := (ranked_perm d.toList).mem_iff.1 hr
    rw [numbered_eq_records] at hmem
    obtain ⟨v, -, rfl⟩ := List.mem_map.1 hmem
    rw [valueOf_record]
  rw [rankOrder, List.map_map]
  exact (List.map_id _).symm.trans (List.map_congr_left fun r hr => (hrecord r hr).symm)

theorem rankOrder_perm (d : Vector Word 256) : (rankOrder d).Perm (List.finRange 256) := by
  have hperm : (rankOrder d).Perm ((numbered 0 d.toList).map valueOf) := (ranked_perm d.toList).map valueOf
  have hvalues : ((List.finRange 256).map (record d)).map valueOf = List.finRange 256 := by
    rw [List.map_map, show valueOf ∘ record d = id from funext (valueOf_record d), List.map_id]
  exact hperm.trans (.of_eq ((congrArg (List.map valueOf) (numbered_eq_records d)).trans hvalues))

theorem rankOrder_pairwise (d : Vector Word 256) :
    (rankOrder d).Pairwise fun u v => ranksBefore u.val (d.get u) v.val (d.get v) = true := by
  have hrecords := ranked_pairwise d.toList
  rw [ranked_eq_records, List.pairwise_map] at hrecords
  exact hrecords

/-! ### Records in memory -/

theorem plainRecords_eqOff (a : Nat) (rs : List (Nat × Word)) (x : Bytes) :
    x.EqOff a (8 * rs.length) (plainRecords a rs x) := by
  induction rs generalizing a x with
  | nil => exact .refl _ _ x
  | cons r rs ih =>
    rw [List.length_cons]
    exact ((x.eqOff_putPair a (wordOf r.1) r.2).mono (by omega) (by omega)).trans
      ((ih (a + 8) _).mono (by omega) (by omega))

theorem plainRecords_record {rs : List (Nat × Word)} {i : Nat} {r : Nat × Word} (h : rs[i]? = some r) (a : Nat)
    (x : Bytes) : (plainRecords a rs x).word (a + 8 * i) = wordOf r.1 ∧
      (plainRecords a rs x).word (a + 8 * i + 4) = r.2 := by
  induction rs generalizing a x i with
  | nil => cases h
  | cons q rs ih =>
    cases i with
    | zero =>
      obtain rfl : q = r := Option.some.inj h
      have hrest := plainRecords_eqOff (a + 8) rs ((x.putWord a (wordOf q.1)).putWord (a + 4) q.2)
      obtain ⟨hvalue, hdist⟩ := x.word_putPair a (wordOf q.1) q.2
      exact ⟨(hrest.word (by omega)).trans hvalue, (hrest.word (by omega)).trans hdist⟩
    | succ i =>
      have hrest := ih (List.getElem?_cons_succ.symm.trans h) (a + 8) ((x.putWord a (wordOf q.1)).putWord (a + 4) q.2)
      rwa [show a + 8 + 8 * i = a + 8 * (i + 1) by omega] at hrest

/-! ### RANK -/

/-- `RANK` from the begin checks on: the spectrum of `n` words at `a` ranked, and its first records written at `b`. -/
def State.rankAfter (s : State) (a n b : Nat) (k : Word) : State :=
  let r := s.readWords .p a n
  let ds := r.2.computeDistances r.1
  ({ ({ ds.2 with rd := ds.1 }).writeRecords b ((ranked ds.1.toList).take k.toNat) with resi := k } : State).finish

theorem execRank_eq (s : State) : execRank s =
    s.checked (fun s => [ckNeeds s.dictv, ckUsage (s.len != wordOf Config.KC) s.len,
        ckUsage (decide (Config.NDICT < s.cnt.toNat)) s.cnt, ckAlign s.src, ckAlign s.dst,
        s.ckAddr s.src SPEC_BYTES, s.ckAlloc s.dst (8 * s.cnt.toNat)])
      fun s => .next (s.rankAfter s.src.toNat Config.KC s.dst.toNat s.cnt) := by
  unfold execRank
  refine congrArg (s.checked _) (funext fun u => ?_)
  simp only [State.rankAfter]

theorem rank_stored (s : State) (hs : s.Ready) (hw : s.mem.wf = true) (a n b : Nat) (k : Word) {t : State}
    (ht : s.beginCommand.rankAfter a n b k = t) :
    t = { s.endedAs t with resi := k, mem := t.mem, rd := t.rd, pregs := { s.pregs with re := t.pregs.re } } ∧
      t.mem.wf = true ∧ t.pview.sb = [] ∧ t.rd = distances s.draws (s.mem.words a n) s.dict ∧
      t.mem.read = plainRecords b ((ranked t.rd.toList).take k.toNat) s.mem.read := by
  obtain ⟨hfresh, hbytes, hfree⟩ := s.beginCommand_spec hs.1
  have hspec := s.beginCommand.readWords_spec .p a n hs.2
  simp only [State.rankAfter] at ht
  generalize s.beginCommand.readWords .p a n = r at hspec ht
  obtain ⟨ws, u⟩ := r
  obtain ⟨hwords, hwork, hubytes, huregs, hudraws, -⟩ := hspec
  have hdist : (u.computeDistances ws).1 = distances s.draws (s.mem.words a n) s.dict := by
    have hdict : u.dict = s.dict := by have := hwork.only; simp only [OnlyCore] at this; rw [this]; rfl
    have hws : ws = s.mem.words a n := by rw [hbytes] at hwords; exact hwords
    have hdraws : u.draws = s.draws := hudraws
    rw [← hdict, ← hws, ← hdraws]
    rfl
  dsimp only at ht
  rw [hdist] at ht
  generalize distances s.draws (s.mem.words a n) s.dict = ds at hdist ht ⊢
  generalize hv : ({ (u.computeDistances ws).2 with rd := ds } : State) = v at ht
  have hvf : v.pview.fresh v.mem := by rw [← hv]; exact hwork.fresh hfresh
  have hvj : JobFree v.pview.sb := by rw [← hv]; exact hwork.jobFree hfree
  have hvpregs : v.pregs = { s.pregs with re := v.pregs.re } := by
    have hupregs : u.pregs = s.pregs := huregs
    rw [← hv, ← hupregs]
    rfl
  have hvbytes : v.coreByte .p = s.mem.read := by rw [← hv]; exact hubytes.trans hbytes
  obtain ⟨hrec, -, hrpregs, hrbytes⟩ := v.writeRecords_spec b ((ranked ds.toList).take k.toNat) hvf
  generalize v.writeRecords b ((ranked ds.toList).take k.toNat) = w at hrec hrpregs hrbytes ht
  have honly : w = { s.beginCommand with
      rd := ds, pregs := w.pregs, pview := w.pview, keeps := w.keeps, draws := w.draws } := by
    have hw := hrec.only
    have hu := hwork.only
    simp only [OnlyCore] at hw hu
    rw [hw, ← hv, hu]
    rfl
  have hj : JobFree w.pview.sb := hrec.jobFree hvj
  obtain ⟨hread, hwf, hsb⟩ := State.finish_stores (v := { w with resi := k }) hs hw (by rw [honly]; rfl) (by rw [honly]; rfl)
    (hrec.fresh hvf) hj
  have hframe := State.finish_endedAs (v := { w with resi := k }) hs (by rw [honly]) hj
  have hrd : w.rd = ds := by rw [honly]
  rw [ht] at hread hwf hsb hframe
  have htrd : t.rd = ds := by rw [hframe]; exact hrd
  have htpregs : t.pregs = w.pregs := by rw [hframe]
  refine ⟨?_, hwf, hsb, htrd, hread.trans (hrbytes.trans ?_)⟩
  · have hpregs : t.pregs = { s.pregs with re := t.pregs.re } := by rw [htpregs, hrpregs]; exact hvpregs
    rw [← hpregs, htrd, htpregs]
    refine hframe.trans ?_
    simp only [hrd]
  · rw [htrd, hvbytes]

/-- Settles O42: the records are those of plain memory. -/
theorem rankRecords : Obligations.RankRecords := by
  intro s hbegin hs hw
  have hpass := (rankChecks_pass s.beginCommand).2 ((State.beginError_rank s.beginCommand).1 hbegin)
  have hexec : exec .rank s =
      .next (s.beginCommand.rankAfter s.beginCommand.src.toNat Config.KC s.beginCommand.dst.toNat s.beginCommand.cnt) :=
    (execRank_eq s).trans (State.checked_passes hpass)
  obtain ⟨hframe, hwf, hsb, hrd, hread⟩ :=
    rank_stored s hs hw s.beginCommand.src.toNat Config.KC s.beginCommand.dst.toNat s.beginCommand.cnt rfl
  generalize s.beginCommand.rankAfter s.beginCommand.src.toNat Config.KC s.beginCommand.dst.toNat
    s.beginCommand.cnt = t at hexec hframe hwf hsb hrd hread
  refine ⟨t, rankOrder t.rd, hexec, hframe, hwf, hsb, fun b hb => ?_, fun v => ?_, rankOrder_perm t.rd,
    rankOrder_pairwise t.rd, fun r v hr hv => ?_⟩
  · have hdst : s.beginCommand.dst = s.dst := rfl
    have hcnt : s.beginCommand.cnt = s.cnt := rfl
    have hlen := List.length_take_le s.cnt.toNat (ranked t.rd.toList)
    rw [hread, hdst, hcnt]
    exact plainRecords_eqOff _ _ _ b (by omega)
  · rw [hrd, distances_get]
    rfl
  · have hrecord : ((ranked t.rd.toList).take s.cnt.toNat)[r]? = some (record t.rd v) := by
      rw [List.getElem?_take_of_lt hr, ranked_eq_records, List.getElem?_map, hv]
      rfl
    rw [← Memory.word_read, ← Memory.word_read, hread]
    exact plainRecords_record hrecord s.dst.toNat s.mem.read

end Sys2Proof.Machine
end

section
/-! PROOFS. Every bin of a grid has a value, whatever the tables (42_dtft.md rule R112), and what the bins of a transform
leave in memory (R53, R106). -/

namespace Sys2Proof.Machine

/-! ### Grid angles have an index -/

/-- The frequency and the angle are small enough for every lookup of a bin. -/
structure Datapath.Indexing (r : Datapath) : Prop where
  omega : Within 3 r.omega
  angle : Within 40 r.angle

theorem binStart_indexing {w : Word} (hw : Within 3 w) (r : Datapath) : (binStart w r).Indexing :=
  ⟨hw, zero_within 40⟩

theorem lookup_isSome (n : Nat) (T : Vector Word Config.L) {a : Word} (ha : Within 40 a) : ∃ v, lookup n T a = some v :=
  ⟨_, lookup_finite n T ha.1 (ha.fmul n pi_within.2.2 (by decide)).1⟩

section
variable {S C : Vector Word Config.L}

theorem accumulate_indexing (n : Nat) (x : Byte) {r : Datapath} (hr : r.Indexing) :
    ∃ r', accumulate n S C x r = some r' ∧ r'.Indexing := by
  obtain ⟨cv, hcv⟩ := lookup_isSome n C hr.angle
  obtain ⟨sv, hsv⟩ := lookup_isSome (n + 5) S hr.angle
  have hangle : Within 40 (fsub (n + 14) r.angle r.omega) := hr.angle.fsub_small _ hr.omega (by decide) (by decide)
  have hacc : accumulate n S C x r = some { r with
      re := fadd (n + 11) r.re (fmul (n + 10) (cvtU8 x) cv), im := fadd (n + 13) r.im (fmul (n + 12) (cvtU8 x) sv),
      angle := fsub (n + 14) r.angle r.omega, nidx := r.nidx + 1 } := by
    simp only [accumulate, hcv, hsv]
  exact ⟨_, hacc, hr.omega, hangle⟩

theorem dtftBin_isSome (n : Nat) (x : Nat → Byte) (N : Nat) {w : Word} (hw : Within 3 w) :
    ∃ b, dtftBin n S C x N w = some b := by
  obtain ⟨r, h, -⟩ := kernel_keeps (S := S) (C := C) x (fun n i _ hr => accumulate_indexing n (x i) hr) n N
    (binStart_indexing hw Datapath.reset)
  exact ⟨_, by rw [dtftBin, h]; rfl⟩

/-! ### The samples a bin reads -/

theorem accumulate_nidx {n : Nat} {x : Byte} {r r' : Datapath} (h : accumulate n S C x r = some r') :
    r'.nidx = r.nidx + 1 := by
  simp only [accumulate] at h
  split at h
  · cases h; rfl
  · cases h

theorem kernel_congr {x y : Nat → Byte} (n m : Nat) {r : Datapath} (hm : r.nidx.toNat + m ≤ 2 ^ 32)
    (h : ∀ i, r.nidx.toNat ≤ i → i < r.nidx.toNat + m → x i = y i) : kernel n S C x m r = kernel n S C y m r := by
  induction m generalizing n r with
  | zero => rfl
  | succ m ih =>
    simp only [kernel, h r.nidx.toNat le_rfl (by omega)]
    cases hr : accumulate n S C (y r.nidx.toNat) r with
    | none => rfl
    | some r' =>
      cases m with
      | zero => rfl
      | succ m =>
        have hnext : r'.nidx.toNat = r.nidx.toNat + 1 := by
          rw [accumulate_nidx hr, BitVec.toNat_add, show (1 : Word).toNat = 1 from rfl]
          omega
        exact ih _ (by omega) fun i hlo hhi => h i (by omega) (by omega)

theorem dtftBin_congr {x y : Nat → Byte} (n : Nat) {N : Nat} (hN : N ≤ 2 ^ 32) (h : ∀ i < N, x i = y i) (w : Word) :
    dtftBin n S C x N w = dtftBin n S C y N w := by
  have hstart : (binStart w Datapath.reset).nidx.toNat = 0 := rfl
  rw [dtftBin, dtftBin, kernel_congr n N (by omega) fun i _ hi => h i (by omega)]

/-! ### The bins in memory -/

/-- `y` is what bins `k` to `k + m` leave of `x`: no byte outside theirs changes, and where no bin is written over the
signal, each is the bin of the signal in `x`. -/
structure BinsLeft (S C : Vector Word Config.L) (g : Grid) (sig N : Nat) (K : Word) (out n m k : Nat) (x y : Bytes) :
    Prop where
  outside : x.EqOff (out + 8 * k) (8 * m) y
  bin : N = 0 ∨ sig + N ≤ out + 8 * k ∨ out + 8 * (k + m) ≤ sig → ∀ i < m,
    dtftBin (n + (OMEGA_DRAWS + SAMPLE_DRAWS * N) * i + OMEGA_DRAWS) S C (fun j => x (sig + j)) N
      (omegaOf (n + (OMEGA_DRAWS + SAMPLE_DRAWS * N) * i) g (wordOf (k + i)) K) =
      some (y.word (out + 8 * (k + i)), y.word (out + 8 * (k + i) + 4))

theorem BinsLeft.nil {g : Grid} {sig N out n k : Nat} {K : Word} (x : Bytes) :
    BinsLeft S C g sig N K out n 0 k x x :=
  ⟨.refl _ _ x, fun _ _ hi => absurd hi (Nat.not_lt_zero _)⟩

theorem BinsLeft.cons {g : Grid} {sig N out n m k : Nat} {K : Word} {x y : Bytes} {b : Word × Word} (hN : N ≤ 2 ^ 32)
    (hb : dtftBin (n + OMEGA_DRAWS) S C (fun j => x (sig + j)) N (omegaOf n g (wordOf k) K) = some b)
    (h : BinsLeft S C g sig N K out (n + OMEGA_DRAWS + SAMPLE_DRAWS * N) m (k + 1)
      ((x.putWord (out + 8 * k) b.1).putWord (out + 8 * k + 4) b.2) y) :
    BinsLeft S C g sig N K out n (m + 1) k x y := by
  have hput := x.eqOff_putPair (out + 8 * k) b.1 b.2
  obtain ⟨hre, him⟩ := x.word_putPair (out + 8 * k) b.1 b.2
  refine ⟨(hput.mono (by omega) (by omega)).trans (h.outside.mono (by omega) (by omega)), fun hdis i hi => ?_⟩
  cases i with
  | zero =>
    simp only [Nat.mul_zero, Nat.add_zero]
    rw [h.outside.word (by omega), h.outside.word (by omega), hre, him]
    exact hb
  | succ i =>
    have hrest := h.bin (by omega) i (by omega)
    have hsignal : ∀ j < N, (x.putWord (out + 8 * k) b.1).putWord (out + 8 * k + 4) b.2 (sig + j) = x (sig + j) :=
      fun j hj => hput _ (by omega)
    rw [dtftBin_congr _ hN hsignal] at hrest
    have hdraws : n + OMEGA_DRAWS + SAMPLE_DRAWS * N + (OMEGA_DRAWS + SAMPLE_DRAWS * N) * i =
        n + (OMEGA_DRAWS + SAMPLE_DRAWS * N) * (i + 1) := by rw [Nat.mul_succ]; omega
    rwa [hdraws, show k + 1 + i = k + (i + 1) by omega] at hrest

theorem plainBins_left (g : Grid) (sig : Nat) {N : Nat} (K : Word) (out n : Nat) {m k : Nat} (hN : N ≤ 2 ^ 32)
    (hK : k + m ≤ K.toNat) (x : Bytes) :
    ∃ y, plainBins S C g sig N K out n m k x = some y ∧ BinsLeft S C g sig N K out n m k x y := by
  induction m generalizing n k x with
  | zero => exact ⟨x, rfl, .nil x⟩
  | succ m ih =>
    have hk : (wordOf k).toNat = k := toNat_wordOf (by have := K.isLt; omega)
    obtain ⟨b, hb⟩ := dtftBin_isSome (S := S) (C := C) (n + OMEGA_DRAWS) (fun j => x (sig + j)) N
      (omegaOf_within n g (k := wordOf k) (K := K) (by omega))
    obtain ⟨y, hy, hleft⟩ := ih (n + OMEGA_DRAWS + SAMPLE_DRAWS * N) (k := k + 1) (by omega)
      ((x.putWord (out + 8 * k) b.1).putWord (out + 8 * k + 4) b.2)
    exact ⟨y, by simp only [plainBins, hb, hy], hleft.cons hN hb⟩

end

/-! ### XFORM -/

/-- Settles O21: the transform is that of plain memory. -/
theorem xformResult : Obligations.XformResult := by
  intro g s hbegin hs hw
  have hN : s.len.toNat ≤ 2 ^ 32 := by have := s.len.isLt; omega
  obtain ⟨y, hy, hleft⟩ := plainBins_left (S := s.sintab) (C := s.costab) g s.src.toNat s.cnt s.dst.toNat s.draws
    (m := s.cnt.toNat) (k := 0) hN (by omega) s.mem.read
  obtain ⟨hfresh, hbytes, hfree⟩ := s.beginCommand_spec hs.1
  have hspec := s.beginCommand.transform_spec .p (serialJob s.beginCommand g) hfresh hs.2
  rw [hbytes] at hspec
  have hplain : plainBins s.beginCommand.sintab s.beginCommand.costab (serialJob s.beginCommand g).g
      (serialJob s.beginCommand g).sig.toNat (serialJob s.beginCommand g).n.toNat (serialJob s.beginCommand g).kt
      (serialJob s.beginCommand g).out.toNat s.beginCommand.draws
      ((serialJob s.beginCommand g).k1.toNat - (serialJob s.beginCommand g).k0.toNat)
      (serialJob s.beginCommand g).k0.toNat s.mem.read = some y := hy
  rw [hplain] at hspec
  obtain ⟨u, hu, hwork, hubytes, -⟩ := hspec
  have hexec : exec (.xform g) s = .next ({ u with resi := s.cnt } : State).finish := by
    refine (State.checked_passes (s := s) (f := xformChecks) (body := fun s =>
      orNum s (s.transform .p (serialJob s g)) (fun s1 => .next { s1 with resi := s.cnt }.finish))
      ((xformChecks_pass s.beginCommand).2 ((State.beginError_xform s.beginCommand g).1 hbegin))).trans ?_
    simp only [orNum, hu]
    rfl
  have honly := hwork.only
  have hj : JobFree u.pview.sb := hwork.jobFree hfree
  obtain ⟨hread, hwf, hsb⟩ := State.finish_stores (v := { u with resi := s.cnt }) hs hw honly.mem honly.disturbed
    (hwork.fresh hfresh) hj
  simp only [OnlyCore] at honly
  have hframe := State.finish_endedAs (v := { u with resi := s.cnt }) hs (by rw [honly]) hj
  have hrd : u.rd = s.rd := by rw [honly]; rfl
  have hmem : ({ u with resi := s.cnt } : State).finish.mem.read = y := hread.trans hubytes
  have hpregs : ({ u with resi := s.cnt } : State).finish.pregs = u.pregs := by rw [hframe]
  generalize ({ u with resi := s.cnt } : State).finish = t at *
  refine ⟨y, t, hy, hexec, ?_, hwf, hsb, fun a => congrFun hmem a, fun a ha => ?_, fun hdis k hk => ?_⟩
  · rw [hpregs]
    refine hframe.trans ?_
    simp only [hrd]
    rfl
  · rw [hmem]
    exact hleft.outside a (by omega)
  · have hbin := hleft.bin (by omega) k hk
    rw [Nat.zero_add] at hbin
    rw [← Memory.word_read, ← Memory.word_read, hmem]
    exact hbin

end Sys2Proof.Machine
end

section
/-! PROOFS. The parts of a turn that the handoff of a job (43_coresync.md) turns on: what computing leaves of a view
besides words of `MEM`, what a drain and a fence do to the slot, and that the steps through the bins of a job that fits
in memory advance. -/

namespace Sys2Proof.Machine

/-! ### Computing on a view -/

/-- `w` is `v` after accesses to `MEM`: no copy of a slot word is made or dropped, and no slot write becomes pending. -/
structure View.Grows (v w : View) : Prop where
  jcopies : w.jcopies = v.jcopies
  sb : ∃ es, JobFree es ∧ w.sb = v.sb ++ es

theorem jobFree_nil : JobFree [] := fun _ h => absurd h List.not_mem_nil

theorem View.Grows.refl (v : View) : v.Grows v := ⟨rfl, [], jobFree_nil, (List.append_nil _).symm⟩

theorem View.Grows.trans {u v w : View} (h : u.Grows v) (k : v.Grows w) : u.Grows w := by
  obtain ⟨hjc, es, hes, hsb⟩ := h
  obtain ⟨kjc, fs, hfs, ksb⟩ := k
  refine ⟨kjc.trans hjc, es ++ fs, fun e he => ?_, by rw [ksb, hsb, List.append_assoc]⟩
  exact (List.mem_append.1 he).elim (hes e) (hfs e)

theorem View.Grows.jobFree {v w : View} (h : v.Grows w) (hv : JobFree v.sb) : JobFree w.sb := by
  obtain ⟨-, es, hes, hsb⟩ := h
  rw [hsb]
  exact fun e he => (List.mem_append.1 he).elim (hv e) (hes e)

theorem View.Grows.mem_job {v w : View} (h : v.Grows w) {i : JobIx} {x : Word} (hx : .job i x ∈ w.sb) :
    .job i x ∈ v.sb := by
  obtain ⟨-, es, hes, hsb⟩ := h
  rw [hsb] at hx
  exact (List.mem_append.1 hx).resolve_right fun he => hes _ he i x rfl

theorem State.noteWord_grows (s : State) (c : CoreId) (k : Nat) : (s.view c).Grows ((s.noteWord c k).view c) := by
  rcases s.noteWord_cases c k with h | h | ⟨-, h⟩ <;> rw [h]
  · exact .refl _
  · cases c <;> exact .refl _
  · rw [State.setView_view]
    exact ⟨rfl, [], jobFree_nil, (List.append_nil _).symm⟩

theorem State.noteRead_grows (s : State) (c : CoreId) (a n : Nat) :
    (s.view c).Grows ((s.noteRead c a n).view c) := by
  have hword := s.noteWord_grows c (a / 4)
  rcases s.noteRead_cases c a n with h | h <;> rw [h]
  · exact hword
  · rw [State.draw_view]; exact hword

theorem State.writeWord_grows (s : State) (c : CoreId) (a : Nat) (x : Word) :
    (s.view c).Grows ((s.writeWord c a x).view c) := by
  rw [State.writeWord, State.enqueue, State.setView_view]
  exact ⟨rfl, [.word a x], by simp [JobFree], rfl⟩

theorem State.magSpectrum_grows (s : State) (f : Nat → Word → Word → Word) (src dst n : Nat) :
    s.pview.Grows (s.magSpectrum f src dst n).pview := by
  have hentry : ∀ u : State, u.pview.Grows (u.magEntry f src dst).pview := fun u =>
    ((u.noteRead_grows .p _ 4).trans (State.noteRead_grows _ .p _ 4)).trans (State.writeWord_grows _ .p _ _)
  suffices hentries : ∀ u : State, u.pview.Grows (u.magEntries f src dst n).pview from
    hentries (s.setRegs .p { s.pregs with kidx := 0 })
  induction n with
  | zero => exact fun u => .refl _
  | succ n ih => exact fun u => (hentry u).trans (ih _)

theorem State.readWords_grows (s : State) (c : CoreId) (a n : Nat) :
    (s.view c).Grows ((s.readWords c a n).2.view c) := by
  induction n generalizing s a with
  | zero => exact .refl _
  | succ n ih => exact (s.noteRead_grows c a 4).trans (ih _ _)

/-! ### Drains and fences on the slot -/

/-- A drain that does anything takes one entry of the buffer to shared storage. -/
theorem State.drain_cases (s : State) (c : CoreId) (n : Nat) : s.drain c n = s ∨
    ∃ e, (s.view c).sb[n]? = some e ∧
      s.drain c n = (s.setView c { s.view c with sb := (s.view c).sb.eraseIdx n }).land c e := by
  unfold State.drain
  split
  · exact .inl rfl
  · next e he =>
    split
    · exact .inl rfl
    · exact .inr ⟨e, he, rfl⟩

/-- No entry is older than the oldest: its drain is always enabled. -/
theorem State.drain_oldest {s : State} {c : CoreId} {e : Pending} {es : List Pending} (h : (s.view c).sb = e :: es) :
    s.drain c 0 = (s.setView c { s.view c with sb := es }).land c e := by
  simp [State.drain, h]

theorem State.drain_empty {s : State} {c : CoreId} (n : Nat) (h : (s.view c).sb = []) : s.drain c n = s := by
  simp [State.drain, h]

theorem State.land_sb (s : State) (c : CoreId) (e : Pending) (es : List Pending) :
    (((s.setView c { s.view c with sb := es }).land c e).view c).sb = es := by
  rw [State.land, State.setView_view, State.setView_view]
  rfl

theorem State.drain_sublist (s : State) (c : CoreId) (n : Nat) :
    ((s.drain c n).view c).sb.Sublist (s.view c).sb := by
  rcases s.drain_cases c n with hd | ⟨f, -, hd⟩ <;> rw [hd]
  rw [State.land_sb]
  exact List.eraseIdx_sublist _ _

/-- What a slot word in shared storage can be after a drain. -/
theorem State.drain_job_cases (s : State) (c : CoreId) (n : Nat) (i : JobIx) :
    (s.drain c n).job.get i = s.job.get i ∨ .job i ((s.drain c n).job.get i) ∈ (s.view c).sb := by
  rcases s.drain_cases c n with hd | ⟨e, he, hd⟩ <;> rw [hd]
  · exact .inl rfl
  · rw [State.land_job, State.apply_job_get, State.setView_job]
    cases e with
    | byte a x => exact .inl rfl
    | word a x => exact .inl rfl
    | job k x =>
      by_cases hi : i = k
      · subst hi
        simp only [Pending.overlayJob, if_true]
        exact .inr (List.mem_of_getElem? he)
      · exact .inl (if_neg hi)

/-- An entry pending before a drain is pending after it, or has reached shared storage. -/
theorem State.drain_keeps_job (s : State) (c : CoreId) (n : Nat) {i : JobIx} {x : Word}
    (h : .job i x ∈ (s.view c).sb) :
    .job i x ∈ ((s.drain c n).view c).sb ∨ (s.drain c n).job.get i = x := by
  rcases s.drain_cases c n with hd | ⟨e, he, hd⟩ <;> rw [hd]
  · exact .inl h
  · by_cases hex : e = .job i x
    · right
      rw [State.land_job, State.apply_job_get, hex]
      exact if_pos rfl
    · left
      rw [State.land_sb]
      obtain ⟨m, hm⟩ := List.mem_iff_getElem?.1 h
      have hmn : m ≠ n := by
        rintro rfl
        exact hex (Option.some.inj (he.symm.trans hm))
      exact List.mem_eraseIdx_iff_getElem?.2 ⟨m, hmn, hm⟩

theorem State.drain_jobFree {s : State} {c : CoreId} (n : Nat) (h : JobFree (s.view c).sb) :
    (s.drain c n).job = s.job ∧ JobFree ((s.drain c n).view c).sb := by
  refine ⟨?_, fun e he => h e ((s.drain_sublist c n).subset he)⟩
  rcases s.drain_cases c n with hd | ⟨e, he, hd⟩ <;> rw [hd]
  rw [State.land_job]
  cases e with
  | byte a x => exact State.setView_job _ _ _
  | word a x => exact State.setView_job _ _ _
  | job i x => exact absurd rfl (h _ (List.mem_of_getElem? he) i x)

/-- A drain of a younger entry leaves the oldest where it is. -/
theorem State.drain_younger {s : State} {c : CoreId} {e : Pending} {es : List Pending} (h : (s.view c).sb = e :: es)
    (n : Nat) : ∃ fs, ((s.drain c (n + 1)).view c).sb = e :: fs ∧ fs.Sublist es ∧
      ∀ i, (s.drain c (n + 1)).job.get i = s.job.get i ∨ .job i ((s.drain c (n + 1)).job.get i) ∈ es := by
  rcases s.drain_cases c (n + 1) with hd | ⟨f, hf, hd⟩ <;> rw [hd]
  · exact ⟨es, h, .refl es, fun _ => .inl rfl⟩
  · rw [h, List.getElem?_cons_succ] at hf
    refine ⟨es.eraseIdx n, by rw [State.land_sb, h, List.eraseIdx_cons_succ], List.eraseIdx_sublist es n, fun i => ?_⟩
    rw [State.land_job, State.apply_job_get, State.setView_job]
    cases f with
    | byte a x => exact .inl rfl
    | word a x => exact .inl rfl
    | job k x =>
      by_cases hi : i = k
      · subst hi
        simp only [Pending.overlayJob, if_true]
        exact .inr (List.mem_of_getElem? hf)
      · exact .inl (if_neg hi)

/-- A drain makes no copy. -/
theorem State.drain_jcopies {s : State} {c : CoreId} (n : Nat) {i : JobIx}
    (h : (s.view c).jcopies.get i = none) : ((s.drain c n).view c).jcopies.get i = none := by
  rcases s.drain_cases c n with hd | ⟨e, -, hd⟩ <;> rw [hd]
  · exact h
  · rw [State.land, State.setView_view, State.setView_view]
    cases e with
    | byte a x => exact h
    | word a x => exact h
    | job k x =>
      simp only [View.patch, JobSlot.get_set]
      split
      · next hi => rw [← hi, h]; rfl
      · exact h

/-- A drain patches a copy of the words it takes to shared storage only. -/
theorem State.drain_jcopies_other {s : State} {c : CoreId} (n : Nat) {i : JobIx}
    (h : ∀ x, .job i x ∉ (s.view c).sb) : ((s.drain c n).view c).jcopies.get i = (s.view c).jcopies.get i := by
  rcases s.drain_cases c n with hd | ⟨e, he, hd⟩ <;> rw [hd]
  rw [State.land, State.setView_view, State.setView_view]
  cases e with
  | byte a x => rfl
  | word a x => rfl
  | job k x =>
    simp only [View.patch, JobSlot.get_set]
    split
    · next hi =>
      subst hi
      exact absurd (List.mem_of_getElem? he) (h x)
    · rfl

/-- The value a buffer's entries leave of a slot word, where none of them is to that word. -/
theorem foldl_overlayJob_other {es : List Pending} {i : JobIx} (h : ∀ x, .job i x ∉ es) (w : Word) :
    es.foldl (fun w e => e.overlayJob i w) w = w := by
  induction es generalizing w with
  | nil => rfl
  | cons e es ih =>
    have hrest : ∀ x, .job i x ∉ es := fun x hx => h x (List.mem_cons_of_mem e hx)
    rw [List.foldl_cons, ih hrest]
    cases e with
    | byte a x => rfl
    | word a x => rfl
    | job k x =>
      refine if_neg fun hik => h x ?_
      rw [hik]
      exact List.mem_cons_self

/-- … and where all entries to that word write `v`, and there is one or the word is `v` already. -/
theorem foldl_overlayJob_agree {es : List Pending} {i : JobIx} {v w : Word} (hes : ∀ x, .job i x ∈ es → x = v)
    (h : .job i v ∈ es ∨ w = v) : es.foldl (fun w e => e.overlayJob i w) w = v := by
  induction es generalizing w with
  | nil => exact h.resolve_left List.not_mem_nil
  | cons e es ih =>
    rw [List.foldl_cons]
    refine ih (fun x hx => hes x (List.mem_cons_of_mem e hx)) ?_
    by_cases hmem : .job i v ∈ es
    · exact .inl hmem
    right
    cases e with
    | byte a x => exact h.resolve_left fun h => hmem ((List.mem_cons.1 h).resolve_left (by simp))
    | word a x => exact h.resolve_left fun h => hmem ((List.mem_cons.1 h).resolve_left (by simp))
    | job k x =>
      by_cases hik : i = k
      · subst hik
        simp only [Pending.overlayJob, if_true]
        exact hes x List.mem_cons_self
      · simp only [Pending.overlayJob, if_neg hik]
        exact h.resolve_left fun h => hmem ((List.mem_cons.1 h).resolve_left (by simp [hik]))

/-! ### The bins of a job that fits in memory -/

/-- Signal and spectrum of a job lie in a memory of `n` bytes, and its halves are in order. -/
structure Job.Fits (j : Job) (n : Nat) : Prop where
  signal : ∀ i < j.n.toNat, j.sig.toNat + i < n
  output : ∀ k < j.kt.toNat, binAddr j.out k + 8 ≤ n
  half : j.k0.toNat ≤ j.kt.toNat
  last : j.k1 = j.kt

/-- The registers of a core in the middle of a bin below `kEnd`. -/
def BinAt (j : Job) (kEnd : Word) (b : BinPos) (r : Datapath) : Prop :=
  match b with
  | .next => True
  | .sample => r.kidx.toNat < kEnd.toNat ∧ r.nidx.toNat < j.n.toNat ∧ r.Indexing
  | .re => r.kidx.toNat < kEnd.toNat
  | .im => r.kidx.toNat < kEnd.toNat

/-- How far a core still is from bin `kEnd`: more than the steps it has yet to take. -/
def binRank (j : Job) (kEnd : Word) (b : BinPos) (r : Datapath) : Nat :=
  let left := (kEnd.toNat - r.kidx.toNat) * (j.n.toNat + 4)
  match b with
  | .next => left
  | .sample => left - 1 - r.nidx.toNat
  | .re => left - 1 - j.n.toNat
  | .im => left - 2 - j.n.toNat

theorem accumulate_kidx_kept {n : Nat} {S C : Vector Word Config.L} {x : Byte} {r r' : Datapath}
    (h : accumulate n S C x r = some r') : r'.kidx = r.kidx := by
  simp only [accumulate] at h
  split at h
  · cases h; rfl
  · cases h

/-- One sample of a bin under way. -/
theorem State.sample_advances (s : State) (c : CoreId) (sig : Nat) (h : (s.regs c).Indexing) :
    ∃ t, s.sample c sig = .ok t ∧ (s.view c).Grows (t.view c) ∧ (t.regs c).Indexing ∧
      (t.regs c).kidx = (s.regs c).kidx ∧ (t.regs c).nidx = (s.regs c).nidx + 1 := by
  obtain ⟨r, hr, hi⟩ := accumulate_indexing (S := s.sintab) (C := s.costab) s.draws
    (s.seenByte c (sig + (s.regs c).nidx.toNat)) h
  refine ⟨((s.noteRead c (sig + (s.regs c).nidx.toNat) 1).setRegs c r).draw SAMPLE_DRAWS,
    by simp only [State.sample, State.readByte, hr], ?_, ?_, ?_, ?_⟩
  · rw [State.draw_view, State.setRegs_view]
    exact s.noteRead_grows c _ 1
  all_goals rw [State.draw_regs, State.setRegs_regs]
  · exact hi
  · exact accumulate_kidx_kept hr
  · exact accumulate_nidx hr

/-- A step through the bins of a job that fits in memory finds no bin left, or goes on nearer to the end. -/
theorem State.binStep_advances {s : State} {c : CoreId} {j : Job} {kEnd : Word} {b : BinPos}
    (hj : j.Fits s.memBytes) (hk : kEnd.toNat ≤ j.kt.toNat) (h : BinAt j kEnd b (s.regs c)) :
    s.binStep c j kEnd b = .done s ∨
      ∃ b' t, s.binStep c j kEnd b = .at b' t ∧ OnlyCore c s t ∧ (s.view c).Grows (t.view c) ∧
        BinAt j kEnd b' (t.regs c) ∧ binRank j kEnd b' (t.regs c) < binRank j kEnd b (s.regs c) := by
  have hn := j.n.isLt
  have hkEnd := kEnd.isLt
  have hleft : (s.regs c).kidx.toNat < kEnd.toNat →
      j.n.toNat + 4 ≤ (kEnd.toNat - (s.regs c).kidx.toNat) * (j.n.toNat + 4) := fun hlt =>
    Nat.le_mul_of_pos_left _ (by omega)
  cases b with
  | next =>
    by_cases hlt : (s.regs c).kidx.toNat < kEnd.toNat
    · right
      have hle := hleft hlt
      have homega := omegaOf_within s.draws j.g (k := (s.regs c).kidx) (K := j.kt) (by omega)
      refine ⟨_, _, if_pos hlt, ((Work.setRegs c s _).trans (.draw c _ _)).only, ?_, ?_, ?_⟩
      · rw [State.draw_view, State.setRegs_view]; exact .refl _
      all_goals rw [State.draw_regs, State.setRegs_regs]; split
      · exact hlt
      · next hne =>
        have hpos : 0 < j.n.toNat := Nat.pos_of_ne_zero fun h0 => hne (BitVec.eq_of_toNat_eq h0)
        exact ⟨hlt, hpos, binStart_indexing homega _⟩
      · simp only [binRank, binStart]; omega
      · have hzero : (0 : Word).toNat = 0 := rfl
        simp only [binRank, binStart, hzero]; omega
    · exact .inl (if_neg hlt)
  | sample =>
    right
    obtain ⟨hlt, hlen, hindexing⟩ := h
    have hle := hleft hlt
    obtain ⟨t, ht, hgrows, hi, hkidx, hnidx⟩ := s.sample_advances c j.sig.toNat hindexing
    have hnext : (t.regs c).nidx.toNat = (s.regs c).nidx.toNat + 1 := by
      rw [hnidx, BitVec.toNat_add, show (1 : Word).toNat = 1 from rfl]
      omega
    have hstep : s.binStep c j kEnd .sample =
        .at (if (t.regs c).nidx.toNat < j.n.toNat then .sample else .re) t := by
      simp only [State.binStep, ht, if_pos (hj.signal _ hlen)]
    refine ⟨_, t, hstep, (State.sample_work ht).only, hgrows, ?_, ?_⟩ <;> split
    · next hmore => exact ⟨by rw [hkidx]; exact hlt, hmore, hi⟩
    · show (t.regs c).kidx.toNat < _
      rw [hkidx]; exact hlt
    · simp only [binRank, hkidx]; omega
    · simp only [binRank, hkidx]; omega
  | re =>
    right
    have hlt : (s.regs c).kidx.toNat < kEnd.toNat := h
    have hle := hleft hlt
    have hout := hj.output (s.regs c).kidx.toNat (by omega)
    refine ⟨_, _, if_pos (by omega), ((Work.writeWord c s _ _).trans (.draw c _ _)).only, ?_, ?_, ?_⟩
    · rw [State.draw_view]; exact s.writeWord_grows c _ _
    all_goals rw [State.draw_regs, State.writeWord_regs]
    · exact hlt
    · simp only [binRank]; omega
  | im =>
    right
    have hlt : (s.regs c).kidx.toNat < kEnd.toNat := h
    have hle := hleft hlt
    have hout := hj.output (s.regs c).kidx.toNat (by omega)
    have hnext : ((s.regs c).kidx + 1).toNat = (s.regs c).kidx.toNat + 1 := by
      rw [BitVec.toNat_add, show (1 : Word).toNat = 1 from rfl]
      omega
    refine ⟨_, _, if_pos (by omega), (((Work.writeWord c s _ _).trans (.setRegs c _ _)).trans (.draw c _ _)).only, ?_,
      ?_, ?_⟩
    · rw [State.draw_view, State.setRegs_view]; exact s.writeWord_grows c _ _
    all_goals rw [State.draw_regs, State.setRegs_regs]
    · trivial
    · have hsub : kEnd.toNat - (s.regs c).kidx.toNat = kEnd.toNat - ((s.regs c).kidx.toNat + 1) + 1 := by omega
      simp only [binRank, hnext]
      rw [hsub, Nat.succ_mul]
      omega

end Sys2Proof.Machine
end

section
/-! PROOFS. What a turn of each core does while a job is handed over and run (43_coresync.md rules R117 to R128): one
statement for each core, from the condition its sequencer keeps. -/

namespace Sys2Proof

/-- A word of the slot that says what the job is; the two others are its flags. -/
def JobIx.Param (i : JobIx) : Prop := i ≠ .done ∧ i ≠ .sigp

/-- The place of a slot word in the order of publishing and of loading. -/
def JobIx.pos : JobIx → Nat
  | .sig => 0
  | .len => 1
  | .start => 2
  | .stop => 3
  | .ktot => 4
  | .grid => 5
  | .out => 6
  | .done => 7
  | .sigp => 8

theorem JobIx.eq_of_pos_eq {i k : JobIx} (h : k.pos = i.pos) : k = i := by
  cases i <;> cases k <;> simp_all [JobIx.pos]

theorem JobIx.Param.pos_lt {i : JobIx} (h : i.Param) : i.pos < 7 := by
  cases i with
  | done => exact absurd rfl h.1
  | sigp => exact absurd rfl h.2
  | _ => decide

end Sys2Proof

namespace Sys2Proof.Machine

/-! ### A slot read -/

theorem State.noteJob_only (s : State) (c : CoreId) (i : JobIx) : OnlyCore c s (s.noteJob c i) := by
  rcases s.noteJob_cases c i with h | h | ⟨-, h⟩ <;> rw [h]
  · exact .refl c s
  · exact .dropKeep c s
  · cases c <;> rfl

theorem State.noteJob_sb (s : State) (c : CoreId) (i : JobIx) : ((s.noteJob c i).view c).sb = (s.view c).sb := by
  rcases s.noteJob_cases c i with h | h | ⟨-, h⟩ <;> rw [h]
  · cases c <;> rfl
  · rw [State.setView_view]; rfl

/-- The copy a slot read may leave is what shared storage holds. -/
theorem State.noteJob_jcopies (s : State) (c : CoreId) (i k : JobIx) :
    ((s.noteJob c i).view c).jcopies.get k = (s.view c).jcopies.get k ∨
      k = i ∧ ((s.noteJob c i).view c).jcopies.get k = some (s.job.get i) := by
  rcases s.noteJob_cases c i with h | h | ⟨-, h⟩ <;> rw [h]
  · exact .inl rfl
  · cases c <;> exact .inl rfl
  · rw [State.setView_view]
    simp only [View.keepJob, JobSlot.get_set]
    split
    · next hk => exact .inr ⟨hk, rfl⟩
    · exact .inl rfl

/-- A core that holds no copy of a slot word reads shared storage's under its own pending writes. -/
theorem State.coreJob_of_no_copy {s : State} {c : CoreId} {i : JobIx} (h : (s.view c).jcopies.get i = none) :
    s.coreJob c i = (s.view c).sb.foldl (fun w e => e.overlayJob i w) (s.job.get i) := by
  rw [State.coreJob, View.slot, h]
  rfl

/-! ### The words of a job -/

/-- The slot holds job `j`. -/
def Job.Published (j : Job) (slot : JobSlot Word) : Prop := ∀ i, i.Param → slot.get i = j.slotWord i

/-- The first `m` words of `w` are those of `j`. -/
def Job.LoadedTo (j w : Job) (m : Nat) : Prop := ∀ i, i.Param → i.pos < m → w.slotWord i = j.slotWord i

theorem Job.loadedTo_zero (j w : Job) : j.LoadedTo w 0 := fun _ _ h => absurd h (Nat.not_lt_zero _)

theorem gridOfBit_gridWord (g : Grid) : gridOfBit ((gridWord g).getLsbD 0) = g := by cases g <;> rfl

theorem gridWord_inj {g h : Grid} (e : gridWord g = gridWord h) : g = h := by
  rw [← gridOfBit_gridWord g, e, gridOfBit_gridWord]

theorem Job.slotWord_load_same (j w : Job) {i : JobIx} (hi : i.Param) :
    (w.load i (j.slotWord i)).slotWord i = j.slotWord i := by
  cases i with
  | grid => exact congrArg gridWord (gridOfBit_gridWord j.g)
  | done => exact absurd rfl hi.1
  | sigp => exact absurd rfl hi.2
  | _ => rfl

theorem Job.slotWord_load_other (w : Job) {i k : JobIx} (v : Word) (h : k ≠ i) :
    (w.load i v).slotWord k = w.slotWord k := by
  cases i <;> cases k <;> simp_all [Job.load, Job.slotWord]

theorem Job.LoadedTo.load {j w : Job} {i : JobIx} (h : j.LoadedTo w i.pos) (hi : i.Param) :
    j.LoadedTo (w.load i (j.slotWord i)) (i.pos + 1) := by
  intro k hk hlt
  by_cases hki : k = i
  · rw [hki]; exact j.slotWord_load_same w hi
  · rw [w.slotWord_load_other _ hki]
    have hne : k.pos ≠ i.pos := fun he => hki (JobIx.eq_of_pos_eq he)
    exact h k hk (by omega)

theorem Job.LoadedTo.eq {j w : Job} (h : j.LoadedTo w 7) : w = j := by
  have hword : ∀ i : JobIx, i.Param → w.slotWord i = j.slotWord i := fun i hi => h i hi hi.pos_lt
  cases w with
  | mk wsig wn wk0 wk1 wkt wg wout =>
  cases j with
  | mk jsig jn jk0 jk1 jkt jg jout =>
  obtain rfl : wsig = jsig := hword .sig ⟨nofun, nofun⟩
  obtain rfl : wn = jn := hword .len ⟨nofun, nofun⟩
  obtain rfl : wk0 = jk0 := hword .start ⟨nofun, nofun⟩
  obtain rfl : wk1 = jk1 := hword .stop ⟨nofun, nofun⟩
  obtain rfl : wkt = jkt := hword .ktot ⟨nofun, nofun⟩
  obtain rfl : wg = jg := gridWord_inj (hword .grid ⟨nofun, nofun⟩)
  obtain rfl : wout = jout := hword .out ⟨nofun, nofun⟩
  rfl

/-! ### The producer, once it has set signal-present -/

/-- What `P`'s sequencer keeps of its registers and copies from its own half of the job on. -/
def ProducerOk (j pjob : Job) (r : Datapath) (copies : JobSlot (Option Word)) : PStage → Prop
  | .own b => pjob = j ∧ BinAt j j.k0 b r
  | .waitFence => True
  | .waitRead => copies.get .done = none
  | .fin => True
  | .finEnd => True
  | .tail => True
  | .idle => True
  | .begin => False
  | .pub _ => False
  | .fence => False
  | .trig => False

/-- `P` computes its own half of the job, or waits for the other. -/
def PStage.Awaits : PStage → Prop
  | .own _ => True
  | .waitFence => True
  | .waitRead => True
  | _ => False

/-- More than the steps `P` has yet to take, once the job is done. -/
def producerRank (j : Job) (r : Datapath) : PStage → Nat
  | .own b => binRank j j.k0 b r + 5
  | .waitFence => 4
  | .waitRead => 3
  | .fin => 2
  | .finEnd => 1
  | .tail => 1
  | _ => 0

/-- A turn of `P` leaves what the worker computes with. -/
structure SameWorker (s t : State) : Prop where
  wstage : t.wstage = s.wstage
  wjob : t.wjob = s.wjob
  wregs : t.wregs = s.wregs
  wview : t.wview = s.wview

theorem SameWorker.refl (s : State) : SameWorker s s := ⟨rfl, rfl, rfl, rfl⟩

theorem SameWorker.trans {s t u : State} (h : SameWorker s t) (k : SameWorker t u) : SameWorker s u :=
  ⟨k.wstage.trans h.wstage, k.wjob.trans h.wjob, k.wregs.trans h.wregs, k.wview.trans h.wview⟩

theorem OnlyCore.sameWorker {s t : State} (h : OnlyCore .p s t) : SameWorker s t := by
  simp only [OnlyCore] at h
  rw [h]
  exact ⟨rfl, rfl, rfl, rfl⟩

theorem State.fenceRel_sameWorker (s : State) : SameWorker s (s.fenceRel .p) :=
  ⟨s.fenceRel_wstage .p, s.fenceRel_wjob .p, s.fenceRel_wregs .p, (s.fenceRel_view .p .w).trans rfl⟩

theorem State.finish_sameWorker (s : State) : SameWorker s s.finish :=
  ⟨s.finish_wstage, s.finish_wjob, s.finish_wregs, (s.fenceRel_view .p .w).trans rfl⟩

/-- What a step of `P` comes to once it has set signal-present. -/
inductive ProducerMoves (j : Job) (s t : State) : Prop
  /-- Idle, it takes no step. -/
  | rests (hs : s.pstage = .idle) (h : t = s)
  /-- It has not seen the job done, and polls again. -/
  | polls (hs : s.pstage = .waitRead) (hdone : s.coreJob .p .done = 0) (ht : t.pstage = .waitFence)
      (hjob : t.job = s.job) (hsb : t.pview.sb = s.pview.sb)
  /-- It goes on; past `P_WAIT` only if it has seen the job done. -/
  | advances (hjob : t.job = s.job) (hsb : ∃ es, JobFree es ∧ t.pview.sb = s.pview.sb ++ es)
      (hrank : producerRank j t.pregs t.pstage < producerRank j s.pregs s.pstage)
      (hp : t.pstage ≠ .idle) (hwaits : s.pstage.Awaits → t.pstage.Awaits ∨ (s.pstage = .waitRead ∧ s.coreJob .p .done ≠ 0))
  /-- The command ends. -/
  | ends (hs : ¬ s.pstage.Awaits) (hdone : t.done = true) (hp : t.pstage = .idle) (hsb : t.pview.sb = [])
      (hjob : ∀ i, (∀ x, .job i x ∉ s.pview.sb) → t.job.get i = s.job.get i)

/-- Computing between the accesses to the slot. -/
theorem ProducerMoves.goesOn {j : Job} {s u : State} {q : PStage} (h : OnlyCore .p s u) (hsb : s.pview.Grows u.pview)
    (hrank : producerRank j u.pregs q < producerRank j s.pregs s.pstage) (hq : q.Awaits) :
    ProducerMoves j s { u with pstage := q } :=
  .advances h.job hsb.sb hrank (fun he => by rw [show q = .idle from he] at hq; exact hq) fun _ => .inl hq

/-- A command end whose computing leaves the slot alone. -/
theorem State.finish_moves {j : Job} {s u : State} (hs : ¬ s.pstage.Awaits) (hjob : u.job = s.job)
    (hsb : s.pview.Grows u.pview) : ProducerMoves j s u.finish := by
  refine .ends hs rfl rfl u.finish_pview_sb fun i hi => ?_
  have hend : u.finish.job = (u.fenceRel .p).job := rfl
  rw [hend, u.fenceRel_job_get .p i, hjob]
  exact foldl_overlayJob_other (fun x hx => hi x (hsb.mem_job hx)) _

theorem pipeTail_moves {j : Job} {s : State} (hs : ¬ s.pstage.Awaits) :
    ProducerMoves j s (pipeTail s) ∧ SameWorker s (pipeTail s) := by
  have hmags := s.magSpectrum_work sqmagOf (s.dst + SPECTRUM_AT).toNat (s.dst + SQUARES_AT).toNat Config.KC
  have hgrows := s.magSpectrum_grows sqmagOf (s.dst + SPECTRUM_AT).toNat (s.dst + SQUARES_AT).toNat Config.KC
  rw [pipeTail]
  generalize s.magSpectrum sqmagOf (s.dst + SPECTRUM_AT).toNat (s.dst + SQUARES_AT).toNat Config.KC = u
    at hmags hgrows ⊢
  have hread := u.readWords_work .p (s.dst + SQUARES_AT).toNat Config.KC
  have hrgrows := u.readWords_grows .p (s.dst + SQUARES_AT).toNat Config.KC
  generalize u.readWords .p (s.dst + SQUARES_AT).toNat Config.KC = r at hread hrgrows ⊢
  obtain ⟨spec, v⟩ := r
  have hwork := hmags.trans hread
  have hclass : SameWorker v (v.classifySpectrum spec) := ⟨rfl, rfl, rfl, rfl⟩
  have hjob : (v.classifySpectrum spec).job = v.job := rfl
  have hview : (v.classifySpectrum spec).pview = v.pview := rfl
  refine ⟨State.finish_moves hs (hjob.trans hwork.only.job) ?_,
    (hwork.only.sameWorker.trans hclass).trans (State.finish_sameWorker _)⟩
  rw [hview]
  exact hgrows.trans hrgrows

theorem ownStep_moves {j : Job} {s : State} {b : BinPos} (hj : j.Fits s.memBytes) (hp : s.pstage = .own b)
    (hpjob : s.pjob = j) (hb : BinAt j j.k0 b s.pregs) :
    ∃ t, ownStep b s = .next t ∧ SameWorker s t ∧ ProducerOk j t.pjob t.pregs t.pview.jcopies t.pstage ∧
      ProducerMoves j s t := by
  rcases State.binStep_advances (c := .p) hj hj.half hb with h | ⟨b', u, h, honly, hgrows, hat, hrank⟩
  · refine ⟨{ s with pstage := .waitFence }, by simp only [ownStep, hpjob, h], ⟨rfl, rfl, rfl, rfl⟩, trivial,
      .goesOn (.refl .p s) (.refl _) ?_ trivial⟩
    rw [hp]
    simp only [producerRank]
    omega
  · have hupjob : u.pjob = j := by
      simp only [OnlyCore] at honly
      rw [honly]; exact hpjob
    refine ⟨{ u with pstage := .own b' }, by simp only [ownStep, hpjob, h],
      honly.sameWorker.trans ⟨rfl, rfl, rfl, rfl⟩, ⟨hupjob, hat⟩, .goesOn honly hgrows ?_ trivial⟩
    have hregs : binRank j j.k0 b' u.pregs < binRank j j.k0 b s.pregs := hrank
    rw [hp]
    simp only [producerRank]
    omega

theorem waitReadStep_moves {j : Job} {s : State} (hp : s.pstage = .waitRead) :
    SameWorker s (waitReadStep s) ∧
      ProducerOk j (waitReadStep s).pjob (waitReadStep s).pregs (waitReadStep s).pview.jcopies (waitReadStep s).pstage ∧
      ProducerMoves j s (waitReadStep s) := by
  have honly := s.noteJob_only .p .done
  have hsb := s.noteJob_sb .p .done
  by_cases hdone : s.coreJob .p .done = 0
  · have hstep : waitReadStep s = { s.noteJob .p .done with pstage := .waitFence } := by
      simp only [waitReadStep, State.readJob, hdone, if_true]
    rw [hstep]
    exact ⟨honly.sameWorker.trans ⟨rfl, rfl, rfl, rfl⟩, trivial, .polls hp hdone rfl honly.job hsb⟩
  · have hstep : waitReadStep s = { s.noteJob .p .done with pstage := .fin } := by
      simp only [waitReadStep, State.readJob, hdone, if_false]
    rw [hstep]
    refine ⟨honly.sameWorker.trans ⟨rfl, rfl, rfl, rfl⟩, trivial,
      .advances honly.job ⟨[], jobFree_nil, hsb.trans (List.append_nil _).symm⟩ ?_ nofun fun _ => .inr ⟨hp, hdone⟩⟩
    rw [hp]
    exact Nat.lt_succ_self 2

theorem finStep_moves {j : Job} {s : State} (hp : s.pstage = .fin) :
    SameWorker s (finStep s) ∧
      ProducerOk j (finStep s).pjob (finStep s).pregs (finStep s).pview.jcopies (finStep s).pstage ∧
      ProducerMoves j s (finStep s) := by
  have hmoves : ∀ q : PStage, producerRank j s.pregs q < 2 → q ≠ .idle →
      ProducerMoves j s { s.fenceAcq .p with pstage := q } := fun q hq hne =>
    .advances rfl ⟨[], jobFree_nil, (List.append_nil _).symm⟩ (by rw [hp]; exact hq) hne fun h => by
      rw [hp] at h; exact h.elim
  simp only [finStep]
  cases s.pcmd with
  | xformp => exact ⟨⟨rfl, rfl, rfl, rfl⟩, trivial, hmoves .finEnd (Nat.lt_succ_self 1) nofun⟩
  | pipe => exact ⟨⟨rfl, rfl, rfl, rfl⟩, trivial, hmoves .tail (Nat.lt_succ_self 1) nofun⟩

/-- Every step `P` takes once it has set signal-present is answered. -/
theorem producerStep_moves {j : Job} {s : State} (hj : j.Fits s.memBytes)
    (h : ProducerOk j s.pjob s.pregs s.pview.jcopies s.pstage) :
    ∃ t, producerStep s = .next t ∧ SameWorker s t ∧ ProducerOk j t.pjob t.pregs t.pview.jcopies t.pstage ∧
      ProducerMoves j s t := by
  cases hp : s.pstage with
  | idle => exact ⟨s, by simp only [producerStep, hp], .refl s, h, .rests hp rfl⟩
  | begin => rw [hp] at h; exact h.elim
  | pub i => rw [hp] at h; exact h.elim
  | fence => rw [hp] at h; exact h.elim
  | trig => rw [hp] at h; exact h.elim
  | own b =>
    rw [hp] at h
    obtain ⟨t, ht, hrest⟩ := ownStep_moves hj hp h.1 h.2
    exact ⟨t, by simp only [producerStep, hp, ht], hrest⟩
  | waitFence =>
    refine ⟨waitFenceStep s, by simp only [producerStep, hp], ⟨rfl, rfl, rfl, rfl⟩, JobSlot.get_fill none _,
      .advances rfl ⟨[], jobFree_nil, (List.append_nil _).symm⟩ ?_ nofun fun _ => .inl trivial⟩
    rw [hp]
    exact Nat.lt_succ_self 3
  | waitRead => exact ⟨waitReadStep s, by simp only [producerStep, hp], waitReadStep_moves hp⟩
  | fin => exact ⟨finStep s, by simp only [producerStep, hp], finStep_moves hp⟩
  | finEnd =>
    have hresi : SameWorker s { s with resi := s.cnt } := ⟨rfl, rfl, rfl, rfl⟩
    refine ⟨finEndStep s, by simp only [producerStep, hp], hresi.trans (State.finish_sameWorker _), trivial,
      State.finish_moves (by rw [hp]; exact id) rfl (.refl _)⟩
  | tail =>
    obtain ⟨hmoves, hsame⟩ := pipeTail_moves (j := j) (s := s) (by rw [hp]; exact id)
    exact ⟨pipeTail s, by simp only [producerStep, hp], hsame, trivial, hmoves⟩

/-! ### The worker -/

/-- What `W`'s sequencer keeps of its job registers and copies. -/
def WorkerOk (j wjob : Job) (r : Datapath) (copies : JobSlot (Option Word)) : WStage → Prop
  | .pollRead => ∀ i, copies.get i = none
  | .load i => i.Param ∧ j.LoadedTo wjob i.pos ∧
      ∀ k, k.Param → copies.get k = none ∨ copies.get k = some (j.slotWord k)
  | .run b => wjob = j ∧ BinAt j j.k1 b r
  | _ => True

/-- The worker polls. -/
def WStage.Polls (w : WStage) : Prop := w = .pollFence ∨ w = .pollRead

/-- The worker has taken the job and not yet released what it computes. -/
def WStage.Works : WStage → Prop
  | .load _ => True
  | .run _ => True
  | .rel => True
  | _ => False

/-- More than the steps `W` has yet to take with its job. -/
def workerRank (j : Job) (r : Datapath) : WStage → Nat
  | .load i => j.kt.toNat * (j.n.toNat + 4) + 10 - i.pos
  | .run b => binRank j j.k1 b r + 3
  | .rel => 2
  | .setDone => 1
  | _ => 0

/-- A turn of `W` leaves what the producer computes with. -/
structure SameProducer (s t : State) : Prop where
  pstage : t.pstage = s.pstage
  pjob : t.pjob = s.pjob
  pregs : t.pregs = s.pregs
  pview : t.pview = s.pview

theorem SameProducer.refl (s : State) : SameProducer s s := ⟨rfl, rfl, rfl, rfl⟩

theorem SameProducer.trans {s t u : State} (h : SameProducer s t) (k : SameProducer t u) : SameProducer s u :=
  ⟨k.pstage.trans h.pstage, k.pjob.trans h.pjob, k.pregs.trans h.pregs, k.pview.trans h.pview⟩

theorem OnlyCore.sameProducer {s t : State} (h : OnlyCore .w s t) : SameProducer s t := by
  simp only [OnlyCore] at h
  rw [h]
  exact ⟨rfl, rfl, rfl, rfl⟩

theorem State.fenceRel_sameProducer (s : State) : SameProducer s (s.fenceRel .w) :=
  ⟨s.fenceRel_pstage .w, s.fenceRel_pjob .w, s.fenceRel_pregs .w, (s.fenceRel_view .w .p).trans rfl⟩

/-- What a step of `W` comes to. -/
inductive WorkerMoves (j : Job) (s t : State) : Prop
  /-- Off, it takes no step. -/
  | rests (hs : s.wstage = .off) (h : t = s)
  /-- The poll's fence. -/
  | fences (hs : s.wstage = .pollFence) (ht : t.wstage = .pollRead) (hjob : t.job = s.job)
      (hsb : t.wview.sb = s.wview.sb)
  /-- The poll's read: the job is taken where signal-present is set. -/
  | reads (hs : s.wstage = .pollRead)
      (ht : t.wstage = if s.wview.sb.foldl (fun w e => e.overlayJob .sigp w) (s.job.get .sigp) = 0 then .pollFence
        else .load .sig)
      (hjob : t.job = s.job) (hsb : t.wview.sb = s.wview.sb)
  /-- It loads its job, and computes its half. -/
  | works (hs : s.wstage.Works) (ht : t.wstage.Works) (hjob : t.job = s.job)
      (hsb : ∃ es, JobFree es ∧ t.wview.sb = s.wview.sb ++ es)
      (hrank : workerRank j t.wregs t.wstage < workerRank j s.wregs s.wstage)
  /-- It releases what it computed. -/
  | releases (hs : s.wstage = .rel) (ht : t.wstage = .setDone) (hsb : t.wview.sb = [])
      (hjob : ∀ i, t.job.get i = s.wview.sb.foldl (fun w e => e.overlayJob i w) (s.job.get i))
  /-- It sets the completion flag. -/
  | sets (hs : s.wstage = .setDone) (ht : t.wstage = .clear) (hjob : t.job = s.job)
      (hsb : t.wview.sb = s.wview.sb ++ [.job .done 1])
  /-- It clears signal-present. -/
  | clears (hs : s.wstage = .clear) (ht : t.wstage = .pollFence) (hjob : t.job = s.job)
      (hsb : t.wview.sb = s.wview.sb ++ [.job .sigp 0])

theorem pollReadStep_moves {j : Job} {s : State} (hw : s.wstage = .pollRead)
    (hcopies : ∀ i, s.wview.jcopies.get i = none) :
    SameProducer s (pollReadStep s) ∧
      WorkerOk j (pollReadStep s).wjob (pollReadStep s).wregs (pollReadStep s).wview.jcopies (pollReadStep s).wstage ∧
      WorkerMoves j s (pollReadStep s) := by
  have honly := s.noteJob_only .w .sigp
  have hsb := s.noteJob_sb .w .sigp
  have hread : s.coreJob .w .sigp = s.wview.sb.foldl (fun w e => e.overlayJob .sigp w) (s.job.get .sigp) :=
    State.coreJob_of_no_copy (hcopies .sigp)
  by_cases hset : s.coreJob .w .sigp = 0
  · have hstep : pollReadStep s = { s.noteJob .w .sigp with wstage := .pollFence } := by
      simp only [pollReadStep, State.readJob, hset, if_true]
    rw [hstep]
    exact ⟨honly.sameProducer.trans ⟨rfl, rfl, rfl, rfl⟩, trivial,
      .reads hw (by rw [← hread, if_pos hset]) honly.job hsb⟩
  · have hstep : pollReadStep s = { s.noteJob .w .sigp with wstage := .load .sig } := by
      simp only [pollReadStep, State.readJob, hset, if_false]
    rw [hstep]
    refine ⟨honly.sameProducer.trans ⟨rfl, rfl, rfl, rfl⟩, ⟨⟨nofun, nofun⟩, j.loadedTo_zero _, fun k hk => ?_⟩,
      .reads hw (by rw [← hread, if_neg hset]) honly.job hsb⟩
    rcases s.noteJob_jcopies .w .sigp k with h | ⟨h, -⟩
    · exact .inl (h.trans (hcopies k))
    · exact absurd h hk.2

/-- The slot holds the job, and nothing the worker has pending is to a word of it. -/
def State.SlotShowsJob (s : State) (j : Job) : Prop :=
  j.Published s.job ∧ ∀ i, i.Param → ∀ x, .job i x ∉ s.wview.sb

/-- The words of a job are loaded in their order. -/
theorem loadNext_param {i : JobIx} (hi : i.Param) (hout : i ≠ .out) :
    ∃ k : JobIx, loadNext i = .load k ∧ k.Param ∧ k.pos = i.pos + 1 := by
  cases i with
  | sig => exact ⟨.len, rfl, ⟨nofun, nofun⟩, rfl⟩
  | len => exact ⟨.start, rfl, ⟨nofun, nofun⟩, rfl⟩
  | start => exact ⟨.stop, rfl, ⟨nofun, nofun⟩, rfl⟩
  | stop => exact ⟨.ktot, rfl, ⟨nofun, nofun⟩, rfl⟩
  | ktot => exact ⟨.grid, rfl, ⟨nofun, nofun⟩, rfl⟩
  | grid => exact ⟨.out, rfl, ⟨nofun, nofun⟩, rfl⟩
  | out => exact absurd rfl hout
  | done => exact absurd rfl hi.1
  | sigp => exact absurd rfl hi.2

/-- A slot word read goes to its job register, and the worker loads the next one or begins its bins. -/
theorem loadStep_eq (i : JobIx) (s : State) : loadStep i s = { s.noteJob .w i with
    wjob := s.wjob.load i (s.coreJob .w i),
    wregs := if i = .out then { s.wregs with kidx := (s.wjob.load i (s.coreJob .w i)).k0 } else s.wregs,
    wstage := loadNext i } := by
  rcases s.noteJob_cases .w i with h | h | ⟨-, h⟩ <;> simp only [loadStep, State.readJob, h] <;> rfl

theorem loadStep_moves {j : Job} {s : State} {i : JobIx} (hj : j.k1 = j.kt) (hw : s.wstage = .load i)
    (hok : WorkerOk j s.wjob s.wregs s.wview.jcopies (.load i)) (hslot : s.SlotShowsJob j) :
    SameProducer s (loadStep i s) ∧
      WorkerOk j (loadStep i s).wjob (loadStep i s).wregs (loadStep i s).wview.jcopies (loadStep i s).wstage ∧
      WorkerMoves j s (loadStep i s) := by
  obtain ⟨hi, hloaded, hcopies⟩ := hok
  obtain ⟨hwords, hfree⟩ := hslot
  have hread : s.coreJob .w i = j.slotWord i := by
    have hbase : (s.wview.jcopies.get i).getD (s.job.get i) = j.slotWord i := by
      rcases hcopies i hi with h | h <;> rw [h]
      · exact hwords i hi
      · rfl
    exact (foldl_overlayJob_other (hfree i hi) _).trans hbase
  have honly := s.noteJob_only .w i
  have hsb := s.noteJob_sb .w i
  have hkept : ∀ k, k.Param → ((s.noteJob .w i).wview.jcopies.get k = none ∨
      (s.noteJob .w i).wview.jcopies.get k = some (j.slotWord k)) := by
    intro k hk
    rcases s.noteJob_jcopies .w i k with h | ⟨rfl, h⟩
    · exact (hcopies k hk).imp h.trans h.trans
    · exact .inr (h.trans (congrArg some (hwords k hk)))
  have hload := hloaded.load hi
  rw [loadStep_eq, hread]
  generalize s.noteJob .w i = u at honly hsb hkept ⊢
  have hgrows : ∃ es, JobFree es ∧ u.wview.sb = s.wview.sb ++ es :=
    ⟨[], jobFree_nil, hsb.trans (List.append_nil _).symm⟩
  have hpos := hi.pos_lt
  refine ⟨honly.sameProducer.trans ⟨rfl, rfl, rfl, rfl⟩, ?_, ?_⟩
  · by_cases hout : i = .out
    · subst hout
      exact ⟨hload.eq, trivial⟩
    · obtain ⟨k, hk, hparam, hkpos⟩ := loadNext_param hi hout
      show WorkerOk j _ _ _ (loadNext i)
      rw [hk]
      exact ⟨hparam, hkpos ▸ hload, hkept⟩
  · by_cases hout : i = .out
    · subst hout
      have hjob : s.wjob.load .out (j.slotWord .out) = j := hload.eq
      refine .works (by rw [hw]; trivial) trivial honly.job hgrows ?_
      rw [hw, hjob]
      have hmul : (j.k1.toNat - j.k0.toNat) * (j.n.toNat + 4) ≤ j.kt.toNat * (j.n.toNat + 4) :=
        Nat.mul_le_mul_right _ (by rw [hj]; omega)
      simp only [loadNext, workerRank, binRank, JobIx.pos, if_true]
      omega
    · obtain ⟨k, hk, hparam, hkpos⟩ := loadNext_param hi hout
      refine .works (by rw [hw]; trivial) (by rw [hk]; trivial) honly.job hgrows ?_
      rw [hw]
      show workerRank j _ (loadNext i) < _
      rw [hk]
      simp only [workerRank]
      omega

theorem runStep_moves {j : Job} {s : State} {b : BinPos} (hj : j.Fits s.memBytes) (hw : s.wstage = .run b)
    (hwjob : s.wjob = j) (hb : BinAt j j.k1 b s.wregs) :
    ∃ t, runStep b s = .next t ∧ SameProducer s t ∧ WorkerOk j t.wjob t.wregs t.wview.jcopies t.wstage ∧
      WorkerMoves j s t := by
  have hworks : s.wstage.Works := by rw [hw]; trivial
  rcases State.binStep_advances (c := .w) hj (by rw [hj.last]) hb with h | ⟨b', u, h, honly, hgrows, hat, hrank⟩
  · refine ⟨{ s with wstage := .rel }, by simp only [runStep, hwjob, h], ⟨rfl, rfl, rfl, rfl⟩, trivial,
      .works hworks trivial rfl ⟨[], jobFree_nil, (List.append_nil _).symm⟩ ?_⟩
    rw [hw]
    simp only [workerRank]
    omega
  · have huwjob : u.wjob = j := by
      simp only [OnlyCore] at honly
      rw [honly]; exact hwjob
    refine ⟨{ u with wstage := .run b' }, by simp only [runStep, hwjob, h],
      honly.sameProducer.trans ⟨rfl, rfl, rfl, rfl⟩, ⟨huwjob, hat⟩, .works hworks trivial honly.job hgrows.sb ?_⟩
    have hregs : binRank j j.k1 b' u.wregs < binRank j j.k1 b s.wregs := hrank
    rw [hw]
    simp only [workerRank]
    omega

/-- Every step of `W` is answered, if the slot shows it the job while it loads. -/
theorem workerStep_moves {j : Job} {s : State} (hj : j.Fits s.memBytes)
    (h : WorkerOk j s.wjob s.wregs s.wview.jcopies s.wstage) (hslot : s.wstage.Works → s.SlotShowsJob j) :
    ∃ t, workerStep s = .next t ∧ SameProducer s t ∧ WorkerOk j t.wjob t.wregs t.wview.jcopies t.wstage ∧
      WorkerMoves j s t := by
  cases hw : s.wstage with
  | off => exact ⟨s, by simp only [workerStep, hw], .refl s, h, .rests hw rfl⟩
  | pollFence =>
    exact ⟨pollFenceStep s, by simp only [workerStep, hw], ⟨rfl, rfl, rfl, rfl⟩, JobSlot.get_fill none,
      .fences hw rfl rfl rfl⟩
  | pollRead =>
    rw [hw] at h
    exact ⟨pollReadStep s, by simp only [workerStep, hw], pollReadStep_moves hw h⟩
  | load i =>
    rw [hw] at h
    exact ⟨loadStep i s, by simp only [workerStep, hw], loadStep_moves hj.last hw h (hslot (by rw [hw]; trivial))⟩
  | run b =>
    rw [hw] at h
    obtain ⟨t, ht, hrest⟩ := runStep_moves hj hw h.1 h.2
    exact ⟨t, by simp only [workerStep, hw, ht], hrest⟩
  | rel =>
    exact ⟨relStep s, by simp only [workerStep, hw], s.fenceRel_sameProducer.trans ⟨rfl, rfl, rfl, rfl⟩, trivial,
      .releases hw rfl (s.fenceRel_sb .w) fun i => s.fenceRel_job_get .w i⟩
  | setDone =>
    exact ⟨setDoneStep s, by simp only [workerStep, hw], ⟨rfl, rfl, rfl, rfl⟩, trivial, .sets hw rfl rfl rfl⟩
  | clear =>
    exact ⟨clearStep s, by simp only [workerStep, hw], ⟨rfl, rfl, rfl, rfl⟩, trivial, .clears hw rfl rfl rfl⟩

end Sys2Proof.Machine
end

section
/-! PROOFS. What holds of both cores from the publishing of a job on, whatever the turns (43_coresync.md): no turn of `P`,
`W` or `MSYS` is stopped (30_encoding.md rule R111, 43_coresync.md rule R134). -/

namespace Sys2Proof.Machine

/-! ### A turn of `MSYS` -/

/-- A drain or an eviction for core `c`: neither sequencer moves, no copy is made, and nothing becomes pending. -/
structure SystemMoves (c : CoreId) (s t : State) : Prop where
  pstage : t.pstage = s.pstage
  pjob : t.pjob = s.pjob
  pregs : t.pregs = s.pregs
  wstage : t.wstage = s.wstage
  wjob : t.wjob = s.wjob
  wregs : t.wregs = s.wregs
  other : ∀ d, d ≠ c → t.view d = s.view d
  uncopied : ∀ i, (s.view c).jcopies.get i = none → (t.view c).jcopies.get i = none
  copies : ∀ i, (∀ x, .job i x ∉ (s.view c).sb) →
    (t.view c).jcopies.get i = (s.view c).jcopies.get i ∨ (t.view c).jcopies.get i = none
  sb : (t.view c).sb.Sublist (s.view c).sb
  job : ∀ i, t.job.get i = s.job.get i ∨ .job i (t.job.get i) ∈ (s.view c).sb
  lands : ∀ i x, .job i x ∈ (s.view c).sb → .job i x ∈ (t.view c).sb ∨ t.job.get i = x

theorem State.drain_moves (s : State) (c : CoreId) (n : Nat) : SystemMoves c s (s.drain c n) := by
  have hframe : ∀ e es, ∀ t, t = (s.setView c { s.view c with sb := es }).land c e →
      (t.pstage = s.pstage ∧ t.pjob = s.pjob ∧ t.pregs = s.pregs) ∧
      (t.wstage = s.wstage ∧ t.wjob = s.wjob ∧ t.wregs = s.wregs) ∧ ∀ d, d ≠ c → t.view d = s.view d := by
    rintro e es t rfl
    refine ⟨?_, ?_, fun d hd => ?_⟩
    · simp only [State.land_pstage, State.land_pjob, State.land_pregs, State.setView_pstage, State.setView_pjob,
        State.setView_pregs, and_self]
    · simp only [State.land_wstage, State.land_wjob, State.land_wregs, State.setView_wstage, State.setView_wjob,
        State.setView_wregs, and_self]
    · rw [State.land, State.setView_view_of_ne _ _ hd, State.apply_view, State.setView_view_of_ne _ _ hd]
  have hsame : ((s.drain c n).pstage = s.pstage ∧ (s.drain c n).pjob = s.pjob ∧ (s.drain c n).pregs = s.pregs) ∧
      ((s.drain c n).wstage = s.wstage ∧ (s.drain c n).wjob = s.wjob ∧ (s.drain c n).wregs = s.wregs) ∧
      ∀ d, d ≠ c → (s.drain c n).view d = s.view d := by
    rcases s.drain_cases c n with hd | ⟨e, -, hd⟩
    · rw [hd]; exact ⟨⟨rfl, rfl, rfl⟩, ⟨rfl, rfl, rfl⟩, fun _ _ => rfl⟩
    · exact hframe e _ _ hd
  obtain ⟨⟨hpstage, hpjob, hpregs⟩, ⟨hwstage, hwjob, hwregs⟩, hother⟩ := hsame
  exact ⟨hpstage, hpjob, hpregs, hwstage, hwjob, hwregs, hother, fun i => State.drain_jcopies n,
    fun i hi => .inl (State.drain_jcopies_other n hi), s.drain_sublist c n, s.drain_job_cases c n,
    fun i x => s.drain_keeps_job c n⟩

theorem State.evict_sb (s : State) (c : CoreId) (l : WordLoc) : ((s.evict c l).view c).sb = (s.view c).sb := by
  cases l <;> · rw [State.evict, State.setView_view]

theorem State.evict_job (s : State) (c : CoreId) (l : WordLoc) : (s.evict c l).job = s.job := by
  cases l <;> exact State.setView_job _ _ _

theorem State.evict_jcopies (s : State) (c : CoreId) (l : WordLoc) (i : JobIx) :
    ((s.evict c l).view c).jcopies.get i = (s.view c).jcopies.get i ∨ ((s.evict c l).view c).jcopies.get i = none := by
  cases l with
  | mem k => rw [State.evict, State.setView_view]; exact .inl rfl
  | job k =>
    rw [State.evict, State.setView_view]
    simp only [JobSlot.get_set]
    split
    · exact .inr rfl
    · exact .inl rfl

theorem State.evict_moves (s : State) (c : CoreId) (l : WordLoc) : SystemMoves c s (s.evict c l) := by
  have hother : ∀ d, d ≠ c → (s.evict c l).view d = s.view d := fun d hd => by
    cases l <;> exact State.setView_view_of_ne _ _ hd
  have hsb := s.evict_sb c l
  have hjob := s.evict_job c l
  have hcopies := s.evict_jcopies c l
  refine ⟨?_, ?_, ?_, ?_, ?_, ?_, hother, fun i hi => (hcopies i).elim (fun h => h.trans hi) id, fun i _ => hcopies i,
    hsb ▸ .refl _, fun i => .inl (by rw [hjob]), fun i x hx => .inl (hsb.symm ▸ hx)⟩ <;>
  · cases l <;> cases c <;> rfl

/-! ### The worker's side -/

/-- What holds of the worker throughout: its sequencer's condition, and no word of a job is pending on its side. -/
def WorkerSound (j wjob : Job) (r : Datapath) (v : View) (w : WStage) : Prop :=
  WorkerOk j wjob r v.jcopies w ∧ ∀ i : JobIx, i.Param → ∀ x, Pending.job i x ∉ v.sb

/-- The same of the worker's part of a state. -/
abbrev State.WorkerSound (s : State) (j : Job) : Prop := Machine.WorkerSound j s.wjob s.wregs s.wview s.wstage

theorem SameWorker.sound {s t : State} {j : Job} (h : SameWorker s t) (hs : s.WorkerSound j) : t.WorkerSound j := by
  rw [State.WorkerSound, h.wstage, h.wjob, h.wregs, h.wview]
  exact hs

theorem WorkerOk.copies {j wjob : Job} {r : Datapath} {cs ds : JobSlot (Option Word)} {w : WStage}
    (h : WorkerOk j wjob r cs w) (hnone : ∀ i, cs.get i = none → ds.get i = none)
    (hsame : ∀ i : JobIx, i.Param → ds.get i = cs.get i ∨ ds.get i = none) : WorkerOk j wjob r ds w := by
  cases w with
  | pollRead => exact fun i => hnone i (h i)
  | load i =>
    obtain ⟨hi, hloaded, hcopies⟩ := h
    refine ⟨hi, hloaded, fun k hk => ?_⟩
    rcases hsame k hk with he | he
    · exact (hcopies k hk).imp he.trans he.trans
    · exact .inl he
  | _ => exact h

theorem SystemMoves.workerSound {c : CoreId} {s t : State} {j : Job} (h : SystemMoves c s t) (hs : s.WorkerSound j) :
    t.WorkerSound j := by
  rw [State.WorkerSound, h.wstage, h.wjob, h.wregs]
  obtain ⟨hok, hpending⟩ := hs
  cases c with
  | p =>
    have hview : t.wview = s.wview := h.other .w (by decide)
    rw [hview]
    exact ⟨hok, hpending⟩
  | w => exact ⟨hok.copies h.uncopied fun i hi => h.copies i (hpending i hi), fun i hi x hx => hpending i hi x (h.sb.subset hx)⟩

/-- No word of a job becomes pending by a step of the worker. -/
theorem WorkerMoves.pending {j : Job} {s t : State} (h : WorkerMoves j s t)
    (hs : ∀ i : JobIx, i.Param → ∀ x, Pending.job i x ∉ s.wview.sb) :
    ∀ i : JobIx, i.Param → ∀ x, Pending.job i x ∉ t.wview.sb := by
  intro i hi x hx
  cases h with
  | rests _ he => rw [he] at hx; exact hs i hi x hx
  | fences _ _ _ hsb => rw [hsb] at hx; exact hs i hi x hx
  | reads _ _ _ hsb => rw [hsb] at hx; exact hs i hi x hx
  | works _ _ _ hsb _ =>
    obtain ⟨es, hes, hsb⟩ := hsb
    rw [hsb] at hx
    exact (List.mem_append.1 hx).elim (hs i hi x) fun hx => hes _ hx i x rfl
  | releases _ _ hsb _ => rw [hsb] at hx; cases hx
  | sets _ _ _ hsb =>
    rw [hsb] at hx
    refine (List.mem_append.1 hx).elim (hs i hi x) fun hx => hi.1 ?_
    cases List.mem_singleton.1 hx
    rfl
  | clears _ _ _ hsb =>
    rw [hsb] at hx
    refine (List.mem_append.1 hx).elim (hs i hi x) fun hx => hi.2 ?_
    cases List.mem_singleton.1 hx
    rfl

/-! ### A worker that has no job -/

/-- The worker has no job and takes none: signal-present, which shared storage has as `v`, is 0 for it, or it is about to
clear it. `es` is what it has pending. -/
inductive Resting (v : Word) : WStage → List Pending → Prop
  | clears : Resting v .clear []
  | pends {w : WStage} (hw : w.Polls) : Resting v w [.job .sigp 0]
  | polls {w : WStage} (hw : w.Polls) (hv : v = 0) : Resting v w []

theorem Resting.stage {v : Word} {w : WStage} {es : List Pending} (h : Resting v w es) : w = .clear ∨ w.Polls := by
  cases h with
  | clears => exact .inl rfl
  | pends hw => exact .inr hw
  | polls hw _ => exact .inr hw

theorem Resting.not_works {v : Word} {w : WStage} {es : List Pending} (h : Resting v w es) : ¬ w.Works := by
  rcases h.stage with rfl | rfl | rfl <;> exact id

/-- A step of a worker that has no job; `es` is pending before what it has cleared, and is not to signal-present. -/
theorem Resting.moves {j : Job} {s t : State} {es fs : List Pending} (h : Resting (s.job.get .sigp) s.wstage fs)
    (hes : ∀ x, .job .sigp x ∉ es) (hsb : s.wview.sb = es ++ fs) (hm : WorkerMoves j s t) :
    t.job = s.job ∧ ∃ gs, t.wview.sb = es ++ gs ∧ Resting (t.job.get .sigp) t.wstage gs ∧
      (fs = [] → s.wstage.Polls → gs = [] ∧ t.wstage.Polls) := by
  have hread : s.wstage.Polls → s.wview.sb.foldl (fun w e => e.overlayJob .sigp w) (s.job.get .sigp) = 0 := by
    intro hpolls
    rw [hsb, List.foldl_append, foldl_overlayJob_other hes]
    generalize hw : s.wstage = w at h hpolls
    cases h with
    | clears => exact hpolls.elim nofun nofun
    | pends => rfl
    | polls _ hv => exact hv
  have hstays : ∀ q : WStage, q.Polls → s.wstage.Polls → t.wstage = q → t.job = s.job → t.wview.sb = s.wview.sb →
      t.job = s.job ∧ ∃ gs, t.wview.sb = es ++ gs ∧ Resting (t.job.get .sigp) t.wstage gs ∧
        (fs = [] → s.wstage.Polls → gs = [] ∧ t.wstage.Polls) := by
    intro q hq hpolls ht hjob htsb
    refine ⟨hjob, fs, htsb.trans hsb, ?_, fun hfs _ => ⟨hfs, ht ▸ hq⟩⟩
    rw [ht, hjob]
    generalize s.wstage = w at h hpolls
    cases h with
    | clears => exact hpolls.elim nofun nofun
    | pends => exact .pends hq
    | polls _ hv => exact .polls hq hv
  cases hm with
  | rests hs =>
    rw [hs] at h
    exact h.stage.elim nofun fun hw => hw.elim nofun nofun
  | fences hs ht hjob htsb => exact hstays .pollRead (.inr rfl) (.inl hs) ht hjob htsb
  | reads hs ht hjob htsb =>
    rw [hread (.inr hs), if_pos rfl] at ht
    exact hstays .pollFence (.inl rfl) (.inr hs) ht hjob htsb
  | works hs => exact absurd hs h.not_works
  | releases hs =>
    rw [hs] at h
    exact h.stage.elim nofun fun hw => hw.elim nofun nofun
  | sets hs =>
    rw [hs] at h
    exact h.stage.elim nofun fun hw => hw.elim nofun nofun
  | clears hs ht hjob htsb =>
    rw [hs] at h
    cases h with
    | clears =>
      refine ⟨hjob, [.job .sigp 0], by rw [htsb, hsb, List.append_nil], ?_, fun _ hw => ?_⟩
      · rw [ht]; exact .pends (.inl rfl)
      · rw [hs] at hw; exact hw.elim nofun nofun
    | pends hw => exact hw.elim nofun nofun
    | polls hw _ => exact hw.elim nofun nofun

/-- The clear of signal-present drains. -/
theorem Resting.lands {v v' : Word} {w : WStage} {es fs : List Pending} (h : Resting v w es)
    (hsub : fs.Sublist es) (hv : v' = v ∨ v' = 0)
    (hlands : ∀ x, .job .sigp x ∈ es → .job .sigp x ∈ fs ∨ v' = x) : Resting v' w fs := by
  have hlen := hsub.length_le
  cases h with
  | clears =>
    obtain rfl : fs = [] := List.eq_nil_of_length_eq_zero (by simpa using hlen)
    exact .clears
  | polls hw h0 =>
    obtain rfl : fs = [] := List.eq_nil_of_length_eq_zero (by simpa using hlen)
    exact .polls hw (hv.elim (fun h => h.trans h0) id)
  | pends hw =>
    cases fs with
    | nil => exact .polls hw ((hlands 0 List.mem_cons_self).resolve_left List.not_mem_nil)
    | cons f fs =>
      obtain rfl : fs = [] := List.eq_nil_of_length_eq_zero (by simpa using hlen)
      obtain rfl : f = .job .sigp 0 := List.mem_singleton.1 (hsub.subset List.mem_cons_self)
      exact .pends hw

/-! ### Publishing -/

/-- `P` writes the slot, and has not yet set signal-present. -/
def PStage.Publishes : PStage → Prop
  | .pub i => i ≠ .sigp
  | .fence => True
  | .trig => True
  | _ => False

/-- The words `P` has written when it stands at a stage of publishing. -/
def PStage.Wrote (i : JobIx) : PStage → Prop
  | .pub k => i.pos < k.pos
  | .fence => i ≠ .sigp
  | .trig => i ≠ .sigp
  | _ => False

/-- More than the steps `P` has yet to take until it has set signal-present. -/
def publishRank : PStage → Nat
  | .pub i => 12 - i.pos
  | .fence => 4
  | .trig => 3
  | _ => 0

/-- What holds while `P` publishes: the words written are pending or in the slot, and after the fence in the slot. -/
structure Publishing (j pjob : Job) (q : PStage) (es : List Pending) (slot : JobSlot Word) : Prop where
  pjob : pjob = j
  stage : q.Publishes
  pending : ∀ i x, .job i x ∈ es → i ≠ .sigp ∧ x = j.slotWord i
  written : ∀ i, q.Wrote i → .job i (j.slotWord i) ∈ es ∨ slot.get i = j.slotWord i
  fenced : q = .trig → es = []

/-- `t` follows a publishing `s` by a step of `P`: nearer to the trigger, or past it. -/
inductive PublishMoves (j : Job) (s t : State) : Prop
  | publishes (h : Publishing j t.pjob t.pstage t.pview.sb t.job) (hrank : publishRank t.pstage < publishRank s.pstage)
  | triggers (hs : s.pstage = .trig) (hsb : t.pview.sb = [.job .sigp 1])
      (hslot : ∀ i, i ≠ .sigp → t.job.get i = j.slotWord i) (hp : t.pstage.Awaits)
      (hok : ProducerOk j t.pjob t.pregs t.pview.jcopies t.pstage)

/-- The slot words are written in their order, the completion flag last, and then the fence. -/
theorem pubNext_cases {i : JobIx} (hi : i ≠ .sigp) :
    (∃ k : JobIx, pubNext i = .pub k ∧ k ≠ .sigp ∧ k.pos = i.pos + 1) ∨ (pubNext i = .fence ∧ i = .done) := by
  cases i with
  | sig => exact .inl ⟨.len, rfl, nofun, rfl⟩
  | len => exact .inl ⟨.start, rfl, nofun, rfl⟩
  | start => exact .inl ⟨.stop, rfl, nofun, rfl⟩
  | stop => exact .inl ⟨.ktot, rfl, nofun, rfl⟩
  | ktot => exact .inl ⟨.grid, rfl, nofun, rfl⟩
  | grid => exact .inl ⟨.out, rfl, nofun, rfl⟩
  | out => exact .inl ⟨.done, rfl, nofun, rfl⟩
  | done => exact .inr ⟨rfl, rfl⟩
  | sigp => exact absurd rfl hi

theorem JobIx.pos_le_done {i : JobIx} (hi : i ≠ .sigp) : i.pos ≤ JobIx.done.pos := by
  cases i with
  | sigp => exact absurd rfl hi
  | _ => decide

theorem pubStep_moves {j : Job} {s : State} {i : JobIx} (hp : s.pstage = .pub i)
    (h : Publishing j s.pjob s.pstage s.pview.sb s.job) : PublishMoves j s (pubStep i s) := by
  obtain ⟨hpjob, hstage, hpending, hwritten, -⟩ := h
  rw [hp] at hstage hwritten
  have hsb : (pubStep i s).pview.sb = s.pview.sb ++ [.job i (j.slotWord i)] := by rw [← hpjob]; rfl
  have hkept : ∀ k x, .job k x ∈ (pubStep i s).pview.sb → k ≠ .sigp ∧ x = j.slotWord k := by
    intro k x hx
    rw [hsb] at hx
    refine (List.mem_append.1 hx).elim (hpending k x) fun hx => ?_
    cases List.mem_singleton.1 hx
    exact ⟨hstage, rfl⟩
  have hout : ∀ k : JobIx, k.pos ≤ i.pos →
      .job k (j.slotWord k) ∈ (pubStep i s).pview.sb ∨ (pubStep i s).job.get k = j.slotWord k := by
    intro k hk
    rw [hsb]
    by_cases hki : k = i
    · rw [hki]; exact .inl (List.mem_append_right _ (List.mem_singleton.2 rfl))
    · have hne : k.pos ≠ i.pos := fun he => hki (JobIx.eq_of_pos_eq he)
      exact (hwritten k (by show k.pos < i.pos; omega)).imp_left (List.mem_append_left _)
  have hnext : (pubStep i s).pstage = pubNext i := rfl
  rcases pubNext_cases hstage with ⟨k, hk, hksigp, hkpos⟩ | ⟨hk, rfl⟩ <;> rw [hk] at hnext
  · refine .publishes ⟨hpjob, ?_, hkept, fun m hm => ?_, ?_⟩ ?_ <;> rw [hnext] at *
    · exact hksigp
    · exact hout m (by have : m.pos < k.pos := hm; omega)
    · exact nofun
    · rw [hp]
      have : k.pos ≤ 7 := JobIx.pos_le_done hksigp
      simp only [publishRank]
      omega
  · refine .publishes ⟨hpjob, ?_, hkept, fun m hm => ?_, ?_⟩ ?_ <;> rw [hnext] at *
    · trivial
    · exact hout m (JobIx.pos_le_done hm)
    · exact nofun
    · rw [hp]
      decide

theorem fenceStep_moves {j : Job} {s : State} (hp : s.pstage = .fence)
    (h : Publishing j s.pjob s.pstage s.pview.sb s.job) : PublishMoves j s (fenceStep s) := by
  obtain ⟨hpjob, -, hpending, hwritten, -⟩ := h
  rw [hp] at hwritten
  have hsb : (fenceStep s).pview.sb = [] := s.fenceRel_sb .p
  refine .publishes ⟨(s.fenceRel_pjob .p).trans hpjob, trivial, fun i x hx => ?_, fun i hi => .inr ?_, fun _ => hsb⟩ ?_
  · rw [hsb] at hx; cases hx
  · refine (s.fenceRel_job_get .p i).trans (foldl_overlayJob_agree (fun x hx => ?_) (hwritten i hi))
    exact (hpending i x hx).2
  · rw [hp]
    exact Nat.lt_succ_self 3

/-- Every step of a publishing `P` is answered; signal-present is not in what its fence releases. -/
theorem Publishing.moves {j : Job} {s : State} (h : Publishing j s.pjob s.pstage s.pview.sb s.job) :
    ∃ t, producerStep s = .next t ∧ SameWorker s t ∧ t.job.get .sigp = s.job.get .sigp ∧ PublishMoves j s t := by
  cases hp : s.pstage with
  | pub i =>
    exact ⟨pubStep i s, by simp only [producerStep, hp], ⟨rfl, rfl, rfl, rfl⟩, rfl, pubStep_moves hp h⟩
  | fence =>
    refine ⟨fenceStep s, by simp only [producerStep, hp], s.fenceRel_sameWorker.trans ⟨rfl, rfl, rfl, rfl⟩, ?_,
      fenceStep_moves hp h⟩
    exact (s.fenceRel_job_get .p .sigp).trans (foldl_overlayJob_other (fun x hx => (h.pending _ x hx).1 rfl) _)
  | trig =>
    obtain ⟨hpjob, -, -, hwritten, hfenced⟩ := h
    rw [hp] at hwritten
    have hsb := hfenced hp
    refine ⟨trigStep s, by simp only [producerStep, hp], ⟨rfl, rfl, rfl, rfl⟩, rfl, .triggers hp ?_ (fun i hi => ?_)
      trivial ⟨hpjob, trivial⟩⟩
    · show s.pview.sb ++ [.job .sigp 1] = _
      rw [hsb]
      rfl
    · refine (hwritten i hi).resolve_left ?_
      rw [hsb]
      exact List.not_mem_nil
  | _ => exact absurd h.stage (by rw [hp]; exact id)

theorem PStage.Wrote.ne_sigp {i : JobIx} {q : PStage} (h : q.Wrote i) (hq : q.Publishes) : i ≠ .sigp := by
  cases q with
  | pub k =>
    rintro rfl
    have hlt : JobIx.sigp.pos < k.pos := h
    have hle := JobIx.pos_le_done hq
    exact absurd (hlt.trans_le hle) (by decide)
  | fence => exact h
  | trig => exact h
  | _ => exact h.elim

/-- Words that reach the slot are those of the job. -/
theorem Publishing.lands {j pjob : Job} {q : PStage} {es fs : List Pending} {slot slot' : JobSlot Word}
    (h : Publishing j pjob q es slot) (hsub : fs.Sublist es)
    (hslot : ∀ i, i ≠ .sigp → slot'.get i = slot.get i ∨ .job i (slot'.get i) ∈ es)
    (hlands : ∀ i x, .job i x ∈ es → .job i x ∈ fs ∨ slot'.get i = x) : Publishing j pjob q fs slot' := by
  obtain ⟨hpjob, hstage, hpending, hwritten, hfenced⟩ := h
  refine ⟨hpjob, hstage, fun i x hx => hpending i x (hsub.subset hx), fun i hi => ?_, fun hq => ?_⟩
  · rcases hwritten i hi with hmem | heq
    · exact hlands i _ hmem
    · exact .inr ((hslot i (hi.ne_sigp hstage)).elim (fun h => h.trans heq) fun h => (hpending i _ h).2)
  · rw [hfenced hq] at hsub
    exact List.sublist_nil.1 hsub

/-! ### The two phases of a handoff -/

theorem Resting.mem {v : Word} {w : WStage} {es : List Pending} (h : Resting v w es) {i : JobIx} {x : Word}
    (hx : .job i x ∈ es) : i = .sigp ∧ x = 0 := by
  cases h with
  | clears => cases hx
  | pends =>
    cases List.mem_singleton.1 hx
    exact ⟨rfl, rfl⟩
  | polls => cases hx

/-- `P` publishes job `j`, and the worker has none. -/
def State.Preparing (s : State) (j : Job) : Prop :=
  s.WorkerSound j ∧ Resting (s.job.get .sigp) s.wstage s.wview.sb ∧ Publishing j s.pjob s.pstage s.pview.sb s.job

/-- `P` has set signal-present for job `j`. -/
def State.Running (s : State) (j : Job) : Prop :=
  s.WorkerSound j ∧ ProducerOk j s.pjob s.pregs s.pview.jcopies s.pstage ∧ j.Published s.job ∧
    ∀ i x, Pending.job i x ∈ s.pview.sb → i = .sigp

theorem Job.Published.of_eq {j : Job} {slot slot' : JobSlot Word} (h : j.Published slot)
    (hs : ∀ i : JobIx, i.Param → slot'.get i = slot.get i) : j.Published slot' := fun i hi => (hs i hi).trans (h i hi)

theorem SystemMoves.preparing {c : CoreId} {s t : State} {j : Job} (h : SystemMoves c s t) (hs : s.Preparing j) :
    t.Preparing j := by
  obtain ⟨hworker, hrest, hpub⟩ := hs
  refine ⟨h.workerSound hworker, ?_, ?_⟩ <;> simp only [h.wstage, h.pjob, h.pstage]
  · cases c with
    | p =>
      have hview : t.wview = s.wview := h.other .w (by decide)
      have hsigp : t.job.get .sigp = s.job.get .sigp :=
        (h.job .sigp).resolve_right fun hx => (hpub.pending _ _ hx).1 rfl
      rw [hview, hsigp]
      exact hrest
    | w => exact hrest.lands h.sb ((h.job .sigp).imp_right fun hx => (hrest.mem hx).2) (h.lands .sigp)
  · cases c with
    | p => exact hpub.lands h.sb (fun i _ => h.job i) h.lands
    | w =>
      have hview : t.pview = s.pview := h.other .p (by decide)
      rw [hview]
      exact hpub.lands (.refl _) (fun i hi => .inl ((h.job i).resolve_right fun hx => hi (hrest.mem hx).1))
        fun i x hx => .inl hx

theorem ProducerOk.copies {j pjob : Job} {r : Datapath} {cs ds : JobSlot (Option Word)} {q : PStage}
    (h : ProducerOk j pjob r cs q) (hnone : ∀ i, cs.get i = none → ds.get i = none) : ProducerOk j pjob r ds q := by
  cases q with
  | waitRead => exact hnone .done h
  | _ => exact h

theorem SystemMoves.running {c : CoreId} {s t : State} {j : Job} (h : SystemMoves c s t) (hs : s.Running j) :
    t.Running j := by
  obtain ⟨hworker, hok, hwords, hpending⟩ := hs
  refine ⟨h.workerSound hworker, ?_, hwords.of_eq fun i hi => (h.job i).resolve_right fun hx => ?_, ?_⟩
  · simp only [h.pjob, h.pregs, h.pstage]
    cases c with
    | p => exact hok.copies h.uncopied
    | w =>
      have hview : t.pview = s.pview := h.other .p (by decide)
      rw [hview]
      exact hok
  · cases c with
    | p => exact hi.2 (hpending i _ hx)
    | w => exact hworker.2 i hi _ hx
  · cases c with
    | p => exact fun i x hx => hpending i x (h.sb.subset hx)
    | w =>
      have hview : t.pview = s.pview := h.other .p (by decide)
      rw [hview]
      exact hpending

theorem SameProducer.publishing {s t : State} {j : Job} (h : SameProducer s t) (hjob : t.job = s.job)
    (hs : Publishing j s.pjob s.pstage s.pview.sb s.job) : Publishing j t.pjob t.pstage t.pview.sb t.job := by
  rw [h.pjob, h.pstage, h.pview, hjob]
  exact hs

/-- Every step of `W` is answered while `P` publishes. -/
theorem State.Preparing.worker {j : Job} {s : State} (hj : j.Fits s.memBytes) (hs : s.Preparing j) :
    ∃ t, workerStep s = .next t ∧ t.Preparing j ∧ SameProducer s t ∧ WorkerMoves j s t := by
  obtain ⟨hworker, hrest, hpub⟩ := hs
  obtain ⟨t, ht, hsame, hok, hmoves⟩ := workerStep_moves hj hworker.1 fun h => absurd h hrest.not_works
  obtain ⟨hjob, gs, hgs, hrest', -⟩ := hrest.moves (es := []) (fun x => List.not_mem_nil) rfl hmoves
  have hsb : t.wview.sb = gs := hgs
  exact ⟨t, ht, ⟨⟨hok, hmoves.pending hworker.2⟩, hsb ▸ hrest', hsame.publishing hjob hpub⟩, hsame, hmoves⟩

/-- Every step of `P` is answered while it publishes. -/
theorem State.Preparing.producer {j : Job} {s : State} (hs : s.Preparing j) :
    ∃ t, producerStep s = .next t ∧ SameWorker s t ∧ t.job.get .sigp = s.job.get .sigp ∧ PublishMoves j s t ∧
      (t.Preparing j ∨ t.Running j) := by
  obtain ⟨hworker, hrest, hpub⟩ := hs
  obtain ⟨t, ht, hsame, hsigp, hmoves⟩ := hpub.moves
  refine ⟨t, ht, hsame, hsigp, hmoves, ?_⟩
  cases hmoves with
  | publishes h _ =>
    refine .inl ⟨hsame.sound hworker, ?_, h⟩
    rw [hsigp, hsame.wstage, hsame.wview]
    exact hrest
  | triggers _ hsb hslot _ hok =>
    refine .inr ⟨hsame.sound hworker, hok, fun i hi => hslot i hi.2, fun i x hx => ?_⟩
    rw [hsb] at hx
    cases List.mem_singleton.1 hx
    rfl

theorem State.Running.slotShowsJob {j : Job} {s : State} (hs : s.Running j) : s.SlotShowsJob j :=
  let ⟨hworker, _, hwords, _⟩ := hs
  ⟨hwords, hworker.2⟩

/-- Every step of `W` is answered once signal-present is set. -/
theorem State.Running.worker {j : Job} {s : State} (hj : j.Fits s.memBytes) (hs : s.Running j) :
    ∃ t, workerStep s = .next t ∧ t.Running j ∧ SameProducer s t ∧ WorkerMoves j s t := by
  obtain ⟨t, ht, hsame, hwok, hmoves⟩ := workerStep_moves hj hs.1.1 fun _ => hs.slotShowsJob
  obtain ⟨hworker, hok, hwords, hpending⟩ := hs
  refine ⟨t, ht, ⟨⟨hwok, hmoves.pending hworker.2⟩, ?_, hwords.of_eq fun i hi => ?_, ?_⟩, hsame, hmoves⟩
  · rw [hsame.pjob, hsame.pregs, hsame.pview, hsame.pstage]; exact hok
  · cases hmoves with
    | rests _ h => rw [h]
    | fences _ _ hjob _ => rw [hjob]
    | reads _ _ hjob _ => rw [hjob]
    | works _ _ hjob _ _ => rw [hjob]
    | releases _ _ _ hjob => exact (hjob i).trans (foldl_overlayJob_other (hworker.2 i hi) _)
    | sets _ _ hjob _ => rw [hjob]
    | clears _ _ hjob _ => rw [hjob]
  · rw [hsame.pview]; exact hpending

/-- Every step of `P` is answered once signal-present is set. -/
theorem State.Running.producer {j : Job} {s : State} (hj : j.Fits s.memBytes) (hs : s.Running j) :
    ∃ t, producerStep s = .next t ∧ t.Running j ∧ SameWorker s t ∧ ProducerMoves j s t := by
  obtain ⟨hworker, hok, hwords, hpending⟩ := hs
  obtain ⟨t, ht, hsame, hok', hmoves⟩ := producerStep_moves hj hok
  refine ⟨t, ht, ⟨hsame.sound hworker, hok', hwords.of_eq fun i hi => ?_, fun i x hx => ?_⟩, hsame, hmoves⟩
  · cases hmoves with
    | rests _ h => rw [h]
    | polls _ _ _ hjob _ => rw [hjob]
    | advances hjob => rw [hjob]
    | ends _ _ _ _ hjob => exact hjob i fun x hx => hi.2 (hpending i x hx)
  · cases hmoves with
    | rests _ h => rw [h] at hx; exact hpending i x hx
    | polls _ _ _ _ hsb => rw [hsb] at hx; exact hpending i x hx
    | advances _ hsb =>
      obtain ⟨es, hes, hsb⟩ := hsb
      rw [hsb] at hx
      exact (List.mem_append.1 hx).elim (hpending i x) fun hx => absurd rfl (hes _ hx i x)
    | ends _ _ _ hsb _ => rw [hsb] at hx; cases hx

/-! ### No turn is stopped -/

/-- The job fits in memory, and is being published or has been. -/
def State.Safe (s : State) (j : Job) : Prop := j.Fits s.memBytes ∧ (s.Preparing j ∨ s.Running j)

theorem State.memBytes_takeStep {u : Turn} {s t : State} (h : takeStep u s = .next t) : t.memBytes = s.memBytes := by
  rw [State.memBytes, takeStep_memTop h]
  rfl

theorem State.Safe.takeStep {j : Job} {s : State} {u : Turn} (hs : s.Safe j) (hu : u.internal) :
    ∃ t, takeStep u s = .next t ∧ t.Safe j := by
  obtain ⟨hj, hphase⟩ := hs
  suffices h : ∃ t, Machine.takeStep u s = .next t ∧ (t.Preparing j ∨ t.Running j) by
    obtain ⟨t, ht, hphase⟩ := h
    exact ⟨t, ht, State.memBytes_takeStep ht ▸ hj, hphase⟩
  cases u with
  | p ks =>
    rcases hphase with hprep | hrun
    · obtain ⟨t, ht, -, -, -, hphase⟩ := State.Preparing.producer (s := { s with keeps := ks }) hprep
      exact ⟨t, ht, hphase⟩
    · obtain ⟨t, ht, hrun, -⟩ := State.Running.producer (s := { s with keeps := ks }) hj hrun
      exact ⟨t, ht, .inr hrun⟩
  | w ks =>
    rcases hphase with hprep | hrun
    · obtain ⟨t, ht, hprep, -⟩ := State.Preparing.worker (s := { s with keeps := ks }) hj hprep
      exact ⟨t, ht, .inl hprep⟩
    · obtain ⟨t, ht, hrun, -⟩ := State.Running.worker (s := { s with keeps := ks }) hj hrun
      exact ⟨t, ht, .inr hrun⟩
  | drain c n =>
    exact ⟨s.drain c n, rfl, hphase.imp (s.drain_moves c n).preparing (s.drain_moves c n).running⟩
  | evict c l =>
    exact ⟨s.evict c l, rfl, hphase.imp (s.evict_moves c l).preparing (s.evict_moves c l).running⟩
  | _ => exact hu.elim

theorem State.Safe.runTurns {j : Job} {s : State} (hs : s.Safe j) (ts : List Turn) (hts : ∀ u ∈ ts, u.internal) :
    ∃ t, s.runTurns ts = .next t := by
  induction ts generalizing s with
  | nil => exact ⟨_, s.runTurns_nil⟩
  | cons u ts ih =>
    obtain ⟨hu, hts⟩ := List.forall_mem_cons.1 hts
    have hfree : ({ s with turns := ts } : State).Safe j := hs
    obtain ⟨t, ht, hsafe⟩ := hfree.takeStep hu
    obtain ⟨v, hv⟩ := ih hsafe hts
    exact ⟨v, (State.runTurns_cons ht).trans hv⟩

end Sys2Proof.Machine
end

section
/-! PROOFS. The handoff from the command's begin to its end (43_coresync.md rules R70, R133, R134): from each phase on
some turn leads to the next, whatever the other turns do; so some schedule ends the command, and every fair one in which
the last clear of signal-present has drained. -/

namespace Sys2Proof.Machine

/-! ### The begin of the command -/

theorem publish_safe {s u : State} {j : Job} (cmd : Publisher) (hs : s.WorkerReady) (hj : j.Fits s.memBytes)
    (honly : OnlyCore .p s.beginCommand u) (hfree : JobFree u.pview.sb) :
    (u.publish j cmd).Safe j ∧ (u.publish j cmd).Preparing j := by
  have hsame := honly.sameWorker
  have hwstage : u.wstage = s.wstage := hsame.wstage
  have hwview : u.wview = s.wview := hsame.wview
  have hslot : u.job = s.job := honly.job
  have hmem : u.memBytes = s.memBytes := by
    simp only [OnlyCore] at honly
    rw [honly]
    rfl
  have hpub : Publishing j j (.pub .sig) u.pview.sb u.job :=
    ⟨rfl, nofun, fun i x hx => absurd rfl (hfree _ hx i x), fun i hi => absurd hi (Nat.not_lt_zero _), nofun⟩
  have hrest : Resting (s.job.get .sigp) s.wstage s.wview.sb := by
    obtain ⟨-, ⟨hw, hsb⟩ | ⟨hw, hsb⟩⟩ := hs
    · rw [hw, hsb]; exact .clears
    · have hpolls : s.wstage.Polls := hw.imp_right fun h => h.1
      rcases hsb with hsb | ⟨hsb, hsigp⟩ <;> rw [hsb]
      · exact .pends hpolls
      · exact .polls hpolls hsigp
  have hok : WorkerOk j s.wjob s.wregs s.wview.jcopies s.wstage := by
    obtain ⟨-, ⟨hw, -⟩ | ⟨hw | ⟨hw, -, hcopies⟩, -⟩⟩ := hs <;> rw [hw]
    · trivial
    · trivial
    · rw [hcopies]; exact JobSlot.get_fill none
  have hurest : Resting (u.job.get .sigp) u.wstage u.wview.sb := by
    rw [hslot, hwstage, hwview]
    exact hrest
  have hprep : (u.publish j cmd).Preparing j :=
    ⟨hsame.sound (j := j) ⟨hok, fun i hi x hx => hi.2 (hrest.mem hx).1⟩, hurest, hpub⟩
  exact ⟨⟨hmem.symm ▸ hj, .inl hprep⟩, hprep⟩

theorem parallelJob_fits {s : State} (g : Grid) (h : s.XformFits) : (parallelJob s g).Fits s.memBytes := by
  have hsource := h.source
  have houtput := h.output
  have hhalf : (wordOf (s.cnt.toNat / 2)).toNat = s.cnt.toNat / 2 :=
    toNat_wordOf (by have := s.cnt.isLt; omega)
  refine ⟨fun i (hi : i < s.len.toNat) => ?_, fun k (hk : k < s.cnt.toNat) => ?_, ?_, rfl⟩
  · show s.src.toNat + i < _
    omega
  · show s.dst.toNat + 8 * k + 8 ≤ _
    omega
  · show (wordOf (s.cnt.toNat / 2)).toNat ≤ s.cnt.toNat
    omega

theorem pipeParallelJob_fits {s : State} (h : s.PipeFits) : (pipeParallelJob s).Fits s.memBytes := by
  have houtput := h.output
  obtain ⟨hspectrum, -⟩ := workArea_toNat (houtput.trans s.memBytes_le)
  refine ⟨fun i (hi : i < 80) => ?_, fun k (hk : k < 41) => ?_, ?_, rfl⟩
  · show s.dst.toNat + i < _
    omega
  · show (s.dst + SPECTRUM_AT).toNat + 8 * k + 8 ≤ _
    omega
  · show (wordOf (Config.KC / 2)).toNat ≤ (wordOf Config.KC).toNat
    decide

/-- The begin of a publishing command that passes its checks. -/
theorem publishing_begins {i : Instr} {s p : State} (hi : i = .pipe .parallel ∨ ∃ g, i = .xformp g)
    (hbegin : s.beginError i = none) (hs : s.Ready) (hw : s.WorkerReady) (hp : exec i s = .next p) :
    ∃ j, p.Safe j ∧ p.Preparing j := by
  obtain ⟨-, -, hfree⟩ := s.beginCommand_spec hs.1
  rcases hi with rfl | ⟨g, rfl⟩
  · have hfits := (State.beginError_pipe s.beginCommand .parallel).1 hbegin
    have hexec : exec (.pipe .parallel) s = pipeBody .parallel s.beginCommand :=
      State.checked_passes (s := s) (f := fun s => [ckNeeds (s.initd && s.dictv),
        ckUsage (s.len != wordOf Config.PLEN) s.len, ckAlign s.dst, s.ckAddr s.src Config.PLEN,
        s.ckAlloc s.dst Config.WORK_BYTES]) ((pipeChecks_pass s.beginCommand).2 hfits)
    have hrep := s.beginCommand.replicate_work s.beginCommand.src.toNat s.beginCommand.dst.toNat Config.PLEN
      Config.REP
    rw [hexec] at hp
    simp only [pipeBody] at hp
    generalize s.beginCommand.replicate s.beginCommand.src.toNat s.beginCommand.dst.toNat Config.PLEN Config.REP = u
      at hp hrep
    cases hp
    exact ⟨_, publish_safe .pipe hw (pipeParallelJob_fits hfits) hrep.only (hrep.jobFree hfree)⟩
  · have hfits := (State.beginError_xform s.beginCommand g).1 hbegin
    have hexec : exec (.xformp g) s = .next (s.beginCommand.publish (parallelJob s.beginCommand g) .xformp) :=
      State.checked_passes (s := s) (f := xformChecks)
        (body := fun s => .next (s.publish (parallelJob s g) .xformp)) ((xformChecks_pass s.beginCommand).2 hfits)
    rw [hexec] at hp
    cases hp
    exact ⟨_, publish_safe .xformp hw (parallelJob_fits g hfits) (.refl .p _) hfree⟩

end Sys2Proof.Machine
end

section
/-! PROOFS. How a run gets from one phase to the next: by a helpful turn that no other turn sets back, under a schedule
written out (00_scope.md rule R20) as under a fair execution (20_memory.md rule R70). -/

namespace Sys2Proof.Machine

/-- What `A-CLR` (R133) asks of one turn. -/
def ClearedBefore (u : Turn) (s : State) : Prop :=
  s.pstage = .trig → u.isOf .p → s.wstage.number = 1 ∧ ∀ v, Pending.job .sigp v ∉ s.wview.sb

/-- From `I` on every turn keeps `I` and does not raise the rank, or reaches `G`; a helpful turn lowers the rank. -/
def Leads (help : Turn → Prop) (I G : State → Prop) (r : State → Nat) : Prop :=
  ∀ u s t, u.internal → ClearedBefore u s → I s → takeStep u s = .next t →
    G t ∨ (I t ∧ r t ≤ r s ∧ (help u → r t < r s))

/-- A predicate says nothing of the schedule. -/
def Unscheduled (I : State → Prop) : Prop := ∀ s us, I s → I { s with turns := us }

/-! ### Fair executions -/

section
variable {x : Nat → State} {σ : Nat → Turn} {help : Turn → Prop} {I G : State → Prop} {r : State → Nat}

theorem IsExecution.takeStep (hx : IsExecution x σ) (n : Nat) :
    takeStep (σ n) { x n with turns := [] } = .next (x (n + 1)) := by
  obtain ⟨t, ht, hrun⟩ := State.runTurns_cons_inv (hx n)
  have hturns : t.turns = [] := takeStep_turns ht
  rw [State.runTurns_nil, ← hturns] at hrun
  have heq : t = x (n + 1) := Host.Outcome.next.inj hrun
  rw [← heq]
  exact ht

/-- One turn of the execution. -/
theorem Leads.turn (h : Leads help I G r) (hfree : Unscheduled I) (hrank : ∀ s us, r { s with turns := us } = r s)
    (hx : IsExecution x σ) (hint : ∀ n, (σ n).internal) (hclr : ∀ n, ClearedBefore (σ n) (x n)) {n : Nat}
    (hn : I (x n)) :
    G (x (n + 1)) ∨ (I (x (n + 1)) ∧ r (x (n + 1)) ≤ r (x n) ∧ (help (σ n) → r (x (n + 1)) < r (x n))) := by
  rcases h _ { x n with turns := [] } _ (hint n) (hclr n) (hfree _ [] hn) (hx.takeStep n) with hG | ⟨hI, hle, hlt⟩
  · exact .inl hG
  · exact .inr ⟨hI, hle.trans_eq (hrank (x n) []), fun hu => (hlt hu).trans_eq (hrank (x n) [])⟩

/-- Where a helpful turn always comes as long as `I` holds, `G` is reached. -/
theorem Leads.eventually (h : Leads help I G r) (hfree : Unscheduled I)
    (hrank : ∀ s us, r { s with turns := us } = r s) (hx : IsExecution x σ) (hint : ∀ n, (σ n).internal)
    (hclr : ∀ n, ClearedBefore (σ n) (x n))
    (hhelp : ∀ n, I (x n) → ∃ m, n ≤ m ∧ (help (σ m) ∨ ¬ I (x m))) {n : Nat} (hn : I (x n)) :
    ∃ m, n ≤ m ∧ G (x m) := by
  have hstays : ∀ {n}, I (x n) → ∀ d, (∃ m, n ≤ m ∧ G (x m)) ∨ (I (x (n + d)) ∧ r (x (n + d)) ≤ r (x n)) := by
    intro n hn d
    induction d with
    | zero => exact .inr ⟨hn, le_rfl⟩
    | succ d ih =>
      rcases ih with hG | ⟨hI, hle⟩
      · exact .inl hG
      · rcases h.turn hfree hrank hx hint hclr hI with hG | ⟨hI', hle', -⟩
        · exact .inl ⟨n + d + 1, by omega, hG⟩
        · exact .inr ⟨hI', hle'.trans hle⟩
  induction hk : r (x n) using Nat.strong_induction_on generalizing n with
  | _ k ih =>
    subst hk
    obtain ⟨m, hnm, hm⟩ := hhelp n hn
    obtain ⟨d, rfl⟩ := Nat.exists_eq_add_of_le hnm
    rcases hstays hn d with hG | ⟨hI, hle⟩
    · exact hG
    · rcases h.turn hfree hrank hx hint hclr hI with hG | ⟨hI', -, hlt⟩
      · exact ⟨n + d + 1, by omega, hG⟩
      · have hless := hlt (hm.resolve_right (not_not.2 hI))
        obtain ⟨m, hle', hG⟩ := ih _ (hless.trans_le hle) hI' rfl
        exact ⟨m, by omega, hG⟩

end

/-! ### Schedules written out -/

/-- Whatever turns follow, the turns `ts` lead from `A` to `B`. -/
def After (ts : List Turn) (A B : State → Prop) : Prop :=
  ∀ s, A s → ∀ us, ∃ t, B t ∧ s.runTurns (ts ++ us) = t.runTurns us

theorem After.append {ts us : List Turn} {A B C : State → Prop} (h : After ts A B) (k : After us B C) :
    After (ts ++ us) A C := by
  intro s hs vs
  obtain ⟨t, ht, hts⟩ := h s hs (us ++ vs)
  obtain ⟨u, hu, hus⟩ := k t ht vs
  exact ⟨u, hu, by rw [List.append_assoc, hts, hus]⟩

theorem After.mono {ts : List Turn} {A A' B B' : State → Prop} (h : After ts A B) (hA : ∀ s, A' s → A s)
    (hB : ∀ s, B s → B' s) : After ts A' B' := by
  intro s hs us
  obtain ⟨t, ht, hts⟩ := h s (hA s hs) us
  exact ⟨t, hB t ht, hts⟩

theorem After.single {u : Turn} {A B : State → Prop} (hfree : Unscheduled A)
    (h : ∀ s, A s → ∃ t, takeStep u s = .next t ∧ B t) : After [u] A B := by
  intro s hs us
  obtain ⟨t, ht, hB⟩ := h _ (hfree s us hs)
  exact ⟨t, hB, State.runTurns_cons ht⟩

/-- A turn that is answered and nears `G`, taken again and again, reaches `G`, if it keeps `G`. -/
theorem After.repeated {u : Turn} {I G : State → Prop} {r : State → Nat} (hfree : Unscheduled I)
    (hfreeG : Unscheduled G) (hrank : ∀ s us, r { s with turns := us } = r s)
    (h : ∀ s, I s → ∃ t, takeStep u s = .next t ∧ (G t ∨ (I t ∧ r t < r s)))
    (hG : ∀ s, G s → ∃ t, takeStep u s = .next t ∧ G t) (k : Nat) :
    After (List.replicate k u) (fun s => G s ∨ (I s ∧ r s < k)) G := by
  induction k with
  | zero => exact fun s hs us => ⟨s, hs.resolve_right fun h => absurd h.2 (Nat.not_lt_zero _), rfl⟩
  | succ k ih =>
    rw [List.replicate_succ, ← List.singleton_append]
    refine After.append (After.single (fun s us hs => ?_) fun s hs => ?_) ih
    · exact hs.imp (hfreeG s us) fun hI => ⟨hfree s us hI.1, by rw [hrank]; exact hI.2⟩
    · rcases hs with hs | ⟨hs, hlt⟩
      · obtain ⟨t, ht, hGt⟩ := hG s hs
        exact ⟨t, ht, .inl hGt⟩
      · obtain ⟨t, ht, hnext⟩ := h s hs
        exact ⟨t, ht, hnext.imp_right fun ⟨hI, hless⟩ => ⟨hI, by omega⟩⟩

/-- A helpful turn that is answered nears `G`. -/
theorem Leads.next {help : Turn → Prop} {I G : State → Prop} {r : State → Nat} (h : Leads help I G r) {u : Turn}
    {s : State} (hu : u.internal) (hhelp : help u) (hclr : ClearedBefore u s) (hs : I s)
    (hnext : ∃ t, takeStep u s = .next t) : ∃ t, takeStep u s = .next t ∧ (G t ∨ (I t ∧ r t < r s)) := by
  obtain ⟨t, ht⟩ := hnext
  exact ⟨t, ht, (h u s t hu hclr hs ht).imp_right fun ⟨hI, _, hlt⟩ => ⟨hI, hlt hhelp⟩⟩

end Sys2Proof.Machine
end

section
/-! PROOFS. The phases of a handoff that `A-CLR` begins well (43_coresync.md rules R119 to R128, R133), and how each leads
to the next; the end of every such run (R134 (d)). -/

namespace Sys2Proof.Machine

/-! ### One turn while the job runs -/

/-- Job `j` fits in memory, and signal-present has been set for it. -/
def State.Ran (s : State) (j : Job) : Prop := j.Fits s.memBytes ∧ s.Running j

/-- What a turn of `P`, `W` or `MSYS` comes to once signal-present is set. -/
inductive TurnMoves (j : Job) (s : State) : Turn → State → Prop
  | producer {ks : List Bool} {t : State} (h : ProducerMoves j { s with keeps := ks } t) (hw : SameWorker s t) :
      TurnMoves j s (.p ks) t
  | worker {ks : List Bool} {t : State} (h : WorkerMoves j { s with keeps := ks } t) (hp : SameProducer s t) :
      TurnMoves j s (.w ks) t
  | drains (c : CoreId) (n : Nat) : TurnMoves j s (.drain c n) (s.drain c n)
  | evicts (c : CoreId) (l : WordLoc) : TurnMoves j s (.evict c l) (s.evict c l)

theorem State.Ran.turn {j : Job} {s : State} {u : Turn} (hs : s.Ran j) (hu : u.internal) :
    ∃ t, takeStep u s = .next t ∧ t.Ran j ∧ TurnMoves j s u t := by
  obtain ⟨hj, hrun⟩ := hs
  suffices h : ∃ t, takeStep u s = .next t ∧ t.Running j ∧ TurnMoves j s u t by
    obtain ⟨t, ht, hrun, hmoves⟩ := h
    exact ⟨t, ht, ⟨State.memBytes_takeStep ht ▸ hj, hrun⟩, hmoves⟩
  cases u with
  | p ks =>
    obtain ⟨t, ht, hrun, hsame, hmoves⟩ := State.Running.producer (s := { s with keeps := ks }) hj hrun
    exact ⟨t, ht, hrun, .producer hmoves ⟨hsame.wstage, hsame.wjob, hsame.wregs, hsame.wview⟩⟩
  | w ks =>
    obtain ⟨t, ht, hrun, hsame, hmoves⟩ := State.Running.worker (s := { s with keeps := ks }) hj hrun
    exact ⟨t, ht, hrun, .worker hmoves ⟨hsame.pstage, hsame.pjob, hsame.pregs, hsame.pview⟩⟩
  | drain c n => exact ⟨s.drain c n, rfl, (s.drain_moves c n).running hrun, .drains c n⟩
  | evict c l => exact ⟨s.evict c l, rfl, (s.evict_moves c l).running hrun, .evicts c l⟩
  | _ => exact hu.elim

/-! ### Phases -/

/-- A condition on the stage of `P`, the slot, what `P` has pending, the stage of `W` and what `W` has pending. -/
abbrev Phase := PStage → JobSlot Word → List Pending → WStage → List Pending → Prop

/-- The run of job `j` is in a phase. -/
def State.In (s : State) (j : Job) (A : Phase) : Prop :=
  s.Ran j ∧ A s.pstage s.job s.pview.sb s.wstage s.wview.sb

/-- Signal-present is set and has yet to reach the slot; the worker polls, its last clear has drained. -/
def Triggered : Phase := fun q slot es w fs =>
  q.Awaits ∧ slot.get .done = 0 ∧ (∃ ds, JobFree ds ∧ es = .job .sigp 1 :: ds) ∧ w.Polls ∧ fs = [] ∧
    slot.get .sigp = 0

/-- The slot shows signal-present to a worker that polls. -/
def Offered : Phase := fun q slot es w fs =>
  q.Awaits ∧ slot.get .done = 0 ∧ JobFree es ∧ w.Polls ∧ fs = [] ∧ slot.get .sigp = 1

/-- The worker has the job, up to its release. -/
def Working : Phase := fun q slot es w fs =>
  q.Awaits ∧ slot.get .done = 0 ∧ JobFree es ∧ ((w.Works ∧ JobFree fs) ∨ (w = .setDone ∧ fs = []))

/-- The worker has set the completion flag, which has yet to reach the slot. -/
def Completed : Phase := fun q slot es w fs =>
  q.Awaits ∧ slot.get .done = 0 ∧ JobFree es ∧ ∃ gs, fs = .job .done 1 :: gs ∧ Resting (slot.get .sigp) w gs

/-- The slot shows the completion flag to `P`. -/
def Delivered : Phase := fun q slot es w fs =>
  q ≠ .idle ∧ slot.get .done = 1 ∧ JobFree es ∧ Resting (slot.get .sigp) w fs

/-- It is enough to say what each kind of turn does. -/
theorem leads_of_moves {j : Job} {help : Turn → Prop} {A B : Phase} {r : State → Nat}
    (h : ∀ u s t, s.In j A → TurnMoves j s u t →
      B t.pstage t.job t.pview.sb t.wstage t.wview.sb ∨
        (A t.pstage t.job t.pview.sb t.wstage t.wview.sb ∧ r t ≤ r s ∧ (help u → r t < r s))) :
    Leads help (fun s => s.In j A) (fun s => s.In j B) r := by
  intro u s t hu _ hs ht
  obtain ⟨t', ht', hran, hmoves⟩ := hs.1.turn hu
  obtain rfl : t' = t := Host.Outcome.next.inj (ht'.symm.trans ht)
  exact (h u s t' hs hmoves).imp (fun hB => ⟨hran, hB⟩) fun ⟨hA, hr⟩ => ⟨⟨hran, hA⟩, hr⟩

/-- Before the completion flag is in the slot, `P` computes its half and waits. -/
theorem ProducerMoves.awaits {j : Job} {s t : State} (hm : ProducerMoves j s t) (hs : s.Running j)
    (ha : s.pstage.Awaits) (hdone : s.job.get .done = 0) :
    t.pstage.Awaits ∧ t.job = s.job ∧ ∃ es, JobFree es ∧ t.pview.sb = s.pview.sb ++ es := by
  obtain ⟨-, hok, -, hpending⟩ := hs
  cases hm with
  | rests hp _ => rw [hp] at ha; exact ha.elim
  | polls _ _ ht hjob hsb => exact ⟨by rw [ht]; trivial, hjob, [], jobFree_nil, by rw [hsb, List.append_nil]⟩
  | advances hjob hsb _ _ hwaits =>
    refine ⟨(hwaits ha).resolve_right fun ⟨hp, hread⟩ => hread ?_, hjob, hsb⟩
    rw [hp] at hok
    rw [State.coreJob_of_no_copy (c := .p) hok]
    exact (foldl_overlayJob_other (i := .done) (fun x hx => nomatch hpending .done x hx) _).trans hdone
  | ends hp => exact absurd ha hp

theorem jobFree_append {es fs : List Pending} (h : JobFree es) (k : JobFree fs) : JobFree (es ++ fs) :=
  fun e he => (List.mem_append.1 he).elim (h e) (k e)

/-- A phase before the completion flag is in the slot: `P` computes its half or waits, and may have more bytes pending. -/
def Phase.Early (A : Phase) : Prop :=
  ∀ q slot es w fs, A q slot es w fs → q.Awaits ∧ slot.get .done = 0 ∧
    ∀ q' ds, PStage.Awaits q' → JobFree ds → A q' slot (es ++ ds) w fs

theorem triggered_early : Phase.Early Triggered := by
  rintro q slot _ w fs ⟨ha, hdone, ⟨ds, hds, rfl⟩, hrest⟩
  exact ⟨ha, hdone, fun q' es hq hes => ⟨hq, hdone, ⟨ds ++ es, jobFree_append hds hes, rfl⟩, hrest⟩⟩

theorem offered_early : Phase.Early Offered := by
  rintro q slot es w fs ⟨ha, hdone, hes, hrest⟩
  exact ⟨ha, hdone, fun q' ds hq hds => ⟨hq, hdone, jobFree_append hes hds, hrest⟩⟩

theorem working_early : Phase.Early Working := by
  rintro q slot es w fs ⟨ha, hdone, hes, hrest⟩
  exact ⟨ha, hdone, fun q' ds hq hds => ⟨hq, hdone, jobFree_append hes hds, hrest⟩⟩

theorem completed_early : Phase.Early Completed := by
  rintro q slot es w fs ⟨ha, hdone, hes, hrest⟩
  exact ⟨ha, hdone, fun q' ds hq hds => ⟨hq, hdone, jobFree_append hes hds, hrest⟩⟩

/-- A step of `P` stays in such a phase. -/
theorem Phase.Early.producer {A : Phase} (hA : A.Early) {j : Job} {s t : State} (h : ProducerMoves j s t)
    (hw : t.wstage = s.wstage) (hv : t.wview = s.wview) (hrun : s.Running j)
    (hs : A s.pstage s.job s.pview.sb s.wstage s.wview.sb) :
    A t.pstage t.job t.pview.sb t.wstage t.wview.sb := by
  obtain ⟨ha, hdone, hnext⟩ := hA _ _ _ _ _ hs
  obtain ⟨ha', hjob, fs, hfree, hsb⟩ := h.awaits hrun ha hdone
  rw [hw, hv, hjob, hsb]
  exact hnext _ fs ha' hfree

/-- An eviction changes nothing that a phase speaks of. -/
theorem State.evict_phase (s : State) (c : CoreId) (l : WordLoc) (A : Phase)
    (h : A s.pstage s.job s.pview.sb s.wstage s.wview.sb) :
    A (s.evict c l).pstage (s.evict c l).job (s.evict c l).pview.sb (s.evict c l).wstage (s.evict c l).wview.sb := by
  have hmoves := s.evict_moves c l
  have hsb : ∀ d, ((s.evict c l).view d).sb = (s.view d).sb := fun d => by
    by_cases hd : d = c
    · rw [hd]; exact s.evict_sb c l
    · rw [hmoves.other d hd]
  have hp : (s.evict c l).pview.sb = s.pview.sb := hsb .p
  have hw : (s.evict c l).wview.sb = s.wview.sb := hsb .w
  rw [hmoves.pstage, s.evict_job, hp, hmoves.wstage, hw]
  exact h

/-- A drain for `P` of what is no slot write. -/
theorem State.drain_p_phase {s : State} (n : Nat) (h : JobFree s.pview.sb) :
    (s.drain .p n).pstage = s.pstage ∧ (s.drain .p n).job = s.job ∧ JobFree (s.drain .p n).pview.sb ∧
      (s.drain .p n).wstage = s.wstage ∧ (s.drain .p n).wview = s.wview := by
  have hmoves := s.drain_moves .p n
  obtain ⟨hjob, hfree⟩ := State.drain_jobFree (c := .p) n h
  exact ⟨hmoves.pstage, hjob, hfree, hmoves.wstage, hmoves.other .w (by decide)⟩

/-- A drain of the oldest entry, a slot write. -/
theorem State.drain_oldest_job {s : State} {c : CoreId} {i : JobIx} {x : Word} {es : List Pending}
    (h : (s.view c).sb = .job i x :: es) :
    ((s.drain c 0).view c).sb = es ∧ (s.drain c 0).job = s.job.set i x := by
  rw [State.drain_oldest h]
  refine ⟨s.land_sb c _ es, ?_⟩
  rw [State.land_job]
  show ((s.setView c _).job.set i x) = _
  rw [State.setView_job]

theorem triggered_leads (j : Job) :
    Leads (· = .drain .p 0) (fun s => s.In j Triggered) (fun s => s.In j Offered) fun _ => 0 := by
  refine leads_of_moves fun u s t hs hm => ?_
  obtain ⟨⟨hj, hrun⟩, hphase⟩ := hs
  have ⟨ha, hdone, ⟨ds, hds, hes⟩, hpolls, hfs, hsigp⟩ := hphase
  cases hm with
  | @producer ks _ h hw =>
    have hstays := triggered_early.producer (s := { s with keeps := ks }) h hw.wstage hw.wview hrun hphase
    exact .inr ⟨hstays, le_rfl, nofun⟩
  | @worker ks _ h hp =>
    have hrest : Resting (s.job.get .sigp) s.wstage [] := .polls hpolls hsigp
    obtain ⟨hjob, gs, hsb, -, hstays⟩ := Resting.moves (s := { s with keeps := ks }) (es := []) hrest
      (fun x => List.not_mem_nil) hfs h
    have hjob : t.job = s.job := hjob
    obtain ⟨rfl, hpolls'⟩ := hstays rfl hpolls
    rw [hp.pstage, hp.pview, hjob]
    exact .inr ⟨⟨ha, hdone, ⟨ds, hds, hes⟩, hpolls', hsb, hsigp⟩, le_rfl, nofun⟩
  | drains c n =>
    have hmoves := s.drain_moves c n
    cases c with
    | w =>
      rw [State.drain_empty (c := .w) n hfs]
      exact .inr ⟨⟨ha, hdone, ⟨ds, hds, hes⟩, hpolls, hfs, hsigp⟩, le_rfl, nofun⟩
    | p =>
      have hview : (s.drain .p n).wview = s.wview := hmoves.other .w (by decide)
      rw [hmoves.pstage, hmoves.wstage, hview]
      cases n with
      | zero =>
        obtain ⟨hsb, hjob⟩ := State.drain_oldest_job (c := .p) hes
        have hsb : (s.drain .p 0).pview.sb = ds := hsb
        rw [hsb, hjob]
        refine .inl ⟨ha, ?_, hds, hpolls, hfs, JobSlot.get_set_same _ _ _⟩
        rw [JobSlot.get_set]
        exact hdone
      | succ n =>
        obtain ⟨fs, hsb, hsub, hjob⟩ := State.drain_younger (c := .p) hes n
        have hslot : ∀ i, (s.drain .p (n + 1)).job.get i = s.job.get i := fun i =>
          (hjob i).resolve_right fun hx => hds _ hx i _ rfl
        exact .inr ⟨⟨ha, (hslot _).trans hdone, ⟨fs, fun e he => hds e (hsub.subset he), hsb⟩, hpolls, hfs,
          (hslot _).trans hsigp⟩, le_rfl, nofun⟩
  | evicts c l =>
    exact .inr ⟨s.evict_phase c l Triggered hphase, le_rfl, nofun⟩

theorem offered_leads (j : Job) :
    Leads (·.isOf .w) (fun s => s.In j Offered) (fun s => s.In j Working)
      fun s => if s.wstage = .pollFence then 1 else 0 := by
  refine leads_of_moves fun u s t hs hm => ?_
  obtain ⟨⟨hj, hrun⟩, hphase⟩ := hs
  have ⟨ha, hdone, hes, hpolls, hfs, hsigp⟩ := hphase
  cases hm with
  | @producer ks _ h hw =>
    have hstays := offered_early.producer (s := { s with keeps := ks }) h hw.wstage hw.wview hrun hphase
    refine .inr ⟨hstays, ?_, nofun⟩
    rw [hw.wstage]
  | worker h hp =>
    rw [hp.pstage, hp.pview]
    cases h with
    | fences hs ht hjob hsb =>
      have hs : s.wstage = .pollFence := hs
      have hjob : t.job = s.job := hjob
      rw [ht, hjob, hs]
      exact .inr ⟨⟨ha, hdone, hes, .inr rfl, hsb.trans hfs, hsigp⟩, Nat.zero_le _, fun _ => Nat.zero_lt_one⟩
    | reads hs ht hjob hsb =>
      have hset : s.wview.sb.foldl (fun w e => e.overlayJob .sigp w) (s.job.get .sigp) ≠ 0 := by
        rw [hfs, hsigp]
        decide
      have ht : t.wstage = .load .sig := ht.trans (if_neg hset)
      have hjob : t.job = s.job := hjob
      have hsb : t.wview.sb = [] := hsb.trans hfs
      rw [ht, hjob, hsb]
      exact .inl ⟨ha, hdone, hes, .inl ⟨trivial, jobFree_nil⟩⟩
    | rests hs => exact absurd (hs ▸ hpolls : WStage.off.Polls) (by rintro (h | h) <;> cases h)
    | works hs =>
      have hs : s.wstage.Works := hs
      rcases hpolls with h | h <;> rw [h] at hs <;> exact hs.elim
    | releases hs => exact absurd (hs ▸ hpolls : WStage.rel.Polls) (by rintro (h | h) <;> cases h)
    | sets hs => exact absurd (hs ▸ hpolls : WStage.setDone.Polls) (by rintro (h | h) <;> cases h)
    | clears hs => exact absurd (hs ▸ hpolls : WStage.clear.Polls) (by rintro (h | h) <;> cases h)
  | drains c n =>
    cases c with
    | w =>
      rw [State.drain_empty (c := .w) n hfs]
      exact .inr ⟨⟨ha, hdone, hes, hpolls, hfs, hsigp⟩, le_rfl, nofun⟩
    | p =>
      obtain ⟨hp, hjob, hfree, hw, hview⟩ := State.drain_p_phase n hes
      rw [hp, hjob, hw, hview]
      exact .inr ⟨⟨ha, hdone, hfree, hpolls, hfs, hsigp⟩, le_rfl, nofun⟩
  | evicts c l =>
    refine .inr ⟨s.evict_phase c l Offered hphase, ?_, nofun⟩
    rw [(s.evict_moves c l).wstage]

theorem working_leads (j : Job) :
    Leads (·.isOf .w) (fun s => s.In j Working) (fun s => s.In j Completed) fun s => workerRank j s.wregs s.wstage := by
  refine leads_of_moves fun u s t hs hm => ?_
  obtain ⟨⟨hj, hrun⟩, hphase⟩ := hs
  have ⟨ha, hdone, hes, hw⟩ := hphase
  cases hm with
  | @producer ks _ h hw =>
    have hstays := working_early.producer (s := { s with keeps := ks }) h hw.wstage hw.wview hrun hphase
    refine .inr ⟨hstays, ?_, nofun⟩
    rw [hw.wstage, hw.wregs]
  | worker h hp =>
    rw [hp.pstage, hp.pview]
    rcases hw with ⟨hworks, hfs⟩ | ⟨hset, hfs⟩
    · cases h with
      | works _ ht hjob hsb hrank =>
        obtain ⟨gs, hgs, hsb⟩ := hsb
        have hjob : t.job = s.job := hjob
        have hsb : t.wview.sb = s.wview.sb ++ gs := hsb
        rw [hjob, hsb]
        exact .inr ⟨⟨ha, hdone, hes, .inl ⟨ht, jobFree_append hfs hgs⟩⟩, hrank.le, fun _ => hrank⟩
      | releases hs ht hsb hjob =>
        have hs : s.wstage = .rel := hs
        have hslot : t.job.get .done = s.job.get .done :=
          (hjob .done).trans (foldl_overlayJob_other (fun x hx => hfs _ hx _ x rfl) _)
        have hrank : workerRank j t.wregs t.wstage < workerRank j s.wregs s.wstage := by
          rw [ht, hs]; exact Nat.lt_succ_self 1
        exact .inr ⟨⟨ha, hslot.trans hdone, hes, .inr ⟨ht, hsb⟩⟩, hrank.le, fun _ => hrank⟩
      | rests hs => exact absurd (hs ▸ hworks : WStage.off.Works) id
      | fences hs => exact absurd (hs ▸ hworks : WStage.pollFence.Works) id
      | reads hs => exact absurd (hs ▸ hworks : WStage.pollRead.Works) id
      | sets hs => exact absurd (hs ▸ hworks : WStage.setDone.Works) id
      | clears hs => exact absurd (hs ▸ hworks : WStage.clear.Works) id
    · cases h with
      | sets _ ht hjob hsb =>
        have hjob : t.job = s.job := hjob
        have hsb : t.wview.sb = [.job .done 1] := hsb.trans (by rw [hfs]; rfl)
        rw [ht, hjob, hsb]
        exact .inl ⟨ha, hdone, hes, [], rfl, .clears⟩
      | works hs => exact absurd (hset ▸ hs : WStage.setDone.Works) id
      | rests hs => cases hset.symm.trans hs
      | fences hs => cases hset.symm.trans hs
      | reads hs => cases hset.symm.trans hs
      | releases hs => cases hset.symm.trans hs
      | clears hs => cases hset.symm.trans hs
  | drains c n =>
    have hmoves := s.drain_moves c n
    cases c with
    | w =>
      have hview : (s.drain .w n).pview = s.pview := hmoves.other .p (by decide)
      have hfree : JobFree s.wview.sb := hw.elim And.right fun h => h.2 ▸ jobFree_nil
      obtain ⟨hjob, hfree'⟩ := State.drain_jobFree (c := .w) n hfree
      rw [hmoves.pstage, hview, hjob, hmoves.wstage, hmoves.wregs]
      refine .inr ⟨⟨ha, hdone, hes, hw.imp (fun h => ⟨h.1, hfree'⟩) fun h => ⟨h.1, ?_⟩⟩, le_rfl, nofun⟩
      rw [State.drain_empty (c := .w) n h.2]
      exact h.2
    | p =>
      obtain ⟨hp, hjob, hfree, hwstage, hview⟩ := State.drain_p_phase n hes
      rw [hp, hjob, hwstage, hview, hmoves.wregs]
      exact .inr ⟨⟨ha, hdone, hfree, hw⟩, le_rfl, nofun⟩
  | evicts c l =>
    refine .inr ⟨s.evict_phase c l Working hphase, ?_, nofun⟩
    rw [(s.evict_moves c l).wstage, (s.evict_moves c l).wregs]

/-- A step of `W` that has set the completion flag. -/
theorem Completed.worker {j : Job} {s t : State} (h : WorkerMoves j s t) (hp : t.pstage = s.pstage)
    (hv : t.pview = s.pview) (hs : Completed s.pstage s.job s.pview.sb s.wstage s.wview.sb) :
    Completed t.pstage t.job t.pview.sb t.wstage t.wview.sb := by
  obtain ⟨ha, hdone, hes, gs, hfs, hrest⟩ := hs
  have hother : ∀ x, Pending.job .sigp x ∉ [Pending.job .done 1] := fun x hx => nomatch List.mem_singleton.1 hx
  obtain ⟨hjob, gs', hsb, hrest', -⟩ := hrest.moves hother hfs h
  rw [hp, hv]
  exact ⟨ha, by rw [hjob]; exact hdone, hes, gs', hsb, hrest'⟩

theorem completed_leads (j : Job) :
    Leads (· = .drain .w 0) (fun s => s.In j Completed) (fun s => s.In j Delivered) fun _ => 0 := by
  refine leads_of_moves fun u s t hs hm => ?_
  obtain ⟨⟨hj, hrun⟩, hphase⟩ := hs
  have ⟨ha, hdone, hes, gs, hfs, hrest⟩ := hphase
  cases hm with
  | @producer ks _ h hw =>
    have hstays := completed_early.producer (s := { s with keeps := ks }) h hw.wstage hw.wview hrun hphase
    exact .inr ⟨hstays, le_rfl, nofun⟩
  | @worker ks _ h hp =>
    exact .inr ⟨Completed.worker (s := { s with keeps := ks }) h hp.pstage hp.pview hphase, le_rfl, nofun⟩
  | drains c n =>
    have hmoves := s.drain_moves c n
    cases c with
    | w =>
      have hview : (s.drain .w n).pview = s.pview := hmoves.other .p (by decide)
      rw [hmoves.pstage, hmoves.wstage, hview]
      cases n with
      | zero =>
        obtain ⟨hsb, hjob⟩ := State.drain_oldest_job (c := .w) hfs
        have hsb : (s.drain .w 0).wview.sb = gs := hsb
        rw [hsb, hjob]
        refine .inl ⟨fun hp => by rw [hp] at ha; exact ha, JobSlot.get_set_same _ _ _, hes, ?_⟩
        rw [JobSlot.get_set]
        exact hrest
      | succ n =>
        obtain ⟨fs, hsb, hsub, hjob⟩ := State.drain_younger (c := .w) hfs n
        have hslot : (s.drain .w (n + 1)).job.get .done = s.job.get .done :=
          (hjob .done).resolve_right fun hx => nomatch (hrest.mem hx).1
        refine .inr ⟨⟨ha, hslot.trans hdone, hes, fs, hsb, hrest.lands hsub ?_ fun x hx => ?_⟩, le_rfl, nofun⟩
        · exact (hjob .sigp).imp_right fun hx => (hrest.mem hx).2
        · have hmem : Pending.job .sigp x ∈ (s.view .w).sb := by
            rw [show (s.view .w).sb = _ from hfs]
            exact List.mem_cons_of_mem _ hx
          refine (hmoves.lands .sigp x hmem).imp_left fun h => ?_
          rw [hsb] at h
          exact (List.mem_cons.1 h).resolve_left nofun
    | p =>
      obtain ⟨hp, hjob, hfree, hwstage, hview⟩ := State.drain_p_phase n hes
      rw [hp, hjob, hwstage, hview]
      exact .inr ⟨⟨ha, hdone, hfree, gs, hfs, hrest⟩, le_rfl, nofun⟩
  | evicts c l =>
    exact .inr ⟨s.evict_phase c l Completed hphase, le_rfl, nofun⟩

theorem delivered_leads (j : Job) :
    Leads (·.isOf .p) (fun s => s.In j Delivered) (fun s => s.done = true ∧ s.pstage = .idle)
      fun s => producerRank j s.pregs s.pstage := by
  intro u s t hu _ hs ht
  obtain ⟨t', ht', hran, hm⟩ := hs.1.turn hu
  obtain rfl : t' = t := Host.Outcome.next.inj (ht'.symm.trans ht)
  obtain ⟨⟨hj, hrun⟩, hp, hdone, hes, hrest⟩ := hs
  cases hm with
  | @producer ks _ h hw =>
    cases h with
    | rests hs _ => exact absurd hs hp
    | polls hs hread =>
      have hok : s.pview.jcopies.get .done = none := by
        obtain ⟨-, hok, -⟩ := hrun
        rw [show s.pstage = .waitRead from hs] at hok
        exact hok
      have hread' : s.coreJob .p .done = s.job.get .done :=
        (State.coreJob_of_no_copy (c := .p) hok).trans (foldl_overlayJob_other (fun x hx => hes _ hx _ x rfl) _)
      have hzero : s.coreJob .p .done = 0 := hread
      rw [hread', hdone] at hzero
      exact absurd hzero (by decide)
    | advances hjob hsb hrank hne _ =>
      obtain ⟨fs, hfree, hsb⟩ := hsb
      have hjob : t'.job = s.job := hjob
      have hsb : t'.pview.sb = s.pview.sb ++ fs := hsb
      refine .inr ⟨⟨hran, hne, ?_⟩, hrank.le, fun _ => hrank⟩
      rw [hw.wstage, hw.wview, hjob, hsb]
      exact ⟨hdone, jobFree_append hes hfree, hrest⟩
    | ends _ hend hidle => exact .inl ⟨hend, hidle⟩
  | @worker ks _ h hsame =>
    obtain ⟨hjob, gs', hsb, hrest', -⟩ := Resting.moves (s := { s with keeps := ks }) (es := []) hrest
      (fun x => List.not_mem_nil) rfl h
    have hjob : t'.job = s.job := hjob
    have hsb : t'.wview.sb = gs' := hsb
    refine .inr ⟨⟨hran, ?_⟩, ?_, nofun⟩
    · rw [hsame.pstage, hsame.pview, hsb]
      exact ⟨hp, by rw [hjob]; exact hdone, hes, hrest'⟩
    · show producerRank j t'.pregs t'.pstage ≤ _
      rw [hsame.pstage, hsame.pregs]
  | drains c n =>
    have hmoves := s.drain_moves c n
    refine .inr ⟨⟨hran, ?_⟩, ?_, nofun⟩
    · rw [hmoves.pstage]
      cases c with
      | w =>
        have hview : (s.drain .w n).pview = s.pview := hmoves.other .p (by decide)
        rw [hmoves.wstage, hview]
        refine ⟨hp, ?_, hes, hrest.lands hmoves.sb ?_ (hmoves.lands .sigp)⟩
        · exact ((hmoves.job .done).resolve_right fun hx => nomatch (hrest.mem hx).1).trans hdone
        · exact (hmoves.job .sigp).imp_right fun hx => (hrest.mem hx).2
      | p =>
        obtain ⟨-, hjob, hfree, hwstage, hview⟩ := State.drain_p_phase n hes
        rw [hjob, hwstage, hview]
        exact ⟨hp, hdone, hfree, hrest⟩
    · show producerRank j (s.drain c n).pregs (s.drain c n).pstage ≤ _
      rw [hmoves.pstage, hmoves.pregs]
  | evicts c l =>
    refine .inr ⟨⟨hran, s.evict_phase c l Delivered ⟨hp, hdone, hes, hrest⟩⟩, ?_, nofun⟩
    show producerRank j (s.evict c l).pregs (s.evict c l).pstage ≤ _
    rw [(s.evict_moves c l).pstage, (s.evict_moves c l).pregs]

/-! ### From the begin of the command to the trigger -/

/-- Job `j` fits in memory, and is being published. -/
def State.Prepared (s : State) (j : Job) : Prop := j.Fits s.memBytes ∧ s.Preparing j

/-- The worker polls, and its last clear of signal-present has drained. -/
def State.Cleared (s : State) : Prop := s.wstage.Polls ∧ s.wview.sb = []

/-- A step of `P` while it publishes, as `A-CLR` has it. -/
theorem State.Prepared.producer {j : Job} {s : State} {ks : List Bool} (hs : s.Prepared j)
    (hclr : ClearedBefore (.p ks) s) : ∃ t, takeStep (.p ks) s = .next t ∧
      (t.In j Triggered ∨
        (t.Prepared j ∧ publishRank t.pstage < publishRank s.pstage ∧ (s.Cleared → t.Cleared))) := by
  obtain ⟨hj, hprep⟩ := hs
  have hrest := hprep.2.1
  obtain ⟨t, ht, hsame, hsigp, hmoves, hphase⟩ := State.Preparing.producer (s := { s with keeps := ks }) hprep
  have hfits : j.Fits t.memBytes := (State.memBytes_takeStep (u := .p ks) (s := s) ht).symm ▸ hj
  have hwstage : t.wstage = s.wstage := hsame.wstage
  have hwview : t.wview = s.wview := hsame.wview
  have hsigp : t.job.get .sigp = s.job.get .sigp := hsigp
  refine ⟨t, ht, ?_⟩
  cases hmoves with
  | publishes hpub hrank =>
    refine .inr ⟨⟨hfits, hphase.resolve_right fun h => ?_⟩, hrank, fun hc => ?_⟩
    · obtain ⟨-, hok, -⟩ := h
      have hstage := hpub.stage
      generalize t.pstage = q at hok hstage
      cases q with
      | pub i => exact hok
      | fence => exact hok
      | trig => exact hok
      | _ => exact hstage
    · rw [State.Cleared, hwstage, hwview]
      exact hc
  | triggers hs hsb hslot hp hok =>
    obtain ⟨hnumber, hnone⟩ := hclr hs ⟨ks, rfl⟩
    have hrun : t.Running j := hphase.resolve_left fun h => by
      have hstage := h.2.2.stage
      generalize t.pstage = q at hp hstage
      cases q with
      | own b => exact hstage
      | waitFence => exact hstage
      | waitRead => exact hstage
      | _ => exact hp
    refine .inl ⟨⟨hfits, hrun⟩, hp, hslot .done nofun, ⟨[], jobFree_nil, hsb⟩, ?_⟩
    rw [hwstage, hwview, hsigp]
    generalize s.wstage = w at hrest hnumber
    generalize s.wview.sb = fs at hrest hnone
    cases hrest with
    | clears => exact absurd hnumber (by decide)
    | pends => exact absurd List.mem_cons_self (hnone 0)
    | polls hw hv => exact ⟨hw, rfl, hv⟩

/-- Until then nothing else moves `P`, and the worker stays without a job. -/
theorem prepared_leads (j : Job) :
    Leads (·.isOf .p) (fun s => s.Prepared j) (fun s => s.In j Triggered) fun s => publishRank s.pstage := by
  intro u s t hu hclr hs ht
  have ⟨hj, hprep⟩ := hs
  have hfits : j.Fits t.memBytes := (State.memBytes_takeStep ht).symm ▸ hj
  cases u with
  | p ks =>
    obtain ⟨t', ht', hnext⟩ := hs.producer hclr
    obtain rfl : t' = t := Host.Outcome.next.inj (ht'.symm.trans ht)
    exact hnext.imp_right fun ⟨hI, hlt, _⟩ => ⟨hI, hlt.le, fun _ => hlt⟩
  | w ks =>
    obtain ⟨t', ht', hprep', hsame, -⟩ := State.Preparing.worker (s := { s with keeps := ks }) hj hprep
    obtain rfl : t' = t := Host.Outcome.next.inj (ht'.symm.trans ht)
    exact .inr ⟨⟨hfits, hprep'⟩, (congrArg publishRank hsame.pstage).le, nofun⟩
  | drain c n =>
    obtain rfl : s.drain c n = t := Host.Outcome.next.inj ht
    have hmoves := s.drain_moves c n
    exact .inr ⟨⟨hfits, hmoves.preparing hprep⟩, (congrArg publishRank hmoves.pstage).le, nofun⟩
  | evict c l =>
    obtain rfl : s.evict c l = t := Host.Outcome.next.inj ht
    have hmoves := s.evict_moves c l
    exact .inr ⟨⟨hfits, hmoves.preparing hprep⟩, (congrArg publishRank hmoves.pstage).le, nofun⟩
  | _ => exact hu.elim

/-! ### A schedule that ends the command (R134 (d)) -/

theorem State.Prepared.worker_polls {j : Job} {s : State} {ks : List Bool} (hs : s.Prepared j) :
    ∃ t, takeStep (.w ks) s = .next t ∧ t.Prepared j ∧ t.wstage.Polls := by
  obtain ⟨hj, hprep⟩ := hs
  have hrest := hprep.2.1
  obtain ⟨t, ht, hprep', -, hmoves⟩ := State.Preparing.worker (s := { s with keeps := ks }) hj hprep
  have hfits : j.Fits t.memBytes := (State.memBytes_takeStep (u := .w ks) (s := s) ht).symm ▸ hj
  refine ⟨t, ht, ⟨hfits, hprep'⟩, ?_⟩
  have hstage := hrest.stage
  cases hmoves with
  | fences _ ht' => exact .inr ht'
  | reads _ ht' =>
    have hrest' := hprep'.2.1
    split at ht'
    · exact .inl ht'
    · rw [ht'] at hrest'
      exact absurd trivial hrest'.not_works
  | clears _ ht' => exact .inl ht'
  | works hs => exact absurd hs hrest.not_works
  | rests hs =>
    have hs : s.wstage = _ := hs
    rw [hs] at hstage
    exact hstage.elim nofun fun h => h.elim nofun nofun
  | releases hs =>
    have hs : s.wstage = _ := hs
    rw [hs] at hstage
    exact hstage.elim nofun fun h => h.elim nofun nofun
  | sets hs =>
    have hs : s.wstage = _ := hs
    rw [hs] at hstage
    exact hstage.elim nofun fun h => h.elim nofun nofun

theorem State.Prepared.clear_drains {j : Job} {s : State} (hs : s.Prepared j) (hw : s.wstage.Polls) :
    ∃ t, takeStep (.drain .w 0) s = .next t ∧ t.Prepared j ∧ t.Cleared := by
  obtain ⟨hj, hprep⟩ := hs
  have hmoves := s.drain_moves .w 0
  have hrest := hprep.2.1
  have hfits : j.Fits (s.drain .w 0).memBytes :=
    (State.memBytes_takeStep (u := .drain .w 0) (s := s) rfl).symm ▸ hj
  refine ⟨s.drain .w 0, rfl, ⟨hfits, hmoves.preparing hprep⟩, by rw [hmoves.wstage]; exact hw, ?_⟩
  generalize hfs : s.wview.sb = fs at hrest
  generalize s.wstage = w at hrest
  cases hrest with
  | clears => rw [State.drain_empty (c := .w) 0 hfs]; exact hfs
  | pends => exact (State.drain_oldest_job (c := .w) hfs).1
  | polls => rw [State.drain_empty (c := .w) 0 hfs]; exact hfs

theorem publishRank_lt (q : PStage) : publishRank q < 13 := by
  cases q <;> simp only [publishRank] <;> omega

theorem binRank_le (j : Job) (kEnd : Word) (b : BinPos) (r : Datapath) :
    binRank j kEnd b r ≤ kEnd.toNat * (j.n.toNat + 4) := by
  have hle : (kEnd.toNat - r.kidx.toNat) * (j.n.toNat + 4) ≤ kEnd.toNat * (j.n.toNat + 4) :=
    Nat.mul_le_mul_right _ (by omega)
  cases b <;> simp only [binRank] <;> omega

theorem producerRank_lt (j : Job) (r : Datapath) (q : PStage) :
    producerRank j r q < j.k0.toNat * (j.n.toNat + 4) + 6 := by
  cases q with
  | own b =>
    have := binRank_le j j.k0 b r
    simp only [producerRank]
    omega
  | _ => simp only [producerRank]; omega

theorem workerRank_lt (j : Job) (r : Datapath) (w : WStage) :
    workerRank j r w < (j.k1.toNat + j.kt.toNat) * (j.n.toNat + 4) + 11 := by
  rw [Nat.add_mul]
  cases w with
  | run b =>
    have := binRank_le j j.k1 b r
    simp only [workerRank]
    omega
  | _ => simp only [workerRank]; omega

/-- The worker's clear drains, `P` publishes, its trigger drains, `W` computes, its completion flag drains, `P` ends. -/
def endingSchedule (j : Job) : List Turn :=
  [Turn.w []] ++ [Turn.drain .w 0] ++ List.replicate 13 (Turn.p []) ++ [Turn.drain .p 0] ++
    List.replicate 2 (Turn.w []) ++
    List.replicate ((j.k1.toNat + j.kt.toNat) * (j.n.toNat + 4) + 11) (Turn.w []) ++ [Turn.drain .w 0] ++
    List.replicate (j.k0.toNat * (j.n.toNat + 4) + 6) (Turn.p [])

theorem endingSchedule_internal (j : Job) : ∀ u ∈ endingSchedule j, u.internal := by
  intro u hu
  simp only [endingSchedule, List.mem_append, List.mem_singleton, List.mem_replicate] at hu
  rcases hu with ((((((rfl | rfl) | ⟨-, rfl⟩) | rfl) | ⟨-, rfl⟩) | ⟨-, rfl⟩) | rfl) | ⟨-, rfl⟩ <;> trivial

/-- A turn that is not of `P` is free of `A-CLR`. -/
theorem clearedBefore_w (ks : List Bool) (s : State) : ClearedBefore (.w ks) s := nofun

/-- And so is any turn once signal-present is set. -/
theorem State.Ran.clearedBefore {j : Job} {s : State} (hs : s.Ran j) (u : Turn) : ClearedBefore u s := by
  intro hp
  obtain ⟨-, -, hok, -⟩ := hs
  rw [hp] at hok
  exact hok.elim

theorem State.In.answered {j : Job} {s : State} {A : Phase} (hs : s.In j A) {u : Turn} (hu : u.internal) :
    ∃ t, takeStep u s = .next t :=
  let ⟨t, ht, _⟩ := hs.1.turn hu
  ⟨t, ht⟩

theorem State.In.unscheduled (j : Job) (A : Phase) : Unscheduled fun s => s.In j A := fun _ _ hs => hs

theorem after_publishes (j : Job) :
    After (List.replicate 13 (.p [])) (fun s => s.Prepared j ∧ s.Cleared) fun s => s.In j Triggered := by
  refine (After.repeated (I := fun s => s.Prepared j ∧ s.Cleared) (G := fun s => s.In j Triggered)
    (r := fun s => publishRank s.pstage) (fun _ _ hs => hs) (State.In.unscheduled j _) (fun _ _ => rfl)
    (fun s ⟨hs, hc⟩ => ?_) (fun s hs => ?_) 13).mono (fun s hs => .inr ⟨hs, publishRank_lt _⟩) fun _ hs => hs
  · have hclr : ClearedBefore (.p []) s := fun _ _ => by
      obtain ⟨hw | hw, hsb⟩ := hc <;> rw [hw, hsb] <;> exact ⟨rfl, fun _ => List.not_mem_nil⟩
    obtain ⟨t, ht, hnext⟩ := hs.producer hclr
    exact ⟨t, ht, hnext.imp_right fun ⟨hI, hlt, hc'⟩ => ⟨⟨hI, hc' hc⟩, hlt⟩⟩
  · obtain ⟨t, ht, hran, hm⟩ := hs.1.turn (u := .p []) trivial
    cases hm with
    | producer h hw =>
      exact ⟨t, ht, hran, triggered_early.producer (s := { s with keeps := [] }) h hw.wstage hw.wview hs.1.2 hs.2⟩

/-- A helpful turn of rank 0. -/
theorem Leads.after_single {help : Turn → Prop} {j : Job} {A B : Phase}
    (h : Leads help (fun s => s.In j A) (fun s => s.In j B) fun _ => 0) {u : Turn} (hu : u.internal)
    (hhelp : help u) : After [u] (fun s => s.In j A) fun s => s.In j B := by
  refine After.single (State.In.unscheduled j A) fun s hs => ?_
  obtain ⟨t, ht, hnext⟩ := h.next hu hhelp (hs.1.clearedBefore u) hs (hs.answered hu)
  exact ⟨t, ht, hnext.resolve_right fun h => absurd h.2 (Nat.lt_irrefl 0)⟩

theorem completed_worker {j : Job} {s : State} (hs : s.In j Completed) :
    ∃ t, takeStep (.w []) s = .next t ∧ t.In j Completed := by
  obtain ⟨t, ht, hran, hm⟩ := hs.1.turn (u := .w []) trivial
  cases hm with
  | worker h hp => exact ⟨t, ht, hran, Completed.worker (s := { s with keeps := [] }) h hp.pstage hp.pview hs.2⟩

/-- The turns of `W` between the two drains. -/
theorem after_works (j : Job) :
    After (List.replicate 2 (.w []) ++ List.replicate ((j.k1.toNat + j.kt.toNat) * (j.n.toNat + 4) + 11) (.w []))
      (fun s => s.In j Offered) fun s => s.In j Completed := by
  have hworks : ∀ s, s.In j Working → ∃ t, takeStep (.w []) s = .next t ∧
      (t.In j Completed ∨ (t.In j Working ∧ workerRank j t.wregs t.wstage < workerRank j s.wregs s.wstage)) :=
    fun s hs => (working_leads j).next (u := .w []) trivial ⟨[], rfl⟩ (clearedBefore_w [] s) hs (hs.answered trivial)
  refine After.append (B := fun s => s.In j Completed ∨ s.In j Working) ?_ ?_
  · refine (After.repeated (I := fun s => s.In j Offered) (G := fun s => s.In j Completed ∨ s.In j Working)
      (r := fun s => if s.wstage = .pollFence then 1 else 0) (State.In.unscheduled j _) (fun _ _ hs => hs)
      (fun _ _ => rfl) (fun s hs => ?_) (fun s hs => ?_) 2).mono
        (fun s hs => .inr ⟨hs, by split <;> decide⟩) fun _ hs => hs
    · obtain ⟨t, ht, hnext⟩ := (offered_leads j).next (u := .w []) trivial ⟨[], rfl⟩ (clearedBefore_w [] s) hs
        (hs.answered trivial)
      exact ⟨t, ht, hnext.imp_left .inr⟩
    · rcases hs with hs | hs
      · obtain ⟨t, ht, ht'⟩ := completed_worker hs
        exact ⟨t, ht, .inl ht'⟩
      · obtain ⟨t, ht, hnext⟩ := hworks s hs
        exact ⟨t, ht, hnext.imp_right And.left⟩
  · exact (After.repeated (I := fun s => s.In j Working) (G := fun s => s.In j Completed)
      (r := fun s => workerRank j s.wregs s.wstage) (State.In.unscheduled j _) (State.In.unscheduled j _)
      (fun _ _ => rfl) hworks (fun _ hs => completed_worker hs) _).mono
        (fun s hs => hs.imp_right fun hs => ⟨hs, workerRank_lt j _ _⟩) fun _ hs => hs

theorem after_ends (j : Job) :
    After (List.replicate (j.k0.toNat * (j.n.toNat + 4) + 6) (.p [])) (fun s => s.In j Delivered)
      fun s => s.done = true ∧ s.pstage = .idle := by
  refine (After.repeated (I := fun s => s.In j Delivered) (G := fun s => s.done = true ∧ s.pstage = .idle)
    (r := fun s => producerRank j s.pregs s.pstage) (State.In.unscheduled j _) (fun _ _ hs => hs) (fun _ _ => rfl)
    (fun s hs => ?_) (fun s ⟨hdone, hp⟩ => ?_) _).mono (fun s hs => .inr ⟨hs, producerRank_lt j _ _⟩) fun _ hs => hs
  · exact (delivered_leads j).next (u := .p []) trivial ⟨[], rfl⟩ (hs.1.clearedBefore _) hs (hs.answered trivial)
  · exact ⟨{ s with keeps := [] }, by simp only [takeStep, producerStep, hp], hdone, hp⟩

theorem after_endingSchedule (j : Job) :
    After (endingSchedule j) (fun s => s.Prepared j) fun s => s.done = true ∧ s.pstage = .idle := by
  have hpolls : After [.w []] (fun s => s.Prepared j) fun s => s.Prepared j ∧ s.wstage.Polls :=
    .single (fun _ _ hs => hs) fun s hs => hs.worker_polls
  have hcleared : After [.drain .w 0] (fun s => s.Prepared j ∧ s.wstage.Polls) fun s => s.Prepared j ∧ s.Cleared :=
    .single (fun _ _ hs => hs) fun s hs => hs.1.clear_drains hs.2
  have hoffers := (triggered_leads j).after_single (u := .drain .p 0) trivial rfl
  have hdelivers := (completed_leads j).after_single (u := .drain .w 0) trivial rfl
  have hbegin := ((hpolls.append hcleared).append (after_publishes j)).append hoffers
  have hend := ((hbegin.append (after_works j)).append hdelivers).append (after_ends j)
  rw [endingSchedule]
  simpa only [List.append_assoc] using hend

/-! ### Every fair execution -/

section
variable {x : Nat → State} {σ : Nat → Turn} {j : Job} (hx : IsExecution x σ) (hint : ∀ n, (σ n).internal)
  (hfair : IsFair x σ) (hclr : ClearBeforeTrigger x σ)
include hx hint hfair hclr

/-- A phase that a core leads on. -/
theorem leads_by_core {I G : State → Prop} {r : State → Nat} (c : CoreId) (h : Leads (·.isOf c) I G r)
    (hfree : Unscheduled I) (hrank : ∀ s us, r { s with turns := us } = r s) (hen : ∀ s, I s → s.enabled c) {n : Nat}
    (hn : I (x n)) : ∃ m, G (x m) := by
  have hhelp : ∀ k, I (x k) → ∃ m, k ≤ m ∧ ((σ m).isOf c ∨ ¬ I (x m)) := fun k hk =>
    let ⟨m, hkm, hm⟩ := hfair.1 c k (hen _ hk)
    ⟨m, hkm, .inl hm⟩
  obtain ⟨m, -, hG⟩ := h.eventually hfree hrank hx hint hclr hhelp hn
  exact ⟨m, hG⟩

/-- A phase that the drain of a core's oldest entry leads on. -/
theorem leads_by_drain {I G : State → Prop} (c : CoreId) (h : Leads (· = .drain c 0) I G fun _ => 0)
    (hfree : Unscheduled I) (hpending : ∀ s, I s → (s.view c).sb ≠ []) {n : Nat} (hn : I (x n)) : ∃ m, G (x m) := by
  have hhelp : ∀ k, I (x k) → ∃ m, k ≤ m ∧ (σ m = .drain c 0 ∨ ¬ I (x m)) := fun k _ =>
    let ⟨m, hkm, hm⟩ := hfair.2 c k
    ⟨m, hkm, hm.imp_right fun hsb hI => hpending _ hI hsb⟩
  obtain ⟨m, -, hG⟩ := h.eventually hfree (fun _ _ => rfl) hx hint hclr hhelp hn
  exact ⟨m, hG⟩

theorem fair_ends {n : Nat} (hn : (x n).Prepared j) : ∃ m, (x m).done = true := by
  have hpstage : ∀ s : State, s.Prepared j → s.enabled .p := fun s hs hidle => by
    have hstage := hs.2.2.2.stage
    rw [hidle] at hstage
    exact hstage
  have hpolls : ∀ s : State, s.In j Offered → s.enabled .w := fun s hs hoff => by
    obtain ⟨-, -, -, -, hw | hw, -⟩ := hs <;> cases hoff.symm.trans hw
  have hworks : ∀ s : State, s.In j Working → s.enabled .w := fun s hs hoff => by
    obtain ⟨-, -, -, -, ⟨hw, -⟩ | ⟨hw, -⟩⟩ := hs
    · rw [hoff] at hw; exact hw
    · cases hoff.symm.trans hw
  obtain ⟨n, hn⟩ := leads_by_core hx hint hfair hclr .p (prepared_leads j) (fun _ _ hs => hs) (fun _ _ => rfl) hpstage hn
  obtain ⟨n, hn⟩ := leads_by_drain hx hint hfair hclr .p (triggered_leads j) (State.In.unscheduled j _)
    (fun s ⟨_, _, _, ⟨_, _, hes⟩, _⟩ hsb => nomatch hes.symm.trans hsb) hn
  obtain ⟨n, hn⟩ := leads_by_core hx hint hfair hclr .w (offered_leads j) (State.In.unscheduled j _) (fun _ _ => rfl)
    hpolls hn
  obtain ⟨n, hn⟩ := leads_by_core hx hint hfair hclr .w (working_leads j) (State.In.unscheduled j _) (fun _ _ => rfl)
    hworks hn
  obtain ⟨n, hn⟩ := leads_by_drain hx hint hfair hclr .w (completed_leads j) (State.In.unscheduled j _)
    (fun s ⟨_, _, _, _, _, hfs, _⟩ hsb => nomatch hfs.symm.trans hsb) hn
  obtain ⟨n, hdone, -⟩ := leads_by_core hx hint hfair hclr .p (delivered_leads j) (State.In.unscheduled j _)
    (fun _ _ => rfl) (fun s hs => hs.2.1) hn
  exact ⟨n, hdone⟩

end

/-- Settles O34: the phases of the handoff. -/
theorem parallelCanEnd : Obligations.ParallelCanEnd := by
  intro i s p hi hbegin hs hw hp
  obtain ⟨j, hsafe, hprep⟩ := publishing_begins hi hbegin hs hw hp
  have hprepared : p.Prepared j := ⟨hsafe.1, hprep⟩
  refine ⟨hsafe.runTurns, ?_, fun x σ h0 hx hint hfair hclr => ?_⟩
  · obtain ⟨t, ⟨hdone, -⟩, hrun⟩ := after_endingSchedule j p hprepared []
    rw [List.append_nil, State.runTurns_nil] at hrun
    exact ⟨_, _, endingSchedule_internal j, hrun, hdone⟩
  · exact fair_ends hx hint hfair hclr (n := 0) (h0 ▸ hprepared)

end Sys2Proof.Machine
end

section
/-! PROOFS. The command words (30_encoding.md rules R75 to R78, R82): a row of the opcode table matches legal words only,
the three checks on the fields let legal words pass only, and of the eighteen legal words each is well formed and is the
word of the command it decodes to. -/

namespace Sys2Proof

/-! ### Words that a row matches -/

/-- A word in which a mask leaves out one bit is what is left under the mask, without or with that bit. -/
theorem word_of_masked {w v : Word} (k : Nat) (h : w &&& ~~~(BitVec.twoPow 32 k) = v) :
    w = v ∨ w = v ||| BitVec.twoPow 32 k := by
  have hsplit : w = v ||| (w &&& BitVec.twoPow 32 k) := by
    rw [← h, ← BitVec.and_or_distrib_left, BitVec.or_comm, BitVec.or_not_self, BitVec.and_allOnes]
  rw [BitVec.and_twoPow] at hsplit
  split at hsplit
  · exact .inr hsplit
  · exact .inl (hsplit.trans BitVec.or_zero)

/-- A row compares the whole word, or all of it but a flag that R77 allows there. -/
theorem opRows_masks : ∀ r ∈ opRows, r.value ∈ legalWords ∧
    (r.mask = BitVec.allOnes 32 ∨
      ∃ k ∈ [8, 9], r.mask = ~~~(BitVec.twoPow 32 k) ∧ r.value ||| BitVec.twoPow 32 k ∈ legalWords) := by
  decide

/-- Every word that some row of the table matches is one of the eighteen (R77, R82). -/
theorem mem_legalWords_of_match {r : OpRow} (hr : r ∈ opRows) {w : Word} (h : w &&& r.mask = r.value) :
    w ∈ legalWords := by
  obtain ⟨hvalue, hmask | ⟨k, -, hmask, hflag⟩⟩ := opRows_masks r hr <;> rw [hmask] at h
  · rw [BitVec.and_allOnes] at h
    exact h ▸ hvalue
  · obtain rfl | rfl := word_of_masked k h
    · exact hvalue
    · exact hflag

theorem mem_legalWords_of_decode {w : Word} {i : Instr} (h : decode w = .ok i) : w ∈ legalWords := by
  simp only [decode] at h
  split at h
  · next r hr =>
    have hmatch := List.find?_some hr
    exact mem_legalWords_of_match (List.mem_of_find?_eq_some hr) (beq_iff_eq.1 hmatch)
  · cases h

/-! ### Words by their fields -/

/-- The fields of a word determine it (R75). -/
theorem wordOfCW_cwOfWord (w : Word) : wordOfCW (cwOfWord w) = w := by
  apply BitVec.eq_of_getLsbD_eq
  intro i hi
  simp only [wordOfCW, cwOfWord, BitVec.getLsbD_append, BitVec.getLsbD_extractLsb', BitVec.getLsbD_ofBool]
  by_cases hopc : i < 8
  · simp [hopc]
  · obtain rfl | rfl | ⟨k, rfl⟩ : i = 8 ∨ i = 9 ∨ ∃ k, i = k + 10 := by
      rcases hplace : i - 8 with _ | _ | k
      exacts [.inl (by omega), .inr (.inl (by omega)), .inr (.inr ⟨k, by omega⟩)]
    · simp
    · simp
    · simp [show k < 22 by omega, show ¬ k + 10 < 8 by omega, Nat.add_comm 10 k]

/-- An opcode of R76 with the flags R77 allows it makes one of the eighteen words. -/
theorem wordOfCW_legal : ∀ opc ∈ opcodes, ∀ g par : Bool, (CW.mk opc g par 0).flagsAllowed = true →
    wordOfCW ⟨opc, g, par, 0⟩ ∈ legalWords := by
  decide

theorem mem_legalWords_of_wellFormed {w : Word} (h : (cwOfWord w).WellFormed) : w ∈ legalWords := by
  obtain ⟨hrsv, hopc, hflags⟩ := h
  rw [← wordOfCW_cwOfWord w]
  generalize cwOfWord w = c at hrsv hopc hflags
  obtain ⟨opc, g, par, rsv⟩ := c
  obtain rfl : rsv = 0 := beq_iff_eq.1 hrsv
  exact wordOfCW_legal opc (List.contains_iff_mem.1 hopc) g par hflags

/-! ### The eighteen words -/

/-- Each of the eighteen words is the word of a command (R76, R77). -/
theorem exists_encode_of_legal {w : Word} (h : w ∈ legalWords) : ∃ i, encode i = w := by
  simp only [legalWords, List.mem_cons, List.not_mem_nil, or_false] at h
  rcases h with rfl | rfl | rfl | rfl | rfl | rfl | rfl | rfl | rfl | rfl | rfl | rfl | rfl | rfl | rfl | rfl | rfl | rfl
  exacts [⟨.init, rfl⟩, ⟨.sin, rfl⟩, ⟨.cos, rfl⟩, ⟨.magat, rfl⟩, ⟨.xform .full, rfl⟩, ⟨.xform .half, rfl⟩,
    ⟨.xformp .full, rfl⟩, ⟨.xformp .half, rfl⟩, ⟨.mag, rfl⟩, ⟨.sqmag, rfl⟩, ⟨.wlaunch, rfl⟩, ⟨.lddict, rfl⟩, ⟨.dist, rfl⟩,
    ⟨.classify, rfl⟩, ⟨.rank, rfl⟩, ⟨.repl, rfl⟩, ⟨.pipe .serial, rfl⟩, ⟨.pipe .parallel, rfl⟩]

theorem encode_legal (i : Instr) : Laws.EncodeLegal.Statement i := by
  cases i with
  | init => exact Laws.EncodeLegal.init
  | sin => exact Laws.EncodeLegal.sin
  | cos => exact Laws.EncodeLegal.cos
  | magat => exact Laws.EncodeLegal.magat
  | xform g => exact Laws.EncodeLegal.xform g
  | xformp g => exact Laws.EncodeLegal.xformp g
  | mag => exact Laws.EncodeLegal.mag
  | sqmag => exact Laws.EncodeLegal.sqmag
  | wlaunch => exact Laws.EncodeLegal.wlaunch
  | lddict => exact Laws.EncodeLegal.lddict
  | dist => exact Laws.EncodeLegal.dist
  | classify => exact Laws.EncodeLegal.classify
  | rank => exact Laws.EncodeLegal.rank
  | repl => exact Laws.EncodeLegal.repl
  | pipe m => exact Laws.EncodeLegal.pipe m

theorem decode_encode (i : Instr) : decode (encode i) = .ok i := by
  cases i with
  | xform g => cases g <;> rfl
  | xformp g => cases g <;> rfl
  | pipe m => cases m <;> rfl
  | _ => rfl

theorem encode_wellFormed (i : Instr) : (cwOfWord (encode i)).WellFormed := by
  obtain ⟨-, hfields, hplaced⟩ := encode_legal i
  exact hplaced ▸ hfields

/-- The only word that decodes to a command is its own (R82). -/
theorem encode_of_decode {w : Word} {i : Instr} (h : decode w = .ok i) : encode i = w := by
  obtain ⟨k, rfl⟩ := exists_encode_of_legal (mem_legalWords_of_decode h)
  rw [decode_encode] at h
  cases h
  rfl

/-- Settles O1: a word that decodes is legal, so it is the word of a command, and of the one it decodes to. -/
theorem decodeEncodeAgree : Obligations.DecodeEncodeAgree :=
  fun i => ⟨encode_wellFormed i, decode_encode i, fun _ h => (encode_of_decode h).symm⟩

/-- Settles O2: a row matches legal words only, the checks let legal words pass only, and a legal word is that of a
command. -/
theorem legalWordsAreExactly : Obligations.LegalWordsAreExactly := by
  intro w
  refine ⟨⟨fun ⟨i, h⟩ => mem_legalWords_of_decode h, fun h => ?_⟩, mem_legalWords_of_wellFormed, fun h => ?_⟩
  · obtain ⟨i, rfl⟩ := exists_encode_of_legal h
    exact ⟨i, decode_encode i⟩
  · obtain ⟨i, rfl⟩ := exists_encode_of_legal h
    exact encode_wellFormed i

/-- Settles O3: each word is evaluated, by the table or by the reasons of R78. -/
theorem writtenWordsDecode : Obligations.WrittenWordsDecode := by
  refine ⟨rfl, rfl, rfl, rfl, rfl, rfl, rfl, rfl, rfl, rfl⟩

end Sys2Proof
end

section
/-! PROOFS. How a command is issued and begun (30_encoding.md rules R81, R85). -/

namespace Sys2Proof.Machine

/-- Settles O4. -/
theorem stepRunsDecoded : Obligations.StepRunsDecoded := by
  intro s ks ts i hturn hbegin hdecode
  rw [step_of_turns hturn]
  show producerStep { s with turns := ts, keeps := ks } = _
  simp only [producerStep, hbegin, hdecode]

/-- A host write of `CMD`, by `BUSY` (R81). -/
theorem State.writeReg_cmd (s : State) (v : Word) :
    s.writeReg 0x20 v = some (if s.busy then { s with ovr := true } else s.accept v) := rfl

/-- A host write of an operand register while a command runs (R81). -/
theorem State.writeReg_operand_busy {s : State} {off : Word} (v : Word) (hb : s.busy = true)
    (h : off.toNat ≤ 0x14 ∧ off.toNat % 4 = 0) : s.writeReg off v = some { s with ovr := true } := by
  unfold State.writeReg
  rw [if_neg (by omega), if_neg (by omega), if_pos h, hb]
  rfl

/-- Settles O6. -/
theorem commandIssue : Obligations.CommandIssue := by
  intro s off v ts hturn
  rw [step_regWrite hturn, State.hostWriteReg]
  constructor
  · rintro rfl hb
    rw [State.writeReg_cmd]
    simp only [hb]
    rfl
  · rintro (rfl | hoff) hb
    · rw [State.writeReg_cmd]
      simp only [hb]
      rfl
    · have hoperand : off.toNat ≤ 0x14 ∧ off.toNat % 4 = 0 := by
        simp only [List.mem_cons, List.not_mem_nil, or_false] at hoff
        rcases hoff with rfl | rfl | rfl | rfl | rfl | rfl <;> decide
      rw [State.writeReg_operand_busy v (by exact hb) hoperand]

end Sys2Proof.Machine
end

section
/-! PROOFS. What follows the producer's wait (30_encoding.md rule R86, 43_coresync.md rule R122). -/

namespace Sys2Proof.Machine

/-- A run of one turn. -/
theorem State.runTurns_single {s t : State} {τ : Turn} (h : takeStep τ { s with turns := [] } = .next t) :
    s.runTurns [τ] = .next t := by
  rw [State.runTurns_cons h, State.runTurns_nil, ← show t.turns = [] from takeStep_turns h]

theorem producerStep_fin {s : State} (hp : s.pstage = .fin) : producerStep s = .next (finStep s) := by
  simp only [producerStep, hp]

theorem finStep_xformp {s : State} (hc : s.pcmd = .xformp) :
    finStep s = { s.fenceAcq .p with pstage := .finEnd } := by
  unfold finStep
  rw [hc]

theorem finStep_pipe {s : State} (hc : s.pcmd = .pipe) : finStep s = { s.fenceAcq .p with pstage := .tail } := by
  unfold finStep
  rw [hc]

/-- `XFORMP` from `P_FIN` on: the further fence, then the command end (R107, R122). -/
theorem runTurns_fin_xformp {s : State} (k1 k2 : List Bool) (hp : s.pstage = .fin) (hc : s.pcmd = .xformp) :
    s.runTurns [.p k1, .p k2] = .next { s.beginCommand with
      turns := [], keeps := k2, pstage := .finEnd, resi := s.cnt }.finish := by
  have hfence : takeStep (.p k1) { s with turns := [.p k2] } =
      .next { State.fenceAcq { s with turns := [.p k2], keeps := k1 } .p with pstage := .finEnd } :=
    (producerStep_fin (s := { s with turns := [.p k2], keeps := k1 }) hp).trans (congrArg _ (finStep_xformp hc))
  exact (State.runTurns_cons hfence).trans (State.runTurns_single rfl)

/-- `PIPE` from `P_FIN` on: the further fence (R122). -/
theorem runTurns_fin_pipe {s : State} (k1 : List Bool) (hp : s.pstage = .fin) (hc : s.pcmd = .pipe) :
    s.runTurns [.p k1] = .next { s.beginCommand with turns := [], keeps := k1, pstage := .tail } :=
  State.runTurns_single
    ((producerStep_fin (s := { s with turns := [], keeps := k1 }) hp).trans (congrArg _ (finStep_pipe hc)))

/-- Settles O31: `XFORMP` ends from a state in which the copies of `P` are gone, so memory takes what `P` reads. -/
theorem parallelCommandsFinish : Obligations.ParallelCommandsFinish := by
  intro s k1 k2 hp hfree hw hd
  refine ⟨fun hc => ?_, fun hc => ?_⟩
  · generalize hu : ({ s.beginCommand with turns := [], keeps := k2, pstage := .finEnd, resi := s.cnt } : State) = u
    have hrun := runTurns_fin_xformp k1 k2 hp hc
    rw [hu] at hrun
    have hsb : u.pview.sb = s.pview.sb := by rw [← hu]; rfl
    have hmem : u.mem = s.mem := by rw [← hu]; rfl
    have hud : u.disturbed = [] := by rw [← hu]; exact hd
    have hjob : JobFree u.pview.sb := by
      rw [hsb]
      exact fun e he i v hj => hfree i v (hj ▸ he)
    have hwf : u.mem.wf = true := hmem ▸ hw
    refine ⟨u.finish, hrun, ?_, u.fenceRel_sb .p, ?_, fun a => ?_⟩
    · have hend := u.finish_eq hud hjob
      generalize u.finish = t at hend ⊢
      rw [hend, ← hu]
      rfl
    · rw [u.finish_calm hud]
      exact u.fenceRel_wf .p hwf
    · rw [u.finish_calm hud, ← hmem, ← hsb]
      exact u.fenceRel_read .p a hwf
  · refine ⟨_, runTurns_fin_pipe k1 hp hc, rfl, fun a => ?_⟩
    exact s.fenceAcq_coreByte .p a

end Sys2Proof.Machine
end

section
/-! PROOFS. The steps of a core through one bin, one shared access each, come to the bin computed whole (30_encoding.md
rule R88, 43_coresync.md rules R120, R125, R132). -/

namespace Sys2Proof.Machine

/-! ### Steps one after another -/

theorem State.binSteps_succ {c : CoreId} {j : Job} {kEnd : Word} {b b' : BinPos} {s t : State} (m : Nat)
    (h : s.binStep c j kEnd b = .at b' t) :
    State.binSteps c j kEnd (m + 1) b s = State.binSteps c j kEnd m b' t := by
  simp only [State.binSteps, h]

theorem State.binSteps_add {c : CoreId} {j : Job} {kEnd : Word} {b b' : BinPos} {s t : State} {n : Nat} (m : Nat)
    (h : State.binSteps c j kEnd n b s = .at b' t) :
    State.binSteps c j kEnd (n + m) b s = State.binSteps c j kEnd m b' t := by
  induction n generalizing b s with
  | zero => cases h; rw [Nat.zero_add]
  | succ n ih =>
    rw [State.binSteps] at h
    split at h
    · next hstep => rw [Nat.succ_add, State.binSteps_succ _ hstep, ih h]
    all_goals cases h

/-! ### The samples -/

theorem State.sample_counts {s t : State} {c : CoreId} {sig : Nat} (h : s.sample c sig = .ok t) :
    (t.regs c).nidx = (s.regs c).nidx + 1 ∧ (t.regs c).kidx = (s.regs c).kidx := by
  simp only [State.sample, State.readByte] at h
  split at h
  · next r hr =>
    cases h
    rw [State.draw_regs, State.setRegs_regs]
    exact ⟨accumulate_nidx hr, accumulate_kidx_kept hr⟩
  · cases h

theorem State.samples_kidx {s t : State} {c : CoreId} {sig m : Nat} (h : s.samples c sig m = .ok t) :
    (t.regs c).kidx = (s.regs c).kidx := by
  induction m generalizing s with
  | zero => cases h; rfl
  | succ m ih =>
    rw [State.samples] at h
    split at h
    · next hu => exact (ih h).trans (State.sample_counts hu).2
    · cases h

/-- Where a core stands in a bin before its sample `NIDX_c`, or behind the last. -/
def samplePos (j : Job) (r : Datapath) : BinPos := if r.nidx.toNat < j.n.toNat then .sample else .re

theorem State.binStep_sample {s t : State} {c : CoreId} {j : Job} {kEnd : Word}
    (hmem : j.sig.toNat + (s.regs c).nidx.toNat < s.memBytes) (h : s.sample c j.sig.toNat = .ok t) :
    s.binStep c j kEnd .sample = .at (samplePos j (t.regs c)) t := by
  simp only [State.binStep, if_pos hmem, h]
  rfl

/-- The samples that are left, a step each. -/
theorem State.binSteps_samples {s t : State} {c : CoreId} {j : Job} (kEnd : Word) {m : Nat} (l : Nat)
    (hleft : (s.regs c).nidx.toNat + m = j.n.toNat) (hmem : j.n = 0 ∨ j.sig.toNat + j.n.toNat ≤ s.memBytes)
    (h : s.samples c j.sig.toNat m = .ok t) :
    State.binSteps c j kEnd (m + l) (samplePos j (s.regs c)) s = State.binSteps c j kEnd l .re t := by
  induction m generalizing s with
  | zero =>
    cases h
    rw [samplePos, if_neg (by omega), Nat.zero_add]
  | succ m ih =>
    rw [State.samples] at h
    split at h
    · next u hu =>
      obtain ⟨hnidx, -⟩ := State.sample_counts hu
      have hn := j.n.isLt
      have hin := hmem.resolve_left fun h0 => by rw [h0] at hleft; exact absurd hleft (Nat.succ_ne_zero _)
      have hnext : (u.regs c).nidx.toNat = (s.regs c).nidx.toNat + 1 := by
        rw [hnidx]; exact BitVec.toNat_add_of_lt (by show _ + 1 < _; omega)
      have hbytes : u.memBytes = s.memBytes := State.memBytes_of_top (State.sample_work hu).only.memTop
      rw [samplePos, if_pos (by omega), Nat.succ_add, State.binSteps_succ _ (State.binStep_sample (by omega) hu)]
      exact ih (by omega) (by rw [hbytes]; exact hmem) h
    · cases h

/-! ### The set-up and the pair -/

/-- The registers set up for a bin, as `BIN` sets them up (R101). -/
def State.binBegun (s : State) (c : CoreId) (j : Job) : State :=
  (s.setRegs c (binStart (omegaOf s.draws j.g (s.regs c).kidx j.kt) (s.regs c))).draw OMEGA_DRAWS

theorem State.binBegun_regs (s : State) (c : CoreId) (j : Job) :
    (s.binBegun c j).regs c = binStart (omegaOf s.draws j.g (s.regs c).kidx j.kt) (s.regs c) := by
  rw [State.binBegun, State.draw_regs, State.setRegs_regs]

theorem State.binBegun_counts (s : State) (c : CoreId) (j : Job) :
    ((s.binBegun c j).regs c).nidx = 0 ∧ ((s.binBegun c j).regs c).kidx = (s.regs c).kidx := by
  rw [s.binBegun_regs c j]
  exact ⟨rfl, rfl⟩

theorem State.binStep_next (s : State) (c : CoreId) (j : Job) {kEnd : Word}
    (h : (s.regs c).kidx.toNat < kEnd.toNat) :
    s.binStep c j kEnd .next = .at (samplePos j ((s.binBegun c j).regs c)) (s.binBegun c j) := by
  have hpos : samplePos j ((s.binBegun c j).regs c) = if j.n = 0 then .re else .sample := by
    rw [samplePos, (s.binBegun_counts c j).1]
    by_cases h0 : j.n = 0
    · rw [if_pos h0, h0]; rfl
    · have hsome : (0 : Word).toNat < j.n.toNat := Nat.pos_of_ne_zero fun hz => h0 (BitVec.eq_of_toNat_eq hz)
      rw [if_neg h0, if_pos hsome]
  rw [hpos]
  exact if_pos h

/-- A bin's pair written, and the core turned to the next bin. -/
def State.pairWritten (s : State) (c : CoreId) (j : Job) : State :=
  ((s.writeWord c (binAddr j.out (s.regs c).kidx.toNat) (s.regs c).re).writeWord c
    (binAddr j.out (s.regs c).kidx.toNat + 4) (s.regs c).im).setRegs c
      { s.regs c with kidx := (s.regs c).kidx + 1 }

theorem State.pairWritten_kidx (s : State) (c : CoreId) (j : Job) :
    ((s.pairWritten c j).regs c).kidx = (s.regs c).kidx + 1 := by
  rw [State.pairWritten, State.setRegs_regs]

theorem State.binSteps_pair {s : State} {c : CoreId} {j : Job} (kEnd : Word) (hj : j.overlaps = false)
    (hout : binAddr j.out (s.regs c).kidx.toNat + 8 ≤ s.memBytes) :
    State.binSteps c j kEnd 2 .re s = .at .next ((s.pairWritten c j).draw 2) := by
  have hword : ∀ (u : State) (v : Word), u.outWord j v = v := fun u v => by rw [State.outWord, hj]; rfl
  generalize hu : (s.writeWord c (binAddr j.out (s.regs c).kidx.toNat) (s.regs c).re).draw 1 = u
  have hregs : u.regs c = s.regs c := by rw [← hu, State.draw_regs, State.writeWord_regs]
  have hbytes : u.memBytes = s.memBytes := by rw [← hu]; cases c <;> rfl
  have hre : s.binStep c j kEnd .re = .at .im u := by
    rw [← hu]
    simp only [State.binStep, hword]
    exact if_pos (by omega)
  have him : u.binStep c j kEnd .im = .at .next ((s.pairWritten c j).draw 2) := by
    simp only [State.binStep, hword, hregs, hbytes]
    rw [if_pos (by omega), ← hu]
    cases c <;> rfl
  rw [State.binSteps_succ 1 hre, State.binSteps_succ 0 him]
  rfl

/-! ### A whole bin -/

/-- The bin computed whole: set up, its samples, its pair (R106). -/
theorem State.transformBin_eq (s : State) (c : CoreId) (j : Job) :
    s.transformBin c j = ((s.binBegun c j).samples c j.sig.toNat j.n.toNat).map (·.pairWritten c j) := by
  have hbegun : (s.draw OMEGA_DRAWS).setRegs c (binStart (omegaOf s.draws j.g (s.regs c).kidx j.kt)
      ((s.draw OMEGA_DRAWS).regs c)) = s.binBegun c j := by cases c <;> rfl
  rw [State.transformBin, State.bin, hbegun]
  cases hu : (s.binBegun c j).samples c j.sig.toNat j.n.toNat with
  | error e => rfl
  | ok u =>
    have hkidx : (u.regs c).kidx = (s.regs c).kidx := (State.samples_kidx hu).trans (s.binBegun_counts c j).2
    simp only [Except.map, State.pairWritten, hkidx]

theorem State.transformBin_ok {s t : State} {c : CoreId} {j : Job} (h : s.transformBin c j = .ok t) :
    ∃ u, (s.binBegun c j).samples c j.sig.toNat j.n.toNat = .ok u ∧ t = u.pairWritten c j := by
  rw [State.transformBin_eq] at h
  cases hu : (s.binBegun c j).samples c j.sig.toNat j.n.toNat with
  | error e => rw [hu] at h; cases h
  | ok u => rw [hu] at h; cases h; exact ⟨u, rfl, rfl⟩

theorem State.transformBin_kidx {s t : State} {c : CoreId} {j : Job} (h : s.transformBin c j = .ok t) :
    (t.regs c).kidx = (s.regs c).kidx + 1 := by
  obtain ⟨u, hu, rfl⟩ := State.transformBin_ok h
  rw [State.pairWritten_kidx, State.samples_kidx hu, (s.binBegun_counts c j).2]

/-- One bin, step by step. -/
theorem State.binSteps_bin {s t : State} {c : CoreId} {j : Job} {kEnd : Word}
    (hk : (s.regs c).kidx.toNat < kEnd.toNat) (hj : j.overlaps = false)
    (hsig : j.n = 0 ∨ j.sig.toNat + j.n.toNat ≤ s.memBytes)
    (hout : binAddr j.out (s.regs c).kidx.toNat + 8 ≤ s.memBytes) (h : s.transformBin c j = .ok t) :
    State.binSteps c j kEnd (j.n.toNat + 3) .next s = .at .next (t.draw 2) := by
  obtain ⟨u, hu, rfl⟩ := State.transformBin_ok h
  obtain ⟨hnidx, hkidx⟩ := s.binBegun_counts c j
  have hbegun : (s.binBegun c j).memBytes = s.memBytes := by cases c <;> rfl
  have hukidx : (u.regs c).kidx = (s.regs c).kidx := (State.samples_kidx hu).trans hkidx
  have hbytes : u.memBytes = s.memBytes :=
    (State.memBytes_of_top (State.samples_work hu).only.memTop).trans hbegun
  rw [State.binSteps_succ _ (s.binStep_next c j hk),
    State.binSteps_samples kEnd 2 (by rw [hnidx]; exact Nat.zero_add _) (by rw [hbegun]; exact hsig) hu]
  exact State.binSteps_pair kEnd hj (by rw [hukidx, hbytes]; exact hout)

/-- Settles O30: set-up, samples and pair in turn; after the last bin none is left. -/
theorem binStepsMakeOneBin : Obligations.BinStepsMakeOneBin := by
  intro c s j kEnd hk hj hsig hout
  refine ⟨fun t ht => State.binSteps_bin hk hj hsig hout ht, fun hlast t ht => ?_⟩
  rw [State.binSteps_add 1 (State.binSteps_bin hk hj hsig hout ht)]
  have hnone : ¬ ((t.draw 2).regs c).kidx.toNat < kEnd.toNat := by
    have hlt := kEnd.isLt
    rw [State.draw_regs, State.transformBin_kidx ht, BitVec.toNat_add_of_lt (by show _ + 1 < _; omega)]
    show ¬ _ + 1 < _
    omega
  have hdone : (t.draw 2).binStep c j kEnd .next = .done (t.draw 2) := if_neg hnone
  simp only [State.binSteps, hdone]

end Sys2Proof.Machine
end

section
/-! PROOFS. A command run twice, once with and once without the bytes the host wrote against R179 while it ran: the two
runs side by side, access by access (70_reset_and_hazards.md rule R179; 93_implementation_defined.md U2). -/

namespace Sys2Proof.Machine

/-! ### What the host cannot have harmed -/

/-- `t` is `u` but for result registers, `ERRINFO`, working registers of `P`, the dictionary's contents, the view of `P`,
memory, and the model's own counters and record. -/
def Alike (t u : State) : Prop :=
  t = { u with
    resi := t.resi, resf := t.resf, errinfo := t.errinfo, dict := t.dict, pregs := t.pregs, best := t.best,
    bestd := t.bestd, rd := t.rd, pview := t.pview, mem := t.mem, keeps := t.keeps, draws := t.draws,
    disturbed := t.disturbed }

theorem Alike.refl (t : State) : Alike t t := rfl

theorem Alike.trans {t u v : State} (h : Alike t u) (k : Alike u v) : Alike t v := by
  unfold Alike at h k ⊢
  rw [h, k]

theorem Alike.symm {t u : State} (h : Alike t u) : Alike u t := by
  unfold Alike at h ⊢
  rw [h]

theorem OnlyCore.alike {s t : State} (h : OnlyCore .p s t) : Alike t s := by
  simp only [OnlyCore] at h
  unfold Alike
  rw [h]

theorem Alike.job {t u : State} (h : Alike t u) : t.job = u.job := by
  unfold Alike at h
  rw [h]

theorem Alike.dst {t u : State} (h : Alike t u) : t.dst = u.dst := by
  unfold Alike at h
  rw [h]

/-- The state with the record of bytes the host wrote emptied. -/
def State.calm (s : State) : State := { s with disturbed := [] }

/-! ### What a run writes -/

/-- A pending write is of `MEM`, and of bytes in `W` only. -/
def Pending.StaysIn (W : Nat → Prop) (e : Pending) : Prop := (∀ i v, e ≠ .job i v) ∧ ∀ a, e.Covers a → W a

theorem Pending.byte_staysIn {W : Nat → Prop} {a : Nat} (v : Byte) (h : W a) : (Pending.byte a v).StaysIn W :=
  ⟨by simp, fun _ hb => (show _ = a from hb) ▸ h⟩

theorem Pending.word_staysIn {W : Nat → Prop} {a : Nat} (v : Word) (h : ∀ b, a ≤ b → b < a + 4 → W b) :
    (Pending.word a v).StaysIn W :=
  ⟨by simp, fun b hb => h b hb.1 hb.2⟩

/-- What `P` has pending in `t` is what it has in `s`, and then writes of bytes in `W`. -/
def StoresIn (W : Nat → Prop) (s t : State) : Prop :=
  ∃ es, t.pview.sb = s.pview.sb ++ es ∧ ∀ e ∈ es, e.StaysIn W

theorem StoresIn.of_eq {W : Nat → Prop} {s t : State} (h : t.pview.sb = s.pview.sb) : StoresIn W s t :=
  ⟨[], by rw [h, List.append_nil], fun _ he => absurd he List.not_mem_nil⟩

theorem StoresIn.trans {W : Nat → Prop} {s t u : State} (h : StoresIn W s t) (k : StoresIn W t u) : StoresIn W s u := by
  obtain ⟨es, hes, hin⟩ := h
  obtain ⟨fs, hfs, hin'⟩ := k
  exact ⟨es ++ fs, by rw [hfs, hes, List.append_assoc], fun e he => (List.mem_append.1 he).elim (hin e) (hin' e)⟩

theorem StoresIn.enqueue {W : Nat → Prop} (s : State) {e : Pending} (he : e.StaysIn W) : StoresIn W s (s.enqueue .p e) :=
  ⟨[e], rfl, fun _ hf => List.mem_singleton.1 hf ▸ he⟩

/-- A byte outside `W` sees none of the new writes … -/
theorem StoresIn.overlayByte {W : Nat → Prop} {s t : State} (h : StoresIn W s t) {a : Nat} (ha : ¬ W a) (b : Byte) :
    t.pview.sb.foldl (fun b e => e.overlayByte a b) b = s.pview.sb.foldl (fun b e => e.overlayByte a b) b := by
  obtain ⟨es, hes, hin⟩ := h
  rw [hes, List.foldl_append]
  exact foldl_untouched (fun e he b => Pending.overlayByte_of_not_covers (fun hc => ha ((hin e he).2 a hc)) b) _

/-- … and neither does a slot word. -/
theorem StoresIn.overlayJob {W : Nat → Prop} {s t : State} (h : StoresIn W s t) (i : JobIx) (w : Word) :
    t.pview.sb.foldl (fun w e => e.overlayJob i w) w = s.pview.sb.foldl (fun w e => e.overlayJob i w) w := by
  obtain ⟨es, hes, hin⟩ := h
  rw [hes, List.foldl_append]
  refine foldl_untouched (fun e he w => ?_) _
  cases e with
  | byte a v => rfl
  | word a v => rfl
  | job k v => exact absurd rfl ((hin _ he).1 k v)

/-! ### Two runs side by side -/

/-- The host wrote no byte in `R`. -/
def Untouched (R : Nat → Prop) (s : State) : Prop := ∀ a ∈ s.disturbed, ¬ R a

/-- `x` is where a run from `s` has come to, and `y` a run from `s` without the host's record: alike, with nothing in
shared storage changed yet, everything new that is pending in `W`, and the same but for the record where the host wrote no
byte in `R`. -/
structure Twin (R W : Nat → Prop) (s x y : State) : Prop where
  alike : Alike x y
  mem : x.mem = s.mem
  mem' : y.mem = s.mem
  job : x.job = s.job
  disturbed : x.disturbed = s.disturbed
  disturbed' : y.disturbed = []
  stores : StoresIn W s x
  stores' : StoresIn W s y
  calm : Untouched R s → y = x.calm

section
variable {R W : Nat → Prop} {s x y : State}

theorem Twin.begin (R W : Nat → Prop) (s : State) : Twin R W s s.beginCommand s.calm.beginCommand :=
  ⟨rfl, rfl, rfl, rfl, rfl, rfl, .of_eq rfl, .of_eq rfl, fun _ => rfl⟩

/-- Both runs go on with work of `P`. -/
theorem Twin.work {x' y' : State} (h : Twin R W s x y) (hx : OnlyCore .p x x') (hy : OnlyCore .p y y')
    (hsx : StoresIn W x x') (hsy : StoresIn W y y') (hcalm : Untouched R s → y' = x'.calm) : Twin R W s x' y' where
  alike := (hx.alike.trans h.alike).trans hy.alike.symm
  mem := hx.mem.trans h.mem
  mem' := hy.mem.trans h.mem'
  job := hx.job.trans h.job
  disturbed := hx.disturbed.trans h.disturbed
  disturbed' := hy.disturbed.trans h.disturbed'
  stores := h.stores.trans hsx
  stores' := h.stores'.trans hsy
  calm := hcalm

/-! ### Reads -/

theorem State.noteRead_sb (s : State) (a n : Nat) : (s.noteRead .p a n).pview.sb = s.pview.sb := by
  rcases s.noteRead_cases .p a n with h | h <;> rw [h] <;> exact s.noteWord_sb .p (a / 4)

theorem State.noteWord_of_calm (s : State) (k : Nat) : s.calm.noteWord .p k = (s.noteWord .p k).calm := by
  have hcopy : s.calm.view .p = s.view .p := rfl
  have hkeep : s.calm.keepNext = s.keepNext := rfl
  unfold State.noteWord
  rw [hcopy, hkeep]
  split
  · rfl
  · split <;> rfl

/-- A read of bytes the host did not write does not depend on the record. -/
theorem State.noteRead_of_calm {s : State} {a n : Nat} (h : ∀ i < n, a + i ∉ s.disturbed) :
    s.calm.noteRead .p a n = (s.noteRead .p a n).calm := by
  have hnone : (List.range n).any (fun i => s.disturbed.contains (a + i)) = false := by
    simpa using h
  rw [State.noteRead_calm s.calm .p a n rfl, State.noteWord_of_calm, State.noteRead, hnone]
  rfl

theorem State.seenByte_of_calm {s : State} {a : Nat} (h : a ∉ s.disturbed) :
    s.calm.seenByte .p a = s.seenByte .p a := by
  rw [State.seenByte_calm s.calm .p rfl, State.seenByte, if_neg (by simpa using h)]
  rfl

theorem Twin.undisturbed (h : Twin R W s x y) {a : Nat} (ha : R a) (hu : Untouched R s) : a ∉ x.disturbed :=
  fun hd => hu a (h.disturbed ▸ hd) ha

theorem Twin.noteRead (h : Twin R W s x y) {a n : Nat} (hR : ∀ i < n, R (a + i)) :
    Twin R W s (x.noteRead .p a n) (y.noteRead .p a n) := by
  refine h.work (Work.noteRead .p x a n).only (Work.noteRead .p y a n).only (.of_eq (x.noteRead_sb a n))
    (.of_eq (y.noteRead_sb a n)) fun hu => ?_
  rw [h.calm hu]
  exact State.noteRead_of_calm fun i hi => h.undisturbed (hR i hi) hu

theorem Twin.seenByte (h : Twin R W s x y) {a : Nat} (ha : R a) (hu : Untouched R s) :
    y.seenByte .p a = x.seenByte .p a := by
  rw [h.calm hu]
  exact State.seenByte_of_calm (h.undisturbed ha hu)

theorem Twin.word (h : Twin R W s x y) {a : Nat} (hR : ∀ i < 4, R (a + i)) (hu : Untouched R s) :
    (y.readWord .p a).1 = (x.readWord .p a).1 := by
  have hbyte : ∀ i < 4, y.seenByte .p (a + i) = x.seenByte .p (a + i) := fun i hi => h.seenByte (hR i hi) hu
  simp only [State.readWord, ← hbyte 1 (by decide), ← hbyte 2 (by decide), ← hbyte 3 (by decide)]
  rw [← Nat.add_zero a, hbyte 0 (by decide)]

/-! ### Writes and computation -/

/-- A write of the same place, of the same value where the host harmed nothing. -/
theorem Twin.enqueue (h : Twin R W s x y) {e e' : Pending} (he : e.StaysIn W) (he' : e'.StaysIn W)
    (hsame : Untouched R s → e' = e) : Twin R W s (x.enqueue .p e) (y.enqueue .p e') := by
  refine h.work (.setView .p x _) (.setView .p y _) (.enqueue x he) (.enqueue y he') fun hu => ?_
  rw [h.calm hu, hsame hu]
  rfl

theorem Twin.writeByte (h : Twin R W s x y) {a : Nat} {v v' : Byte} (ha : W a) (hsame : Untouched R s → v' = v) :
    Twin R W s (x.writeByte .p a v) (y.writeByte .p a v') :=
  h.enqueue (Pending.byte_staysIn v ha) (Pending.byte_staysIn v' ha) fun hu => by rw [hsame hu]

theorem Twin.writeWord (h : Twin R W s x y) {a : Nat} {v v' : Word} (ha : ∀ b, a ≤ b → b < a + 4 → W b)
    (hsame : Untouched R s → v' = v) : Twin R W s (x.writeWord .p a v) (y.writeWord .p a v') :=
  h.enqueue (Pending.word_staysIn v ha) (Pending.word_staysIn v' ha) fun hu => by rw [hsame hu]

end

/-- What computes without an access: it leaves shared storage, the record and what is pending alone, does not look at the
record, and keeps what is alike alike, whatever value it computes with. -/
structure Computes {α : Type} (f : α → State → State) : Prop where
  alike : ∀ v w {x y}, Alike x y → Alike (f v x) (f w y)
  shared : ∀ v x, (f v x).mem = x.mem ∧ (f v x).job = x.job ∧ (f v x).disturbed = x.disturbed ∧
    (f v x).pview.sb = x.pview.sb
  calm : ∀ v x, f v x.calm = (f v x).calm

/-- What sets results and working registers only. -/
theorem Computes.of_open {α : Type} {f : α → State → State} (halike : ∀ v x, Alike (f v x) x)
    (hshared : ∀ v x, (f v x).mem = x.mem ∧ (f v x).disturbed = x.disturbed ∧ (f v x).pview.sb = x.pview.sb)
    (hcalm : ∀ v x, f v x.calm = (f v x).calm) : Computes f where
  alike v w x y h := ((halike v x).trans h).trans (halike w y).symm
  shared v x := ⟨(hshared v x).1, (halike v x).job, (hshared v x).2.1, (hshared v x).2.2⟩
  calm := hcalm

theorem Twin.compute {R W : Nat → Prop} {s x y : State} (h : Twin R W s x y) {α : Type} {f : α → State → State}
    (hf : Computes f) {v w : α} (hsame : Untouched R s → w = v) : Twin R W s (f v x) (f w y) := by
  obtain ⟨hmem, hjob, hdist, hsb⟩ := hf.shared v x
  obtain ⟨hmem', -, hdist', hsb'⟩ := hf.shared w y
  exact {
    alike := hf.alike v w h.alike
    mem := hmem.trans h.mem
    mem' := hmem'.trans h.mem'
    job := hjob.trans h.job
    disturbed := hdist.trans h.disturbed
    disturbed' := hdist'.trans h.disturbed'
    stores := h.stores.trans (.of_eq hsb)
    stores' := h.stores'.trans (.of_eq hsb')
    calm := fun hu => by rw [h.calm hu, hsame hu, hf.calm] }

theorem computes_draw : Computes (fun (n : Nat) (x : State) => x.draw n) :=
  .of_open (fun _ _ => rfl) (fun _ _ => ⟨rfl, rfl, rfl⟩) fun _ _ => rfl

theorem computes_setRegs : Computes (fun (r : Datapath) (x : State) => x.setRegs .p r) :=
  .of_open (fun _ _ => rfl) (fun _ _ => ⟨rfl, rfl, rfl⟩) fun _ _ => rfl

theorem computes_resi : Computes (fun (v : Word) (x : State) => { x with resi := v }) :=
  .of_open (fun _ _ => rfl) (fun _ _ => ⟨rfl, rfl, rfl⟩) fun _ _ => rfl

end Sys2Proof.Machine
end

section
/-! PROOFS. How two runs of a command side by side begin and end (30_encoding.md rules R85, R86; 60_exceptions.md rule
R160; 70_reset_and_hazards.md rule R179). -/

namespace Sys2Proof.Machine

/-! ### Two answers -/

/-- `t` and `u` are what a command leaves with and without what the host wrote: alike; no byte differs outside `W` but
those the host wrote; and where it wrote no byte in `R`, nothing differs but those and the model's counters. -/
def Agree (R W : Nat → Prop) (s t u : State) : Prop :=
  Alike t u ∧ (s.mem.wf = true → ∀ a, a ∉ s.disturbed → ¬ W a → t.mem.read a = u.mem.read a) ∧
    (Untouched R s → t = { u with mem := t.mem, draws := t.draws, disturbed := t.disturbed } ∧
      (s.mem.wf = true → ∀ a, a ∉ s.disturbed → t.mem.read a = u.mem.read a))

/-- Both runs are answered, and their answers agree. -/
def AnswersAgree (R W : Nat → Prop) (s : State) (o o' : Host.Outcome State Fault Refusal) : Prop :=
  ∃ t u, o = .next t ∧ o' = .next u ∧ Agree R W s t u

theorem Agree.answers {R W : Nat → Prop} {s t u : State} (h : Agree R W s t u) :
    AnswersAgree R W s (.next t) (.next u) := ⟨t, u, rfl, rfl, h⟩

/-! ### Command end (R86) -/

theorem JobSlot.ext_get {α : Type} {j k : JobSlot α} (h : ∀ i, j.get i = k.get i) : j = k := by
  cases j
  cases k
  congr
  exacts [h .sig, h .len, h .start, h .stop, h .ktot, h .grid, h .out, h .done, h .sigp]

theorem State.landAll_of_calm (s : State) (es : List Pending) : s.calm.landAll .p es = (s.landAll .p es).calm := by
  induction es generalizing s with
  | nil => rfl
  | cons e es ih =>
    have hland : s.calm.land .p e = (s.land .p e).calm := by cases e <;> rfl
    show (s.calm.land .p e).landAll .p es = ((s.land .p e).landAll .p es).calm
    rw [hland, ih]

theorem State.fenceRel_of_calm (s : State) : s.calm.fenceRel .p = (s.fenceRel .p).calm :=
  State.landAll_of_calm (s.setView .p { s.pview with sb := [] }) s.pview.sb

/-- Command end without the record: the host's bytes are not settled, and nothing else is different. -/
theorem State.finish_of_calm (s : State) :
    s.finish = { s.calm.finish with
      mem := s.finish.mem, draws := s.finish.draws, disturbed := s.finish.disturbed } := by
  rw [s.calm.finish_calm rfl, State.fenceRel_of_calm]
  rfl

/-- Command end changes shared storage, the view of `P`, the status fields and the draw counter, and ends the record. -/
theorem State.finish_frame (s : State) :
    s.finish = { s with
      mem := s.finish.mem, job := s.finish.job, pview := s.finish.pview, draws := s.finish.draws, disturbed := []
      code := .ok, busy := false, done := true, pstage := .idle } := by
  have hfence : s.fenceRel .p = { s with
      mem := (s.fenceRel .p).mem, job := (s.fenceRel .p).job, pview := (s.fenceRel .p).pview } := State.landAll_p_eq _ _
  unfold State.finish
  generalize s.fenceRel .p = v at hfence ⊢
  rw [hfence]
  rfl

/-- A byte the host did not write, after command end. -/
theorem State.finish_read {s : State} (hw : s.mem.wf = true) {a : Nat} (ha : a ∉ s.disturbed) :
    s.finish.mem.read a = s.pview.sb.foldl (fun b e => e.overlayByte a b) (s.mem.read a) := by
  have hd : a ∉ (s.fenceRel .p).disturbed := by rwa [State.fenceRel_disturbed]
  exact ((s.fenceRel .p).settle_read a (s.fenceRel_wf .p hw) hd).trans (s.fenceRel_read .p a hw)

section
variable {R W : Nat → Prop} {s x y : State}

/-- The slot after command end holds what was pending for it when the command began. -/
theorem StoresIn.finish_job (hjob : x.job = s.job) (h : StoresIn W s x) (i : JobIx) :
    x.finish.job.get i = s.pview.sb.foldl (fun w e => e.overlayJob i w) (s.job.get i) := by
  have hend : x.finish.job.get i = x.pview.sb.foldl (fun w e => e.overlayJob i w) (x.job.get i) :=
    x.fenceRel_job_get .p i
  rw [hend, hjob, h.overlayJob i]

/-- Both runs end with code 0. -/
theorem Twin.finish (h : Twin R W s x y) : AnswersAgree R W s (.next x.finish) (.next y.finish) := by
  have hslot : x.finish.job = y.finish.job :=
    JobSlot.ext_get fun i => (h.stores.finish_job h.job i).trans (h.stores'.finish_job (h.alike.job ▸ h.job) i).symm
  have hread : s.mem.wf = true → ∀ a, a ∉ s.disturbed → x.finish.mem.read a =
      x.pview.sb.foldl (fun b e => e.overlayByte a b) (s.mem.read a) := fun hw a ha => by
    rw [State.finish_read (h.mem ▸ hw) (h.disturbed ▸ ha), h.mem]
  have hread' : s.mem.wf = true → ∀ a, y.finish.mem.read a =
      y.pview.sb.foldl (fun b e => e.overlayByte a b) (s.mem.read a) := fun hw a => by
    rw [State.finish_read (h.mem' ▸ hw) (by rw [h.disturbed']; exact List.not_mem_nil), h.mem']
  refine Agree.answers ⟨?_, fun hw a ha hout => ?_, fun hu => ⟨?_, fun hw a ha => ?_⟩⟩
  · have halike := h.alike
    have hx := x.finish_frame
    have hy := y.finish_frame
    unfold Alike at halike ⊢
    generalize x.finish = t at hx hslot ⊢
    generalize y.finish = u at hy hslot ⊢
    rw [hx, hy, ← hslot, halike]
  · rw [hread hw a ha, hread' hw a, h.stores.overlayByte hout, h.stores'.overlayByte hout]
  · rw [h.calm hu]
    exact x.finish_of_calm
  · rw [hread hw a ha, hread' hw a, h.calm hu]
    rfl

/-- Both runs go on beyond this step. -/
theorem Twin.answers (h : Twin R W s x y) : AnswersAgree R W s (.next x) (.next y) := by
  have hmem : x.mem = y.mem := h.mem.trans h.mem'.symm
  refine Agree.answers ⟨h.alike, fun _ a _ _ => by rw [hmem], fun hu => ⟨?_, fun _ a _ => by rw [hmem]⟩⟩
  rw [h.calm hu]
  rfl

/-- Both runs end with the same code (R160). -/
theorem Twin.raise (h : Twin R W s x y) (e : Code) {i i' : Word} (hsame : Untouched R s → i' = i) :
    AnswersAgree R W s (.next (x.raise e i)) (.next (y.raise e i')) := by
  have hmem : (x.raise e i).mem = (y.raise e i').mem := h.mem.trans h.mem'.symm
  refine Agree.answers ⟨?_, fun _ a _ _ => by rw [hmem], fun hu => ⟨?_, fun _ a _ => by rw [hmem]⟩⟩
  · have halike := h.alike
    unfold Alike at halike ⊢
    rw [halike]
    rfl
  · rw [h.calm hu, hsame hu]
    rfl

/-! ### Command begin (R85) -/

/-- The checks do not look at the record, so both runs fail alike or go on. -/
theorem State.checked_agree {f : State → List Check} {body : State → Host.Outcome State Fault Refusal}
    (hf : ∀ u : State, f u.calm = f u)
    (hbody : Pass (f s.beginCommand) → Twin R W s s.beginCommand s.calm.beginCommand →
      AnswersAgree R W s (body s.beginCommand) (body s.calm.beginCommand)) :
    AnswersAgree R W s (s.checked f body) (s.calm.checked f body) := by
  have hbegin := Twin.begin R W s
  have hsame : f s.calm.beginCommand = f s.beginCommand := hf s.beginCommand
  unfold State.checked
  rw [hsame]
  cases hc : (f s.beginCommand).find? (·.fails) with
  | some c => exact hbegin.raise c.code fun _ => rfl
  | none => exact hbody hc hbegin

/-- The answer of a lookup that both runs made alike (R94). -/
theorem Twin.answerLookup (h : Twin R W s x y) (r : Option Word) (hfarg : y.farg = x.farg) :
    AnswersAgree R W s (answerLookup x r) (answerLookup y r) := by
  cases r with
  | some v =>
    have hresf : Computes (fun (v : Word) (u : State) => { u with resf := v }.draw LOOKUP_DRAWS) :=
      .of_open (fun _ _ => rfl) (fun _ _ => ⟨rfl, rfl, rfl⟩) fun _ _ => rfl
    exact (h.compute hresf fun _ => rfl).finish
  | none => exact h.raise .num fun _ => hfarg

end

end Sys2Proof.Machine
end

section
/-! PROOFS. The loops of the commands run twice side by side: reads, copies, magnitudes and records. -/

namespace Sys2Proof.Machine

section
variable {R W : Nat → Prop} {s x y : State}

/-! ### Words read (R46) -/

theorem Twin.readWords (h : Twin R W s x y) {a n : Nat} (hR : ∀ i < 4 * n, R (a + i)) :
    Twin R W s (x.readWords .p a n).2 (y.readWords .p a n).2 ∧
      (Untouched R s → (y.readWords .p a n).1 = (x.readWords .p a n).1) := by
  induction n generalizing x y a with
  | zero => exact ⟨h, fun _ => rfl⟩
  | succ n ih =>
    have hword : ∀ i < 4, R (a + i) := fun i hi => hR i (by omega)
    obtain ⟨htwin, hwords⟩ := ih (h.noteRead hword) (a := a + 4) fun i hi => by
      rw [Nat.add_assoc]; exact hR _ (by omega)
    exact ⟨htwin, fun hu => congrArg₂ List.cons (h.word hword hu) (hwords hu)⟩

theorem Twin.readPairs (h : Twin R W s x y) {a b n : Nat} (ha : ∀ i < 4 * n, R (a + i)) (hb : ∀ i < 4 * n, R (b + i)) :
    Twin R W s (x.readPairs a b n).2.2 (y.readPairs a b n).2.2 ∧
      (Untouched R s → (y.readPairs a b n).1 = (x.readPairs a b n).1 ∧
        (y.readPairs a b n).2.1 = (x.readPairs a b n).2.1) := by
  induction n generalizing x y a b with
  | zero => exact ⟨h, fun _ => ⟨rfl, rfl⟩⟩
  | succ n ih =>
    have hfirst : ∀ i < 4, R (a + i) := fun i hi => ha i (by omega)
    have hsecond : ∀ i < 4, R (b + i) := fun i hi => hb i (by omega)
    have hnext := h.noteRead hfirst
    obtain ⟨htwin, hpairs⟩ := ih (hnext.noteRead hsecond) (a := a + 4) (b := b + 4)
      (fun i hi => by rw [Nat.add_assoc]; exact ha _ (by omega))
      (fun i hi => by rw [Nat.add_assoc]; exact hb _ (by omega))
    refine ⟨htwin, fun hu => ?_⟩
    obtain ⟨hxs, hys⟩ := hpairs hu
    exact ⟨congrArg₂ List.cons (h.word hfirst hu) hxs, congrArg₂ List.cons (hnext.word hsecond hu) hys⟩

/-! ### Bytes copied (R145) -/

theorem Twin.copyBytes (h : Twin R W s x y) {src dst n : Nat} (hR : ∀ i < n, R (src + i)) (hW : ∀ i < n, W (dst + i)) :
    Twin R W s (x.copyBytes src dst n) (y.copyBytes src dst n) := by
  induction n generalizing x y src dst with
  | zero => exact h
  | succ n ih =>
    have hread : ∀ i < 1, R (src + i) := fun i hi => hR i (by omega)
    have hbyte : Untouched R s → y.seenByte .p src = x.seenByte .p src := h.seenByte (hR 0 (by omega))
    exact ih ((h.noteRead hread).writeByte (hW 0 (by omega)) hbyte)
      (fun i hi => by rw [Nat.add_assoc, Nat.add_comm 1]; exact hR _ (by omega))
      (fun i hi => by rw [Nat.add_assoc, Nat.add_comm 1]; exact hW _ (by omega))

theorem Twin.replicate (h : Twin R W s x y) {src dst n r : Nat} (hR : ∀ i < n, R (src + i))
    (hW : ∀ i < n * r, W (dst + i)) : Twin R W s (x.replicate src dst n r) (y.replicate src dst n r) := by
  induction r generalizing x y dst with
  | zero => exact h
  | succ r ih =>
    rw [Nat.mul_succ] at hW
    exact ih (h.copyBytes hR fun i hi => hW i (by omega)) fun i hi => by
      rw [Nat.add_assoc]; exact hW _ (by omega)

/-! ### Records (R140) -/

theorem Twin.writeRecords (h : Twin R W s x y) {a : Nat} {rs rs' : List (Nat × Word)} (hlen : rs'.length = rs.length)
    (hW : ∀ i < 8 * rs.length, W (a + i)) (hsame : Untouched R s → rs' = rs) :
    Twin R W s (x.writeRecords a rs) (y.writeRecords a rs') := by
  induction rs generalizing x y a rs' with
  | nil =>
    obtain rfl := List.length_eq_zero_iff.1 hlen
    exact h
  | cons r rs ih =>
    obtain ⟨r', rs', rfl⟩ := List.exists_cons_of_length_eq_add_one hlen
    rw [List.length_cons] at hW
    have hplace : ∀ b, a ≤ b → b < a + 8 → W b := fun b hlo hhi => by
      obtain ⟨i, rfl⟩ := Nat.exists_eq_add_of_le hlo
      exact hW i (by omega)
    have hfirst := h.writeWord (a := a) (v := wordOf r.1) (v' := wordOf r'.1) (fun b hlo hhi => hplace b hlo (by omega))
      fun hu => by rw [List.head_eq_of_cons_eq (hsame hu)]
    have hsecond := hfirst.writeWord (a := a + 4) (v := r.2) (v' := r'.2)
      (fun b hlo hhi => hplace b (by omega) (by omega)) fun hu => by rw [List.head_eq_of_cons_eq (hsame hu)]
    exact ih hsecond (Nat.succ.inj hlen) (fun i hi => by rw [Nat.add_assoc]; exact hW _ (by omega))
      fun hu => List.tail_eq_of_cons_eq (hsame hu)

/-! ### Magnitudes (R108, R109) -/

theorem State.magEntry_kidx (s : State) (f : Nat → Word → Word → Word) (src dst : Nat) :
    (s.magEntry f src dst).pregs.kidx = s.pregs.kidx + 1 := by
  have hread : ∀ a b, ((s.noteRead .p a 4).noteRead .p b 4).pregs = s.pregs := fun a b =>
    (State.noteRead_regs _ .p b 4).trans (s.noteRead_regs .p a 4)
  exact congrArg (·.kidx + 1) (hread _ _)

/-- The entry done, `KIDX_P` goes on. -/
theorem computes_nextEntry :
    Computes (fun (_ : Unit) (u : State) => { u with pregs := { u.pregs with kidx := u.pregs.kidx + 1 } }) :=
  .of_open (fun _ _ => rfl) (fun _ _ => ⟨rfl, rfl, rfl⟩) fun _ _ => rfl

theorem Twin.magEntry (h : Twin R W s x y) (f : Nat → Word → Word → Word) {src dst : Nat}
    (hk : y.pregs.kidx = x.pregs.kidx) (hR : ∀ i < 8, R (src + 8 * x.pregs.kidx.toNat + i))
    (hW : ∀ i < 4, W (dst + 4 * x.pregs.kidx.toNat + i)) :
    Twin R W s (x.magEntry f src dst) (y.magEntry f src dst) := by
  have hre : ∀ i < 4, R (src + 8 * x.pregs.kidx.toNat + i) := fun i hi => hR i (by omega)
  have him : ∀ i < 4, R (src + 8 * x.pregs.kidx.toNat + 4 + i) := fun i hi => by
    rw [Nat.add_assoc]; exact hR _ (by omega)
  have hplace : ∀ b, dst + 4 * x.pregs.kidx.toNat ≤ b → b < dst + 4 * x.pregs.kidx.toNat + 4 → W b :=
    fun b hlo hhi => by
      obtain ⟨i, rfl⟩ := Nat.exists_eq_add_of_le hlo
      exact hW i (by omega)
  have hfirst := h.noteRead hre
  have hdraws : Untouched R s → y.draws = x.draws := fun hu => by rw [h.calm hu]; rfl
  have hwritten := (hfirst.noteRead him).writeWord hplace fun hu =>
    congr (congrArg₂ f (hdraws hu) (h.word hre hu)) (hfirst.word him hu)
  have hentry := (hwritten.compute computes_draw (v := MAG_DRAWS) (w := MAG_DRAWS) fun _ => rfl).compute
    computes_nextEntry (v := ()) (w := ()) fun _ => rfl
  simp only [State.magEntry, hk]
  exact hentry

theorem Twin.magEntries (h : Twin R W s x y) (f : Nat → Word → Word → Word) {src dst n : Nat}
    (hk : y.pregs.kidx = x.pregs.kidx) (hn : x.pregs.kidx.toNat + n < 2 ^ 32)
    (hR : ∀ i < 8 * (x.pregs.kidx.toNat + n), R (src + i)) (hW : ∀ i < 4 * (x.pregs.kidx.toNat + n), W (dst + i)) :
    Twin R W s (x.magEntries f src dst n) (y.magEntries f src dst n) := by
  induction n generalizing x y with
  | zero => exact h
  | succ n ih =>
    have hkx := x.magEntry_kidx f src dst
    have hnext : (x.magEntry f src dst).pregs.kidx.toNat = x.pregs.kidx.toNat + 1 := by
      rw [hkx]; exact BitVec.toNat_add_of_lt (by show _ + 1 < _; omega)
    have hentry := h.magEntry f hk (fun i hi => by rw [Nat.add_assoc]; exact hR _ (by omega))
      fun i hi => by rw [Nat.add_assoc]; exact hW _ (by omega)
    refine ih hentry ?_ (by omega)
      (fun i hi => hR i (by omega)) fun i hi => hW i (by omega)
    rw [hkx, y.magEntry_kidx f src dst, hk]

theorem Twin.magSpectrum (h : Twin R W s x y) (f : Nat → Word → Word → Word) {src dst n : Nat} (hn : n < 2 ^ 32)
    (hR : ∀ i < 8 * n, R (src + i)) (hW : ∀ i < 4 * n, W (dst + i)) :
    Twin R W s (x.magSpectrum f src dst n) (y.magSpectrum f src dst n) := by
  have hstart : Computes (fun (_ : Unit) (u : State) => { u with pregs := { u.pregs with kidx := 0 } }) :=
    .of_open (fun _ _ => rfl) (fun _ _ => ⟨rfl, rfl, rfl⟩) fun _ _ => rfl
  have hzero : (0 : Word).toNat = 0 := rfl
  exact (h.compute hstart (v := ()) (w := ()) fun _ => rfl).magEntries f rfl (by simp only [hzero]; omega)
    (by simpa only [hzero, Nat.zero_add] using hR) (by simpa only [hzero, Nat.zero_add] using hW)

end

end Sys2Proof.Machine
end

section
/-! PROOFS. The bins of a transform run twice side by side (42_dtft.md rules R101, R106): the angles of a bin do not depend
on the samples, and on the draws only in what a NaN looks like, so that both runs meet a lookup without an index or none. -/

namespace Sys2Proof.Machine

/-! ### Data up to the sign and payload of a NaN (R11, U6) -/

/-- The same datum: equal words, or two NaNs. -/
def SameDatum (a b : Word) : Prop := a = b ∨ (f32IsNaN a = true ∧ f32IsNaN b = true)

theorem SameDatum.refl (a : Word) : SameDatum a a := .inl rfl

/-- An operation gives the same datum of the same data, whatever draw it is given. -/
theorem SameDatum.op {op : Nat → Word → Word → Word}
    (hnan : ∀ n {a b}, f32IsNaN a = true ∨ f32IsNaN b = true → op n a b = qNaN n)
    (hdraw : ∀ n m a b, f32IsNaN (op n a b) = false → op m a b = op n a b) (n m : Nat) {a a' b b' : Word}
    (ha : SameDatum a a') (hb : SameDatum b b') : SameDatum (op n a b) (op m a' b') := by
  rcases ha with rfl | ⟨ha, ha'⟩
  · rcases hb with rfl | ⟨hb, hb'⟩
    · cases hn : f32IsNaN (op n a b) with
      | false => exact .inl (hdraw n m a b hn).symm
      | true =>
        cases hm : f32IsNaN (op m a b) with
        | false => exact .inl (hdraw m n a b hm)
        | true => exact .inr ⟨hn, hm⟩
    · rw [hnan n (.inr hb), hnan m (.inr hb')]
      exact .inr ⟨qNaN_isNaN n, qNaN_isNaN m⟩
  · rw [hnan n (.inl ha), hnan m (.inl ha')]
    exact .inr ⟨qNaN_isNaN n, qNaN_isNaN m⟩

theorem SameDatum.fsub (n m : Nat) {a a' b b' : Word} (ha : SameDatum a a') (hb : SameDatum b b') :
    SameDatum (fsub n a b) (fsub m a' b') := .op (fun n _ _ => fsub_nan n) fsub_draw n m ha hb

theorem SameDatum.fmul (n m : Nat) {a a' b b' : Word} (ha : SameDatum a a') (hb : SameDatum b b') :
    SameDatum (fmul n a b) (fmul m a' b') := .op (fun n _ _ => fmul_nan n) fmul_draw n m ha hb

theorem SameDatum.fdiv (n m : Nat) {a a' b b' : Word} (ha : SameDatum a a') (hb : SameDatum b b') :
    SameDatum (fdiv n a b) (fdiv m a' b') := .op (fun n _ _ => fdiv_nan n) fdiv_draw n m ha hb

theorem SameDatum.isNaN {a b : Word} (h : SameDatum a b) : f32IsNaN a = f32IsNaN b := by
  rcases h with rfl | ⟨ha, hb⟩
  · rfl
  · rw [ha, hb]

theorem f32IsFinite_of_nan {a : Word} (h : f32IsNaN a = true) : f32IsFinite a = false := by
  simp only [f32IsNaN, Bool.and_eq_true, beq_iff_eq] at h
  simp [f32IsFinite, h.1]

theorem SameDatum.isFinite {a b : Word} (h : SameDatum a b) : f32IsFinite a = f32IsFinite b := by
  rcases h with rfl | ⟨ha, hb⟩
  · rfl
  · rw [f32IsFinite_of_nan ha, f32IsFinite_of_nan hb]

/-- A grid frequency does not depend on the draws (R103, R104). -/
theorem omegaOf_sameDatum (n m : Nat) (g : Grid) (k K : Word) : SameDatum (omegaOf n g k K) (omegaOf m g k K) := by
  cases g with
  | full => exact .fdiv _ _ (.fmul _ _ (.refl _) (.refl _)) (.refl _)
  | half =>
    simp only [omegaOf]
    split
    · exact .refl _
    · exact .fdiv _ _ (.fmul _ _ (.refl _) (.refl _)) (.refl _)

/-! ### The course of a bin -/

/-- Whether a lookup has an index depends on its angle alone (R94). -/
theorem lookup_isSome_eq (n : Nat) (T : Vector Word Config.L) (a : Word) :
    (lookup n T a).isSome = (!f32IsNaN a && f32IsFinite (fmul n a SCALE)) := by
  simp only [lookup]
  split
  · next h => rw [h]; rfl
  · next h => rw [eq_false_of_ne_true h]; rfl

theorem SameDatum.lookup {a b : Word} (h : SameDatum a b) (n m : Nat) (S T : Vector Word Config.L) :
    (lookup n S a).isSome = (lookup m T b).isSome := by
  rw [lookup_isSome_eq, lookup_isSome_eq, h.isNaN, (h.fmul n m (.refl SCALE)).isFinite]

/-- Two datapaths in the same bin at the same sample: all that the lookups and the addresses depend on is the same. -/
structure SameCourse (r q : Datapath) : Prop where
  angle : SameDatum r.angle q.angle
  omega : SameDatum r.omega q.omega
  nidx : q.nidx = r.nidx
  kidx : q.kidx = r.kidx

/-- Every bin begins at angle 0 (R101). -/
theorem SameCourse.binStart {r q : Datapath} {w w' : Word} (hw : SameDatum w w') (hk : q.kidx = r.kidx) :
    SameCourse (binStart w r) (binStart w' q) := ⟨.refl 0, hw, rfl, hk⟩

theorem accumulate_isSome (n : Nat) (S C : Vector Word Config.L) (b : Byte) (r : Datapath) :
    (accumulate n S C b r).isSome = ((lookup n C r.angle).isSome && (lookup (n + 5) S r.angle).isSome) := by
  unfold accumulate
  cases lookup n C r.angle <;> cases lookup (n + 5) S r.angle <;> rfl

theorem accumulate_course {n : Nat} {S C : Vector Word Config.L} {b : Byte} {r r' : Datapath}
    (h : accumulate n S C b r = some r') : r'.angle = fsub (n + 14) r.angle r.omega ∧ r'.omega = r.omega := by
  simp only [accumulate] at h
  split at h
  · cases h; exact ⟨rfl, rfl⟩
  · cases h

theorem SameCourse.accumulate {r q r' q' : Datapath} (h : SameCourse r q) {n m : Nat}
    {S C S' C' : Vector Word Config.L} {b b' : Byte} (hr : accumulate n S C b r = some r')
    (hq : accumulate m S' C' b' q = some q') : SameCourse r' q' := by
  obtain ⟨hra, hro⟩ := accumulate_course hr
  obtain ⟨hqa, hqo⟩ := accumulate_course hq
  exact {
    angle := by rw [hra, hqa]; exact h.angle.fsub _ _ h.omega
    omega := by rw [hro, hqo]; exact h.omega
    nidx := by rw [accumulate_nidx hr, accumulate_nidx hq, h.nidx]
    kidx := by rw [accumulate_kidx_kept hr, accumulate_kidx_kept hq, h.kidx] }

theorem SameCourse.isSome {r q : Datapath} (h : SameCourse r q) (n m : Nat) (S C S' C' : Vector Word Config.L)
    (b b' : Byte) : (Machine.accumulate n S C b r).isSome = (Machine.accumulate m S' C' b' q).isSome := by
  rw [accumulate_isSome, accumulate_isSome, h.angle.lookup n m C C', h.angle.lookup (n + 5) (m + 5) S S']

/-! ### Bins side by side -/

/-- Both runs of a computation come to states side by side, in the same bin, or both stop at a lookup, at the same one
where the host harmed nothing. -/
inductive TwinResult (R W : Nat → Prop) (s : State) : Except Angle State → Except Angle State → Prop
  | ok {x y : State} (h : Twin R W s x y) (hr : SameCourse x.pregs y.pregs) : TwinResult R W s (.ok x) (.ok y)
  | error {e e' : Angle} (h : Untouched R s → e' = e) : TwinResult R W s (.error e) (.error e')

section
variable {R W : Nat → Prop} {s x y : State}

theorem Twin.sample (h : Twin R W s x y) (hr : SameCourse x.pregs y.pregs) {sig : Nat}
    (hR : R (sig + x.pregs.nidx.toNat)) : TwinResult R W s (x.sample .p sig) (y.sample .p sig) := by
  have hread := h.noteRead (a := sig + x.pregs.nidx.toNat) (n := 1) fun i hi => by
    obtain rfl : i = 0 := by omega
    exact hR
  have hsame : Untouched R s → y.draws = x.draws ∧ y.pregs = x.pregs ∧
      accumulate y.draws y.sintab y.costab (y.seenByte .p (sig + x.pregs.nidx.toNat)) y.pregs =
        accumulate x.draws x.sintab x.costab (x.seenByte .p (sig + x.pregs.nidx.toNat)) x.pregs := fun hu => by
    rw [h.seenByte hR hu, h.calm hu]
    exact ⟨rfl, rfl, rfl⟩
  have hsome := hr.isSome x.draws y.draws x.sintab x.costab y.sintab y.costab
    (x.seenByte .p (sig + x.pregs.nidx.toNat)) (y.seenByte .p (sig + x.pregs.nidx.toNat))
  simp only [State.sample, State.readByte, State.regs_p, hr.nidx]
  cases hx : accumulate x.draws x.sintab x.costab (x.seenByte .p (sig + x.pregs.nidx.toNat)) x.pregs with
  | none =>
    cases hy : accumulate y.draws y.sintab y.costab (y.seenByte .p (sig + x.pregs.nidx.toNat)) y.pregs with
    | none =>
      refine .error fun hu => ?_
      obtain ⟨hdraws, hpregs, -⟩ := hsame hu
      rw [hdraws, hpregs]
    | some q => rw [hx, hy] at hsome; cases hsome
  | some r =>
    cases hy : accumulate y.draws y.sintab y.costab (y.seenByte .p (sig + x.pregs.nidx.toNat)) y.pregs with
    | none => rw [hx, hy] at hsome; cases hsome
    | some q =>
      refine .ok ((hread.compute computes_setRegs fun hu => ?_).compute computes_draw fun _ => rfl)
        (hr.accumulate hx hy)
      obtain ⟨-, -, hacc⟩ := hsame hu
      rw [hx, hy] at hacc
      exact Option.some.inj hacc

theorem TwinResult.bind {o o' : Except Angle State} (h : TwinResult R W s o o') {f g : State → Except Angle State}
    (hfg : ∀ u v, o = .ok u → Twin R W s u v → SameCourse u.pregs v.pregs → TwinResult R W s (f u) (g v)) :
    TwinResult R W s (o.bind f) (o'.bind g) := by
  cases h with
  | ok h hr => exact hfg _ _ rfl h hr
  | error h => exact .error h

theorem State.samples_succ (s : State) (c : CoreId) (sig m : Nat) :
    s.samples c sig (m + 1) = (s.sample c sig).bind (·.samples c sig m) := by
  rw [State.samples]
  cases s.sample c sig <;> rfl

theorem Twin.samples (h : Twin R W s x y) (hr : SameCourse x.pregs y.pregs) {sig m : Nat}
    (hm : x.pregs.nidx.toNat + m < 2 ^ 32) (hR : ∀ i < x.pregs.nidx.toNat + m, R (sig + i)) :
    TwinResult R W s (x.samples .p sig m) (y.samples .p sig m) := by
  induction m generalizing x y with
  | zero => exact .ok h hr
  | succ m ih =>
    rw [State.samples_succ, State.samples_succ]
    refine (h.sample hr (hR x.pregs.nidx.toNat (by omega))).bind fun u v hu huv hcourse => ?_
    have hnidx : u.pregs.nidx = x.pregs.nidx + 1 := (State.sample_counts hu).1
    have hnext : u.pregs.nidx.toNat = x.pregs.nidx.toNat + 1 := by
      rw [hnidx]; exact BitVec.toNat_add_of_lt (by show _ + 1 < _; omega)
    exact ih huv hcourse (by omega) fun i hi => hR i (by omega)

/-- `BIN` at a frequency (R101). -/
theorem Twin.bin (h : Twin R W s x y) {sig n : Nat} {w w' : Word} (hw : SameDatum w w')
    (hk : y.pregs.kidx = x.pregs.kidx) (hsame : Untouched R s → w' = w) (hn : n < 2 ^ 32)
    (hR : ∀ i < n, R (sig + i)) : TwinResult R W s (x.bin .p sig n w) (y.bin .p sig n w') := by
  have hstart : Computes (fun (w : Word) (u : State) => u.setRegs .p (binStart w u.pregs)) :=
    .of_open (fun _ _ => rfl) (fun _ _ => ⟨rfl, rfl, rfl⟩) fun _ _ => rfl
  have hzero : (0 : Word).toNat = 0 := rfl
  refine (h.compute hstart hsame).samples (.binStart hw hk) (sig := sig) (m := n) ?_ fun i hi => hR i ?_
  · show (0 : Word).toNat + n < 2 ^ 32
    omega
  · replace hi : i < (0 : Word).toNat + n := hi
    omega

/-! ### Transforms side by side (R106) -/

theorem Twin.pairWritten (h : Twin R W s x y) (hr : SameCourse x.pregs y.pregs) {j : Job}
    (hW : ∀ i < 8, W (binAddr j.out x.pregs.kidx.toNat + i)) :
    TwinResult R W s (.ok (x.pairWritten .p j)) (.ok (y.pairWritten .p j)) := by
  have hplace : ∀ b, binAddr j.out x.pregs.kidx.toNat ≤ b → b < binAddr j.out x.pregs.kidx.toNat + 8 → W b :=
    fun b hlo hhi => by
      obtain ⟨i, rfl⟩ := Nat.exists_eq_add_of_le hlo
      exact hW i (by omega)
  have hsame : Untouched R s → y.pregs = x.pregs := fun hu => by rw [h.calm hu]; rfl
  have hre := h.writeWord (v := x.pregs.re) (v' := y.pregs.re) (fun b hlo hhi => hplace b hlo (by omega))
    fun hu => by rw [hsame hu]
  have him := hre.writeWord (a := binAddr j.out x.pregs.kidx.toNat + 4) (v := x.pregs.im) (v' := y.pregs.im)
    (fun b hlo hhi => hplace b (by omega) (by omega)) fun hu => by rw [hsame hu]
  have hnext := him.compute computes_setRegs (v := { x.pregs with kidx := x.pregs.kidx + 1 })
    (w := { y.pregs with kidx := y.pregs.kidx + 1 }) fun hu => by rw [hsame hu]
  have hplace' : binAddr j.out y.pregs.kidx.toNat = binAddr j.out x.pregs.kidx.toNat := by rw [hr.kidx]
  simp only [State.pairWritten, State.regs_p, hplace']
  exact .ok hnext ⟨hr.angle, hr.omega, hr.nidx, by rw [State.setRegs_p_pregs, State.setRegs_p_pregs, hr.kidx]⟩

theorem Twin.transformBin (h : Twin R W s x y) (hk : y.pregs.kidx = x.pregs.kidx) {j : Job}
    (hR : ∀ i < j.n.toNat, R (j.sig.toNat + i)) (hW : ∀ i < 8, W (binAddr j.out x.pregs.kidx.toNat + i)) :
    TwinResult R W s (x.transformBin .p j) (y.transformBin .p j) := by
  have hbegun : Computes (fun (_ : Unit) (u : State) => u.binBegun .p j) :=
    .of_open (fun _ _ => rfl) (fun _ _ => ⟨rfl, rfl, rfl⟩) fun _ _ => rfl
  have homega : SameDatum (omegaOf x.draws j.g x.pregs.kidx j.kt) (omegaOf y.draws j.g y.pregs.kidx j.kt) := by
    rw [hk]; exact omegaOf_sameDatum _ _ _ _ _
  have hcourse : SameCourse (x.binBegun .p j).pregs (y.binBegun .p j).pregs := by
    rw [← State.regs_p, ← State.regs_p, State.binBegun_regs, State.binBegun_regs]
    exact .binStart homega hk
  have hzero : (x.binBegun .p j).pregs.nidx.toNat = 0 := rfl
  have hn := j.n.isLt
  have hstart : Twin R W s (x.binBegun .p j) (y.binBegun .p j) := h.compute hbegun (v := ()) (w := ()) fun _ => rfl
  have hsamples := hstart.samples hcourse (sig := j.sig.toNat) (m := j.n.toNat) (by omega) fun i hi => hR i (by omega)
  rw [State.transformBin_eq, State.transformBin_eq]
  refine hsamples.bind (f := fun u => .ok (u.pairWritten .p j)) (g := fun u => .ok (u.pairWritten .p j))
    fun u v hu huv hcourse => huv.pairWritten hcourse ?_
  have hukidx : u.pregs.kidx = x.pregs.kidx := State.samples_kidx hu
  rw [hukidx]
  exact hW

theorem State.transformBins_succ (s : State) (c : CoreId) (j : Job) (m : Nat) :
    s.transformBins c j (m + 1) = (s.transformBin c j).bind (·.transformBins c j m) := by
  rw [State.transformBins]
  cases s.transformBin c j <;> rfl

theorem Twin.transformBins (h : Twin R W s x y) (hr : SameCourse x.pregs y.pregs) {j : Job} {m : Nat}
    (hm : x.pregs.kidx.toNat + m < 2 ^ 32) (hR : ∀ i < j.n.toNat, R (j.sig.toNat + i))
    (hW : ∀ i < 8 * (x.pregs.kidx.toNat + m), W (j.out.toNat + i)) :
    TwinResult R W s (x.transformBins .p j m) (y.transformBins .p j m) := by
  induction m generalizing x y with
  | zero => exact .ok h hr
  | succ m ih =>
    rw [State.transformBins_succ, State.transformBins_succ]
    have hpair : ∀ i < 8, W (binAddr j.out x.pregs.kidx.toNat + i) := fun i hi => by
      rw [binAddr, Nat.add_assoc]
      exact hW _ (by omega)
    refine (h.transformBin hr.kidx hR hpair).bind fun u v hu huv hcourse => ?_
    have hkidx : u.pregs.kidx = x.pregs.kidx + 1 := State.transformBin_kidx hu
    have hnext : u.pregs.kidx.toNat = x.pregs.kidx.toNat + 1 := by
      rw [hkidx]; exact BitVec.toNat_add_of_lt (by show _ + 1 < _; omega)
    exact ih huv hcourse (by omega) fun i hi => hW i (by omega)

/-- Bins `[0, k1)` of a job. -/
theorem Twin.transform (h : Twin R W s x y) (hr : SameCourse x.pregs y.pregs) {j : Job} (hk0 : j.k0 = 0)
    (hR : ∀ i < j.n.toNat, R (j.sig.toNat + i)) (hW : ∀ i < 8 * j.k1.toNat, W (j.out.toNat + i)) :
    TwinResult R W s (x.transform .p j) (y.transform .p j) := by
  have hfirst : Computes (fun (_ : Unit) (u : State) => u.setRegs .p { u.pregs with kidx := j.k0 }) :=
    .of_open (fun _ _ => rfl) (fun _ _ => ⟨rfl, rfl, rfl⟩) fun _ _ => rfl
  have hzero : j.k0.toNat = 0 := by rw [hk0]; rfl
  have hk1 := j.k1.isLt
  refine (h.compute hfirst (v := ()) (w := ()) fun _ => rfl).transformBins ⟨hr.angle, hr.omega, hr.nidx, rfl⟩ ?_ hR
    fun i hi => hW i ?_
  · show j.k0.toNat + _ < _
    omega
  · replace hi : i < 8 * (j.k0.toNat + (j.k1.toNat - j.k0.toNat)) := hi
    omega

/-- A computation that a lookup may have stopped, in both runs or in none (R94, R157). -/
theorem Twin.orNum {o o' : Except Angle State} {k k' : State → Host.Outcome State Fault Refusal}
    (h : Twin R W s x y) (ho : TwinResult R W s o o')
    (hk : ∀ u v, o = .ok u → Twin R W s u v → AnswersAgree R W s (k u) (k' v)) :
    AnswersAgree R W s (orNum x o k) (orNum y o' k') := by
  cases ho with
  | ok huv _ => exact hk _ _ rfl huv
  | error he =>
    have hdraws : Computes (fun (n : Nat) (u : State) => { u with draws := n }) :=
      .of_open (fun _ _ => rfl) (fun _ _ => ⟨rfl, rfl, rfl⟩) fun _ _ => rfl
    exact (h.compute hdraws fun hu => by rw [he hu]).raise .num fun hu => by rw [he hu]

end

end Sys2Proof.Machine
end

section
/-! PROOFS. Every command answers, and what the host wrote against R179 while it ran harms nothing else (30_encoding.md
rule R80, 60_exceptions.md rules R161, R172, 70_reset_and_hazards.md rule R179). -/

namespace Sys2Proof.Machine

/-! ### The buffers of a command (R79) -/

/-- A byte of a buffer, given by base and size. -/
def InBuffer (b : Word × Nat) (a : Nat) : Prop := b.1.toNat ≤ a ∧ a < b.1.toNat + b.2

/-- A byte a command may write: of its destination. -/
def State.Writes (s : State) (i : Instr) (a : Nat) : Prop := InBuffer (s.destinationOf i) a

/-- A byte a command may read: of one of its buffers. -/
def State.Reads (s : State) (i : Instr) (a : Nat) : Prop := ∃ b ∈ s.destinationOf i :: s.sourcesOf i, InBuffer b a

theorem inBuffer_add {b : Word} {n k : Nat} (h : k < n) : InBuffer (b, n) (b.toNat + k) :=
  ⟨Nat.le_add_right _ _, Nat.add_lt_add_left h _⟩

theorem State.Reads.of_source {s : State} {i : Instr} {b : Word} {n k : Nat} (hb : (b, n) ∈ s.sourcesOf i) (hk : k < n) :
    s.Reads i (b.toNat + k) := ⟨_, List.mem_cons_of_mem _ hb, inBuffer_add hk⟩

theorem State.Writes.reads {s : State} {i : Instr} {a : Nat} (h : s.Writes i a) : s.Reads i a :=
  ⟨_, List.mem_cons_self, h⟩

/-- The command, with and without what the host wrote, is answered, and the answers agree. -/
def AnswersAlike (i : Instr) (s : State) : Prop :=
  AnswersAgree (s.Reads i) (s.Writes i) s (exec i s) (exec i s.calm)

/-! ### Tables, registers and the worker -/

theorem exec_init_alike (s : State) : AnswersAlike .init s := by
  have hfill : Computes (fun (_ : Unit) (u : State) => fillTables u) :=
    ⟨fun _ _ _ _ h => by unfold Alike at h ⊢; rw [h]; rfl, fun _ _ => ⟨rfl, rfl, rfl, rfl⟩, fun _ _ => rfl⟩
  show AnswersAgree _ _ s (execInit s) (execInit s.calm)
  unfold execInit
  exact State.checked_agree (fun _ => rfl) fun _ h => (h.compute hfill (v := ()) (w := ()) fun _ => rfl).finish

theorem exec_wlaunch_alike (s : State) : AnswersAlike .wlaunch s := by
  have hlaunch : Computes (fun (_ : Unit) (u : State) => { u with wrun := true, wstage := .pollFence }) :=
    ⟨fun _ _ _ _ h => by unfold Alike at h ⊢; rw [h], fun _ _ => ⟨rfl, rfl, rfl, rfl⟩, fun _ _ => rfl⟩
  show AnswersAgree _ _ s (execWlaunch s) (execWlaunch s.calm)
  unfold execWlaunch
  exact State.checked_agree (fun _ => rfl) fun _ h => (h.compute hlaunch (v := ()) (w := ()) fun _ => rfl).finish

theorem exec_sin_alike (s : State) : AnswersAlike .sin s := by
  show AnswersAgree _ _ s (execSin s) (execSin s.calm)
  unfold execSin
  exact State.checked_agree (fun _ => rfl) fun _ h => h.answerLookup _ rfl

theorem exec_cos_alike (s : State) : AnswersAlike .cos s := by
  show AnswersAgree _ _ s (execCos s) (execCos s.calm)
  unfold execCos
  exact State.checked_agree (fun _ => rfl) fun _ h => h.answerLookup _ rfl

/-! ### Transforms and magnitudes -/

theorem exec_magat_alike (s : State) : AnswersAlike .magat s := by
  have hresult : Computes (fun (_ : Unit) (u : State) =>
      { u with resf := magOf u.draws u.pregs.re u.pregs.im }.draw MAG_DRAWS) :=
    .of_open (fun _ _ => rfl) (fun _ _ => ⟨rfl, rfl, rfl⟩) fun _ _ => rfl
  show AnswersAgree _ _ s (execMagat s) (execMagat s.calm)
  unfold execMagat
  refine State.checked_agree (fun _ => rfl) fun _ h => h.orNum ?_ fun u v _ huv =>
    (huv.compute hresult (v := ()) (w := ()) fun _ => rfl).finish
  exact h.bin (.refl s.farg) rfl (fun _ => rfl) s.len.isLt fun k hk => .of_source (List.mem_singleton.2 rfl) hk

theorem exec_xform_alike (g : Grid) (s : State) : AnswersAlike (.xform g) s := by
  show AnswersAgree _ _ s (execXform g s) (execXform g s.calm)
  unfold execXform
  refine State.checked_agree (fun _ => rfl) fun _ h => h.orNum ?_ fun u v _ huv =>
    (huv.compute computes_resi (v := s.cnt) (w := s.cnt) fun _ => rfl).finish
  exact h.transform (j := serialJob s g) ⟨.refl _, .refl _, rfl, rfl⟩ rfl
    (fun k hk => .of_source (List.mem_singleton.2 rfl) hk) fun k hk => inBuffer_add hk

/-- A job published (R117). -/
theorem computes_publish (j : Job) (cmd : Publisher) :
    Computes (fun (_ : Unit) (u : State) => u.publish j cmd) :=
  ⟨fun _ _ _ _ h => by unfold Alike at h ⊢; rw [h]; rfl, fun _ _ => ⟨rfl, rfl, rfl, rfl⟩, fun _ _ => rfl⟩

theorem exec_xformp_alike (g : Grid) (s : State) : AnswersAlike (.xformp g) s := by
  show AnswersAgree _ _ s (execXformp g s) (execXformp g s.calm)
  unfold execXformp
  exact State.checked_agree (fun _ => rfl) fun _ h =>
    (h.compute (computes_publish (parallelJob s g) .xformp) (v := ()) (w := ()) fun _ => rfl).answers

/-- `MAG` and `SQMAG`. -/
theorem exec_mags_alike {i : Instr} {s : State} (f : Nat → Word → Word → Word)
    (hexec : ∀ u : State, exec i u = u.checked magChecks fun s =>
      .next { s.magSpectrum f s.src.toNat s.dst.toNat s.cnt.toNat with resi := s.cnt }.finish)
    (hsource : s.sourcesOf i = [(s.src, 8 * s.cnt.toNat)]) (hdest : s.destinationOf i = (s.dst, 4 * s.cnt.toNat)) :
    AnswersAlike i s := by
  have hR : ∀ k < 8 * s.cnt.toNat, s.Reads i (s.src.toNat + k) := fun k hk =>
    .of_source (by rw [hsource]; exact List.mem_singleton.2 rfl) hk
  have hW : ∀ k < 4 * s.cnt.toNat, s.Writes i (s.dst.toNat + k) := fun k hk => by
    rw [State.Writes, hdest]; exact inBuffer_add hk
  unfold AnswersAlike
  rw [hexec, hexec]
  exact State.checked_agree (fun _ => rfl) fun _ h =>
    ((h.magSpectrum f s.cnt.isLt hR hW).compute computes_resi (v := s.cnt) (w := s.cnt) fun _ => rfl).finish

theorem exec_mag_alike (s : State) : AnswersAlike .mag s := exec_mags_alike magOf (fun _ => rfl) rfl rfl

theorem exec_sqmag_alike (s : State) : AnswersAlike .sqmag s := exec_mags_alike sqmagOf (fun _ => rfl) rfl rfl

/-! ### The classifier -/

/-- A command that reads words and goes on with what it read. -/
theorem Twin.onWords {R W : Nat → Prop} {s x y : State} (h : Twin R W s x y) {a n : Nat} (hR : ∀ i < 4 * n, R (a + i))
    {k : List Word × State → Host.Outcome State Fault Refusal}
    (hk : ∀ r r', Twin R W s r.2 r'.2 → (Untouched R s → r'.1 = r.1) → AnswersAgree R W s (k r) (k r')) :
    AnswersAgree R W s (k (x.readWords .p a n)) (k (y.readWords .p a n)) :=
  hk _ _ (h.readWords hR).1 (h.readWords hR).2

theorem exec_lddict_alike (s : State) : AnswersAlike .lddict s := by
  have hload : Computes (fun (ws : List Word) (u : State) => { u with dict := dictOf ws, dictv := true }) :=
    ⟨fun _ _ _ _ h => by unfold Alike at h ⊢; rw [h], fun _ _ => ⟨rfl, rfl, rfl, rfl⟩, fun _ _ => rfl⟩
  show AnswersAgree _ _ s (execLddict s) (execLddict s.calm)
  unfold execLddict
  refine State.checked_agree (fun _ => rfl) fun _ h => ?_
  simp only [show s.calm.beginCommand.src = s.beginCommand.src from rfl]
  exact h.onWords (k := fun r => .next { r.2 with dict := dictOf r.1, dictv := true }.finish)
    (a := s.beginCommand.src.toNat) (n := Config.NDICT * Config.KC)
    (fun k hk => .of_source (b := s.src) (n := 41984) (List.mem_singleton.2 rfl) hk)
    fun r r' htwin hwords => (htwin.compute hload hwords).finish

theorem exec_dist_alike (s : State) : AnswersAlike .dist s := by
  have hdist : Computes (fun (ws : List Word × List Word) (u : State) =>
      { u with pregs := { u.pregs with re := distF u.draws ws.1 ws.2 }, resf := distF u.draws ws.1 ws.2 }.draw
        DIST_DRAWS) :=
    .of_open (fun _ _ => rfl) (fun _ _ => ⟨rfl, rfl, rfl⟩) fun _ _ => rfl
  show AnswersAgree _ _ s (execDist s) (execDist s.calm)
  unfold execDist
  refine State.checked_agree (fun _ => rfl) fun _ h => ?_
  obtain ⟨htwin, hpairs⟩ := h.readPairs (a := s.beginCommand.src.toNat) (b := s.beginCommand.aux.toNat) (n := Config.KC)
    (fun k hk => .of_source (b := s.src) (n := 164) (.head _) hk)
    fun k hk => .of_source (b := s.aux) (n := 164) (.tail _ (.head _)) hk
  have hsrc : s.calm.beginCommand.src = s.beginCommand.src := rfl
  have haux : s.calm.beginCommand.aux = s.beginCommand.aux := rfl
  simp only [hsrc, haux]
  generalize s.beginCommand.readPairs s.beginCommand.src.toNat _ _ = r at htwin hpairs ⊢
  generalize s.calm.beginCommand.readPairs s.beginCommand.src.toNat _ _ = r' at htwin hpairs ⊢
  exact (htwin.compute hdist (v := (r.1, r.2.1)) (w := (r'.1, r'.2.1)) fun hu =>
    Prod.ext (hpairs hu).1 (hpairs hu).2).finish

theorem computes_classifySpectrum : Computes (fun (spec : List Word) (u : State) => u.classifySpectrum spec) :=
  .of_open (fun _ _ => rfl) (fun _ _ => ⟨rfl, rfl, rfl⟩) fun _ _ => rfl

theorem exec_classify_alike (s : State) : AnswersAlike .classify s := by
  show AnswersAgree _ _ s (execClassify s) (execClassify s.calm)
  unfold execClassify
  refine State.checked_agree (fun _ => rfl) fun _ h => ?_
  simp only [show s.calm.beginCommand.src = s.beginCommand.src from rfl]
  exact h.onWords (k := fun r => .next (r.2.classifySpectrum r.1).finish) (a := s.beginCommand.src.toNat)
    (n := Config.KC) (fun k hk => .of_source (b := s.src) (n := 164) (List.mem_singleton.2 rfl) hk)
    fun r r' htwin hwords => (htwin.compute computes_classifySpectrum hwords).finish

theorem ranked_length (d : Vector Word 256) : (ranked d.toList).length = 256 := by
  rw [(ranked_perm d.toList).length_eq, numbered_eq_records, List.length_map, List.length_finRange]

/-- The distances computed and kept in `RD` (R140). -/
theorem computes_distances : Computes (fun (spec : List Word) (u : State) =>
    { (u.computeDistances spec).2 with rd := (u.computeDistances spec).1 }) :=
  .of_open (fun _ _ => rfl) (fun _ _ => ⟨rfl, rfl, rfl⟩) fun _ _ => rfl

/-- `RANK` behind its spectrum: the distances, then the first `K` records at `a`. -/
def State.rankFrom (u : State) (spec : List Word) (a : Nat) (K : Word) : Host.Outcome State Fault Refusal :=
  .next { ({ (u.computeDistances spec).2 with rd := (u.computeDistances spec).1 } : State).writeRecords a
    ((ranked (u.computeDistances spec).1.toList).take K.toNat) with resi := K }.finish

theorem Twin.rankFrom {R W : Nat → Prop} {s x y : State} (h : Twin R W s x y) {spec spec' : List Word} {a : Nat}
    {K : Word} (hspec : Untouched R s → spec' = spec) (hW : ∀ k < 8 * K.toNat, W (a + k)) :
    AnswersAgree R W s (x.rankFrom spec a K) (y.rankFrom spec' a K) := by
  have hdistances := h.compute computes_distances hspec
  have hlen : ∀ (u : State) (spec : List Word),
      ((ranked (u.computeDistances spec).1.toList).take K.toNat).length = min K.toNat 256 := fun u spec => by
    rw [List.length_take, ranked_length]
  have hrecords := hdistances.writeRecords (a := a)
    (rs := (ranked (x.computeDistances spec).1.toList).take K.toNat)
    (rs' := (ranked (y.computeDistances spec').1.toList).take K.toNat)
    (by rw [hlen, hlen]) (fun k hk => hW k (by rw [hlen] at hk; omega)) fun hu => by
      rw [hspec hu, h.calm hu]; rfl
  exact (hrecords.compute computes_resi (v := K) (w := K) fun _ => rfl).finish

theorem exec_rank_alike (s : State) : AnswersAlike .rank s := by
  show AnswersAgree _ _ s (execRank s) (execRank s.calm)
  unfold execRank
  refine State.checked_agree (fun _ => rfl) fun _ h => ?_
  simp only [show s.calm.beginCommand.src = s.beginCommand.src from rfl]
  exact h.onWords (k := fun r => r.2.rankFrom r.1 s.dst.toNat s.cnt) (a := s.beginCommand.src.toNat)
    (n := Config.KC) (fun k hk => .of_source (b := s.src) (n := 164) (List.mem_singleton.2 rfl) hk)
    fun r r' htwin hwords => htwin.rankFrom hwords fun k hk => inBuffer_add hk

/-! ### The pipeline -/

theorem exec_repl_alike (s : State) : AnswersAlike .repl s := by
  show AnswersAgree _ _ s (execRepl s) (execRepl s.calm)
  unfold execRepl
  refine State.checked_agree (fun _ => rfl) fun _ h => ?_
  have htwin := h.replicate (src := s.src.toNat) (dst := s.dst.toNat) (n := s.len.toNat) (r := s.cnt.toNat)
    (fun k hk => .of_source (List.mem_singleton.2 rfl) hk) fun k hk => inBuffer_add hk
  exact (htwin.compute computes_resi (v := wordOf (replSize s)) (w := wordOf (replSize s)) fun _ => rfl).finish

theorem State.copyBytes_pregs (s : State) (src dst n : Nat) : (s.copyBytes src dst n).pregs = s.pregs := by
  induction n generalizing s src dst with
  | zero => rfl
  | succ n ih =>
    exact (ih _ _ _).trans ((State.writeByte_regs (s.noteRead .p src 1) .p dst _).trans (s.noteRead_regs .p src 1))

theorem State.replicate_pregs (s : State) (src dst n r : Nat) : (s.replicate src dst n r).pregs = s.pregs := by
  induction r generalizing s dst with
  | zero => rfl
  | succ r ih => exact (ih _ _).trans (s.copyBytes_pregs src dst n)

section
variable {R W : Nat → Prop} {s x y : State}

/-- The rest of a `PIPE` whose work area `P` may read and write. -/
theorem Twin.pipeTail (h : Twin R W s x y) (hdst : x.dst.toNat + 572 ≤ 2 ^ 32)
    (hR : ∀ k < 572, R (x.dst.toNat + k)) (hW : ∀ k < 572, W (x.dst.toNat + k)) :
    AnswersAgree R W s (.next (pipeTail x)) (.next (pipeTail y)) := by
  obtain ⟨hspectrum, hsquares⟩ := workArea_toNat hdst
  have hmags := h.magSpectrum sqmagOf (src := (x.dst + SPECTRUM_AT).toNat) (dst := (x.dst + SQUARES_AT).toNat)
    (n := Config.KC) (by decide)
    (fun k hk => by replace hk : k < 8 * 41 := hk; rw [hspectrum, Nat.add_assoc]; exact hR _ (by omega))
    fun k hk => by replace hk : k < 4 * 41 := hk; rw [hsquares, Nat.add_assoc]; exact hW _ (by omega)
  obtain ⟨htwin, hwords⟩ := hmags.readWords (a := (x.dst + SQUARES_AT).toNat) (n := Config.KC) fun k hk => by
    replace hk : k < 4 * 41 := hk
    rw [hsquares, Nat.add_assoc]
    exact hR _ (by omega)
  have hsame : y.dst = x.dst := h.alike.dst.symm
  simp only [Machine.pipeTail, hsame]
  exact (htwin.compute computes_classifySpectrum hwords).finish

end

theorem exec_pipe_alike (m : PipeMode) (s : State) : AnswersAlike (.pipe m) s := by
  show AnswersAgree _ _ s (execPipe m s) (execPipe m s.calm)
  unfold execPipe
  refine State.checked_agree (fun _ => rfl) fun hpass h => ?_
  have hfits := (pipeChecks_pass s.beginCommand).1 hpass
  have hdst : s.dst.toNat + 572 ≤ 2 ^ 32 := hfits.output.trans s.memBytes_le
  have hW : ∀ k < 572, s.Writes (.pipe m) (s.dst.toNat + k) := fun k hk => inBuffer_add hk
  have hrep := h.replicate (src := s.src.toNat) (dst := s.dst.toNat) (n := Config.PLEN) (r := Config.REP)
    (fun k hk => .of_source (List.mem_singleton.2 rfl) hk)
    fun k hk => hW k (by replace hk : k < 80 := hk; omega)
  cases m with
  | parallel =>
    exact (hrep.compute (computes_publish (pipeParallelJob s) .pipe) (v := ()) (w := ()) fun _ => rfl).answers
  | serial =>
    obtain ⟨hspectrum, -⟩ := workArea_toNat hdst
    have hcourse : ∀ u v : State, v.pregs = u.pregs → SameCourse u.pregs v.pregs := fun u v huv => by
      rw [huv]; exact ⟨.refl _, .refl _, rfl, rfl⟩
    refine h.orNum (hrep.transform (j := pipeJob s) (hcourse _ _ ?_) rfl (fun k hk => ?_) fun k hk => ?_)
      fun u v hu huv => ?_
    · rw [State.replicate_pregs, State.replicate_pregs]
      rfl
    · replace hk : k < 80 := hk
      exact (hW k (by omega)).reads
    · replace hk : k < 8 * 41 := hk
      show s.Writes _ ((s.dst + SPECTRUM_AT).toNat + k)
      rw [hspectrum, Nat.add_assoc]
      exact hW _ (by omega)
    · have hudst : u.dst = s.dst := by
        obtain ⟨-, -, -, hd, -⟩ := (State.transform_work hu).hostFrame.fields
        obtain ⟨-, -, -, hd', -⟩ :=
          (s.beginCommand.replicate_work s.src.toNat s.dst.toNat Config.PLEN Config.REP).hostFrame.fields
        exact hd.trans hd'
      exact huv.pipeTail (hudst ▸ hdst) (fun k hk => hudst ▸ (hW k hk).reads) fun k hk => hudst ▸ hW k hk

/-! ### Every command -/

theorem exec_alike (i : Instr) (s : State) : AnswersAlike i s := by
  cases i with
  | init => exact exec_init_alike s
  | sin => exact exec_sin_alike s
  | cos => exact exec_cos_alike s
  | magat => exact exec_magat_alike s
  | xform g => exact exec_xform_alike g s
  | xformp g => exact exec_xformp_alike g s
  | mag => exact exec_mag_alike s
  | sqmag => exact exec_sqmag_alike s
  | wlaunch => exact exec_wlaunch_alike s
  | lddict => exact exec_lddict_alike s
  | dist => exact exec_dist_alike s
  | classify => exact exec_classify_alike s
  | rank => exact exec_rank_alike s
  | repl => exact exec_repl_alike s
  | pipe m => exact exec_pipe_alike m s

/-- Settles O16: the command run with and without the host's record, side by side. -/
theorem everyCommandAnswers : Obligations.EveryCommandAnswers := by
  intro i s
  obtain ⟨t, u, ht, hu, halike, houtside, hcalm⟩ := exec_alike i s
  refine ⟨t, u, ht, hu, halike, fun hw a ha hout => houtside hw a ha fun ⟨hlo, hhi⟩ => ?_, fun hfar => hcalm ?_⟩
  · omega
  · rintro a ha ⟨b, hb, hlo, hhi⟩
    have := hfar a ha b hb
    omega

end Sys2Proof.Machine
end

section
/-! PROOFS. Which angles a lookup has an index for, and the commands `SIN` and `COS` (41_triglut.md rules R91 to
R97). -/

namespace Sys2Proof.Machine

/-! ### The angles that have an index (R94) -/

/-- A rounded magnitude is a finite pattern exactly below the overflow boundary. -/
theorem f32Signed_round_isFinite_iff (neg : Bool) (num : Nat) {den : Nat} (hd : 0 < den) :
    f32IsFinite (f32Signed neg (roundMag num den)) = true ↔ num < OVERFLOW * den := by
  have hle : roundMag num den ≤ 0x7F800000 := min_le_right _ _
  rw [f32IsFinite_iff, f32Signed_toNat_mod neg (by omega), ← nearestPat_lt_inf_iff num hd, roundMag_eq_min]
  omega

/-- `0x7BC90FDA` is the last pattern whose product with `SCALE` does not round to infinity. -/
theorem scale_overflows_between : patMag 0x7BC90FDA * f32Mag SCALE < OVERFLOW * 2 ^ 149 ∧
    OVERFLOW * 2 ^ 149 ≤ patMag (0x7BC90FDA + 1) * f32Mag SCALE := by decide

theorem fmul_scale_isFinite_iff (n : Nat) {a : Word} (ha : f32IsFinite a = true) :
    f32IsFinite (fmul n a SCALE) = true ↔ Indexable a := by
  obtain ⟨hbelow, habove⟩ := scale_overflows_between
  have hmono : ∀ {p q : Nat}, p ≤ q → patMag p * f32Mag SCALE ≤ patMag q * f32Mag SCALE := fun h =>
    Nat.mul_le_mul_right _ (patMag_strictMono.monotone h)
  rw [fmul_finite_eq n ha (by decide), f32Signed_round_isFinite_iff _ _ (Nat.two_pow_pos 149), f32Mag_eq_patMag a]
  constructor
  · intro hlt
    by_contra hout
    exact absurd (habove.trans (hmono (not_le.1 hout))) (not_le.2 hlt)
  · exact fun hin => (hmono hin).trans_lt hbelow

theorem Indexable.isFinite {a : Word} (h : Indexable a) : f32IsFinite a = true :=
  (f32IsFinite_iff a).2 (by omega)

/-- An angle that is no number or infinite has no finite scaled angle. -/
theorem fmul_scale_infinite (n : Nat) {a : Word} (ha : f32IsFinite a = false) :
    (!f32IsNaN a && f32IsFinite (fmul n a SCALE)) = false := by
  cases hnan : f32IsNaN a with
  | true => rfl
  | false =>
    have hinf : f32IsInf a = true := by
      simp only [f32IsNaN, f32IsInf, f32IsFinite, bne_eq_false_iff_eq] at ha hnan ⊢
      simpa [ha] using hnan
    have hscale : f32IsNaN SCALE = false ∧ f32IsInf SCALE = false ∧ f32Mag SCALE ≠ 0 := by decide
    have hfin : ∀ neg, f32IsFinite (f32Signed neg 0x7F800000) = false := by decide
    simp [fmul, hnan, hinf, ha, hscale, hfin]

theorem lookup_isSome_iff (n : Nat) (T : Vector Word Config.L) (a : Word) :
    (lookup n T a).isSome = true ↔ Indexable a := by
  rw [lookup_isSome_eq]
  cases ha : f32IsFinite a with
  | true => rw [(f32_classes ha).1, Bool.not_false, Bool.true_and, fmul_scale_isFinite_iff n ha]
  | false =>
    rw [fmul_scale_infinite n ha]
    exact iff_of_false Bool.false_ne_true fun h => Bool.false_ne_true (ha.symm.trans h.isFinite)

/-! ### The entries a lookup blends (R91) -/

theorem getD_tableIndex (T : Vector Word Config.L) (t : Int) :
    T.toList.getD (t % 1024).toNat 0 = T[tableIndex t] := by
  have hlt : (t % 1024).toNat < T.toList.length := by
    rw [Vector.length_toList]; exact (tableIndex t).isLt
  rw [List.getD_eq_getElem _ _ hlt]
  rfl

theorem nextIndex_tableIndex (t : Int) : nextIndex (tableIndex t) = tableIndex (t + 1) := by
  apply Fin.ext
  simp only [nextIndex, tableIndex, Config.L]
  omega

theorem lookup_of_indexable (n : Nat) (T : Vector Word Config.L) {a : Word} (h : Indexable a) :
    lookup n T a = some (interpolated n T a) := by
  rw [lookup_finite n T h.isFinite ((fmul_scale_isFinite_iff n h.isFinite).2 h)]
  simp only [interpolated, getD_tableIndex, nextIndex_tableIndex]

theorem lookup_of_not_indexable (n : Nat) (T : Vector Word Config.L) {a : Word} (h : ¬ Indexable a) :
    lookup n T a = none := by
  rw [← Option.not_isSome_iff_eq_none, lookup_isSome_iff]
  exact h

/-- Settles O19: the scaled angle overflows exactly beyond `0x7BC90FDA`, and the two indices are those of R91. -/
theorem lookupRange : Obligations.LookupRange := by
  intro n T a
  split_ifs with h
  · exact lookup_of_indexable n T h
  · exact lookup_of_not_indexable n T h

/-! ### `SIN` and `COS` (R96, R97) -/

/-- How a command ends that has stored nothing: what it computed stays, with what every command's end changes. -/
theorem State.finish_drained_endedAs {v : State} (hd : v.disturbed = []) (hsb : v.pview.sb = []) :
    v.finish = v.endedAs v.finish ∧ v.finish.pview.sb = [] := by
  rw [v.finish_drained hd hsb]
  exact ⟨by simp only [State.endedAs, ← hd], hsb⟩

theorem checked_initd {s : State} {body : State → Host.Outcome State Fault Refusal} (h : s.initd = true) :
    s.checked (fun s => [ckNeeds s.initd]) body = body s.beginCommand :=
  State.checked_passes (show Pass [ckNeeds s.initd] by simp [h])

theorem execSin_begun {s : State} (h : s.initd = true) :
    exec .sin s = answerLookup s.beginCommand (lookup s.draws s.sintab s.farg) := by
  rw [show exec .sin s = execSin s from rfl, execSin, checked_initd h]
  rfl

theorem execCos_begun {s : State} (h : s.initd = true) :
    exec .cos s = answerLookup s.beginCommand (lookup s.draws s.costab s.farg) := by
  rw [show exec .cos s = execCos s from rfl, execCos, checked_initd h]
  rfl

/-- The answer of a lookup that has an index: the value in `RESF`, and the command ends. -/
theorem answerLookup_ends {s : State} (hs : s.Ready) (v : Word) :
    ∃ t, answerLookup s.beginCommand (some v) = .next t ∧ t = { s.endedAs t with resf := v } ∧ t.pview.sb = [] := by
  obtain ⟨hsb, hd⟩ := hs
  obtain ⟨hend, hdrained⟩ :=
    State.finish_drained_endedAs (v := { s.beginCommand with resf := v }.draw LOOKUP_DRAWS) hd hsb
  exact ⟨_, answerLookup_some _ v, hend, hdrained⟩

/-- Settles O18: `FARG` has an index, so the lookup answers, and nothing is pending when the command ends. -/
theorem sinCosInterpolate : Obligations.SinCosInterpolate := by
  intro s hinit hs hangle
  rw [execSin_begun hinit, execCos_begun hinit, lookup_of_indexable _ _ hangle, lookup_of_indexable _ _ hangle]
  exact ⟨answerLookup_ends hs _, answerLookup_ends hs _⟩

end Sys2Proof.Machine
end

section
/-! PROOFS. The tables `INIT` fills (41_triglut.md rules R90, R95). -/

namespace Sys2Proof.Machine

/-! ### The quarters of the sine table (R90) -/

theorem sinEntry_first {i : Nat} (hi : i ≤ 256) : sinEntry i = quadrant.getD i 0 := if_pos hi

/-- R90 (b): the second quarter mirrors the first. -/
theorem sinEntry_mirror {i j : Nat} (hi : i ≤ 256) (hij : i + j = 512) : sinEntry j = sinEntry i := by
  obtain rfl : i = 512 - j := by omega
  rw [sinEntry_first hi]
  by_cases hj : j ≤ 256
  · obtain rfl : j = 256 := by omega
    rfl
  · rw [sinEntry, if_neg hj, if_pos (by omega)]

/-- R90 (c): the second half is the first, negated. -/
theorem sinEntry_half {i : Nat} (hi : 0 < i) (hlt : i < 512) : sinEntry (512 + i) = fneg (sinEntry i) := by
  have hfirst : ¬ 512 + i ≤ 256 := by omega
  have hsecond : ¬ 512 + i ≤ 512 := by omega
  rw [sinEntry, if_neg hfirst, if_neg hsecond]
  by_cases hq : i ≤ 256
  · rw [if_pos (by omega), sinEntry_first hq, Nat.add_sub_cancel_left]
  · rw [if_neg (by omega), sinEntry, if_neg hq, if_pos (by omega), show 1024 - (512 + i) = 512 - i by omega]

/-- R90: the exact zeros and units. -/
theorem sinEntry_exact : sinEntry 0 = 0 ∧ sinEntry 512 = 0 ∧ sinEntry 256 = 0x3F800000 ∧
    sinEntry 768 = 0xBF800000 := by decide

theorem sinTable_get (i : Fin 1024) : sinTable.get i = sinEntry i.val := tab_get _ _ i

theorem cosTable_get (i : Fin 1024) : cosTable.get i = sinEntry ((i.val + 256) % 1024) := tab_get _ _ i

/-! ### `INIT` (R95) -/

theorem execInit_begun {s : State} (h : s.initd = false) : exec .init s = .next (fillTables s.beginCommand).finish :=
  State.checked_passes (f := fun s => [ckRepeat s.initd]) (body := fun s => .next (fillTables s).finish)
    (show Pass [ckRepeat s.initd] by simp [h])

/-- Settles O17: nothing is pending when `INIT` ends, and the tables are read entry by entry. -/
theorem initFillsTables : Obligations.InitFillsTables := by
  intro s hinit ⟨hsb, hd⟩
  obtain ⟨hend, hdrained⟩ := State.finish_drained_endedAs (v := fillTables s.beginCommand) hd hsb
  have hexec := execInit_begun hinit
  generalize (fillTables s.beginCommand).finish = t at hend hdrained hexec
  have hsin : t.sintab = sinTable := by rw [hend]; rfl
  have hcos : t.costab = cosTable := by rw [hend]; rfl
  obtain ⟨hzero, hhalf, hunit, hminus⟩ := sinEntry_exact
  refine ⟨t, hexec, ?_, hdrained, ?_⟩
  · rw [hsin, hcos]; exact hend
  · simp only [hsin, hcos, sinTable_get, cosTable_get]
    refine ⟨fun i hi => sinEntry_first hi, fun i j hj => by rw [hj], fun i j hi hij => sinEntry_mirror hi hij,
      fun i j hi hj => ?_, hzero, hhalf, hhalf, hzero, hunit, hunit, hminus, hminus⟩
    rw [hj]
    exact sinEntry_half hi (by omega)

end Sys2Proof.Machine
end

section
/-! PROOFS. Where a lookup stops a command (41_triglut.md rule R94, 42_dtft.md rules R101, R105, 60_exceptions.md rules
R157, R161). -/

namespace Sys2Proof.Machine

/-! ### Where the kernel stops (R101) -/

/-- A kernel that does not answer stops at a sample: the samples before it are done, and its own lookups are not. -/
theorem kernel_stops {n m : Nat} {S C : Vector Word Config.L} {x : Nat → Byte} {r : Datapath}
    (h : kernel n S C x m r = none) :
    ∃ k q, k < m ∧ kernel n S C x k r = some q ∧
      accumulate (n + SAMPLE_DRAWS * k) S C (x q.nidx.toNat) q = none := by
  induction m generalizing n r with
  | zero => cases h
  | succ m ih =>
    cases hacc : accumulate n S C (x r.nidx.toNat) r with
    | none => exact ⟨0, r, Nat.succ_pos m, rfl, hacc⟩
    | some r' =>
      simp only [kernel, hacc] at h
      obtain ⟨k, q, hk, hq, hstop⟩ := ih h
      refine ⟨k + 1, q, Nat.succ_lt_succ hk, by simp only [kernel, hacc, hq], ?_⟩
      rwa [Nat.mul_succ, Nat.add_comm (SAMPLE_DRAWS * k), ← Nat.add_assoc]

theorem accumulate_isSome_iff (n : Nat) (S C : Vector Word Config.L) (x : Byte) (r : Datapath) :
    (accumulate n S C x r).isSome = true ↔ Indexable r.angle := by
  rw [accumulate_isSome, Bool.and_eq_true, lookup_isSome_iff, lookup_isSome_iff, and_self]

theorem not_indexable_of_accumulate {n : Nat} {S C : Vector Word Config.L} {x : Byte} {r : Datapath}
    (h : accumulate n S C x r = none) : ¬ Indexable r.angle := by
  rw [← accumulate_isSome_iff n S C x r, h]
  exact Bool.false_ne_true

/-! ### Where a core's samples stop -/

theorem State.samples_stop {s t : State} {c : CoreId} {sig k m : Nat} {e : Angle} (hs : s.samples c sig k = .ok t)
    (ht : t.sample c sig = .error e) (hk : k < m) : s.samples c sig m = .error e := by
  obtain ⟨m, rfl⟩ := Nat.exists_eq_add_of_lt hk
  induction k generalizing s with
  | zero =>
    cases hs
    rw [State.samples_succ, ht]
    rfl
  | succ k ih =>
    rw [State.samples_succ] at hs
    rw [show k + 1 + m + 1 = k + m + 1 + 1 by omega, State.samples_succ]
    cases hfirst : s.sample c sig with
    | error e => rw [hfirst] at hs; cases hs
    | ok u => rw [hfirst] at hs; exact ih hs (by omega)

/-- Samples that stop do so at the first angle without an index, which they report. -/
theorem State.samples_stops {s : State} {c : CoreId} {sig m : Nat} (hd : s.disturbed = [])
    (h : kernel s.draws s.sintab s.costab (fun i => s.coreByte c (sig + i)) m (s.regs c) = none) :
    ∃ k r n, k < m ∧
      kernel s.draws s.sintab s.costab (fun i => s.coreByte c (sig + i)) k (s.regs c) = some r ∧
      ¬ Indexable r.angle ∧ s.samples c sig m = .error (r.angle, n) := by
  obtain ⟨k, r, hk, hr, hstop⟩ := kernel_stops h
  have hspec := s.samples_spec c sig k hd
  rw [hr] at hspec
  obtain ⟨t, ht, hwork, hregs, hbytes, hdraws, -⟩ := hspec
  have hcalm : t.disturbed = [] := hwork.only.disturbed.trans hd
  have hsample : t.sample c sig = .error (r.angle, t.draws + SAMPLE_DRAWS) := by
    simp only [State.sample, t.readByte_calm c _ hcalm, hregs, hbytes, hdraws, hwork.only.sintab, hwork.only.costab,
      hstop]
  exact ⟨k, r, _, hk, hr, not_indexable_of_accumulate hstop, State.samples_stop ht hsample hk⟩

/-- `BIN` likewise, from the registers it starts with (R101). -/
theorem State.bin_stops {s : State} {c : CoreId} {sig N : Nat} {w : Word} (hd : s.disturbed = [])
    (h : dtftBin s.draws s.sintab s.costab (fun i => s.coreByte c (sig + i)) N w = none) :
    ∃ k r n, k < N ∧
      kernel s.draws s.sintab s.costab (fun i => s.coreByte c (sig + i)) k (binStart w Datapath.reset) = some r ∧
      ¬ Indexable r.angle ∧ s.bin c sig N w = .error (r.angle, n) := by
  have hstart : binStart w (s.regs c) = { binStart w Datapath.reset with kidx := (s.regs c).kidx } := rfl
  have hstops := (s.setRegs c (binStart w (s.regs c))).samples_stops (c := c) (sig := sig) (m := N) (by simpa using hd)
  simp only [State.setRegs_draws, State.setRegs_sintab, State.setRegs_costab, State.setRegs_coreByte,
    State.setRegs_regs, hstart, kernel_kidx, Option.map_eq_none_iff, Option.map_eq_some_iff] at hstops
  obtain ⟨k, _, n, hk, ⟨r, hr, rfl⟩, hangle, hbin⟩ := hstops (Option.map_eq_none_iff.1 h)
  exact ⟨k, r, n, hk, hr, hangle, hbin⟩

/-! ### `MAGAT` (R105) -/

/-- `MAGAT` may begin. -/
structure State.MagatFits (s : State) : Prop where
  initd : s.initd = true
  source : s.holds s.src s.len.toNat

theorem magatChecks_pass (s : State) :
    Pass [ckNeeds s.initd, s.ckAddr s.src s.len.toNat] ↔ s.MagatFits := by
  simp only [pass_cons, pass_nil, and_true, ckNeeds_fails, State.ckAddr_fails, Bool.not_eq_false', State.inMemory_iff]
  exact ⟨fun ⟨h1, h2⟩ => ⟨h1, h2⟩, fun ⟨h1, h2⟩ => ⟨h1, h2⟩⟩

theorem State.beginError_magat (s : State) : s.beginError .magat = none ↔ s.MagatFits := by
  refine ⟨fun h => ?_, fun ⟨h1, h2⟩ => by simp only [State.beginError, h1, h2]; rfl⟩
  simp only [State.beginError] at h
  split_ifs at h with h1 h2
  exact ⟨h1, h2⟩

theorem checked_magat {s : State} {body : State → Host.Outcome State Fault Refusal} (h : s.beginError .magat = none) :
    s.checked (fun s => [ckNeeds s.initd, s.ckAddr s.src s.len.toNat]) body = body s.beginCommand :=
  State.checked_passes ((magatChecks_pass s.beginCommand).2 (s.beginCommand.beginError_magat.1 h))

theorem execMagat_begun {s : State} (h : s.beginError .magat = none) :
    exec .magat s = orNum s.beginCommand (s.beginCommand.bin .p s.src.toNat s.len.toNat s.farg) (fun s1 =>
      .next ({ s1 with resf := magOf s1.draws s1.pregs.re s1.pregs.im }.draw MAG_DRAWS).finish) := by
  rw [show exec .magat s = execMagat s from rfl, execMagat, checked_magat h]
  rfl

theorem answerLookup_fails (s : State) : answerLookup s.beginCommand none = .next (s.failedAs .num s.farg s.draws) :=
  answerLookup_none s.beginCommand

/-- Settles O14: `FARG` has no index, or the first accumulated angle without one stops the bin. -/
theorem numericErrors : Obligations.NumericErrors := by
  intro s
  refine ⟨fun hinit hangle => ?_, fun hbegin ⟨hsb, hd⟩ hnone => ?_⟩
  · rw [execSin_begun hinit, execCos_begun hinit, lookup_of_not_indexable _ _ hangle,
      lookup_of_not_indexable _ _ hangle, answerLookup_fails]
    exact ⟨rfl, rfl⟩
  · obtain ⟨-, hbytes, -⟩ := s.beginCommand_spec hsb
    have hstops := s.beginCommand.bin_stops (c := .p) (sig := s.src.toNat) (N := s.len.toNat) (w := s.farg) hd
    rw [hbytes] at hstops
    obtain ⟨m, r, n, hm, hr, hangle, hbin⟩ := hstops hnone
    refine ⟨m, r, n, s.pregs, hm, hr, hangle, ?_⟩
    rw [execMagat_begun hbegin, hbin]
    exact orNum_error _ _ _

end Sys2Proof.Machine
end

section
/-! PROOFS. `MAGAT` on angles that all have an index (42_dtft.md rule R105). -/

namespace Sys2Proof.Machine

/-- `MAGAT` whose bin is `b`. -/
theorem execMagat_bin {s : State} (hbegin : s.beginError .magat = none) (hs : s.Ready) {b : Word × Word}
    (hb : dtftBin s.draws s.sintab s.costab (fun i => s.mem.read (s.src.toNat + i)) s.len.toNat s.farg = some b) :
    ∃ t, exec .magat s = .next t ∧
      t = { s.endedAs t with resf := magOf (s.draws + SAMPLE_DRAWS * s.len.toNat) b.1 b.2, pregs := t.pregs } ∧
      t.pview.sb = [] := by
  obtain ⟨hsb, hd⟩ := hs
  obtain ⟨-, hbytes, -⟩ := s.beginCommand_spec hsb
  have hspec := s.beginCommand.bin_spec .p s.src.toNat s.len.toNat s.farg hd
  rw [hbytes] at hspec
  have hplain : dtftBin s.beginCommand.draws s.beginCommand.sintab s.beginCommand.costab
      (fun i => s.mem.read (s.src.toNat + i)) s.len.toNat s.farg = some b := hb
  rw [hplain] at hspec
  obtain ⟨u, hu, hwork, hre, him, -, -, hdraws, husb⟩ := hspec
  have hudraws : u.draws = s.draws + SAMPLE_DRAWS * s.len.toNat := hdraws
  have hupsb : u.pview.sb = [] := husb.trans hsb
  have hexec : exec .magat s =
      .next ({ u with resf := magOf (s.draws + SAMPLE_DRAWS * s.len.toNat) b.1 b.2 }.draw MAG_DRAWS).finish := by
    rw [execMagat_begun hbegin, hu, orNum_ok, hudraws, ← hre, ← him]
    rfl
  generalize hv : ({ u with resf := magOf (s.draws + SAMPLE_DRAWS * s.len.toNat) b.1 b.2 } : State).draw MAG_DRAWS = v
    at hexec
  have hvd : v.disturbed = [] := by rw [← hv]; exact hwork.only.disturbed.trans hd
  have hend := v.finish_drained hvd (by rw [← hv]; exact hupsb)
  refine ⟨v.finish, hexec, ?_, v.finish_pview_sb⟩
  generalize v.finish = t at hend ⊢
  have honly := hwork.only
  have hnone : s.beginCommand.disturbed = [] := hd
  simp only [OnlyCore] at honly
  rw [hend, ← hv, honly]
  simp only [State.endedAs, State.draw, hnone]
  rfl

/-- The magnitude of a zero bin (R105). -/
theorem magOf_zero (n : Nat) : magOf n 0 0 = 0 := by
  have hfin : f32IsFinite 0 = true := by decide
  have hmag : f32Mag 0 = 0 := by decide
  have hsquare : ∀ m, fmul m 0 0 = 0 := fun m => by rw [fmul_zero_mag m hfin hfin (.inl hmag)]; decide
  have hsum : fadd (n + 2) 0 0 = 0 := by rw [fadd_finite_eq _ hfin hfin]; decide
  rw [magOf, sqmagOf, hsquare, hsquare, hsum, fsqrt_zero _ hfin hmag]

/-- Settles O20: the bin of no samples is zero at every frequency. -/
theorem magatResult : Obligations.MagatResult := by
  intro s hbegin hs
  refine ⟨fun b hb => execMagat_bin hbegin hs hb, fun hlen => ?_⟩
  have hb : dtftBin s.draws s.sintab s.costab (fun i => s.mem.read (s.src.toNat + i)) s.len.toNat s.farg =
      some (0, 0) := by rw [hlen]; rfl
  obtain ⟨t, ht, hframe, hsb⟩ := execMagat_bin hbegin hs hb
  rw [magOf_zero] at hframe
  exact ⟨t, ht, hframe, hsb⟩

end Sys2Proof.Machine
end

section
/-! PROOFS. How `XFORMP` and parallel `PIPE` begin (42_dtft.md rule R107, 43_coresync.md rule R117, 45_pipeline.md rule
R147). -/

namespace Sys2Proof.Machine

theorem execXformp_begun {g : Grid} {s : State} (h : s.beginError (.xformp g) = none) :
    exec (.xformp g) s = .next (s.beginCommand.publish (parallelJob s g) .xformp) :=
  State.checked_passes (s := s) (f := xformChecks) (body := fun s => .next (s.publish (parallelJob s g) .xformp))
    ((xformChecks_pass s.beginCommand).2 ((State.beginError_xform s.beginCommand g).1 h))

theorem execPipe_begun {m : PipeMode} {s : State} (h : s.beginError (.pipe m) = none) :
    exec (.pipe m) s = pipeBody m s.beginCommand :=
  State.checked_passes (s := s) (f := fun s => [ckNeeds (s.initd && s.dictv),
    ckUsage (s.len != wordOf Config.PLEN) s.len, ckAlign s.dst, s.ckAddr s.src Config.PLEN,
    s.ckAlloc s.dst Config.WORK_BYTES])
    ((pipeChecks_pass s.beginCommand).2 ((State.beginError_pipe s.beginCommand m).1 h))

/-- The replicate step of `PIPE`: what `P` reads after it, and what it leaves of the state (R147). -/
theorem pipeReplicate_spec {s : State} (hs : s.Ready) :
    ∃ u, s.beginCommand.replicate s.src.toNat s.dst.toNat Config.PLEN Config.REP = u ∧ Work .p s.beginCommand u ∧
      u.pview.fresh u.mem ∧ JobFree u.pview.sb ∧ u.draws = s.draws ∧ u.pregs = s.pregs ∧
      u.coreByte .p = plainReplicate s.src.toNat Config.PLEN s.dst.toNat Config.REP s.mem.read := by
  obtain ⟨hfresh, hbytes, hfree⟩ := s.beginCommand_spec hs.1
  obtain ⟨hwork, hdraws, hpregs, hplain⟩ := s.beginCommand.replicate_spec s.src.toNat s.dst.toNat Config.PLEN Config.REP
    hfresh hs.2
  rw [hbytes] at hplain
  exact ⟨_, rfl, hwork, hwork.fresh hfresh, hwork.jobFree hfree, hdraws, hpregs, hplain⟩

theorem execPipe_published {s u : State} (h : s.beginError (.pipe .parallel) = none)
    (hu : s.beginCommand.replicate s.src.toNat s.dst.toNat Config.PLEN Config.REP = u) :
    exec (.pipe .parallel) s = .next (u.publish (pipeParallelJob s) .pipe) := by
  rw [execPipe_begun h, ← hu]
  rfl

/-- Settles O22: each begins at the state its checks leave, and `PIPE` replicates its pattern first. -/
theorem parallelCommandsPublish : Obligations.ParallelCommandsPublish := by
  intro s hs
  refine ⟨fun g hbegin => execXformp_begun hbegin, fun hbegin => ?_⟩
  obtain ⟨u, hu, hwork, -, -, hdraws, hpregs, hplain⟩ := pipeReplicate_spec hs
  refine ⟨_, execPipe_published hbegin hu, ?_, fun a => congrFun hplain a⟩
  have honly := hwork.only
  simp only [OnlyCore, hdraws, hpregs] at honly
  rw [honly]
  rfl

end Sys2Proof.Machine
end

section
/-! PROOFS. How large a grid frequency can be (42_dtft.md rules R103, R104, R112): each of its two roundings adds less
than half a last place. -/

namespace Sys2Proof.Machine

/-! ### How far rounding takes a magnitude -/

theorem patMag_normal : patMag (2 ^ 23) = 2 ^ 23 := by
  have h := patMag_steps (e := 0) (m := 2 ^ 23) (by decide) (.inl rfl)
  rwa [Nat.zero_mul, Nat.zero_add, pow_zero, Nat.mul_one] at h

/-- Neighbouring normal patterns differ by at most one part in `2^23`. -/
theorem patMag_succ_le {p : Nat} (h : 2 ^ 23 ≤ p) : 2 ^ 23 * patMag (p + 1) ≤ (2 ^ 23 + 1) * patMag p := by
  obtain ⟨e, m, rfl, hm, he⟩ := exists_steps p
  have hm' : 2 ^ 23 ≤ m := by omega
  rw [patMag_steps hm.le he, Nat.add_assoc, patMag_steps (by omega) (by omega), ← Nat.mul_assoc, ← Nat.mul_assoc]
  exact Nat.mul_le_mul_right _ (by omega)

/-- A normal result rounded is larger by at most one part in `2^24`. -/
theorem nearestPat_le {num den : Nat} (hd : 0 < den) (h : 2 ^ 23 * den ≤ num) :
    2 ^ 24 * (patMag (nearestPat num den) * den) ≤ (2 ^ 24 + 1) * num := by
  obtain ⟨p, hlow, hhigh, hp⟩ := nearestPat_between num hd
  have hnormal : 2 ^ 23 ≤ p := by
    by_contra hlt
    have hmono : patMag (p + 1) ≤ patMag (2 ^ 23) := patMag_strictMono.monotone (by omega)
    rw [patMag_normal] at hmono
    have := Nat.mul_le_mul_right den hmono
    omega
  have hgap := Nat.mul_le_mul_right den (patMag_succ_le hnormal)
  rw [Nat.mul_assoc, Nat.mul_assoc] at hgap
  rw [Nat.add_mul] at hp
  rw [hp]
  split_ifs <;> omega

theorem roundMag_lt (num den : Nat) : roundMag num den < 2 ^ 31 :=
  (min_le_right _ _).trans_lt (by decide)

/-- A product of data without a sign. -/
theorem fmul_unsigned (n : Nat) {a b : Word} (ha : f32IsFinite a = true) (hb : f32IsFinite b = true)
    (hsa : f32Sign a = false) (hsb : f32Sign b = false) :
    f32Sign (fmul n a b) = false ∧ f32Mag (fmul n a b) = patMag (roundMag (f32Mag a * f32Mag b) (2 ^ 149)) := by
  rw [fmul_finite_eq n ha hb, hsa, hsb]
  exact ⟨f32Sign_signed _ (roundMag_lt _ _), f32Mag_signed _ (roundMag_lt _ _)⟩

theorem cvtU32_sign (k : Word) : f32Sign (cvtU32 k) = false := f32Sign_signed false (roundMag_lt _ _)

/-! ### The frequencies -/

/-- The magnitude of the pattern `0x40C90FF9`, just below 6.2832. -/
def FREQUENCY_BOUND : Nat := 0xC90FF9 * 2 ^ 128

/-- The product of a frequency's formula is at most the bound for each step. -/
theorem fmul_frequency_le {c : Word} (n : Nat) (k : Word) (hc : Within 3 c) (hs : f32Sign c = false)
    (hlow : 2 ^ 23 ≤ f32Mag c) (hhigh : f32Mag c ≤ f32Mag TWO_PI_F) :
    f32Mag (fmul n c (cvtU32 k)) * 2 ^ 149 ≤ FREQUENCY_BOUND * f32Mag (cvtU32 k) := by
  obtain ⟨-, hmag⟩ := fmul_unsigned n hc.1 (cvtU32_within k).1 hs (cvtU32_sign k)
  rw [hmag]
  rcases Nat.eq_zero_or_pos k.toNat with h0 | hpos
  · have hzero : f32Mag (cvtU32 k) = 0 := by
      rw [show k = 0 from BitVec.eq_of_toNat_eq h0]
      decide
    rw [hzero, Nat.mul_zero, roundMag_zero]
    decide
  · have hone : 2 ^ 149 ≤ f32Mag (cvtU32 k) :=
      (show 2 ^ 149 ≤ f32Mag (cvtU32 1) by decide).trans (cvtU32_mono (k := 1) hpos)
    have hround := nearestPat_le (num := f32Mag c * f32Mag (cvtU32 k)) (den := 2 ^ 149) (Nat.two_pow_pos 149)
      (Nat.mul_le_mul hlow hone)
    have hmin : patMag (roundMag (f32Mag c * f32Mag (cvtU32 k)) (2 ^ 149)) ≤
        patMag (nearestPat (f32Mag c * f32Mag (cvtU32 k)) (2 ^ 149)) :=
      patMag_strictMono.monotone (min_le_left _ _)
    have hbound : (2 ^ 24 + 1) * f32Mag TWO_PI_F ≤ 2 ^ 24 * FREQUENCY_BOUND := by decide
    refine Nat.le_of_mul_le_mul_left (c := 2 ^ 24) ?_ (Nat.two_pow_pos 24)
    calc 2 ^ 24 * (patMag (roundMag (f32Mag c * f32Mag (cvtU32 k)) (2 ^ 149)) * 2 ^ 149)
        ≤ 2 ^ 24 * (patMag (nearestPat (f32Mag c * f32Mag (cvtU32 k)) (2 ^ 149)) * 2 ^ 149) :=
          Nat.mul_le_mul_left _ (Nat.mul_le_mul_right _ hmin)
      _ ≤ (2 ^ 24 + 1) * (f32Mag c * f32Mag (cvtU32 k)) := hround
      _ = (2 ^ 24 + 1) * f32Mag c * f32Mag (cvtU32 k) := (Nat.mul_assoc _ _ _).symm
      _ ≤ 2 ^ 24 * FREQUENCY_BOUND * f32Mag (cvtU32 k) :=
          Nat.mul_le_mul_right _ ((Nat.mul_le_mul_left _ hhigh).trans hbound)
      _ = 2 ^ 24 * (FREQUENCY_BOUND * f32Mag (cvtU32 k)) := Nat.mul_assoc _ _ _

/-- `k` steps out of `K` of an angle up to `2π`. -/
theorem frequency_le {c k K : Word} (n m : Nat) (hc : Within 3 c) (hs : f32Sign c = false) (hlow : 2 ^ 23 ≤ f32Mag c)
    (hhigh : f32Mag c ≤ f32Mag TWO_PI_F) (hk : k.toNat ≤ K.toNat) (hK : 1 ≤ K.toNat) :
    (fdiv m (fmul n c (cvtU32 k)) (cvtU32 K)).toNat ≤ 0x40C90FF9 := by
  have hfinite := (fmul_le_scaled n hc (cvtU32_within k) (by decide)).1
  obtain ⟨hsign, -⟩ := fmul_unsigned n hc.1 (cvtU32_within k).1 hs (cvtU32_sign k)
  have hpos := cvtU32_ne_zero hK
  rw [fdiv_finite_eq m hfinite (cvtU32_within K).1 hpos, hsign, cvtU32_sign, f32Signed_toNat _ (roundMag_lt _ _)]
  have hle : roundMag (f32Mag (fmul n c (cvtU32 k)) * 2 ^ 149) (f32Mag (cvtU32 K)) ≤ 128 * 2 ^ 23 + 0xC90FF9 := by
    refine roundMag_le (Nat.pos_of_ne_zero hpos) (by decide) (.inr (by decide)) ?_
    exact (fmul_frequency_le n k hc hs hlow hhigh).trans (Nat.mul_le_mul_left _ (cvtU32_mono hk))
  simpa using hle

theorem omegaOf_le (n : Nat) (g : Grid) {k K : Word} (h : k.toNat < K.toNat) :
    (omegaOf n g k K).toNat ≤ 0x40C90FF9 := by
  obtain ⟨hpi, htwoPi, -⟩ := pi_within
  cases g with
  | full => exact frequency_le _ _ htwoPi (by decide) (by decide) le_rfl h.le (by omega)
  | half =>
    rw [omegaOf]
    split
    · decide
    · next hK =>
      have hpred : (K - 1).toNat = K.toNat - 1 := BitVec.toNat_sub_of_le (by rw [BitVec.le_def]; show 1 ≤ _; omega)
      have hne : K.toNat ≠ 1 := fun h => hK (BitVec.eq_of_toNat_eq h)
      exact frequency_le _ _ hpi (by decide) (by decide) (by decide) (by omega) (by omega)

end Sys2Proof.Machine
end

section
/-! PROOFS. No grid transform stops at a lookup, in whatever state, so no command but `SIN`, `COS` and `MAGAT` ends with
`ERR_NUM` (42_dtft.md rule R112). -/

namespace Sys2Proof.Machine

/-! ### A transform always answers -/

theorem State.samples_ok (s : State) (c : CoreId) (sig m : Nat) (h : (s.regs c).Indexing) :
    ∃ t, s.samples c sig m = .ok t := by
  induction m generalizing s with
  | zero => exact ⟨s, rfl⟩
  | succ m ih =>
    obtain ⟨u, hu, -, hi, -, -⟩ := s.sample_advances c sig h
    obtain ⟨t, ht⟩ := ih u hi
    exact ⟨t, by rw [State.samples_succ, hu]; exact ht⟩

theorem State.transformBin_answers (s : State) (c : CoreId) (j : Job) (h : (s.regs c).kidx.toNat < j.kt.toNat) :
    ∃ t, s.transformBin c j = .ok t := by
  have hstart : ((s.binBegun c j).regs c).Indexing := by
    rw [State.binBegun_regs]
    exact binStart_indexing (omegaOf_within _ _ h) _
  obtain ⟨u, hu⟩ := (s.binBegun c j).samples_ok c j.sig.toNat j.n.toNat hstart
  exact ⟨u.pairWritten c j, by rw [State.transformBin_eq, hu]; rfl⟩

theorem State.transformBins_answer (s : State) (c : CoreId) (j : Job) (m : Nat)
    (h : (s.regs c).kidx.toNat + m ≤ j.kt.toNat) : ∃ t, s.transformBins c j m = .ok t := by
  induction m generalizing s with
  | zero => exact ⟨s, rfl⟩
  | succ m ih =>
    obtain ⟨u, hu⟩ := s.transformBin_answers c j (by omega)
    have hkt := j.kt.isLt
    have hnext : (u.regs c).kidx.toNat = (s.regs c).kidx.toNat + 1 := by
      rw [State.transformBin_kidx hu]
      exact BitVec.toNat_add_of_lt (by show _ + 1 < _; omega)
    obtain ⟨t, ht⟩ := ih u (by omega)
    exact ⟨t, by rw [State.transformBins_succ, hu]; exact ht⟩

theorem State.transform_answers (s : State) (c : CoreId) (j : Job) (h : j.k1.toNat ≤ j.kt.toNat) (h0 : j.k0 = 0) :
    ∃ t, s.transform c j = .ok t := by
  have hz : (0 : Word).toNat = 0 := rfl
  refine State.transformBins_answer _ c j _ ?_
  rw [State.setRegs_regs, h0, hz]
  omega

/-! ### Codes of an answer -/

/-- The command does not end with `ERR_NUM`. -/
def NotNum (o : Host.Outcome State Fault Refusal) : Prop := ∀ t, o = .next t → t.code ≠ .num

theorem notNum_next {t : State} (h : t.code ≠ .num) : NotNum (.next t) := by
  intro u hu; cases hu; exact h

theorem notNum_finish (u : State) : NotNum (.next u.finish) := notNum_next nofun

theorem State.checked_notNum {s : State} {f : State → List Check} {body : State → Host.Outcome State Fault Refusal}
    (hf : ∀ c ∈ f s.beginCommand, c.code ≠ .num) (hbody : NotNum (body s.beginCommand)) :
    NotNum (s.checked f body) := by
  rcases s.checked_cases f body with ⟨c, hc, h⟩ | ⟨-, h⟩ <;> rw [h]
  · exact notNum_next (hf c (List.mem_of_find?_eq_some hc))
  · exact hbody

theorem orNum_notNum {s0 : State} {r : Except Angle State} {k : State → Host.Outcome State Fault Refusal}
    (hr : ∃ t, r = .ok t) (hk : ∀ t, NotNum (k t)) : NotNum (orNum s0 r k) := by
  obtain ⟨t, rfl⟩ := hr
  exact hk t

theorem pipeBody_notNum (m : PipeMode) {s : State} (h : s.code ≠ .num) : NotNum (pipeBody m s) := by
  cases m with
  | serial => exact orNum_notNum (State.transform_answers _ _ _ le_rfl rfl) fun _ => notNum_finish _
  | parallel =>
    have hcode := (CoreDoes.replicate s s.src.toNat s.dst.toNat Config.PLEN Config.REP).same.code
    exact notNum_next (by rw [State.publish_code, hcode]; exact h)

theorem exec_notNum {i : Instr} {s : State} (hsin : i ≠ .sin) (hcos : i ≠ .cos) (hmagat : i ≠ .magat)
    (h : s.code ≠ .num) : NotNum (exec i s) := by
  cases i with
  | sin => exact absurd rfl hsin
  | cos => exact absurd rfl hcos
  | magat => exact absurd rfl hmagat
  | init =>
    rw [exec, execInit]
    exact State.checked_notNum (by simp [ckRepeat]) (notNum_finish _)
  | xform g =>
    rw [exec, execXform]
    exact State.checked_notNum (by simp [xformChecks, ckNeeds, ckAlign, State.ckAddr, State.ckAlloc])
      (orNum_notNum (State.transform_answers _ _ _ le_rfl rfl) fun _ => notNum_finish _)
  | xformp g =>
    rw [exec, execXformp]
    exact State.checked_notNum (by simp [xformChecks, ckNeeds, ckAlign, State.ckAddr, State.ckAlloc]) (notNum_next h)
  | mag =>
    rw [exec, execMag]
    exact State.checked_notNum (by simp [magChecks, ckAlign, State.ckAddr, State.ckAlloc])
      (notNum_finish _)
  | sqmag =>
    rw [exec, execSqmag]
    exact State.checked_notNum (by simp [magChecks, ckAlign, State.ckAddr, State.ckAlloc])
      (notNum_finish _)
  | wlaunch =>
    rw [exec, execWlaunch]
    exact State.checked_notNum (by simp [ckRepeat])
      (notNum_finish _)
  | lddict =>
    rw [exec, execLddict]
    exact State.checked_notNum (by simp [ckRepeat, ckAlign, State.ckAddr])
      (notNum_finish _)
  | dist =>
    rw [exec, execDist]
    exact State.checked_notNum (by simp [ckAlign, State.ckAddr])
      (notNum_finish _)
  | classify =>
    rw [exec, execClassify]
    exact State.checked_notNum (by simp [ckNeeds, ckUsage, ckAlign, State.ckAddr])
      (notNum_finish _)
  | rank =>
    rw [exec, execRank]
    exact State.checked_notNum (by simp [ckNeeds, ckUsage, ckAlign, State.ckAddr, State.ckAlloc])
      (notNum_finish _)
  | repl =>
    rw [exec, execRepl]
    exact State.checked_notNum (by simp [ckReplAlloc, State.ckAddr])
      (notNum_finish _)
  | pipe m =>
    rw [exec, execPipe]
    exact State.checked_notNum (by simp [ckNeeds, ckUsage, ckAlign, State.ckAddr, State.ckAlloc]) (pipeBody_notNum m h)

/-- Settles O24: an angle of a grid stays below `2^40`, and a frequency is rounded twice. -/
theorem gridsAreIndexable : Obligations.GridsAreIndexable := by
  refine ⟨fun g K N n m S C x k hk => ?_, fun n g k K hk => omegaOf_le n g hk,
    fun i s t hsin hcos hmagat hs ht => exec_notNum hsin hcos hmagat hs t ht⟩
  obtain ⟨b, hb⟩ := dtftBin_isSome (S := S) (C := C) n x N (omegaOf_within m g hk)
  rw [hb]
  rfl

end Sys2Proof.Machine
end

section
/-! PROOFS. The nearest entry is the least distance at the lowest byte value that has it (44_classifier.md rule R138). -/

namespace Sys2Proof.Machine

/-- `b` is the nearest of the byte values below `m`: the lowest of those at the least distance, or byte 0 and `+Inf` where
no distance is below `+Inf`. -/
def NearestBelow (d : Nat → Word) (m : Nat) (b : Nat × Word) : Prop :=
  (b.1 < m ∧ b.2 = d b.1 ∧ flt b.2 POS_INF = true ∧ (∀ u < m, flt (d u) b.2 = false) ∧
    ∀ u < b.1, feq (d u) b.2 = false) ∨
  ((∀ u < m, flt (d u) POS_INF = false) ∧ b = (0, POS_INF))

theorem flt_of_feq {a b c : Word} (h : feq a b = true) (k : flt b c = true) : flt a c = true := by
  rw [feq_iff] at h
  rw [flt_iff] at k ⊢
  obtain ⟨ha, -, hkey⟩ := h
  obtain ⟨-, hc, hlt⟩ := k
  exact ⟨ha, hc, hkey ▸ hlt⟩

/-- A distance below everything so far is the nearest. -/
theorem nearestBelow_new {d : Nat → Word} {m : Nat} {x : Word} (hall : ∀ u < m, flt (d u) x = false)
    (hlt : flt (d m) x = true) (hinf : flt (d m) POS_INF = true) : NearestBelow d (m + 1) (m, d m) := by
  refine .inl ⟨Nat.lt_succ_self m, rfl, hinf, fun u hu => ?_, fun u hu => ?_⟩
  · rcases Nat.lt_succ_iff_lt_or_eq.1 hu with hu | rfl
    · exact Bool.eq_false_iff.2 fun h => Bool.eq_false_iff.1 (hall u hu) (flt_trans h hlt)
    · exact flt_irrefl _
  · exact Bool.eq_false_iff.2 fun h => Bool.eq_false_iff.1 (hall u hu) (flt_of_feq h hlt)

theorem forall_lt_succ {p : Nat → Prop} {m : Nat} (h : ∀ u < m, p u) (hm : p m) : ∀ u < m + 1, p u := by
  intro u hu
  rcases Nat.lt_succ_iff_lt_or_eq.1 hu with hu | rfl
  · exact h u hu
  · exact hm

theorem NearestBelow.closer {d : Nat → Word} {m : Nat} {b : Nat × Word} (h : NearestBelow d m b) :
    NearestBelow d (m + 1) (closer b (m, d m)) := by
  rw [Machine.closer]
  rcases h with ⟨hb, hd, hinf, hall, hlow⟩ | ⟨hall, rfl⟩
  · split
    · next hlt => exact nearestBelow_new hall hlt (flt_trans hlt hinf)
    · next hlt => exact .inl ⟨by omega, hd, hinf, forall_lt_succ hall (Bool.eq_false_iff.2 hlt), hlow⟩
  · split
    · next hlt => exact nearestBelow_new hall hlt hlt
    · next hlt => exact .inr ⟨forall_lt_succ hall (Bool.eq_false_iff.2 hlt), rfl⟩

theorem nearestFrom_nearestBelow {d : Nat → Word} {ds : List Word} {m : Nat} {b : Nat × Word}
    (hds : ∀ i (hi : i < ds.length), ds[i] = d (m + i)) (h : NearestBelow d m b) :
    NearestBelow d (m + ds.length) (nearestFrom m b ds) := by
  induction ds generalizing m b with
  | nil => exact h
  | cons x ds ih =>
    have hx : x = d m := hds 0 (Nat.succ_pos _)
    subst hx
    have hrest := ih (m := m + 1) (fun i hi => (hds (i + 1) (Nat.succ_lt_succ hi)).trans (congrArg d (by omega)))
      h.closer
    rwa [List.length_cons, show m + (ds.length + 1) = m + 1 + ds.length by omega]

/-- What the classify loop finds (R138). -/
theorem nearest_isNearest (ds : Vector Word Config.NDICT) :
    IsNearest ds.get (wordOf (nearest ds.toList).1) (nearest ds.toList).2 := by
  have hget : ∀ v : Fin 256, ds.toList.getD v.val 0 = ds.get v := fun v => by simp [List.getD, Vector.get]
  have hbelow := nearestFrom_nearestBelow (d := fun u => ds.toList.getD u 0) (ds := ds.toList) (m := 0)
    (b := (0, POS_INF)) (fun i hi => by simp [List.getD, List.getElem?_eq_getElem hi]) (.inr ⟨fun u hu => absurd hu (Nat.not_lt_zero u), rfl⟩)
  rw [Nat.zero_add, Vector.length_toList] at hbelow
  rcases hbelow with ⟨hlt, hd, hinf, hall, hlow⟩ | ⟨hall, hb⟩
  · have hdist : (nearest ds.toList).2 = ds.get ⟨_, hlt⟩ := hd.trans (hget ⟨_, hlt⟩)
    refine .inl ⟨⟨_, hlt⟩, rfl, hdist, ?_, fun u => ?_, fun u hu => ?_⟩ <;> rw [← hdist]
    · exact hinf
    · rw [← hget]; exact hall u u.isLt
    · rw [← hget]; exact hlow u hu
  · refine .inr ⟨fun u => ?_, ?_, ?_⟩
    · rw [← hget]; exact hall u u.isLt
    · exact congrArg (fun b => wordOf b.1) hb
    · exact congrArg Prod.snd hb

end Sys2Proof.Machine
end

section
/-! PROOFS. Serial `PIPE` (45_pipeline.md rules R146, R147): replicate, transform, and the tail both forms share. -/

namespace Sys2Proof.Machine

/-! ### The tail -/

/-- The words of the squared-magnitude spectrum in the work area at `dst`. -/
def squaresOf (dst : Nat) (y : Bytes) : List Word :=
  (List.range Config.KC).map fun i => y.word (dst + 0x198 + 4 * i)

/-- What `PIPE` finds from the bytes `x` that hold its complex spectrum, draws numbered from `n`: the bytes it leaves and
the nearest byte value with its distance. -/
def pipeBytes (n dst : Nat) (x : Bytes) : Bytes :=
  plainMags sqmagOf (dst + 0x50) (dst + 0x198) n Config.KC 0 x

def pipeNearest (n dst : Nat) (dict : Vector (Vector Word Config.KC) Config.NDICT) (x : Bytes) : Nat × Word :=
  nearest (distances (n + MAG_DRAWS * Config.KC) (squaresOf dst (pipeBytes n dst x)) dict).toList

/-- From the complex spectrum on, `PIPE` works on plain memory, and ends (R147). -/
theorem pipeTail_computes {s : State} (hf : s.pview.fresh s.mem) (hd : s.disturbed = [])
    (hdst : s.dst.toNat + 572 ≤ s.memBytes) :
    let b := pipeNearest s.draws s.dst.toNat s.dict (s.coreByte .p)
    ∃ v : State, pipeTail s = v.finish ∧ v.pview.fresh v.mem ∧ (JobFree s.pview.sb → JobFree v.pview.sb) ∧
      v.coreByte .p = pipeBytes s.draws s.dst.toNat (s.coreByte .p) ∧
      v = { s with
        resi := wordOf b.1, resf := b.2, best := wordOf b.1, bestd := b.2, pregs := v.pregs, pview := v.pview,
        keeps := v.keeps, draws := v.draws } := by
  obtain ⟨hspectrum, hsquares⟩ := workArea_toNat (hdst.trans s.memBytes_le)
  obtain ⟨hmagWork, hmagDraws, hmagBytes⟩ := s.magSpectrum_spec sqmagOf (s.dst + SPECTRUM_AT).toNat
    (s.dst + SQUARES_AT).toNat Config.KC hf hd (by decide)
  dsimp only
  rw [pipeTail]
  generalize s.magSpectrum sqmagOf (s.dst + SPECTRUM_AT).toNat (s.dst + SQUARES_AT).toNat Config.KC = s1
    at hmagWork hmagDraws hmagBytes ⊢
  rw [hspectrum, hsquares] at hmagBytes
  obtain ⟨hwords, hreadWork, hreadBytes, -, hreadDraws, -⟩ := s1.readWords_spec .p (s.dst + SQUARES_AT).toNat
    Config.KC (hmagWork.only.disturbed.trans hd)
  generalize s1.readWords .p (s.dst + SQUARES_AT).toNat Config.KC = r
    at hwords hreadWork hreadBytes hreadDraws ⊢
  have hwork := hmagWork.trans hreadWork
  have honly := hwork.only
  have hbytes : r.2.coreByte .p = pipeBytes s.draws s.dst.toNat (s.coreByte .p) := hreadBytes.trans hmagBytes
  have hspec : r.1 = squaresOf s.dst.toNat (pipeBytes s.draws s.dst.toNat (s.coreByte .p)) := by
    rw [hwords, hsquares, hmagBytes]
    rfl
  have hdict : r.2.dict = s.dict := by
    simp only [OnlyCore] at honly
    rw [honly]
  have hdraws : r.2.draws = s.draws + MAG_DRAWS * Config.KC := hreadDraws.trans hmagDraws
  have hnearest : nearest (distances r.2.draws r.1 r.2.dict).toList =
      pipeNearest s.draws s.dst.toNat s.dict (s.coreByte .p) := by rw [hdict, hdraws, hspec]; rfl
  refine ⟨r.2.classifySpectrum r.1, rfl, hwork.fresh hf, hwork.jobFree, hbytes, ?_⟩
  rw [← hnearest]
  simp only [OnlyCore] at honly
  generalize hb : nearest (distances r.2.draws r.1 r.2.dict).toList = b
  have hclassify : r.2.classifySpectrum r.1 = { r.2 with
      resi := wordOf b.1, resf := b.2, best := wordOf b.1, bestd := b.2,
      pregs := (r.2.classifySpectrum r.1).pregs, draws := (r.2.classifySpectrum r.1).draws } := by
    rw [← hb]
    rfl
  rw [hclassify, honly]

/-- How `PIPE` ends where nothing pending is to the slot. -/
theorem pipeTail_spec {s : State} (hf : s.pview.fresh s.mem) (hd : s.disturbed = []) (hj : JobFree s.pview.sb)
    (hw : s.mem.wf = true) (hdst : s.dst.toNat + 572 ≤ s.memBytes) :
    let b := pipeNearest s.draws s.dst.toNat s.dict (s.coreByte .p)
    (pipeTail s).mem.read = pipeBytes s.draws s.dst.toNat (s.coreByte .p) ∧ (pipeTail s).mem.wf = true ∧
      (pipeTail s).pview.sb = [] ∧ (pipeTail s).resi = wordOf b.1 ∧ (pipeTail s).resf = b.2 ∧
      pipeTail s = { s.endedAs (pipeTail s) with
        resi := (pipeTail s).resi, resf := (pipeTail s).resf, best := (pipeTail s).resi, bestd := (pipeTail s).resf,
        pregs := (pipeTail s).pregs, mem := (pipeTail s).mem } := by
  obtain ⟨v, hv, hvf, hvj, hbytes, hframe⟩ := pipeTail_computes hf hd hdst
  dsimp only at hframe ⊢
  generalize pipeNearest s.draws s.dst.toNat s.dict (s.coreByte .p) = b at hframe ⊢
  have hvd : v.disturbed = [] := by rw [hframe]; exact hd
  obtain ⟨hread, hwf, -, hsb, -⟩ := v.finish_spec hvf hvd (by rw [hframe]; exact hw) (hvj hj)
  have hend := v.finish_eq hvd (hvj hj)
  rw [hv]
  refine ⟨hread.trans hbytes, hwf, hsb, ?_, ?_, ?_⟩
  · rw [State.finish_resi, hframe]
  · rw [State.finish_resf, hframe]
  · generalize v.finish = t at hend ⊢
    rw [hend, hframe]
    rfl

/-- The bytes `PIPE` leaves differ from those before its tail in the squared-magnitude spectrum alone. -/
theorem pipeBytes_eqOff (n dst : Nat) (x : Bytes) : x.EqOff (dst + 0x198) 164 (pipeBytes n dst x) :=
  plainMags_eqOff sqmagOf _ (dst + 0x198) n 41 0 x

/-- What the tail finds is nearest (R138). -/
theorem pipeNearest_isNearest (n dst : Nat) (dict : Vector (Vector Word Config.KC) Config.NDICT) (x : Bytes) :
    IsNearest (distanceTo (n + MAG_DRAWS * 41) (squaresOf dst (pipeBytes n dst x)) dict)
      (wordOf (pipeNearest n dst dict x).1) (pipeNearest n dst dict x).2 := by
  have h := nearest_isNearest (distances (n + MAG_DRAWS * Config.KC) (squaresOf dst (pipeBytes n dst x)) dict)
  rwa [funext (distances_get (n + MAG_DRAWS * Config.KC) (squaresOf dst (pipeBytes n dst x)) dict)] at h

/-! ### Replicate -/

theorem Bytes.eqOff_putByte (x : Bytes) (a : Nat) (b : Byte) : EqOff a 1 x (x.putByte a b) :=
  fun c hc => x.putByte_other a c b (by omega)

theorem plainCopy_eqOff (src dst n : Nat) (x : Bytes) : x.EqOff dst n (plainCopy src dst n x) := by
  induction n generalizing src dst x with
  | zero => exact .refl _ _ x
  | succ n ih =>
    exact ((x.eqOff_putByte dst _).mono (by omega) (by omega)).trans ((ih _ (dst + 1) _).mono (by omega) (by omega))

theorem plainReplicate_eqOff (src n dst r : Nat) (x : Bytes) :
    x.EqOff dst (n * r) (plainReplicate src n dst r x) := by
  induction r generalizing dst x with
  | zero => exact .refl _ _ x
  | succ r ih =>
    rw [Nat.mul_succ]
    exact ((plainCopy_eqOff src dst n x).mono (by omega) (by omega)).trans
      ((ih (dst + n) _).mono (by omega) (by omega))

/-! ### The command -/

/-- The transform of `PIPE`, where the work area lies in memory: it answers, on plain memory (R112, R147). -/
theorem pipeTransform_spec {s u : State} (hfit : s.dst.toNat + 572 ≤ s.memBytes) (hf : u.pview.fresh u.mem)
    (hd : u.disturbed = []) :
    ∃ x v, plainBins u.sintab u.costab .half s.dst.toNat 80 41 (s.dst.toNat + 0x50) u.draws 41 0 (u.coreByte .p) =
        some x ∧
      BinsLeft u.sintab u.costab .half s.dst.toNat 80 41 (s.dst.toNat + 0x50) u.draws 41 0 (u.coreByte .p) x ∧
      u.transform .p (pipeJob s) = .ok v ∧ Work .p u v ∧ v.coreByte .p = x ∧
      v.draws = u.draws + (OMEGA_DRAWS + SAMPLE_DRAWS * 80) * 41 := by
  obtain ⟨x, hx, hleft⟩ := plainBins_left (S := u.sintab) (C := u.costab) .half s.dst.toNat (N := 80) 41
    (s.dst.toNat + 0x50) u.draws (m := 41) (k := 0) (by decide) (by decide) (u.coreByte .p)
  have hspec := u.transform_spec .p (pipeJob s) hf hd
  have hout : (pipeJob s).out.toNat = s.dst.toNat + 0x50 := (workArea_toNat (hfit.trans s.memBytes_le)).1
  rw [hout] at hspec
  have hplain : plainBins u.sintab u.costab (pipeJob s).g (pipeJob s).sig.toNat (pipeJob s).n.toNat (pipeJob s).kt
      (s.dst.toNat + 0x50) u.draws ((pipeJob s).k1.toNat - (pipeJob s).k0.toNat) (pipeJob s).k0.toNat
      (u.coreByte .p) = some x := hx
  rw [hplain] at hspec
  obtain ⟨v, hv, hwork, hbytes, hdraws⟩ := hspec
  exact ⟨x, v, hx, hleft, hv, hwork, hbytes, hdraws⟩

/-- Serial `PIPE` on plain memory. -/
theorem pipeSerial_spec {s : State} (hbegin : s.beginError (.pipe .serial) = none) (hs : s.Ready)
    (hw : s.mem.wf = true) :
    let x0 := plainReplicate s.src.toNat 8 s.dst.toNat 10 s.mem.read
    let n := s.draws + (OMEGA_DRAWS + SAMPLE_DRAWS * 80) * 41
    ∃ (x : Bytes) (t : State),
      plainBins s.sintab s.costab .half s.dst.toNat 80 41 (s.dst.toNat + 0x50) s.draws 41 0 x0 = some x ∧
      BinsLeft s.sintab s.costab .half s.dst.toNat 80 41 (s.dst.toNat + 0x50) s.draws 41 0 x0 x ∧
      exec (.pipe .serial) s = .next t ∧ t.mem.wf = true ∧ t.pview.sb = [] ∧
      t.mem.read = pipeBytes n s.dst.toNat x ∧
      t.resi = wordOf (pipeNearest n s.dst.toNat s.dict x).1 ∧ t.resf = (pipeNearest n s.dst.toNat s.dict x).2 ∧
      t = { s.endedAs t with
        resi := t.resi, resf := t.resf, best := t.resi, bestd := t.resf, pregs := t.pregs, mem := t.mem } := by
  have hfit := ((State.beginError_pipe s.beginCommand .serial).1 hbegin).output
  obtain ⟨u, hu, hreplicate, hfresh, hfree, hudraws, -, hubytes⟩ := pipeReplicate_spec hs
  have hud : u.disturbed = [] := hreplicate.only.disturbed.trans hs.2
  obtain ⟨x, v, hx, hleft, hv, htransform, hvbytes, hvdraws⟩ :=
    pipeTransform_spec (s := s.beginCommand) hfit hfresh hud
  have hexec : exec (.pipe .serial) s = .next (pipeTail v) := by
    rw [execPipe_begun hbegin]
    show orNum _ ((State.replicate _ s.src.toNat s.dst.toNat _ _).transform .p _) _ = _
    rw [hu, hv, orNum_ok]
  have hwork := hreplicate.trans htransform
  have honly := hwork.only
  have hvd : v.disturbed = [] := htransform.only.disturbed.trans hud
  have htail : _ ∧ _ := pipeTail_spec (s := v) (htransform.fresh hfresh) hvd (htransform.jobFree hfree)
    (by rw [honly.mem]; exact hw) (by
      simp only [OnlyCore] at honly
      rw [honly]
      exact hfit)
  have hsintab : u.sintab = s.sintab := hreplicate.only.sintab
  have hcostab : u.costab = s.costab := hreplicate.only.costab
  simp only [OnlyCore] at honly
  have hdst : v.dst = s.dst := by rw [honly]; rfl
  have hdict : v.dict = s.dict := by rw [honly]; rfl
  rw [hvbytes, hvdraws, hdst, hdict, hudraws] at htail
  obtain ⟨hread, hwf, hsb, hresi, hresf, hframe⟩ := htail
  rw [hsintab, hcostab, hudraws, hubytes] at hx hleft
  refine ⟨x, pipeTail v, hx, hleft, hexec, hwf, hsb, hread, hresi, hresf, ?_⟩
  generalize pipeTail v = t at hframe ⊢
  refine hframe.trans ?_
  have hdisturbed : s.disturbed = [] := hs.2
  rw [honly]
  rfl

/-- Settles O44: the commands it stands for, on plain memory. -/
theorem pipeSerialResult : Obligations.PipeSerialResult := by
  intro s hbegin hs hw
  obtain ⟨x, t, hx, hleft, hexec, hwf, hsb, hread, hresi, hresf, hframe⟩ := pipeSerial_spec hbegin hs hw
  refine ⟨x, _, t, hx, rfl, hexec, hwf, hsb, hframe, fun a => congrFun hread a, fun a ha => ?_, ?_⟩
  · rw [hread]
    have hreplicate := plainReplicate_eqOff s.src.toNat 8 s.dst.toNat 10 s.mem.read a (by omega)
    exact (pipeBytes_eqOff _ _ x a (by omega)).trans ((hleft.outside a (by omega)).trans hreplicate)
  · rw [hresi, hresf]
    exact pipeNearest_isNearest _ s.dst.toNat s.dict x

end Sys2Proof.Machine
end

section
/-! PROOFS. Where every value of a transform is finite, nothing it computes depends on the draws (00_scope.md rule R11,
42_dtft.md rules R101, R112). -/

namespace Sys2Proof.Machine

/-! ### One sample -/

theorem SameDatum.fadd (n m : Nat) {a a' b b' : Word} (ha : SameDatum a a') (hb : SameDatum b b') :
    SameDatum (fadd n a b) (fadd m a' b') := .op (fun n _ _ => fadd_nan n) fadd_draw n m ha hb

theorem SameDatum.eq_of_notNaN {a b : Word} (h : SameDatum a b) (ha : f32IsNaN a = false) : b = a := by
  rcases h with rfl | ⟨hn, -⟩
  · rfl
  · rw [hn] at ha; cases ha

theorem notNaN_of_finite {a : Word} (h : f32IsFinite a = true) : f32IsNaN a = false := by
  refine Bool.eq_false_iff.2 fun hn => ?_
  rw [f32IsFinite_of_nan hn] at h
  cases h

theorem SameDatum.eq_of_finite {a b : Word} (h : SameDatum a b) (ha : f32IsFinite a = true) : b = a :=
  h.eq_of_notNaN (notNaN_of_finite ha)

/-- A lookup depends on its draws only in what a NaN looks like (R92). -/
theorem lookup_sameDatum {n : Nat} {T : Vector Word Config.L} {a v : Word} (m : Nat) (h : lookup n T a = some v) :
    ∃ w, lookup m T a = some w ∧ SameDatum v w := by
  simp only [lookup] at h
  split at h
  · next hindex =>
    obtain ⟨hnan, hfinite⟩ := Bool.and_eq_true_iff.1 hindex
    have hscaled : fmul m a SCALE = fmul n a SCALE := fmul_draw n m a SCALE (notNaN_of_finite hfinite)
    have hindex' : (!f32IsNaN a && f32IsFinite (fmul m a SCALE)) = true := by rw [hscaled]; exact hindex
    refine ⟨_, if_pos hindex', ?_⟩
    cases h
    simp only [hscaled]
    exact .fadd _ _ (.refl _) (.fmul _ _ (.fsub _ _ (.refl _) (.refl _)) (.fsub _ _ (.refl _) (.refl _)))
  · cases h

/-- The sums and the angle are finite. -/
structure Datapath.Finite (r : Datapath) : Prop where
  angle : f32IsFinite r.angle = true
  re : f32IsFinite r.re = true
  im : f32IsFinite r.im = true

/-- A sample that leaves finite values leaves them whatever the draws. -/
theorem accumulate_draw {n : Nat} {S C : Vector Word Config.L} {x : Byte} {r q : Datapath} (m : Nat)
    (h : accumulate n S C x r = some q) (hq : q.Finite) : accumulate m S C x r = some q := by
  obtain ⟨hangle, hre, him⟩ := hq
  simp only [accumulate] at h ⊢
  split at h
  · next cv sv hcv hsv =>
    cases h
    obtain ⟨cv', hcv', hc⟩ := lookup_sameDatum m hcv
    obtain ⟨sv', hsv', hs⟩ := lookup_sameDatum (m + 5) hsv
    have hre' := SameDatum.eq_of_finite (.fadd (n + 11) (m + 11) (.refl r.re)
      (.fmul (n + 10) (m + 10) (.refl (cvtU8 x)) hc)) hre
    have him' := SameDatum.eq_of_finite (.fadd (n + 13) (m + 13) (.refl r.im)
      (.fmul (n + 12) (m + 12) (.refl (cvtU8 x)) hs)) him
    have hangle' := SameDatum.eq_of_finite (.fsub (n + 14) (m + 14) (.refl r.angle) (.refl r.omega)) hangle
    simp only [hcv', hsv', hre', him', hangle']
  · cases h

/-! ### One bin -/

/-- The first sample of a bin, then the others. -/
theorem kernel_first (n : Nat) (S C : Vector Word Config.L) (x : Nat → Byte) (m : Nat) (r : Datapath) :
    kernel n S C x (m + 1) r =
      (accumulate n S C (x r.nidx.toNat) r).bind (kernel (n + SAMPLE_DRAWS) S C x m) := by
  rw [kernel]
  split <;> next h => rw [h]; rfl

/-- All samples of a bin but the last, then the last. -/
theorem kernel_succ (n : Nat) (S C : Vector Word Config.L) (x : Nat → Byte) (m : Nat) (r : Datapath) :
    kernel n S C x (m + 1) r =
      (kernel n S C x m r).bind fun q => accumulate (n + SAMPLE_DRAWS * m) S C (x q.nidx.toNat) q := by
  induction m generalizing n r with
  | zero =>
    rw [kernel_first]
    exact Option.bind_fun_some _
  | succ m ih =>
    rw [kernel_first, kernel_first]
    cases accumulate n S C (x r.nidx.toNat) r with
    | none => rfl
    | some q =>
      simp only [Option.bind_some, ih]
      rw [Nat.mul_succ, Nat.add_assoc, Nat.add_comm SAMPLE_DRAWS]

/-- The registers of bin `k` of a job, but for `KIDX`, after `i` samples of the signal in `y`. -/
def Job.binRegs (j : Job) (S C : Vector Word Config.L) (y : Bytes) (k i : Nat) : Datapath :=
  (kernel 0 S C (fun a => y (j.sig.toNat + a)) i
    (binStart (omegaOf 0 j.g (wordOf k) j.kt) Datapath.reset)).getD Datapath.reset

section
variable {s : State} {j : Job} (h : s.GridFinite j.g j.kt j.n.toNat) {k : Nat} (hk : k < j.kt.toNat)
include h hk

theorem State.GridFinite.omegaOf_draw (n : Nat) : omegaOf n j.g (wordOf k) j.kt = omegaOf 0 j.g (wordOf k) j.kt := by
  have hword : (wordOf k).toNat = k := toNat_wordOf (by have := j.kt.isLt; omega)
  obtain ⟨r, hr, homega, -⟩ := h 0 0 (fun _ => 0) (wordOf k) (by omega) (Nat.zero_le _)
  cases hr
  exact (omegaOf_sameDatum 0 n j.g (wordOf k) j.kt).eq_of_finite homega

theorem State.GridFinite.binRegs (y : Bytes) {i : Nat} (hi : i ≤ j.n.toNat) :
    kernel 0 s.sintab s.costab (fun a => y (j.sig.toNat + a)) i
        (binStart (omegaOf 0 j.g (wordOf k) j.kt) Datapath.reset) = some (j.binRegs s.sintab s.costab y k i) ∧
      (j.binRegs s.sintab s.costab y k i).Finite := by
  have hword : (wordOf k).toNat = k := toNat_wordOf (by have := j.kt.isLt; omega)
  obtain ⟨r, hr, -, hangle, hre, him⟩ := h 0 i (fun a => y (j.sig.toNat + a)) (wordOf k) (by omega) hi
  have hregs : j.binRegs s.sintab s.costab y k i = r := by rw [Job.binRegs, hr]; rfl
  rw [hregs]
  exact ⟨hr, hangle, hre, him⟩

/-- The next sample of a bin, whatever the draws. -/
theorem State.GridFinite.accumulate (y : Bytes) {i : Nat} (hi : i < j.n.toNat) (n : Nat) :
    Machine.accumulate n s.sintab s.costab
        (y (j.sig.toNat + (j.binRegs s.sintab s.costab y k i).nidx.toNat)) (j.binRegs s.sintab s.costab y k i) =
      some (j.binRegs s.sintab s.costab y k (i + 1)) := by
  obtain ⟨hnow, -⟩ := h.binRegs hk y hi.le
  obtain ⟨hnext, hfinite⟩ := h.binRegs hk y (i := i + 1) hi
  rw [kernel_succ, hnow, Option.bind_some] at hnext
  exact accumulate_draw n hnext hfinite

/-- A bin, whatever the draws. -/
theorem State.GridFinite.kernel (y : Bytes) {i : Nat} (hi : i ≤ j.n.toNat) (n m : Nat) :
    Machine.kernel n s.sintab s.costab (fun a => y (j.sig.toNat + a)) i
      (binStart (omegaOf m j.g (wordOf k) j.kt) Datapath.reset) = some (j.binRegs s.sintab s.costab y k i) := by
  rw [h.omegaOf_draw hk m]
  induction i with
  | zero => exact (h.binRegs hk y (Nat.zero_le _)).1
  | succ i ih =>
    rw [kernel_succ, ih (by omega), Option.bind_some]
    exact h.accumulate hk y (by omega) _

end

/-! ### A spectrum -/

/-- A byte of the signal. -/
def Job.Signal (j : Job) (a : Nat) : Prop := j.sig.toNat ≤ a ∧ a < j.sig.toNat + j.n.toNat

/-- A byte of the whole spectrum. -/
def Job.Output (j : Job) (a : Nat) : Prop := binAddr j.out 0 ≤ a ∧ a < binAddr j.out j.kt.toNat

/-- `y` holds a signal and, apart from it, its whole spectrum, whose bins come out so whatever the draws. -/
structure Job.Spectrum (j : Job) (S C : Vector Word Config.L) (y : Bytes) : Prop where
  apart : ∀ a, j.Signal a → ¬ j.Output a
  overlaps : j.overlaps = false
  first : ∀ k < j.kt.toNat, ∀ n, binStart (omegaOf n j.g (wordOf k) j.kt) Datapath.reset = j.binRegs S C y k 0
  next : ∀ k < j.kt.toNat, ∀ i < j.n.toNat, ∀ n,
    accumulate n S C (y (j.sig.toNat + (j.binRegs S C y k i).nidx.toNat)) (j.binRegs S C y k i) =
      some (j.binRegs S C y k (i + 1))
  re : ∀ k < j.kt.toNat, (j.binRegs S C y k j.n.toNat).re = y.word (binAddr j.out k)
  im : ∀ k < j.kt.toNat, (j.binRegs S C y k j.n.toNat).im = y.word (binAddr j.out k + 4)
  finite : ∀ k < j.kt.toNat, (j.binRegs S C y k j.n.toNat).Finite

/-- The signal's bytes and the spectrum's are disjoint. -/
theorem Job.apart_of_disjoint {j : Job}
    (h : Disjoint j.sig.toNat j.n.toNat j.out.toNat (8 * j.kt.toNat)) :
    (∀ a, j.Signal a → ¬ j.Output a) ∧ j.overlaps = false := by
  refine ⟨fun a ⟨hlo, hhi⟩ ⟨hlo', hhi'⟩ => ?_, ?_⟩
  · simp only [binAddr] at hlo' hhi'
    omega
  · rw [Job.overlaps, decide_eq_false_iff_not]
    omega

/-- What a serial transform leaves is a spectrum, where all its values are finite. -/
theorem BinsLeft.spectrum {s : State} {j : Job} {n : Nat} {x y : Bytes} (hfinite : s.GridFinite j.g j.kt j.n.toNat)
    (hapart : Disjoint j.sig.toNat j.n.toNat j.out.toNat (8 * j.kt.toNat))
    (h : BinsLeft s.sintab s.costab j.g j.sig.toNat j.n.toNat j.kt j.out.toNat n j.kt.toNat 0 x y) :
    j.Spectrum s.sintab s.costab y := by
  obtain ⟨hdisjoint, hoverlaps⟩ := Job.apart_of_disjoint hapart
  have hN : j.n.toNat ≤ 2 ^ 32 := by have := j.n.isLt; omega
  have hsignal : ∀ i < j.n.toNat, x (j.sig.toNat + i) = y (j.sig.toNat + i) := fun i hi =>
    (h.outside _ (by omega)).symm
  have hbins : ∀ k < j.kt.toNat, (j.binRegs s.sintab s.costab y k j.n.toNat).re = y.word (binAddr j.out k) ∧
      (j.binRegs s.sintab s.costab y k j.n.toNat).im = y.word (binAddr j.out k + 4) := fun k hk => by
    have hbin := h.bin (by omega) k hk
    rw [dtftBin_congr _ hN hsignal, Nat.zero_add, dtftBin, hfinite.kernel hk y le_rfl, Option.map_some,
      Option.some.injEq, Prod.mk.injEq] at hbin
    exact hbin
  refine ⟨hdisjoint, hoverlaps, fun k hk m => ?_, fun k hk i hi m => hfinite.accumulate hk y hi m,
    fun k hk => (hbins k hk).1, fun k hk => (hbins k hk).2, fun k hk => (hfinite.binRegs hk y le_rfl).2⟩
  exact Option.some.inj (hfinite.kernel hk y (Nat.zero_le _) 0 m)

end Sys2Proof.Machine
end
section
/-! PROOFS. What `PIPE` finds from a finite spectrum does not depend on the draws (00_scope.md rule R11, 44_classifier.md
rule R138): a squared magnitude is no NaN, and a distance that is one is not below any other. -/

namespace Sys2Proof.Machine

/-! ### Squared magnitudes -/

theorem f32IsNaN_iff (b : Word) : f32IsNaN b = true ↔ 0x7F800000 < b.toNat % 2 ^ 31 := by
  rw [f32IsNaN, f32Exp_eq, f32Frac_eq, Bool.and_eq_true, beq_iff_eq, bne_iff_ne]
  omega

theorem f32Signed_notNaN (neg : Bool) {p : Nat} (h : p ≤ 0x7F800000) : f32IsNaN (f32Signed neg p) = false := by
  refine Bool.eq_false_iff.2 fun hn => ?_
  rw [f32IsNaN_iff, f32Signed_toNat_mod neg (by omega)] at hn
  omega

theorem roundMag_le_inf (num den : Nat) : roundMag num den ≤ 0x7F800000 := min_le_right _ _

/-- A sum of data of one sign is no NaN. -/
theorem fadd_notNaN (n : Nat) {a b : Word} (ha : f32IsNaN a = false) (hb : f32IsNaN b = false)
    (hsign : f32Sign a = f32Sign b) : f32IsNaN (fadd n a b) = false := by
  have hinf : ¬ (f32IsInf b && f32Sign a != f32Sign b) = true := by simp [hsign]
  have hnan : ¬ (f32IsNaN a || f32IsNaN b) = true := by simp [ha, hb]
  rw [fadd, if_neg hnan, if_neg hinf]
  split
  · exact ha
  · split
    · exact hb
    · dsimp only
      split
      · exact f32Signed_notNaN _ (Nat.zero_le _)
      · exact f32Signed_notNaN _ (roundMag_le_inf _ _)

theorem fmul_self (n : Nat) {a : Word} (ha : f32IsFinite a = true) :
    f32IsNaN (fmul n a a) = false ∧ f32Sign (fmul n a a) = false := by
  rw [fmul_finite_eq n ha ha, bne_self_eq_false]
  exact ⟨f32Signed_notNaN _ (roundMag_le_inf _ _), f32Sign_signed _ (roundMag_lt _ _)⟩

theorem sqmagOf_draw {re im : Word} (hre : f32IsFinite re = true) (him : f32IsFinite im = true) (n m : Nat) :
    sqmagOf m re im = sqmagOf n re im := by
  obtain ⟨hre', hres⟩ := fmul_self n hre
  obtain ⟨him', hims⟩ := fmul_self (n + 1) him
  exact SameDatum.eq_of_notNaN
    (.fadd _ _ (.fmul _ _ (.refl re) (.refl re)) (.fmul _ _ (.refl im) (.refl im)))
    (fadd_notNaN _ hre' him' (hres.trans hims.symm))

/-- Entries whose values do not depend on the draws, computed from pairs that none of them is written over. -/
theorem plainMags_draw {f : Nat → Word → Word → Word} {src dst k m : Nat} (hsep : src + 8 * (k + m) ≤ dst + 4 * k)
    {x : Bytes} (h : ∀ i < m, ∀ n n', f n (x.word (src + 8 * (k + i))) (x.word (src + 8 * (k + i) + 4)) =
      f n' (x.word (src + 8 * (k + i))) (x.word (src + 8 * (k + i) + 4))) (n n' : Nat) :
    plainMags f src dst n m k x = plainMags f src dst n' m k x := by
  induction m generalizing n n' k x with
  | zero => rfl
  | succ m ih =>
    have hhead := h 0 (Nat.succ_pos m) n n'
    rw [Nat.add_zero] at hhead
    rw [plainMags, plainMags, hhead]
    have hput := x.eqOff_putWord (dst + 4 * k) (f n' (x.word (src + 8 * k)) (x.word (src + 8 * k + 4)))
    generalize x.putWord (dst + 4 * k) _ = z at hput ⊢
    refine ih (by omega) (fun i hi n n' => ?_) _ _
    rw [hput.word (by omega), hput.word (by omega), show k + 1 + i = k + (i + 1) by omega]
    exact h (i + 1) (by omega) n n'

/-! ### The nearest entry -/

theorem distFrom_sameDatum {n m : Nat} {acc acc' : Word} (hacc : SameDatum acc acc') (xs ys : List Word) :
    SameDatum (distFrom n acc xs ys) (distFrom m acc' xs ys) := by
  induction xs generalizing n m acc acc' ys with
  | nil => exact hacc
  | cons x xs ih =>
    cases ys with
    | nil => exact hacc
    | cons y ys =>
      have hd : SameDatum (fsub n x y) (fsub m x y) := .fsub _ _ (.refl x) (.refl y)
      exact ih (.fadd _ _ hacc (.fmul _ _ hd hd)) ys

/-- Data that are the same come out the same where the least is looked for. -/
theorem closer_sameDatum (b : Nat × Word) (v : Nat) {d d' : Word} (h : SameDatum d d') :
    closer b (v, d) = closer b (v, d') := by
  rcases h with rfl | ⟨hd, hd'⟩
  · rfl
  · have hnan : ∀ {e : Word}, f32IsNaN e = true → flt e b.2 = false := fun {e} he =>
      Bool.eq_false_iff.2 fun hlt => by
        rw [flt_iff, he] at hlt
        exact absurd hlt.1 (by decide)
    simp only [closer, hnan hd, hnan hd', Bool.false_eq_true, if_false]

theorem nearestFrom_sameDatum {ds ds' : List Word} (h : List.Forall₂ SameDatum ds ds') (v : Nat) (b : Nat × Word) :
    nearestFrom v b ds = nearestFrom v b ds' := by
  induction h generalizing v b with
  | nil => rfl
  | cons hd _ ih => rw [nearestFrom, nearestFrom, closer_sameDatum b v hd, ih]

theorem nearest_draw (n m : Nat) (spec : List Word) (dict : Vector (Vector Word Config.KC) Config.NDICT) :
    nearest (distances n spec dict).toList = nearest (distances m spec dict).toList := by
  refine nearestFrom_sameDatum ?_ 0 _
  rw [distances, distances, tab_toList, tab_toList, List.forall₂_map_left_iff, List.forall₂_map_right_iff,
    List.forall₂_same]
  exact fun v _ => distFrom_sameDatum (.refl 0) _ _

/-- From a finite spectrum `PIPE` always finds the same. -/
theorem pipe_draw {dst : Nat} {y : Bytes} (h : ∀ k < 41, f32IsFinite (y.word (dst + 0x50 + 8 * k)) = true ∧
    f32IsFinite (y.word (dst + 0x50 + 8 * k + 4)) = true) (dict : Vector (Vector Word Config.KC) Config.NDICT)
    (n m : Nat) : pipeBytes n dst y = pipeBytes m dst y ∧ pipeNearest n dst dict y = pipeNearest m dst dict y := by
  have hbytes : pipeBytes n dst y = pipeBytes m dst y := plainMags_draw (by show _ + 8 * (0 + 41) ≤ _; omega)
    (fun i hi n n' => by
      obtain ⟨hre, him⟩ := h i hi
      rw [Nat.zero_add]
      exact sqmagOf_draw hre him n' n) n m
  exact ⟨hbytes, by rw [pipeNearest, pipeNearest, hbytes]; exact nearest_draw _ _ _ _⟩

end Sys2Proof.Machine
end
section
/-! PROOFS. What shared storage will hold once a core's buffer has drained, and what the core reads (20_memory.md rules R58
to R65): both survive every drain, eviction and fence, so that only the writes of the other core can take them away. -/

namespace Sys2Proof.Machine

/-! ### Writes of a known result -/

/-- A pending write puts the bytes of `y`, and only in `W`. -/
def Pending.Writes (y : Bytes) (W : Nat → Prop) (e : Pending) : Prop :=
  ∀ a, e.Covers a → W a ∧ ∀ b, e.overlayByte a b = y a

theorem Pending.job_writes (y : Bytes) (W : Nat → Prop) (i : JobIx) (v : Word) : (Pending.job i v).Writes y W :=
  fun _ h => h.elim

theorem wordByte_word (y : Bytes) {a c : Nat} (h : a ≤ c ∧ c < a + 4) : wordByte (y.word a) (c - a) = y c := by
  obtain ⟨h0, h1, h2, h3⟩ := wordByte_wordOfBytes (y a) (y (a + 1)) (y (a + 2)) (y (a + 3))
  obtain ⟨d, rfl⟩ := Nat.exists_eq_add_of_le h.1
  have hd : d < 4 := by omega
  rw [Nat.add_sub_cancel_left, Bytes.word]
  interval_cases d
  · exact h0
  · exact h1
  · exact h2
  · exact h3

theorem Pending.word_writes {y : Bytes} {W : Nat → Prop} {a : Nat} (h : ∀ c, a ≤ c → c < a + 4 → W c) :
    (Pending.word a (y.word a)).Writes y W := fun c hc =>
  ⟨h c hc.1 hc.2, fun _ => (if_pos hc).trans (wordByte_word y hc)⟩

section
variable {y : Bytes} {W : Nat → Prop} {es : List Pending} (h : ∀ e ∈ es, e.Writes y W)
include h

/-- Such writes leave a byte as it is, or make it that of `y`. -/
theorem foldl_writes (a : Nat) (b : Byte) : es.foldl (fun b e => e.overlayByte a b) b = b ∨
    (W a ∧ es.foldl (fun b e => e.overlayByte a b) b = y a) := by
  induction es generalizing b with
  | nil => exact .inl rfl
  | cons e es ih =>
    obtain ⟨he, hes⟩ := List.forall_mem_cons.1 h
    have hrest := ih hes (e.overlayByte a b)
    rw [List.foldl_cons]
    by_cases hc : e.Covers a
    · rw [(he a hc).2 b] at hrest ⊢
      exact .inr ⟨(he a hc).1, hrest.elim id And.right⟩
    · rwa [Pending.overlayByte_of_not_covers hc] at hrest ⊢

theorem foldl_writes_same (a : Nat) : es.foldl (fun b e => e.overlayByte a b) (y a) = y a :=
  (foldl_writes h a (y a)).elim id And.right

theorem foldl_writes_outside {a : Nat} (ha : ¬ W a) (b : Byte) :
    es.foldl (fun b e => e.overlayByte a b) b = b :=
  (foldl_writes h a b).resolve_right fun hw => ha hw.1

end

/-! ### What is stored and what is read -/

/-- Shared storage holds `b` at `a`, under what core `c` has pending. -/
def State.Stores (s : State) (c : CoreId) (a : Nat) (b : Byte) : Prop :=
  (s.view c).sb.foldl (fun b e => e.overlayByte a b) (s.mem.read a) = b

/-- Core `c` reads `b` at `a`, and will go on doing so when its copies are gone. -/
def State.Sees (s : State) (c : CoreId) (a : Nat) (b : Byte) : Prop := s.Stores c a b ∧ s.coreByte c a = b

/-- Core `c` goes on having stored what it has stored and reading what it reads. -/
structure Upholds (c : CoreId) (s t : State) : Prop where
  stores : ∀ a b, s.Stores c a b → t.Stores c a b
  sees : ∀ a b, s.Sees c a b → t.Sees c a b

theorem Upholds.refl (c : CoreId) (s : State) : Upholds c s s := ⟨fun _ _ => id, fun _ _ => id⟩

theorem Upholds.trans {c : CoreId} {s t u : State} (h : Upholds c s t) (k : Upholds c t u) : Upholds c s u :=
  ⟨fun a b => k.stores a b ∘ h.stores a b, fun a b => k.sees a b ∘ h.sees a b⟩

theorem Upholds.of_same {c : CoreId} {s t : State} (hview : t.view c = s.view c) (hmem : t.mem = s.mem) :
    Upholds c s t := by
  have hstores : ∀ a b, s.Stores c a b → t.Stores c a b := fun a b h => by
    rw [State.Stores, hview, hmem]; exact h
  refine ⟨hstores, fun a b h => ⟨hstores a b h.1, ?_⟩⟩
  rw [State.coreByte, hview, hmem]
  exact h.2

/-- A core that holds no copies reads what is stored. -/
theorem State.Stores.sees {s : State} {c : CoreId} {a : Nat} {b : Byte} (h : s.Stores c a b)
    (hcopies : (s.view c).mcopies = []) : s.Sees c a b := ⟨h, (s.coreByte_of_no_copies c a hcopies).trans h⟩

/-- What is stored and what is read, once the same is stored: a core reads its copy or shared storage. -/
theorem State.Sees.of_base {s t : State} {c : CoreId} {a : Nat} {b : Byte} (hsb : (t.view c).sb = (s.view c).sb)
    (hbase : (t.view c).base t.mem a = (s.view c).base s.mem a ∨ (t.view c).base t.mem a = s.mem.read a)
    (hmem : t.mem.read a = s.mem.read a) (h : s.Sees c a b) : t.Sees c a b := by
  obtain ⟨hstores, hreads⟩ := h
  refine ⟨by rw [State.Stores, hsb, hmem]; exact hstores, ?_⟩
  rw [State.coreByte, View.byte, hsb]
  rcases hbase with hbase | hbase <;> rw [hbase]
  · exact hreads
  · exact hstores

/-- Where the other core writes nothing, it takes nothing away. -/
theorem State.Sees.of_view {s t : State} {c : CoreId} {a : Nat} {b : Byte} (hview : t.view c = s.view c)
    (hmem : t.mem.read a = s.mem.read a) (h : s.Sees c a b) : t.Sees c a b := by
  refine h.of_base (by rw [hview]) (.inl ?_) hmem
  rw [hview, View.base, View.base, hmem]

/-- Where the other core writes the same, what is stored stays. -/
theorem State.Stores.of_view {s t : State} {c : CoreId} {y : Bytes} {W : Nat → Prop} {a : Nat}
    (hview : t.view c = s.view c) (hw : ∀ e ∈ (s.view c).sb, e.Writes y W)
    (hmem : t.mem.read a = s.mem.read a ∨ t.mem.read a = y a) (h : s.Stores c a (y a)) : t.Stores c a (y a) := by
  rw [State.Stores, hview]
  rcases hmem with hmem | hmem <;> rw [hmem]
  · exact h
  · exact foldl_writes_same hw a

/-! ### A core's own steps -/

theorem Upholds.dropKeep (c : CoreId) (s : State) : Upholds c s s.dropKeep := .of_same (by cases c <;> rfl) rfl

theorem Upholds.setRegs (c : CoreId) (s : State) (r : Datapath) : Upholds c s (s.setRegs c r) :=
  .of_same (by cases c <;> rfl) (by cases c <;> rfl)

theorem Upholds.draw (c : CoreId) (s : State) (n : Nat) : Upholds c s (s.draw n) :=
  .of_same (by cases c <;> rfl) rfl

/-- A read may take a copy. -/
theorem Upholds.noteWord (c : CoreId) (s : State) (k : Nat) : Upholds c s (s.noteWord c k) := by
  have hstores : ∀ a b, s.Stores c a b → (s.noteWord c k).Stores c a b := fun a b h => by
    rw [State.Stores, State.noteWord_sb, State.noteWord_mem]; exact h
  exact ⟨hstores, fun a b h => ⟨hstores a b h.1, by rw [State.noteWord_coreByte]; exact h.2⟩⟩

/-- A slot read takes no copy of a byte. -/
theorem Upholds.noteJob (c : CoreId) (s : State) (i : JobIx) : Upholds c s (s.noteJob c i) := by
  rcases s.noteJob_cases c i with h | h | ⟨-, h⟩ <;> rw [h]
  · exact .refl c s
  · exact .dropKeep c s
  · refine ⟨fun a b hs => ?_, fun a b hs => ?_⟩
    · cases c <;> exact hs
    · cases c <;> exact hs

theorem Upholds.fenceAcq (c : CoreId) (s : State) : Upholds c s (s.fenceAcq c) := by
  have hstores : ∀ a b, s.Stores c a b → (s.fenceAcq c).Stores c a b := fun a b h => by cases c <;> exact h
  refine ⟨hstores, fun a b h => (hstores a b h.1).sees ?_⟩
  rw [State.fenceAcq, State.setView_view]

/-- An eviction removes a copy at most. -/
theorem Upholds.evict (c : CoreId) (s : State) (l : WordLoc) : Upholds c s (s.evict c l) := by
  have hmem : (s.evict c l).mem = s.mem := by cases l <;> cases c <;> rfl
  have hsb := s.evict_sb c l
  refine ⟨fun a b h => by rw [State.Stores, hsb, hmem]; exact h, fun a b h => h.of_base hsb ?_ (by rw [hmem])⟩
  rw [hmem]
  cases l with
  | mem k =>
    rw [State.evict, State.setView_view, View.base, View.base, copyOf_filter (s.view c).mcopies fun x => x != k]
    by_cases hk : (a / 4 != k) = true
    · rw [if_pos hk]; exact .inl rfl
    · rw [if_neg hk]; exact .inr rfl
  | job i => rw [State.evict, State.setView_view]; exact .inl rfl

/-- A drain takes an entry from above shared storage and the copies into both. -/
theorem State.drain_spec {s : State} (c : CoreId) (n : Nat) (hw : s.mem.wf = true) : s.drain c n = s ∨
    ∃ e ∈ (s.view c).sb, (∀ a, (s.drain c n).mem.read a = e.overlayByte a (s.mem.read a)) ∧
      Upholds c s (s.drain c n) := by
  cases he : (s.view c).sb[n]? with
  | none => exact .inl (by simp only [State.drain, he])
  | some e =>
    obtain ⟨hblocked, hdrains⟩ := drainsKeepProgramOrder s c n e he hw
    by_cases hmeets : ∃ o ∈ (s.view c).sb.take n, o.meets e = true
    · exact .inl (hblocked hmeets)
    · have hfree : ∀ o ∈ (s.view c).sb.take n, o.meets e = false := fun o ho =>
        Bool.eq_false_iff.2 fun h => hmeets ⟨o, ho, h⟩
      obtain ⟨hsb, hread, -, hbytes, -⟩ := hdrains hfree
      have hstores : ∀ a b, s.Stores c a b → (s.drain c n).Stores c a b := fun a b h => by
        rw [State.Stores, hsb, hread]
        exact (foldl_eraseIdx _ he (fun o ho x => Pending.overlayByte_comm (hfree o ho) a x) _).trans h
      exact .inr ⟨e, List.mem_of_getElem? he, hread, hstores,
        fun a b h => ⟨hstores a b h.1, (hbytes a).trans h.2⟩⟩

theorem Upholds.drain {s : State} (c : CoreId) (n : Nat) (hw : s.mem.wf = true) : Upholds c s (s.drain c n) := by
  rcases s.drain_spec c n hw with h | ⟨-, -, -, h⟩
  · rw [h]; exact .refl c s
  · exact h

/-- A release fence puts into shared storage what the core has stored. -/
theorem State.Stores.released {s : State} {c : CoreId} {a : Nat} {b : Byte} (hw : s.mem.wf = true)
    (h : s.Stores c a b) : (s.fenceRel c).mem.read a = b := (s.fenceRel_read c a hw).trans h

theorem Upholds.fenceRel {s : State} (c : CoreId) (hw : s.mem.wf = true) : Upholds c s (s.fenceRel c) := by
  have hstores : ∀ a b, s.Stores c a b → (s.fenceRel c).Stores c a b := fun a b h => by
    rw [State.Stores, State.fenceRel_sb]; exact h.released hw
  exact ⟨hstores, fun a b h => ⟨hstores a b h.1, (s.fenceRel_coreByte c hw a).trans h.2⟩⟩

/-! ### A core's own writes -/

theorem State.enqueue_view_sb (s : State) (c : CoreId) (e : Pending) :
    ((s.enqueue c e).view c).sb = (s.view c).sb ++ [e] := by
  rw [State.enqueue, State.setView_view]
  rfl

/-- A write takes away no byte but its own. -/
theorem State.Sees.enqueue {s : State} {c : CoreId} {e : Pending} {a : Nat} {b : Byte} (he : ¬ e.Covers a)
    (h : s.Sees c a b) : (s.enqueue c e).Sees c a b := by
  obtain ⟨hstores, hreads⟩ := h
  refine ⟨?_, ?_⟩
  · rw [State.Stores, State.enqueue_view_sb, foldl_overlayByte_append, Pending.overlayByte_of_not_covers he,
      State.enqueue_mem]
    exact hstores
  · rw [State.coreByte, View.byte, State.enqueue_view_sb, foldl_overlayByte_append,
      Pending.overlayByte_of_not_covers he, State.enqueue_mem, State.enqueue, State.setView_view]
    have hdrop : ((s.view c).enqueue e).mcopies = (s.view c).mcopies.filter fun x => !e.touchesWord x.1 := rfl
    rw [View.base, hdrop, copyOf_filter (s.view c).mcopies fun k => !e.touchesWord k]
    by_cases hk : (!e.touchesWord (a / 4)) = true
    · rw [if_pos hk]; exact hreads
    · rw [if_neg hk]; exact hstores

/-- A write of the result stores it. -/
theorem State.Stores.enqueue {s : State} {c : CoreId} {e : Pending} {y : Bytes} {W : Nat → Prop} {a : Nat}
    (he : e.Writes y W) (h : e.Covers a ∨ s.Stores c a (y a)) : (s.enqueue c e).Stores c a (y a) := by
  rw [State.Stores, State.enqueue_view_sb, foldl_overlayByte_append, State.enqueue_mem]
  by_cases hc : e.Covers a
  · exact (he a hc).2 _
  · rw [Pending.overlayByte_of_not_covers hc]
    exact h.resolve_left hc

/-- A slot write takes away nothing. -/
theorem Upholds.writeJob (c : CoreId) (s : State) (i : JobIx) (v : Word) : Upholds c s (s.writeJob c i v) := by
  have hno : ∀ a, ¬ (Pending.job i v).Covers a := fun _ h => h
  refine ⟨fun a b h => ?_, fun a b h => State.Sees.enqueue (hno a) h⟩
  rw [State.Stores, State.writeJob, State.enqueue_view_sb, foldl_overlayByte_append,
    Pending.overlayByte_of_not_covers (hno a), State.enqueue_mem]
  exact h

end Sys2Proof.Machine
end
section
/-! PROOFS. What a core has computed when it stands in the middle of its bins (43_coresync.md rules R120, R125): the signal
is what it reads, the bins behind it are stored, and its registers hold what is computed of the one it is in. -/

namespace Sys2Proof.Machine

/-! ### A handoff -/

/-- A job handed over, and what comes of it: `y` is what memory holds once both halves are computed, `z` and the results are
what the command leaves. -/
structure Handoff where
  /-- The state from which `P` publishes. -/
  base : State
  job : Job
  y : Bytes
  z : Bytes
  resi : Word
  resf : Word

/-- What every turn leaves of what the cores compute with. -/
structure State.SameTables (s t : State) : Prop where
  sintab : t.sintab = s.sintab
  costab : t.costab = s.costab
  disturbed : t.disturbed = s.disturbed
  memTop : t.memTop = s.memTop

/-- Everything pending on core `c`'s side is of the spectrum. -/
def State.WritesOutput (s : State) (H : Handoff) (c : CoreId) : Prop :=
  ∀ e ∈ (s.view c).sb, e.Writes H.y H.job.Output

/-- The first bin of a core's half. -/
def Job.firstBin (j : Job) : CoreId → Nat
  | .p => 0
  | .w => j.k0.toNat

/-- The bin behind the last of a core's half. -/
def Job.endBin (j : Job) : CoreId → Word
  | .p => j.k0
  | .w => j.k1

theorem Job.Fits.endBin_le {j : Job} {n : Nat} (h : j.Fits n) (c : CoreId) : (j.endBin c).toNat ≤ j.kt.toNat := by
  cases c with
  | p => exact h.half
  | w => exact (congrArg BitVec.toNat h.last).le

/-- The first byte a core in its bins has yet to write. -/
def BinPos.front (j : Job) (r : Datapath) : BinPos → Nat
  | .im => binAddr j.out r.kidx.toNat + 4
  | _ => binAddr j.out r.kidx.toNat

/-- What the registers hold of the bin a core is in. -/
def Handoff.Holds (H : Handoff) (r : Datapath) : BinPos → Prop
  | .next => True
  | .sample =>
    r = { H.job.binRegs H.base.sintab H.base.costab H.y r.kidx.toNat r.nidx.toNat with kidx := r.kidx }
  | .re => r.re = H.y.word (binAddr H.job.out r.kidx.toNat) ∧ r.im = H.y.word (binAddr H.job.out r.kidx.toNat + 4)
  | .im => r.im = H.y.word (binAddr H.job.out r.kidx.toNat + 4)

/-- What core `c` has computed when it stands at `b` in its bins. -/
structure State.Progress (s : State) (H : Handoff) (c : CoreId) (b : BinPos) : Prop where
  signal : ∀ a, H.job.Signal a → s.Sees c a (H.y a)
  stored : ∀ a, H.job.Output a → binAddr H.job.out (H.job.firstBin c) ≤ a → a < b.front H.job (s.regs c) →
    s.Stores c a (H.y a)
  regs : H.Holds (s.regs c) b

/-- The whole half of core `c` is stored. -/
def State.StoredHalf (s : State) (H : Handoff) (c : CoreId) : Prop :=
  ∀ a, H.job.Output a → binAddr H.job.out (H.job.firstBin c) ≤ a → a < binAddr H.job.out (H.job.endBin c).toNat →
    s.Stores c a (H.y a)

section
variable {s t : State} {H : Handoff} {c : CoreId} {b b' : BinPos}

/-- A step that writes nothing. -/
theorem State.Progress.move (h : s.Progress H c b) (hu : Upholds c s t)
    (hfront : b'.front H.job (t.regs c) = b.front H.job (s.regs c)) (hregs : H.Holds (t.regs c) b') :
    t.Progress H c b' :=
  ⟨fun a ha => hu.sees a _ (h.signal a ha), fun a ha hlo hhi => hu.stores a _ (h.stored a ha hlo (hfront ▸ hhi)),
    hregs⟩

/-- A step that writes the next word of the spectrum. -/
theorem State.Progress.write (h : s.Progress H c b) {a : Nat} (happart : ∀ i, H.job.Signal i → ¬ H.job.Output i)
    (hout : ∀ i, a ≤ i → i < a + 4 → H.job.Output i) (hfront : b.front H.job (s.regs c) = a)
    (hfront' : b'.front H.job (t.regs c) = a + 4) (ht : Upholds c (s.writeWord c a (H.y.word a)) t)
    (hregs : H.Holds (t.regs c) b') : t.Progress H c b' := by
  have hwrites : (Pending.word a (H.y.word a)).Writes H.y H.job.Output := Pending.word_writes hout
  refine ⟨fun i hi => ht.sees i _ (State.Sees.enqueue (fun hc => happart i hi (hwrites i hc).1) (h.signal i hi)),
    fun i hi hlo hhi => ht.stores i _ (State.Stores.enqueue hwrites ?_), hregs⟩
  by_cases hlt : i < a
  · exact .inr (h.stored i hi hlo (by rw [hfront]; exact hlt))
  · exact .inl ⟨Nat.le_of_not_lt hlt, by rw [hfront'] at hhi; exact hhi⟩

theorem State.WritesOutput.of_sb (h : s.WritesOutput H c) (hsb : (t.view c).sb = (s.view c).sb) :
    t.WritesOutput H c := by
  rw [State.WritesOutput, hsb]
  exact h

theorem State.WritesOutput.enqueue (h : s.WritesOutput H c) {e : Pending} (he : e.Writes H.y H.job.Output)
    (hsb : (t.view c).sb = (s.view c).sb ++ [e]) : t.WritesOutput H c := by
  rw [State.WritesOutput, hsb]
  intro o ho
  rcases List.mem_append.1 ho with ho | ho
  · exact h o ho
  · rw [List.mem_singleton.1 ho]; exact he

/-! ### Registers -/

section
variable {j : Job} {S C : Vector Word Config.L} {y : Bytes} (hs : j.Spectrum S C y)
include hs

/-- The registers set up for a bin. -/
theorem Job.Spectrum.binStart {r : Datapath} (hk : r.kidx.toNat < j.kt.toNat) (n : Nat) :
    Machine.binStart (omegaOf n j.g r.kidx j.kt) r = { j.binRegs S C y r.kidx.toNat 0 with kidx := r.kidx } := by
  have hword : wordOf r.kidx.toNat = r.kidx := BitVec.eq_of_toNat_eq (toNat_wordOf r.kidx.isLt)
  rw [← hs.first _ hk n, hword]
  rfl

/-- The registers after a sample. -/
theorem Job.Spectrum.accumulate {r : Datapath} (hk : r.kidx.toNat < j.kt.toNat) (hi : r.nidx.toNat < j.n.toNat)
    (hr : r = { j.binRegs S C y r.kidx.toNat r.nidx.toNat with kidx := r.kidx }) (n : Nat) :
    Machine.accumulate n S C (y (j.sig.toNat + r.nidx.toNat)) r =
      some { j.binRegs S C y r.kidx.toNat (r.nidx.toNat + 1) with kidx := r.kidx } := by
  have hnidx : (j.binRegs S C y r.kidx.toNat r.nidx.toNat).nidx = r.nidx := (congrArg Datapath.nidx hr).symm
  have hnext := hs.next _ hk _ hi n
  rw [hnidx] at hnext
  refine (congrArg (Machine.accumulate n S C (y (j.sig.toNat + r.nidx.toNat))) hr).trans ?_
  rw [accumulate_kidx, hnext]
  rfl

end

/-- A bin under way, after all samples or before the next. -/
theorem Handoff.holds_samplePos {r : Datapath} (hs : H.job.Spectrum H.base.sintab H.base.costab H.y)
    (hk : r.kidx.toNat < H.job.kt.toNat) {i : Nat} (hi : i ≤ H.job.n.toNat) (hnidx : r.nidx.toNat = i)
    (hr : r = { H.job.binRegs H.base.sintab H.base.costab H.y r.kidx.toNat i with kidx := r.kidx }) :
    H.Holds r (samplePos H.job r) := by
  rw [samplePos]
  split
  · rw [← hnidx] at hr
    exact hr
  · next hlt =>
    obtain rfl : i = H.job.n.toNat := by omega
    refine ⟨?_, ?_⟩
    · exact (congrArg Datapath.re hr).trans (hs.re _ hk)
    · exact (congrArg Datapath.im hr).trans (hs.im _ hk)

theorem samplePos_front (j : Job) (r : Datapath) : (samplePos j r).front j r = binAddr j.out r.kidx.toNat := by
  rw [samplePos]
  split <;> rfl

/-! ### One step -/

theorem State.Progress.binBegun (h : s.Progress H c .next) (hs : H.job.Spectrum H.base.sintab H.base.costab H.y)
    (hk : (s.regs c).kidx.toNat < H.job.kt.toNat) :
    (s.binBegun c H.job).Progress H c (samplePos H.job ((s.binBegun c H.job).regs c)) := by
  have hregs := s.binBegun_regs c H.job
  obtain ⟨hnidx, hkidx⟩ := s.binBegun_counts c H.job
  refine h.move ((Upholds.setRegs c s _).trans (.draw c _ _)) ?_ ?_
  · rw [samplePos_front, hkidx]; rfl
  · refine Handoff.holds_samplePos hs (by rw [hkidx]; exact hk) (Nat.zero_le _) (by rw [hnidx]; rfl) ?_
    rw [hkidx, hregs]
    exact hs.binStart hk _

theorem State.Progress.sample (h : s.Progress H c .sample) (hs : H.job.Spectrum H.base.sintab H.base.costab H.y)
    (ht : H.base.SameTables s) (hd : H.base.disturbed = []) (hk : (s.regs c).kidx.toNat < H.job.kt.toNat)
    (hi : (s.regs c).nidx.toNat < H.job.n.toNat) :
    ∃ t, s.sample c H.job.sig.toNat = .ok t ∧ t.Progress H c (samplePos H.job (t.regs c)) ∧
      (t.view c).sb = (s.view c).sb := by
  generalize hr : s.regs c = r at hk hi
  have hregs : r = _ := hr ▸ h.regs
  have hread : s.readByte c (H.job.sig.toNat + r.nidx.toNat) =
      (H.y (H.job.sig.toNat + r.nidx.toNat), s.noteWord c ((H.job.sig.toNat + r.nidx.toNat) / 4)) := by
    rw [s.readByte_calm c _ (ht.disturbed.trans hd), (h.signal _ ⟨Nat.le_add_right _ _, by omega⟩).2]
  have hacc := hs.accumulate hk hi hregs s.draws
  generalize hq : ({ H.job.binRegs H.base.sintab H.base.costab H.y r.kidx.toNat (r.nidx.toNat + 1) with
    kidx := r.kidx } : Datapath) = q at hacc
  have hkidx : q.kidx = r.kidx := by rw [← hq]
  have hnidx : q.nidx.toNat = r.nidx.toNat + 1 := by
    rw [accumulate_nidx hacc]
    exact BitVec.toNat_add_of_lt (by have := H.job.n.isLt; show _ + 1 < _; omega)
  have hsample : s.sample c H.job.sig.toNat =
      .ok (((s.noteWord c ((H.job.sig.toNat + r.nidx.toNat) / 4)).setRegs c q).draw SAMPLE_DRAWS) := by
    simp only [State.sample, hr, hread, ht.sintab, ht.costab, hacc]
  have hregs' : ((((s.noteWord c ((H.job.sig.toNat + r.nidx.toNat) / 4)).setRegs c q).draw SAMPLE_DRAWS).regs c) = q := by
    rw [State.draw_regs, State.setRegs_regs]
  refine ⟨_, hsample, ?_, ?_⟩
  · refine h.move (((Upholds.noteWord c s _).trans (.setRegs c _ q)).trans (.draw c _ _)) ?_ ?_
    · rw [samplePos_front, hregs', hkidx, hr]; rfl
    · rw [hregs']
      refine Handoff.holds_samplePos hs (by rw [hkidx]; exact hk) hi hnidx ?_
      rw [hkidx, hq]
  · rw [State.draw_view, State.setRegs_view, State.noteWord_sb]

/-- The bytes of a bin below the last. -/
theorem Job.output_of_bin {j : Job} {k i : Nat} (hk : k < j.kt.toNat) (hlo : binAddr j.out k ≤ i)
    (hhi : i < binAddr j.out k + 8) : j.Output i := by
  simp only [Job.Output, binAddr] at *
  omega

theorem State.outWord_apart {j : Job} (h : j.overlaps = false) (u : State) (v : Word) : u.outWord j v = v := by
  rw [State.outWord, h]
  rfl

/-- A step of a core through its bins of a job that fits in memory: it has stored its half, or goes on. -/
theorem State.Progress.binStep (h : s.Progress H c b) (hs : H.job.Spectrum H.base.sintab H.base.costab H.y)
    (ht : H.base.SameTables s) (hd : H.base.disturbed = []) (hj : H.job.Fits s.memBytes)
    (hat : BinAt H.job (H.job.endBin c) b (s.regs c)) (hw : s.WritesOutput H c) :
    (s.binStep c H.job (H.job.endBin c) b = .done s ∧ s.StoredHalf H c) ∨
      ∃ b' t, s.binStep c H.job (H.job.endBin c) b = .at b' t ∧ t.Progress H c b' ∧ t.WritesOutput H c := by
  have hend := hj.endBin_le c
  have hword := State.outWord_apart hs.overlaps
  cases b with
  | next =>
    by_cases hlt : (s.regs c).kidx.toNat < (H.job.endBin c).toNat
    · refine .inr ⟨_, _, s.binStep_next c H.job hlt, h.binBegun hs (by omega), hw.of_sb ?_⟩
      rw [State.binBegun, State.draw_view, State.setRegs_view]
    · refine .inl ⟨if_neg hlt, fun a ha hlo hhi => h.stored a ha hlo ?_⟩
      simp only [BinPos.front, binAddr] at hhi ⊢
      omega
  | sample =>
    obtain ⟨hlt, hlen, -⟩ := hat
    obtain ⟨t, hsample, hprogress, hsb⟩ := h.sample hs ht hd (by omega) hlen
    exact .inr ⟨_, t, State.binStep_sample (hj.signal _ hlen) hsample, hprogress, hw.of_sb hsb⟩
  | re =>
    have hlt : (s.regs c).kidx.toNat < (H.job.endBin c).toNat := hat
    have hfit := hj.output (s.regs c).kidx.toNat (by omega)
    obtain ⟨hre, him⟩ := h.regs
    have hout : ∀ i, binAddr H.job.out (s.regs c).kidx.toNat ≤ i → i < binAddr H.job.out (s.regs c).kidx.toNat + 4 →
        H.job.Output i := fun i hlo hhi => Job.output_of_bin (by omega) hlo (by omega)
    have hregs : ((s.writeWord c (binAddr H.job.out (s.regs c).kidx.toNat)
        (H.y.word (binAddr H.job.out (s.regs c).kidx.toNat))).draw 1).regs c = s.regs c := by
      rw [State.draw_regs, State.writeWord_regs]
    refine .inr ⟨.im, _, by simp only [State.binStep, hword, hre]; exact if_pos (by omega), ?_, ?_⟩
    · exact h.write hs.apart hout rfl (by rw [hregs]; rfl) (.draw c _ 1) (by rw [hregs]; exact him)
    · exact hw.enqueue (Pending.word_writes hout) (by rw [State.draw_view]; exact State.enqueue_view_sb _ _ _)
  | im =>
    have hlt : (s.regs c).kidx.toNat < (H.job.endBin c).toNat := hat
    have hfit := hj.output (s.regs c).kidx.toNat (by omega)
    have him : (s.regs c).im = _ := h.regs
    have hout : ∀ i, binAddr H.job.out (s.regs c).kidx.toNat + 4 ≤ i →
        i < binAddr H.job.out (s.regs c).kidx.toNat + 4 + 4 → H.job.Output i :=
      fun i hlo hhi => Job.output_of_bin (k := (s.regs c).kidx.toNat) (by omega) (by omega) (by omega)
    have hkidx : ((s.regs c).kidx + 1).toNat = (s.regs c).kidx.toNat + 1 :=
      BitVec.toNat_add_of_lt (by have := H.job.kt.isLt; show _ + 1 < _; omega)
    refine .inr ⟨.next, _, by simp only [State.binStep, hword, him]; exact if_pos (by omega), ?_, ?_⟩
    · refine h.write hs.apart hout rfl ?_ ((Upholds.setRegs c _ _).trans (.draw c _ 1)) trivial
      rw [State.draw_regs, State.setRegs_regs]
      simp only [BinPos.front, binAddr, hkidx]
      omega
    · refine hw.enqueue (Pending.word_writes hout) ?_
      rw [State.draw_view, State.setRegs_view]
      exact State.enqueue_view_sb _ _ _

end

end Sys2Proof.Machine
end
section
/-! PROOFS. What the bytes of a handoff are, whatever the turns (43_coresync.md rules R117 to R129): while `P` publishes,
memory outside the spectrum; then on both sides the signal, the bins computed so far, and what the flags promise. -/

namespace Sys2Proof.Machine

/-! ### What holds of the bytes -/

/-- What every turn of a command under way leaves of the operands, the dictionary and the status. -/
structure State.Underway (s t : State) : Prop where
  cnt : t.cnt = s.cnt
  dst : t.dst = s.dst
  dict : t.dict = s.dict
  pcmd : t.pcmd = s.pcmd
  resf : t.resf = s.resf
  done : t.done = false

/-- The worker's half is in shared storage. -/
def State.Released (s : State) (H : Handoff) : Prop :=
  ∀ a, H.job.Output a → binAddr H.job.out H.job.k0.toNat ≤ a → s.mem.read a = H.y a

/-- What a worker at a stage has done. -/
def State.WorkerHolds (s : State) (H : Handoff) : WStage → Prop
  | .pollRead => s.wview.mcopies = []
  | .load _ => s.wview.mcopies = []
  | .run b => s.Progress H .w b
  | .rel => s.StoredHalf H .w
  | .setDone => s.Released H
  | _ => True

/-- What `P` at a stage has done, once it has set signal-present. -/
def State.ProducerHolds (s : State) (H : Handoff) : PStage → Prop
  | .own b => s.Progress H .p b
  | .waitFence => s.StoredHalf H .p
  | .waitRead => s.StoredHalf H .p
  | .fin => s.StoredHalf H .p ∧ s.Released H
  | .finEnd => H.base.pcmd = .xformp ∧ s.StoredHalf H .p ∧ s.Released H ∧ s.pview.mcopies = []
  | .tail => H.base.pcmd = .pipe ∧ s.StoredHalf H .p ∧ s.Released H ∧ s.pview.mcopies = []
  | .idle => s.code = .ok ∧ s.resi = H.resi ∧ s.resf = H.resf ∧ s.mem.read = H.z ∧ s.pview.sb = []
  | _ => False

/-- What holds from the trigger on. -/
structure State.Shared (s : State) (H : Handoff) : Prop where
  ran : s.Ran H.job
  tables : H.base.SameTables s
  wf : s.mem.wf = true
  writes : ∀ c, s.WritesOutput H c
  signal : ∀ a, H.job.Signal a → s.mem.read a = H.y a
  underway : s.pstage ≠ .idle → H.base.Underway s ∧ ∀ a, ¬ H.job.Output a → s.mem.read a = H.y a
  worker : s.WorkerHolds H s.wstage
  producer : s.ProducerHolds H s.pstage
  flag : s.job.get .done ≠ 0 → s.Released H
  pending : ∀ v, .job .done v ∈ s.wview.sb → s.Released H

/-- What the handoff is to come to, whatever the draws. -/
structure Handoff.Sound (H : Handoff) : Prop where
  spectrum : H.job.Spectrum H.base.sintab H.base.costab H.y
  calm : H.base.disturbed = []
  result : ∀ a, H.job.Output a ∨ H.job.Signal a → H.z a = H.y a
  xformp : H.base.pcmd = .xformp → H.z = H.y ∧ H.resi = H.base.cnt ∧ H.resf = H.base.resf
  pipe : H.base.pcmd = .pipe → H.base.dst.toNat + 572 ≤ H.base.memBytes ∧
    ∀ n, pipeBytes n H.base.dst.toNat H.y = H.z ∧
      wordOf (pipeNearest n H.base.dst.toNat H.base.dict H.y).1 = H.resi ∧
      (pipeNearest n H.base.dst.toNat H.base.dict H.y).2 = H.resf

/-! ### Memory gains bytes of the result only -/

/-- What a turn writes to memory is of the spectrum. -/
def State.Gains (s : State) (H : Handoff) (t : State) : Prop :=
  ∀ a, t.mem.read a = s.mem.read a ∨ (H.job.Output a ∧ t.mem.read a = H.y a)

section
variable {s t : State} {H : Handoff} {c : CoreId}

theorem State.Gains.of_mem (h : t.mem = s.mem) : s.Gains H t := fun a => .inl (by rw [h])

theorem State.Gains.outside (h : s.Gains H t) {a : Nat} (ha : ¬ H.job.Output a) : t.mem.read a = s.mem.read a :=
  (h a).resolve_right fun hw => ha hw.1

theorem State.Gains.same (h : s.Gains H t) (a : Nat) : t.mem.read a = s.mem.read a ∨ t.mem.read a = H.y a :=
  (h a).imp_right And.right

theorem State.Gains.keeps (h : s.Gains H t) {a : Nat} (ha : s.mem.read a = H.y a) : t.mem.read a = H.y a :=
  (h.same a).elim (·.trans ha) id

theorem State.Gains.released (h : s.Gains H t) (hs : s.Released H) : t.Released H :=
  fun a ha hlo => h.keeps (hs a ha hlo)

theorem State.Gains.drain (hw : s.mem.wf = true) (hwrites : s.WritesOutput H c) (n : Nat) :
    s.Gains H (s.drain c n) := by
  rcases s.drain_spec c n hw with h | ⟨e, he, hread, -⟩
  · rw [h]; exact .of_mem rfl
  · intro a
    rw [hread]
    by_cases hc : e.Covers a
    · obtain ⟨hout, hput⟩ := hwrites e he a hc
      exact .inr ⟨hout, hput _⟩
    · exact .inl (Pending.overlayByte_of_not_covers hc _)

theorem State.Gains.fenceRel (hw : s.mem.wf = true) (hwrites : s.WritesOutput H c) : s.Gains H (s.fenceRel c) := by
  intro a
  rw [s.fenceRel_read c a hw]
  exact foldl_writes hwrites a _

/-! ### The other core's turns -/

theorem State.Progress.of_view {b : BinPos} (hview : t.view c = s.view c) (hregs : t.regs c = s.regs c)
    (hwrites : s.WritesOutput H c) (hsignal : ∀ a, H.job.Signal a → t.mem.read a = s.mem.read a)
    (hmem : ∀ a, H.job.Output a → t.mem.read a = s.mem.read a ∨ t.mem.read a = H.y a) (h : s.Progress H c b) :
    t.Progress H c b := by
  refine ⟨fun a ha => (h.signal a ha).of_view hview (hsignal a ha), fun a ha hlo hhi => ?_,
    by rw [hregs]; exact h.regs⟩
  rw [hregs] at hhi
  exact (h.stored a ha hlo hhi).of_view hview hwrites (hmem a ha)

theorem State.StoredHalf.of_view (hview : t.view c = s.view c) (hwrites : s.WritesOutput H c)
    (hmem : ∀ a, H.job.Output a → t.mem.read a = s.mem.read a ∨ t.mem.read a = H.y a) (h : s.StoredHalf H c) :
    t.StoredHalf H c := fun a ha hlo hhi => (h a ha hlo hhi).of_view hview hwrites (hmem a ha)

end

section
variable {s t : State} {H : Handoff}

/-- A turn of `P` leaves what a worker has done. -/
theorem State.WorkerHolds.of_view (hview : t.wview = s.wview) (hregs : t.wregs = s.wregs)
    (hwrites : s.WritesOutput H .w) (hsignal : ∀ a, H.job.Signal a → t.mem.read a = s.mem.read a)
    (hmem : ∀ a, H.job.Output a → t.mem.read a = s.mem.read a ∨ t.mem.read a = H.y a) {q : WStage}
    (h : s.WorkerHolds H q) : t.WorkerHolds H q := by
  cases q with
  | pollRead => exact (congrArg View.mcopies hview).trans h
  | load i => exact (congrArg View.mcopies hview).trans h
  | run b => exact State.Progress.of_view (c := .w) hview hregs hwrites hsignal hmem h
  | rel => exact State.StoredHalf.of_view (c := .w) hview hwrites hmem h
  | setDone => exact fun a ha hlo => (hmem a ha).elim (·.trans (h a ha hlo)) id
  | off => trivial
  | pollFence => trivial
  | clear => trivial

/-- A turn of `W` leaves what `P` has done. -/
theorem State.ProducerHolds.of_view (hH : H.Sound) (hview : t.pview = s.pview) (hregs : t.pregs = s.pregs)
    (hwrites : s.WritesOutput H .p) (hgains : s.Gains H t)
    (hresults : t.code = s.code ∧ t.resi = s.resi ∧ t.resf = s.resf) {q : PStage} (h : s.ProducerHolds H q) :
    t.ProducerHolds H q := by
  have hsignal : ∀ a, H.job.Signal a → t.mem.read a = s.mem.read a := fun a ha =>
    hgains.outside (hH.spectrum.apart a ha)
  have hhalf : s.StoredHalf H .p → t.StoredHalf H .p :=
    State.StoredHalf.of_view (c := .p) hview hwrites fun a _ => hgains.same a
  have hcopies : s.pview.mcopies = [] → t.pview.mcopies = [] := (congrArg View.mcopies hview).trans
  cases q with
  | own b => exact State.Progress.of_view (c := .p) hview hregs hwrites hsignal (fun a _ => hgains.same a) h
  | waitFence => exact hhalf h
  | waitRead => exact hhalf h
  | fin => exact h.imp hhalf hgains.released
  | finEnd => exact h.imp id (And.imp hhalf (And.imp hgains.released hcopies))
  | tail => exact h.imp id (And.imp hhalf (And.imp hgains.released hcopies))
  | idle =>
    obtain ⟨hcode, hresi, hresf, hread, hsb⟩ := h
    obtain ⟨hcode', hresi', hresf'⟩ := hresults
    refine ⟨hcode'.trans hcode, hresi'.trans hresi, hresf'.trans hresf, funext fun a => ?_, ?_⟩
    · rw [← hread]
      rcases hgains a with ha | ⟨hout, ha⟩
      · exact ha
      · rw [ha, hread, hH.result a (.inl hout)]
    · rw [hview]; exact hsb
  | begin => exact h
  | pub i => exact h
  | fence => exact h
  | trig => exact h

/-! ### A core's own turns -/

theorem State.StoredHalf.upheld {c : CoreId} (hu : Upholds c s t) (h : s.StoredHalf H c) : t.StoredHalf H c :=
  fun a ha hlo hhi => hu.stores a _ (h a ha hlo hhi)

/-- What `MSYS` does for a worker leaves what it has done. -/
theorem State.WorkerHolds.upheld (hu : Upholds .w s t) (hregs : t.wregs = s.wregs)
    (hcopies : s.wview.mcopies = [] → t.wview.mcopies = []) (hgains : s.Gains H t) {q : WStage}
    (h : s.WorkerHolds H q) : t.WorkerHolds H q := by
  cases q with
  | pollRead => exact hcopies h
  | load i => exact hcopies h
  | run b =>
    have hprogress : s.Progress H .w b := h
    exact hprogress.move hu (congrArg (b.front H.job) hregs) (by
      rw [State.regs_w, hregs]; exact hprogress.regs)
  | rel => exact State.StoredHalf.upheld hu h
  | setDone => exact hgains.released h
  | off => trivial
  | pollFence => trivial
  | clear => trivial

/-- What `MSYS` does for `P` leaves what it has done. -/
theorem State.ProducerHolds.upheld (hu : Upholds .p s t) (hregs : t.pregs = s.pregs)
    (hcopies : s.pview.mcopies = [] → t.pview.mcopies = []) (hgains : s.Gains H t)
    (hresults : t.code = s.code ∧ t.resi = s.resi ∧ t.resf = s.resf)
    (hidle : s.pview.sb = [] → t.mem = s.mem ∧ t.pview.sb = []) {q : PStage} (h : s.ProducerHolds H q) :
    t.ProducerHolds H q := by
  cases q with
  | own b =>
    have hprogress : s.Progress H .p b := h
    exact hprogress.move hu (congrArg (b.front H.job) hregs) (by
      rw [State.regs_p, hregs]; exact hprogress.regs)
  | waitFence => exact State.StoredHalf.upheld hu h
  | waitRead => exact State.StoredHalf.upheld hu h
  | fin => exact h.imp (State.StoredHalf.upheld hu) hgains.released
  | finEnd => exact h.imp id (And.imp (State.StoredHalf.upheld hu) (And.imp hgains.released hcopies))
  | tail => exact h.imp id (And.imp (State.StoredHalf.upheld hu) (And.imp hgains.released hcopies))
  | idle =>
    obtain ⟨hcode, hresi, hresf, hread, hsb⟩ := h
    obtain ⟨hcode', hresi', hresf'⟩ := hresults
    obtain ⟨hmem, hsb'⟩ := hidle hsb
    exact ⟨hcode'.trans hcode, hresi'.trans hresi, hresf'.trans hresf, by rw [hmem]; exact hread, hsb'⟩
  | begin => exact h
  | pub i => exact h
  | fence => exact h
  | trig => exact h

/-! ### The turns of `MSYS` -/

/-- `t` is `s` but for the views, shared storage and the schedule. -/
def State.OnlyStores (s t : State) : Prop :=
  t = { s with
    pview := t.pview, wview := t.wview, mem := t.mem, job := t.job, keeps := t.keeps, turns := t.turns }

theorem State.OnlyStores.memBytes (h : s.OnlyStores t) : t.memBytes = s.memBytes := by
  rw [h]
  rfl

theorem State.OnlyStores.tables {b : State} (h : s.OnlyStores t) (hs : b.SameTables s) : b.SameTables t := by
  obtain ⟨h1, h2, h3, h4⟩ := hs
  rw [h]
  exact ⟨h1, h2, h3, h4⟩

theorem State.OnlyStores.underway {b : State} (h : s.OnlyStores t) (hs : b.Underway s) : b.Underway t := by
  obtain ⟨h1, h2, h3, h4, h5, h6⟩ := hs
  rw [h]
  exact ⟨h1, h2, h3, h4, h5, h6⟩

theorem State.drain_onlyStores (s : State) (c : CoreId) (n : Nat) : s.OnlyStores (s.drain c n) := by
  rcases s.drain_cases c n with h | ⟨e, -, h⟩ <;> rw [h]
  · rfl
  · cases c <;> cases e <;> rfl

theorem State.evict_onlyStores (s : State) (c : CoreId) (l : WordLoc) : s.OnlyStores (s.evict c l) := by
  cases c <;> cases l <;> rfl

/-- A turn for core `c` that stores what it has pending, or changes the schedule. -/
structure State.StoresFor (s : State) (H : Handoff) (c : CoreId) (t : State) : Prop where
  only : s.OnlyStores t
  other : ∀ d, d ≠ c → t.view d = s.view d
  upholds : Upholds c s t
  copies : (s.view c).mcopies = [] → (t.view c).mcopies = []
  gains : s.Gains H t
  wf : t.mem.wf = true
  sb : (t.view c).sb.Sublist (s.view c).sb
  job : t.job.get .done = s.job.get .done ∨ .job .done (t.job.get .done) ∈ (s.view c).sb
  idle : (s.view c).sb = [] → t.mem = s.mem

theorem State.drain_mcopies (c : CoreId) (n : Nat) (h : (s.view c).mcopies = []) :
    ((s.drain c n).view c).mcopies = [] := by
  rcases s.drain_cases c n with hd | ⟨e, -, hd⟩ <;> rw [hd]
  · exact h
  · rw [State.land, State.setView_view, State.setView_view]
    simp only [View.patch, h, List.map_nil]

theorem State.drain_storesFor (hw : s.mem.wf = true) (c : CoreId) (hwrites : s.WritesOutput H c) (n : Nat) :
    s.StoresFor H c (s.drain c n) := by
  have hm := s.drain_moves c n
  exact ⟨s.drain_onlyStores c n, hm.other, .drain c n hw, s.drain_mcopies c n, .drain hw hwrites n,
    (CoreDoes.drain c s n).wf hw, hm.sb, hm.job .done, fun h => by rw [State.drain_empty n h]⟩

theorem State.evict_storesFor (hw : s.mem.wf = true) (c : CoreId) (l : WordLoc) : s.StoresFor H c (s.evict c l) := by
  have hm := s.evict_moves c l
  have hmem : (s.evict c l).mem = s.mem := by cases c <;> cases l <;> rfl
  refine ⟨s.evict_onlyStores c l, hm.other, .evict c s l, fun h => ?_, .of_mem hmem, by rw [hmem]; exact hw, hm.sb,
    hm.job .done, fun _ => hmem⟩
  cases l with
  | mem k => rw [State.evict, State.setView_view, h]; rfl
  | job i => rw [State.evict, State.setView_view]; exact h

/-- Once signal-present is set, it is the only slot word `P` can have pending. -/
theorem State.Ran.pending_sigp {j : Job} (h : s.Ran j) {i : JobIx} {x : Word} (hx : .job i x ∈ s.pview.sb) :
    i = .sigp := by
  obtain ⟨-, -, -, -, hpending⟩ := h
  exact hpending i x hx

/-- Such a turn once signal-present is set. -/
theorem State.Shared.storesFor {c : CoreId} (hH : H.Sound) (h : s.Shared H) (ht : s.StoresFor H c t)
    (hran : t.Ran H.job) : t.Shared H := by
  have honly := ht.only
  have hframe : t.pstage = s.pstage ∧ t.wstage = s.wstage ∧ t.pregs = s.pregs ∧ t.wregs = s.wregs ∧
      t.code = s.code ∧ t.resi = s.resi ∧ t.resf = s.resf := by
    rw [State.OnlyStores] at honly
    rw [honly]
    exact ⟨rfl, rfl, rfl, rfl, rfl, rfl, rfl⟩
  obtain ⟨hpstage, hwstage, hpregs, hwregs, hresults⟩ := hframe
  have hsublist : ∀ d, (t.view d).sb.Sublist (s.view d).sb := fun d => by
    by_cases hd : d = c
    · rw [hd]; exact ht.sb
    · rw [ht.other d hd]
  have hsignal : ∀ a, H.job.Signal a → t.mem.read a = s.mem.read a := fun a ha =>
    ht.gains.outside (hH.spectrum.apart a ha)
  refine ⟨hran, honly.tables h.tables, ht.wf, fun d e he => h.writes d e ((hsublist d).subset he),
    fun a ha => (hsignal a ha).trans (h.signal a ha), fun hidle => ?_, ?_, ?_, fun hdone => ?_,
    fun v hv => ht.gains.released (h.pending v ((hsublist .w).subset hv))⟩
  · obtain ⟨hunder, hoff⟩ := h.underway (by rw [← hpstage]; exact hidle)
    exact ⟨honly.underway hunder, fun a ha => (ht.gains.outside ha).trans (hoff a ha)⟩
  · rw [hwstage]
    cases c with
    | p =>
      exact State.WorkerHolds.of_view (ht.other .w nofun) hwregs (h.writes .w) hsignal (fun a _ => ht.gains.same a)
        h.worker
    | w => exact State.WorkerHolds.upheld ht.upholds hwregs ht.copies ht.gains h.worker
  · rw [hpstage]
    cases c with
    | p =>
      refine State.ProducerHolds.upheld ht.upholds hpregs ht.copies ht.gains hresults (fun hsb => ⟨ht.idle hsb, ?_⟩)
        h.producer
      exact List.sublist_nil.1 (hsb ▸ ht.sb)
    | w =>
      exact State.ProducerHolds.of_view hH (ht.other .p nofun) hpregs (h.writes .p) ht.gains hresults h.producer
  · rcases ht.job with hjob | hjob
    · exact ht.gains.released (h.flag (by rw [← hjob]; exact hdone))
    · cases c with
      | p => exact absurd (h.ran.pending_sigp hjob) nofun
      | w => exact ht.gains.released (h.pending _ hjob)

/-- The schedule changed. -/
theorem State.Shared.schedule (hH : H.Sound) (h : s.Shared H) (ks : List Bool) (us : List Turn) :
    ({ s with keeps := ks, turns := us } : State).Shared H :=
  h.storesFor (c := .w) hH
    ⟨rfl, fun d _ => by cases d <;> rfl, .of_same rfl rfl, id, .of_mem rfl, h.wf, List.Sublist.refl _, .inl rfl,
      fun _ => rfl⟩ h.ran

end

end Sys2Proof.Machine
end
section
/-! PROOFS. The turns of `W` and of `P` once signal-present is set keep what holds of the bytes (43_coresync.md rules R120 to
R129); the command end makes memory what the serial command leaves. -/

namespace Sys2Proof.Machine

section
variable {s t u v : State} {H : Handoff}

/-! ### The steps of `W` -/

/-- What a step of `W` leaves of the bytes. -/
structure State.WorkerStores (s : State) (H : Handoff) (t : State) : Prop where
  gains : s.Gains H t
  wf : t.mem.wf = true
  writes : t.WritesOutput H .w
  holds : t.WorkerHolds H t.wstage

/-- A step of `W` that is not its release fence leaves shared storage alone. -/
theorem State.WorkerStores.of_mem (hw : s.mem.wf = true) (hmem : t.mem = s.mem) (hwrites : t.WritesOutput H .w)
    (hholds : t.WorkerHolds H t.wstage) : s.WorkerStores H t :=
  ⟨.of_mem hmem, hmem ▸ hw, hwrites, hholds⟩

theorem State.Shared.worker_at {q : WStage} (h : s.Shared H) (hw : s.wstage = q) : s.WorkerHolds H q := hw ▸ h.worker

theorem State.Shared.producer_at {q : PStage} (h : s.Shared H) (hp : s.pstage = q) : s.ProducerHolds H q :=
  hp ▸ h.producer

theorem State.Running.workerOk {j : Job} (h : s.Running j) :
    WorkerOk j s.wjob s.wregs s.wview.jcopies s.wstage := by
  obtain ⟨⟨hok, -⟩, -⟩ := h
  exact hok

theorem State.Running.producerOk {j : Job} (h : s.Running j) :
    ProducerOk j s.pjob s.pregs s.pview.jcopies s.pstage := by
  obtain ⟨-, hok, -⟩ := h
  exact hok

theorem State.Ran.fits {j : Job} (h : s.Ran j) : j.Fits s.memBytes := h.1

theorem State.Ran.running {j : Job} (h : s.Ran j) : s.Running j := h.2

theorem State.Ran.workerOk {j : Job} (h : s.Ran j) : WorkerOk j s.wjob s.wregs s.wview.jcopies s.wstage :=
  h.2.workerOk

theorem State.Ran.producerOk {j : Job} (h : s.Ran j) : ProducerOk j s.pjob s.pregs s.pview.jcopies s.pstage :=
  h.2.producerOk

/-- Only the last word of a job lets the worker begin its bins. -/
theorem loadNext_run {i : JobIx} {b : BinPos} (hi : i.Param) (h : loadNext i = .run b) : i = .out ∧ b = .next := by
  by_cases hout : i = .out
  · subst hout
    cases h
    exact ⟨rfl, rfl⟩
  · obtain ⟨k, hk, -⟩ := loadNext_param hi hout
    rw [hk] at h
    cases h

/-- The stages do not matter for what a core has done. -/
theorem State.WorkerHolds.setStage {q : WStage} (r : WStage) (h : s.WorkerHolds H q) :
    ({ s with wstage := r } : State).WorkerHolds H q :=
  State.WorkerHolds.upheld (s := s) (t := { s with wstage := r }) (.of_same rfl rfl) rfl id (.of_mem rfl) h

theorem State.ProducerHolds.setStage {q : PStage} (r : PStage) (h : s.ProducerHolds H q) :
    ({ s with pstage := r } : State).ProducerHolds H q :=
  State.ProducerHolds.upheld (s := s) (t := { s with pstage := r }) (.of_same rfl rfl) rfl id (.of_mem rfl) ⟨rfl, rfl, rfl⟩
    (fun hsb => ⟨rfl, hsb⟩) h

theorem State.noteJob_mcopies (s : State) (c : CoreId) (i : JobIx) :
    ((s.noteJob c i).view c).mcopies = (s.view c).mcopies := by
  rcases s.noteJob_cases c i with h | h | ⟨-, h⟩ <;> rw [h]
  · cases c <;> rfl
  · rw [State.setView_view]; rfl

theorem State.WritesOutput.writeJob {c : CoreId} (h : s.WritesOutput H c) (i : JobIx) (x : Word) :
    (s.writeJob c i x).WritesOutput H c :=
  h.enqueue (Pending.job_writes _ _ i x) (s.enqueue_view_sb c _)

theorem pollReadStep_stores (h : s.Shared H) (hw : s.wstage = .pollRead) : s.WorkerStores H (pollReadStep s) := by
  have hcopies : s.wview.mcopies = [] := h.worker_at hw
  have hread : (s.noteJob .w .sigp).wview.mcopies = [] := (s.noteJob_mcopies .w .sigp).trans hcopies
  refine .of_mem h.wf (s.noteJob_mem .w .sigp) ((h.writes .w).of_sb (s.noteJob_sb .w .sigp)) ?_
  simp only [pollReadStep, State.readJob]
  by_cases hset : s.coreJob .w .sigp = 0
  · simp only [hset, if_true]
    trivial
  · simp only [hset, if_false]
    exact hread

/-- With the job loaded the worker begins its bins; it holds no copy, and memory holds the signal. -/
theorem loadStep_stores (hH : H.Sound) (h : s.Shared H) {i : JobIx} (hw : s.wstage = .load i)
    (hok : WorkerOk H.job (loadStep i s).wjob (loadStep i s).wregs (loadStep i s).wview.jcopies (loadStep i s).wstage) :
    s.WorkerStores H (loadStep i s) := by
  have hcopies : s.wview.mcopies = [] := h.worker_at hw
  have hread : (s.noteJob .w i).wview.mcopies = [] := (s.noteJob_mcopies .w i).trans hcopies
  have hsb : (s.noteJob .w i).wview.sb = s.wview.sb := s.noteJob_sb .w i
  have hmem := s.noteJob_mem .w i
  rw [loadStep_eq] at hok ⊢
  refine .of_mem h.wf hmem ((h.writes .w).of_sb hsb) ?_
  show State.WorkerHolds _ H (loadNext i)
  cases hnext : loadNext i with
  | load k => exact hread
  | run b =>
    have hload := h.ran.workerOk
    rw [hw] at hload
    obtain ⟨rfl, rfl⟩ := loadNext_run hload.1 hnext
    obtain ⟨hjob, -⟩ := hok
    refine ⟨fun a ha => State.Stores.sees ?_ hread, fun a _ hlo hhi => ?_, trivial⟩
    · show List.foldl _ ((s.noteJob .w .out).mem.read a) (s.noteJob .w .out).wview.sb = _
      rw [hmem, hsb]
      exact (foldl_writes_outside (h.writes .w) (hH.spectrum.apart a ha) _).trans (h.signal a ha)
    · have hkidx : (s.wjob.load .out (s.coreJob .w .out)).k0 = H.job.k0 := congrArg Job.k0 hjob
      have hfront : a < binAddr H.job.out (s.wjob.load .out (s.coreJob .w .out)).k0.toNat := hhi
      rw [hkidx] at hfront
      exact absurd hfront (Nat.not_lt.2 hlo)
  | off => trivial
  | pollFence => trivial
  | pollRead => exact hread
  | rel => cases i <;> cases hnext
  | setDone => cases i <;> cases hnext
  | clear => trivial

theorem runStep_stores (hH : H.Sound) (h : s.Shared H) {b : BinPos} (hw : s.wstage = .run b)
    (ht : runStep b s = .next t) : s.WorkerStores H t := by
  have hprogress : s.Progress H .w b := h.worker_at hw
  have hok := h.ran.workerOk
  rw [hw] at hok
  obtain ⟨hjob, hat⟩ := hok
  rcases hprogress.binStep hH.spectrum h.tables hH.calm h.ran.fits hat (h.writes .w) with
    ⟨hstep, hhalf⟩ | ⟨b', u, hstep, hprogress', hwrites⟩
  · have hown : s.binStep .w s.wjob s.wjob.k1 b = .done s := by rw [hjob]; exact hstep
    have hrun : runStep b s = .next { s with wstage := .rel } := by rw [runStep, hown]
    rw [hrun] at ht
    cases ht
    exact .of_mem h.wf rfl (h.writes .w) (State.WorkerHolds.setStage (q := .rel) .rel hhalf)
  · have hown : s.binStep .w s.wjob s.wjob.k1 b = .at b' u := by rw [hjob]; exact hstep
    have hrun : runStep b s = .next { u with wstage := .run b' } := by rw [runStep, hown]
    rw [hrun] at ht
    cases ht
    have hmem : u.mem = s.mem := by
      rcases s.binStep_does .w H.job (H.job.endBin .w) b with
        ⟨b₁, u₁, h₁, -, hmem, -⟩ | h₁ | ⟨a, h₁⟩ | ⟨a, h₁⟩ <;> rw [hstep] at h₁ <;> cases h₁
      exact hmem
    exact .of_mem h.wf hmem hwrites (State.WorkerHolds.setStage (q := .run b') (.run b') hprogress')

theorem relStep_stores (h : s.Shared H) (hw : s.wstage = .rel) : s.WorkerStores H (relStep s) := by
  have hhalf : s.StoredHalf H .w := h.worker_at hw
  have hlast : (H.job.endBin .w).toNat = H.job.kt.toNat := congrArg BitVec.toNat h.ran.fits.last
  refine ⟨.fenceRel h.wf (h.writes .w), s.fenceRel_wf .w h.wf, fun e he => ?_, fun a ha hlo => ?_⟩
  · have hsb : (s.fenceRel .w).wview.sb = [] := s.fenceRel_sb .w
    have he' : e ∈ (s.fenceRel .w).wview.sb := he
    rw [hsb] at he'
    cases he'
  · exact (hhalf a ha hlo (by rw [hlast]; exact ha.2)).released h.wf

theorem workerStep_stores (hH : H.Sound) (h : s.Shared H) (ht : workerStep s = .next t)
    (hok : WorkerOk H.job t.wjob t.wregs t.wview.jcopies t.wstage) : s.WorkerStores H t := by
  cases hw : s.wstage with
  | off =>
    simp only [workerStep, hw] at ht
    cases ht
    exact .of_mem h.wf rfl (h.writes .w) h.worker
  | pollFence =>
    simp only [workerStep, hw] at ht
    cases ht
    exact .of_mem h.wf rfl (h.writes .w) rfl
  | pollRead =>
    simp only [workerStep, hw] at ht
    cases ht
    exact pollReadStep_stores h hw
  | load i =>
    simp only [workerStep, hw] at ht
    cases ht
    exact loadStep_stores hH h hw hok
  | run b =>
    simp only [workerStep, hw] at ht
    exact runStep_stores hH h hw ht
  | rel =>
    simp only [workerStep, hw] at ht
    cases ht
    exact relStep_stores h hw
  | setDone =>
    simp only [workerStep, hw] at ht
    cases ht
    exact .of_mem h.wf rfl ((h.writes .w).writeJob .done 1) trivial
  | clear =>
    simp only [workerStep, hw] at ht
    cases ht
    exact .of_mem h.wf rfl ((h.writes .w).writeJob .sigp 0) trivial

/-! ### The turns of `W` -/

/-- The completion flag comes from what the worker has pending. -/
theorem WorkerMoves.done_flag {j : Job} (h : WorkerMoves j s t) :
    t.job.get .done = s.job.get .done ∨ ∃ x, .job .done x ∈ s.wview.sb := by
  cases h with
  | rests _ ht => exact .inl (by rw [ht])
  | fences _ _ hjob => exact .inl (by rw [hjob])
  | reads _ _ hjob => exact .inl (by rw [hjob])
  | works _ _ hjob => exact .inl (by rw [hjob])
  | sets _ _ hjob => exact .inl (by rw [hjob])
  | clears _ _ hjob => exact .inl (by rw [hjob])
  | releases _ _ _ hjob =>
    by_cases hx : ∃ x, .job .done x ∈ s.wview.sb
    · exact .inr hx
    · exact .inl ((hjob .done).trans (foldl_overlayJob_other (fun x hmem => hx ⟨x, hmem⟩) _))

/-- … and that is set once the worker has released its half. -/
theorem WorkerMoves.done_pending {j : Job} (h : WorkerMoves j s t) {x : Word} (hx : .job .done x ∈ t.wview.sb) :
    .job .done x ∈ s.wview.sb ∨ s.wstage = .setDone := by
  cases h with
  | rests _ ht => exact .inl (by rwa [ht] at hx)
  | fences _ _ _ hsb => exact .inl (by rwa [hsb] at hx)
  | reads _ _ _ hsb => exact .inl (by rwa [hsb] at hx)
  | works _ _ _ hsb _ =>
    obtain ⟨es, hes, hsb⟩ := hsb
    rw [hsb] at hx
    exact .inl ((List.mem_append.1 hx).resolve_right fun he => absurd rfl (hes _ he _ _))
  | releases _ _ hsb _ => rw [hsb] at hx; cases hx
  | sets hs _ _ _ => exact .inr hs
  | clears _ _ _ hsb =>
    rw [hsb] at hx
    exact .inl ((List.mem_append.1 hx).resolve_right (by simp))

/-- A turn of `W`. -/
theorem State.Shared.worker_turn (hH : H.Sound) (h : s.Shared H) (ht : workerStep s = .next t) : t.Shared H := by
  obtain ⟨hfits, hrunning⟩ := h.ran
  obtain ⟨t', ht', hrun, hsame, hmoves⟩ := hrunning.worker hfits
  obtain rfl : t' = t := by rw [ht'] at ht; cases ht; rfl
  obtain ⟨hframe, -, -⟩ := workerTouchesOnlyItsOwn s t' ht
  have hstores := workerStep_stores hH h ht hrun.workerOk
  have hgains := hstores.gains
  have hpstage := hsame.pstage
  have htables : s.SameTables t' := by rw [hframe]; exact ⟨rfl, rfl, rfl, rfl⟩
  have hunderway : H.base.Underway s → H.base.Underway t' := fun ⟨h1, h2, h3, h4, h5, h6⟩ => by
    rw [hframe]; exact ⟨h1, h2, h3, h4, h5, h6⟩
  have hresults : t'.code = s.code ∧ t'.resi = s.resi ∧ t'.resf = s.resf := by rw [hframe]; exact ⟨rfl, rfl, rfl⟩
  have hbase := h.tables
  refine ⟨⟨(State.memBytes_of_top htables.memTop).symm ▸ hfits, hrun⟩,
    ⟨htables.sintab.trans hbase.sintab, htables.costab.trans hbase.costab, htables.disturbed.trans hbase.disturbed,
      htables.memTop.trans hbase.memTop⟩, hstores.wf, fun c => ?_,
    fun a ha => hgains.keeps (h.signal a ha), fun hidle => ?_, hstores.holds, ?_, fun hdone => ?_, fun x hx => ?_⟩
  · cases c with
    | p => exact (h.writes .p).of_sb (congrArg View.sb hsame.pview)
    | w => exact hstores.writes
  · obtain ⟨hunder, hoff⟩ := h.underway (by rw [← hpstage]; exact hidle)
    exact ⟨hunderway hunder, fun a ha => (hgains.outside ha).trans (hoff a ha)⟩
  · rw [hpstage]
    exact State.ProducerHolds.of_view hH hsame.pview hsame.pregs (h.writes .p) hgains hresults h.producer
  · refine hgains.released (hmoves.done_flag.elim (fun hflag => h.flag (by rw [← hflag]; exact hdone)) ?_)
    exact fun ⟨x, hx⟩ => h.pending x hx
  · refine hgains.released ((hmoves.done_pending hx).elim (h.pending x) fun hset => ?_)
    exact h.worker_at hset

end

end Sys2Proof.Machine
end
section
/-! PROOFS. The turns of `P` once signal-present is set, up to the command end (43_coresync.md rules R120 to R122,
45_pipeline.md rule R147). -/

namespace Sys2Proof.Machine

section
variable {s t u v : State} {H : Handoff}

/-! ### The steps of `P` -/

/-- What a step of `P` before the command end leaves of the bytes. -/
inductive State.ProducerStores (s : State) (H : Handoff) : State → Prop
  | goesOn {u : State} {q : PStage} (honly : OnlyCore .p s u) (hwrites : u.WritesOutput H .p)
      (hholds : u.ProducerHolds H q) : State.ProducerStores s H { u with pstage := q }

theorem ownStep_stores (hH : H.Sound) (h : s.Shared H) {b : BinPos} (hp : s.pstage = .own b)
    (ht : ownStep b s = .next t) : s.ProducerStores H t := by
  have hprogress : s.Progress H .p b := h.producer_at hp
  have hok := h.ran.producerOk
  rw [hp] at hok
  obtain ⟨hjob, hat⟩ := hok
  rcases hprogress.binStep hH.spectrum h.tables hH.calm h.ran.fits hat (h.writes .p) with
    ⟨hstep, hhalf⟩ | ⟨b', u, hstep, hprogress', hwrites⟩
  · have hown : s.binStep .p s.pjob s.pjob.k0 b = .done s := by rw [hjob]; exact hstep
    have hrun : ownStep b s = .next { s with pstage := .waitFence } := by rw [ownStep, hown]
    rw [hrun] at ht
    cases ht
    exact .goesOn (.refl .p s) (h.writes .p) hhalf
  · have hown : s.binStep .p s.pjob s.pjob.k0 b = .at b' u := by rw [hjob]; exact hstep
    have hrun : ownStep b s = .next { u with pstage := .own b' } := by rw [ownStep, hown]
    rw [hrun] at ht
    cases ht
    have honly : OnlyCore .p s u := by
      rcases State.binStep_advances (c := .p) h.ran.fits h.ran.fits.half hat with
        hdone | ⟨b₁, u₁, hat₁, honly, -⟩
      · rw [show s.binStep .p H.job H.job.k0 b = _ from hstep] at hdone; cases hdone
      · rw [show s.binStep .p H.job H.job.k0 b = _ from hstep] at hat₁; cases hat₁; exact honly
    exact .goesOn honly hwrites hprogress'

/-- `P` goes past its poll only once the worker's half is in shared storage. -/
theorem waitReadStep_stores (h : s.Shared H) (hp : s.pstage = .waitRead) : s.ProducerStores H (waitReadStep s) := by
  have hhalf : s.StoredHalf H .p := h.producer_at hp
  have hcopies : s.pview.jcopies.get .done = none := by
    have hok := h.ran.producerOk
    rwa [hp] at hok
  have hread : s.coreJob .p .done = s.job.get .done :=
    (State.coreJob_of_no_copy (c := .p) hcopies).trans
      (foldl_overlayJob_other (fun x hx => absurd (h.ran.pending_sigp (i := .done) hx) nofun) _)
  have hstep : waitReadStep s =
      { s.noteJob .p .done with pstage := if s.coreJob .p .done = 0 then .waitFence else .fin } := rfl
  have hhalf' := hhalf.upheld (.noteJob .p s .done)
  rw [hstep]
  refine .goesOn (s.noteJob_only .p .done) ((h.writes .p).of_sb (s.noteJob_sb .p .done)) ?_
  by_cases hdone : s.coreJob .p .done = 0
  · rw [if_pos hdone]
    exact hhalf'
  · rw [if_neg hdone]
    refine ⟨hhalf', fun a ha hlo => ?_⟩
    rw [State.noteJob_mem]
    exact h.flag (by rw [← hread]; exact hdone) a ha hlo

theorem finStep_stores (h : s.Shared H) (hp : s.pstage = .fin) : s.ProducerStores H (finStep s) := by
  obtain ⟨hhalf, hreleased⟩ : s.StoredHalf H .p ∧ s.Released H := h.producer_at hp
  have hhalf' := hhalf.upheld (.fenceAcq .p s)
  have honly : OnlyCore .p s (s.fenceAcq .p) := .setView .p s _
  obtain ⟨hunder, -⟩ := h.underway (by rw [hp]; exact nofun)
  have hsame : H.base.pcmd = s.pcmd := hunder.pcmd.symm
  cases hcmd : s.pcmd with
  | xformp =>
    rw [finStep_xformp hcmd]
    exact .goesOn honly (h.writes .p) ⟨hsame.trans hcmd, hhalf', hreleased, rfl⟩
  | pipe =>
    rw [finStep_pipe hcmd]
    exact .goesOn honly (h.writes .p) ⟨hsame.trans hcmd, hhalf', hreleased, rfl⟩

/-- `P` goes on after such a step. -/
theorem State.Shared.goesOn (h : s.Shared H) (hp : s.pstage ≠ .idle) (hs : s.ProducerStores H t)
    (hran : t.Ran H.job) (hsame : SameWorker s t) : t.Shared H := by
  obtain @⟨u, q, honly, hwrites, hholds⟩ := hs
  have hmem := honly.mem
  have htables := h.tables
  obtain ⟨hunder, hoff⟩ := h.underway hp
  have hwview : u.wview = s.wview := hsame.wview
  have hwregs : u.wregs = s.wregs := hsame.wregs
  have hsetting : H.base.SameTables { u with pstage := q } ∧ H.base.Underway { u with pstage := q } ∧
      u.job = s.job := by
    obtain ⟨h1, h2, h3, h4⟩ := htables
    obtain ⟨k1, k2, k3, k4, k5, k6⟩ := hunder
    simp only [OnlyCore] at honly
    rw [honly]
    exact ⟨⟨h1, h2, h3, h4⟩, ⟨k1, k2, k3, k4, k5, k6⟩, rfl⟩
  obtain ⟨htables', hunder', hjob⟩ := hsetting
  have hgains : s.Gains H { u with pstage := q } := .of_mem hmem
  refine ⟨hran, htables', (congrArg Memory.wf hmem).trans h.wf, fun c => ?_, fun a ha => hgains.keeps (h.signal a ha),
    fun _ => ⟨hunder', fun a ha => (hgains.outside ha).trans (hoff a ha)⟩, ?_, hholds.setStage q,
    fun hdone => ?_, fun x hx => ?_⟩
  · cases c with
    | p => exact hwrites
    | w => exact (h.writes .w).of_sb (congrArg View.sb hwview)
  · show State.WorkerHolds _ H u.wstage
    have hholds := State.WorkerHolds.of_view (t := { u with pstage := q }) hwview hwregs (h.writes .w)
      (fun a _ => congrFun (congrArg Memory.read hmem) a) (fun a _ => hgains.same a) h.worker
    have hwstage : u.wstage = s.wstage := hsame.wstage
    rw [← hwstage] at hholds
    exact hholds
  · have hdone' : u.job.get .done ≠ 0 := hdone
    rw [hjob] at hdone'
    exact hgains.released (h.flag hdone')
  · have hx' : .job .done x ∈ u.wview.sb := hx
    rw [hwview] at hx'
    exact hgains.released (h.pending x hx')

/-! ### The command end -/

/-- Where both halves are computed, memory under what `P` has pending holds the whole result. -/
theorem State.Shared.storesAll (h : s.Shared H) (hp : s.pstage ≠ .idle) (hhalf : s.StoredHalf H .p)
    (hreleased : s.Released H) (a : Nat) : s.Stores .p a (H.y a) := by
  obtain ⟨-, hoff⟩ := h.underway hp
  by_cases ha : H.job.Output a
  · by_cases hhi : a < binAddr H.job.out H.job.k0.toNat
    · exact hhalf a ha ha.1 hhi
    · rw [State.Stores, hreleased a ha (Nat.le_of_not_lt hhi)]
      exact foldl_writes_same (h.writes .p) a
  · exact (foldl_writes_outside (h.writes .p) ha _).trans (hoff a ha)

/-- The command ends where memory under what `P` has pending is the result. -/
theorem State.Shared.ends {b d : Word} (hH : H.Sound) (h : s.Shared H)
    (hv : v = { s with
      resi := H.resi, resf := H.resf, best := b, bestd := d, pregs := v.pregs, pview := v.pview, keeps := v.keeps,
      draws := v.draws })
    (hstores : ∀ a, v.Stores .p a (H.z a)) (hran : v.finish.Ran H.job) (hsame : SameWorker s v.finish) :
    v.finish.Shared H := by
  have hcalm : s.disturbed = [] := h.tables.disturbed.trans hH.calm
  have hvmem : v.mem = s.mem := by rw [hv]
  have hvd : v.disturbed = [] := by rw [hv]; exact hcalm
  have hvw : v.mem.wf = true := by rw [hvmem]; exact h.wf
  have hread : v.finish.mem.read = H.z := funext fun a =>
    (State.finish_read hvw (by rw [hvd]; exact List.not_mem_nil)).trans (hstores a)
  have hwf : v.finish.mem.wf = true := by
    rw [v.finish_calm hvd]
    exact v.fenceRel_wf .p hvw
  have hsb : v.finish.pview.sb = [] := v.finish_pview_sb
  have htables : H.base.SameTables v.finish := by
    obtain ⟨h1, h2, h3, h4⟩ := h.tables
    refine ⟨?_, ?_, hH.calm.symm, ?_⟩
    · rw [State.finish_sintab, hv]; exact h1
    · rw [State.finish_costab, hv]; exact h2
    · rw [State.finish_memTop, hv]; exact h4
  have houtput : ∀ a, H.job.Output a → v.finish.mem.read a = H.y a := fun a ha => by
    rw [hread]; exact hH.result a (.inl ha)
  have hsignal : ∀ a, H.job.Signal a → v.finish.mem.read a = H.y a := fun a ha => by
    rw [hread]; exact hH.result a (.inr ha)
  refine ⟨hran, htables, hwf, fun c => ?_, hsignal, fun hidle => absurd rfl hidle, ?_,
    ⟨rfl, ?_, ?_, hread, hsb⟩, fun _ a ha _ => houtput a ha, fun _ _ a ha _ => houtput a ha⟩
  · cases c with
    | p => intro e he; rw [State.view_p, hsb] at he; cases he
    | w => exact (h.writes .w).of_sb (congrArg View.sb hsame.wview)
  · rw [hsame.wstage]
    exact h.worker.of_view hsame.wview hsame.wregs (h.writes .w)
      (fun a ha => (hsignal a ha).trans (h.signal a ha).symm) fun a ha => .inr (houtput a ha)
  · rw [State.finish_resi, hv]
  · rw [State.finish_resf, hv]

theorem finEndStep_shared (hH : H.Sound) (h : s.Shared H) (hp : s.pstage = .finEnd)
    (hran : (finEndStep s).Ran H.job) (hsame : SameWorker s (finEndStep s)) : (finEndStep s).Shared H := by
  obtain ⟨hcmd, hhalf, hreleased, -⟩ : _ ∧ s.StoredHalf H .p ∧ s.Released H ∧ _ := h.producer_at hp
  have hp' : s.pstage ≠ .idle := by rw [hp]; exact nofun
  obtain ⟨hunder, -⟩ := h.underway hp'
  obtain ⟨hz, hresi, hresf⟩ := hH.xformp hcmd
  refine State.Shared.ends (v := { s with resi := s.cnt }) (b := s.best) (d := s.bestd) hH h ?_ (fun a => ?_) hran hsame
  · rw [hresi, hresf, ← hunder.cnt, ← hunder.resf]
  · rw [hz]
    exact h.storesAll hp' hhalf hreleased a

theorem pipeTail_shared (hH : H.Sound) (h : s.Shared H) (hp : s.pstage = .tail) (hran : (pipeTail s).Ran H.job)
    (hsame : SameWorker s (pipeTail s)) : (pipeTail s).Shared H := by
  obtain ⟨hcmd, hhalf, hreleased, hcopies⟩ : _ ∧ s.StoredHalf H .p ∧ s.Released H ∧ _ := h.producer_at hp
  have hp' : s.pstage ≠ .idle := by rw [hp]; exact nofun
  obtain ⟨hunder, -⟩ := h.underway hp'
  obtain ⟨hfit, hresult⟩ := hH.pipe hcmd
  obtain ⟨hz, hresi, hresf⟩ := hresult s.draws
  have hbytes : s.coreByte .p = H.y := funext fun a => ((h.storesAll hp' hhalf hreleased a).sees hcopies).2
  have hmemBytes : s.memBytes = H.base.memBytes := State.memBytes_of_top h.tables.memTop
  obtain ⟨v, hv, hfresh, -, hvbytes, hframe⟩ := pipeTail_computes (s := s) (View.fresh_of_no_copies _ hcopies)
    (h.tables.disturbed.trans hH.calm) (by rw [hunder.dst, hmemBytes]; exact hfit)
  rw [← hunder.dst, ← hbytes] at hz hresi hresf
  rw [← hunder.dict] at hresi hresf
  rw [hresi, hresf] at hframe
  rw [hv] at hran hsame ⊢
  refine h.ends hH hframe (fun a => ?_) hran hsame
  rw [← hz, ← hvbytes]
  exact (View.byte_of_fresh hfresh a).symm

/-! ### The turns of `P` -/

/-- A turn of `P`. -/
theorem State.Shared.producer_turn (hH : H.Sound) (h : s.Shared H) (ht : producerStep s = .next t) : t.Shared H := by
  obtain ⟨hfits, hrunning⟩ := h.ran
  obtain ⟨t', ht', hrun, hsame, -⟩ := hrunning.producer hfits
  obtain rfl : t' = t := by rw [ht'] at ht; cases ht; rfl
  have hran : t'.Ran H.job := ⟨State.memBytes_takeStep (u := .p s.keeps) ht ▸ hfits, hrun⟩
  cases hp : s.pstage with
  | idle =>
    simp only [producerStep, hp] at ht
    cases ht
    exact h
  | own b =>
    simp only [producerStep, hp] at ht
    exact h.goesOn (by rw [hp]; exact nofun) (ownStep_stores hH h hp ht) hran hsame
  | waitFence =>
    simp only [producerStep, hp] at ht
    cases ht
    have hhalf : s.StoredHalf H .p := h.producer_at hp
    exact h.goesOn (by rw [hp]; exact nofun)
      (.goesOn (.setView .p s _) (h.writes .p) (hhalf.upheld (.fenceAcq .p s))) hran hsame
  | waitRead =>
    simp only [producerStep, hp] at ht
    cases ht
    exact h.goesOn (by rw [hp]; exact nofun) (waitReadStep_stores h hp) hran hsame
  | fin =>
    simp only [producerStep, hp] at ht
    cases ht
    exact h.goesOn (by rw [hp]; exact nofun) (finStep_stores h hp) hran hsame
  | finEnd =>
    have hstep : producerStep s = .next (finEndStep s) := by simp only [producerStep, hp]
    obtain rfl : finEndStep s = t' := Host.Outcome.next.inj (hstep.symm.trans ht)
    exact finEndStep_shared hH h hp hran hsame
  | tail =>
    have hstep : producerStep s = .next (pipeTail s) := by simp only [producerStep, hp]
    obtain rfl : pipeTail s = t' := Host.Outcome.next.inj (hstep.symm.trans ht)
    exact pipeTail_shared hH h hp hran hsame
  | begin => exact (h.producer_at hp).elim
  | pub i => exact (h.producer_at hp).elim
  | fence => exact (h.producer_at hp).elim
  | trig => exact (h.producer_at hp).elim

end

end Sys2Proof.Machine
end
section
/-! PROOFS. While `P` publishes, it reads the signal and all that the job will not write; its fence leaves that in memory
(43_coresync.md rules R117 to R119). So every turn of the handoff keeps what holds of the bytes. -/

namespace Sys2Proof.Machine

/-- What holds of the bytes while `P` publishes. -/
structure State.Offers (s : State) (H : Handoff) : Prop where
  fits : H.job.Fits s.memBytes
  preparing : s.Preparing H.job
  tables : H.base.SameTables s
  wf : s.mem.wf = true
  underway : H.base.Underway s
  sees : ∀ a, ¬ H.job.Output a → s.Sees .p a (H.y a)
  copies : s.wstage = .pollRead → s.wview.mcopies = []

section
variable {s t u : State} {H : Handoff}

/-- A worker that has no job has no byte pending. -/
theorem Resting.writes {v : Word} {w : WStage} {es : List Pending} (h : Resting v w es) (y : Bytes) (W : Nat → Prop) :
    ∀ e ∈ es, e.Writes y W := by
  intro e he
  cases h with
  | clears => cases he
  | pends _ => rw [List.mem_singleton.1 he]; exact Pending.job_writes y W .sigp 0
  | polls _ _ => cases he

theorem State.Offers.resting (h : s.Offers H) : Resting (s.job.get .sigp) s.wstage s.wview.sb := by
  obtain ⟨-, hrest, -⟩ := h.preparing
  exact hrest

theorem State.Offers.publishing (h : s.Offers H) : Publishing H.job s.pjob s.pstage s.pview.sb s.job := by
  obtain ⟨-, -, hpub⟩ := h.preparing
  exact hpub

/-- The worker's side leaves what `P` reads. -/
theorem State.Sees.of_worker {a : Nat} {b : Byte} (hview : t.pview = s.pview) (hmem : t.mem.read a = s.mem.read a)
    (h : s.Sees .p a b) : t.Sees .p a b := h.of_view hview hmem

/-! ### The turns of `MSYS` and of `W` -/

theorem State.Offers.drain (h : s.Offers H) (c : CoreId) (n : Nat) : (s.drain c n).Offers H := by
  have hm := s.drain_moves c n
  have honly := s.drain_onlyStores c n
  have htables := honly.tables h.tables
  refine ⟨(State.memBytes_of_top (htables.memTop.trans h.tables.memTop.symm)).symm ▸ h.fits,
    hm.preparing h.preparing, htables, (CoreDoes.drain c s n).wf h.wf, honly.underway h.underway, fun a ha => ?_,
    fun hw => ?_⟩
  · cases c with
    | p => exact (Upholds.drain .p n h.wf).sees a _ (h.sees a ha)
    | w =>
      have hgains : s.Gains H (s.drain .w n) := State.Gains.drain (c := .w) h.wf (h.resting.writes _ _) n
      exact (h.sees a ha).of_worker (hm.other .p nofun) (hgains.outside ha)
  · rw [hm.wstage] at hw
    cases c with
    | p => exact (congrArg View.mcopies (hm.other .w nofun)).trans (h.copies hw)
    | w => exact s.drain_mcopies .w n (h.copies hw)

theorem State.Offers.evict (h : s.Offers H) (c : CoreId) (l : WordLoc) : (s.evict c l).Offers H := by
  have hm := s.evict_moves c l
  have hs := s.evict_storesFor (H := H) h.wf c l
  have htables := hs.only.tables h.tables
  refine ⟨(State.memBytes_of_top (htables.memTop.trans h.tables.memTop.symm)).symm ▸ h.fits,
    hm.preparing h.preparing, htables, hs.wf, hs.only.underway h.underway, fun a ha => ?_, fun hw => ?_⟩
  · cases c with
    | p => exact hs.upholds.sees a _ (h.sees a ha)
    | w => exact (h.sees a ha).of_worker (hm.other .p nofun) (hs.gains.outside ha)
  · rw [hm.wstage] at hw
    cases c with
    | p => exact (congrArg View.mcopies (hm.other .w nofun)).trans (h.copies hw)
    | w => exact hs.copies (h.copies hw)

/-- A turn of `W`, which has no job. -/
theorem State.Offers.worker_turn (h : s.Offers H) (ht : workerStep s = .next t) : t.Offers H := by
  obtain ⟨t', ht', hprep, hsame, hmoves⟩ := h.preparing.worker h.fits
  obtain rfl : t' = t := by rw [ht'] at ht; cases ht; rfl
  obtain ⟨hframe, hstores, -⟩ := workerTouchesOnlyItsOwn s t' ht
  have hrel : s.wstage ≠ .rel := by
    intro hw
    rcases h.resting.stage with hs | hs | hs <;> rw [hw] at hs <;> cases hs
  obtain ⟨hmem, -⟩ := hstores hrel
  have hsetting : H.base.SameTables t' ∧ H.base.Underway t' ∧ t'.memTop = s.memTop := by
    obtain ⟨h1, h2, h3, h4⟩ := h.tables
    obtain ⟨k1, k2, k3, k4, k5, k6⟩ := h.underway
    rw [hframe]
    exact ⟨⟨h1, h2, h3, h4⟩, ⟨k1, k2, k3, k4, k5, k6⟩, rfl⟩
  obtain ⟨htables, hunder, htop⟩ := hsetting
  refine ⟨(State.memBytes_of_top htop).symm ▸ h.fits, hprep, htables, by rw [hmem]; exact h.wf, hunder,
    fun a ha => (h.sees a ha).of_worker hsame.pview (by rw [hmem]), fun hw => ?_⟩
  cases hstage : s.wstage with
  | pollFence =>
    simp only [workerStep, hstage] at ht
    cases ht
    rfl
  | pollRead =>
    simp only [workerStep, hstage] at ht
    cases ht
    exact (s.noteJob_mcopies .w .sigp).trans (h.copies hstage)
  | clear =>
    simp only [workerStep, hstage] at ht
    cases ht
    cases hw
  | off => rcases h.resting.stage with hs | hs | hs <;> rw [hstage] at hs <;> cases hs
  | load i => rcases h.resting.stage with hs | hs | hs <;> rw [hstage] at hs <;> cases hs
  | run b => rcases h.resting.stage with hs | hs | hs <;> rw [hstage] at hs <;> cases hs
  | rel => exact absurd hstage hrel
  | setDone => rcases h.resting.stage with hs | hs | hs <;> rw [hstage] at hs <;> cases hs

/-! ### The turns of `P` -/

/-- A step of publishing that keeps what `P` reads. -/
theorem State.Offers.publishes (h : s.Offers H) (hframe : t = { s with
      pstage := t.pstage, pview := t.pview, mem := t.mem, job := t.job })
    (hu : Upholds .p s t) (hwf : t.mem.wf = true) (hprep : t.Preparing H.job) : t.Offers H := by
  have hsetting : H.base.SameTables t ∧ H.base.Underway t ∧ t.memTop = s.memTop ∧ t.wstage = s.wstage ∧
      t.wview = s.wview := by
    obtain ⟨h1, h2, h3, h4⟩ := h.tables
    obtain ⟨k1, k2, k3, k4, k5, k6⟩ := h.underway
    rw [hframe]
    exact ⟨⟨h1, h2, h3, h4⟩, ⟨k1, k2, k3, k4, k5, k6⟩, rfl, rfl, rfl⟩
  obtain ⟨htables, hunder, htop, hwstage, hwview⟩ := hsetting
  exact ⟨(State.memBytes_of_top htop).symm ▸ h.fits, hprep, htables, hwf, hunder,
    fun a ha => hu.sees a _ (h.sees a ha), fun hw => by rw [hwview]; exact h.copies (hwstage ▸ hw)⟩

/-- The trigger: what `P` reads is in memory, and both cores are about to compute. -/
theorem trigStep_shared (hH : H.Sound) (h : s.Offers H) (hp : s.pstage = .trig)
    (hrun : (trigStep s).Running H.job) (hslot : ∀ i, i ≠ .sigp → (trigStep s).job.get i = H.job.slotWord i) :
    (trigStep s).Shared H := by
  have hsb : s.pview.sb = [] := h.publishing.fenced hp
  have hoff : ∀ a, ¬ H.job.Output a → s.mem.read a = H.y a := fun a ha => by
    have hstores := (h.sees a ha).1
    rwa [State.Stores, State.view_p, hsb] at hstores
  have hsignal : ∀ a, H.job.Signal a → ¬ H.job.Output a := hH.spectrum.apart
  have hu : Upholds .p s (trigStep s) := (Upholds.writeJob .p s .sigp _).trans (.of_same rfl rfl)
  obtain ⟨h1, h2, h3, h4⟩ := h.tables
  obtain ⟨k1, k2, k3, k4, k5, k6⟩ := h.underway
  refine ⟨⟨h.fits, hrun⟩, ⟨h1, h2, h3, h4⟩, h.wf, fun c => ?_, fun a ha => hoff a (hsignal a ha),
    fun _ => ⟨⟨k1, k2, k3, k4, k5, k6⟩, hoff⟩, ?_, ?_, fun hdone => absurd (hslot .done nofun) hdone,
    fun x hx => absurd (h.resting.mem hx).1 nofun⟩
  · cases c with
    | p =>
      intro e he
      have hpending : e ∈ s.pview.sb ++ [.job .sigp (s.pjob.slotWord .sigp)] := he
      rw [hsb] at hpending
      rw [List.mem_singleton.1 hpending]
      exact Pending.job_writes _ _ _ _
    | w => exact h.resting.writes _ _
  · show State.WorkerHolds _ H s.wstage
    rcases h.resting.stage with hw | hw | hw
    · rw [hw]; trivial
    · rw [hw]; trivial
    · rw [hw]; exact h.copies hw
  · refine ⟨fun a ha => hu.sees a _ (h.sees a (hsignal a ha)), fun a _ hlo hhi => ?_, trivial⟩
    have hfront : a < binAddr H.job.out 0 := hhi
    exact absurd hfront (Nat.not_lt.2 hlo)

theorem State.Offers.producer_turn (hH : H.Sound) (h : s.Offers H) (ht : producerStep s = .next t) :
    t.Offers H ∨ t.Shared H := by
  obtain ⟨t', ht', -, -, hmoves, hphase⟩ := h.preparing.producer
  obtain rfl : t' = t := by rw [ht'] at ht; cases ht; rfl
  have hpub := h.publishing.stage
  cases hp : s.pstage with
  | pub i =>
    rw [hp] at hpub
    have hstep : producerStep s = .next (pubStep i s) := by simp only [producerStep, hp]
    obtain rfl : pubStep i s = t' := Host.Outcome.next.inj (hstep.symm.trans ht)
    have hprep : (pubStep i s).Preparing H.job := hphase.resolve_right fun hrun => by
      have hok : ProducerOk _ _ _ _ (pubNext i) := hrun.producerOk
      rcases pubNext_cases hpub with ⟨k, hk, -⟩ | ⟨hk, -⟩ <;> rw [hk] at hok <;> exact hok
    exact .inl (h.publishes rfl ((Upholds.writeJob .p s i _).trans (.of_same rfl rfl)) h.wf hprep)
  | fence =>
    have hstep : producerStep s = .next (fenceStep s) := by simp only [producerStep, hp]
    obtain rfl : fenceStep s = t' := Host.Outcome.next.inj (hstep.symm.trans ht)
    have hprep : (fenceStep s).Preparing H.job := hphase.resolve_right fun hrun => hrun.producerOk
    have hfence : s.fenceRel .p = { s with
        mem := (s.fenceRel .p).mem, job := (s.fenceRel .p).job, pview := (s.fenceRel .p).pview } :=
      State.landAll_p_eq _ _
    refine .inl (h.publishes ?_ ((Upholds.fenceRel .p h.wf).trans (.of_same rfl rfl)) (s.fenceRel_wf .p h.wf) hprep)
    rw [fenceStep, hfence]
  | trig =>
    have hstep : producerStep s = .next (trigStep s) := by simp only [producerStep, hp]
    obtain rfl : trigStep s = t' := Host.Outcome.next.inj (hstep.symm.trans ht)
    cases hmoves with
    | publishes hpublishing _ => exact hpublishing.stage.elim
    | triggers _ _ hslot _ _ =>
      have hrun : (trigStep s).Running H.job := hphase.resolve_left fun hprep => by
        obtain ⟨-, -, hpublishing⟩ := hprep
        exact hpublishing.stage
      exact .inr (trigStep_shared hH h hp hrun hslot)
  | idle => rw [hp] at hpub; exact hpub.elim
  | begin => rw [hp] at hpub; exact hpub.elim
  | own b => rw [hp] at hpub; exact hpub.elim
  | waitFence => rw [hp] at hpub; exact hpub.elim
  | waitRead => rw [hp] at hpub; exact hpub.elim
  | fin => rw [hp] at hpub; exact hpub.elim
  | finEnd => rw [hp] at hpub; exact hpub.elim
  | tail => rw [hp] at hpub; exact hpub.elim

/-! ### Every turn -/

/-- The schedule changed. -/
theorem State.Offers.schedule (h : s.Offers H) (ks : List Bool) (us : List Turn) :
    ({ s with keeps := ks, turns := us } : State).Offers H := by
  obtain ⟨hfits, hprep, ⟨h1, h2, h3, h4⟩, hwf, ⟨k1, k2, k3, k4, k5, k6⟩, hsees, hcopies⟩ := h
  exact ⟨hfits, hprep, ⟨h1, h2, h3, h4⟩, hwf, ⟨k1, k2, k3, k4, k5, k6⟩, hsees, hcopies⟩

/-- What holds of the bytes from the begin of the command on. -/
def State.Hands (s : State) (H : Handoff) : Prop := s.Offers H ∨ s.Shared H

theorem State.Hands.schedule (hH : H.Sound) (h : s.Hands H) (ks : List Bool) (us : List Turn) :
    ({ s with keeps := ks, turns := us } : State).Hands H :=
  h.imp (fun h => h.schedule ks us) fun h => h.schedule hH ks us

theorem State.Hands.takeStep (hH : H.Sound) (h : s.Hands H) {τ : Turn} (hτ : τ.internal)
    (ht : Machine.takeStep τ s = .next t) : t.Hands H := by
  cases τ with
  | p ks =>
    rcases h.schedule hH ks s.turns with h | h
    · exact h.producer_turn hH ht
    · exact .inr (h.producer_turn hH ht)
  | w ks =>
    rcases h.schedule hH ks s.turns with h | h
    · exact .inl (h.worker_turn ht)
    · exact .inr (h.worker_turn hH ht)
  | drain c n =>
    cases ht
    rcases h with h | h
    · exact .inl (h.drain c n)
    · exact .inr (h.storesFor hH (s.drain_storesFor h.wf c (h.writes c) n)
        ⟨(s.drain_onlyStores c n).memBytes.symm ▸ h.ran.fits, (s.drain_moves c n).running h.ran.running⟩)
  | evict c l =>
    cases ht
    rcases h with h | h
    · exact .inl (h.evict c l)
    · exact .inr (h.storesFor hH (s.evict_storesFor h.wf c l)
        ⟨(s.evict_onlyStores c l).memBytes.symm ▸ h.ran.fits, (s.evict_moves c l).running h.ran.running⟩)
  | _ => exact hτ.elim

/-- A command that has ended has left memory and results as they are to be. -/
theorem Handoff.Sound.outcome (hH : H.Sound) (h : s.Hands H) {ts : List Turn} (hts : ∀ τ ∈ ts, τ.internal)
    (hrun : s.runTurns ts = .next t) (hdone : t.done = true) :
    t.code = .ok ∧ t.mem.wf = true ∧ t.mem.read = H.z ∧ t.resi = H.resi ∧ t.resf = H.resf := by
  have hkept : t.Hands H := State.runTurns_keeps (P := fun s => s.Hands H)
    (fun s us hs => hs.schedule hH s.keeps us) (fun τ hτ s t hs ht => hs.takeStep hH (hts τ hτ) ht) h hrun
  have hopen : ¬ H.base.Underway t := fun hunder => by rw [hunder.done] at hdone; cases hdone
  rcases hkept with h | h
  · exact absurd h.underway hopen
  · have hidle : t.pstage = .idle := by
      by_contra hp
      exact hopen (h.underway hp).1
    obtain ⟨hcode, hresi, hresf, hread, -⟩ := h.producer_at hidle
    exact ⟨hcode, h.wf, hread, hresi, hresf⟩

end

end Sys2Proof.Machine
end
section
/-! PROOFS. The parallel forms end as the serial ones (42_dtft.md rule R111, 43_coresync.md rules R129, R134, 45_pipeline.md
rule R147): each begins by offering the job of a sound handoff whose bytes are those of the serial form. -/

namespace Sys2Proof.Machine

/-! ### The begin -/

/-- A command that publishes its job offers it. -/
theorem publish_offers {s v : State} {H : Handoff} {cmd : Publisher} (hs : s.Ready) (hm : s.mem.wf = true)
    (hw : s.WorkerReady) (hdone : s.done = false) (hj : H.job.Fits s.memBytes) (hwork : Work .p s.beginCommand v)
    (hbase : H.base = v.publish H.job cmd) (hy : ∀ a, ¬ H.job.Output a → v.coreByte .p a = H.y a) :
    H.base.Offers H := by
  obtain ⟨hfresh, -, hfree⟩ := s.beginCommand_spec hs.1
  have honly := hwork.only
  obtain ⟨⟨hfits, -⟩, hprep⟩ := publish_safe cmd hw hj honly (hwork.jobFree hfree)
  have hworker := honly.sameWorker
  have hvdone : v.done = false := by
    simp only [OnlyCore] at honly
    rw [honly]
    exact hdone
  refine ⟨?_, ?_, ⟨rfl, rfl, rfl, rfl⟩, ?_, ⟨rfl, rfl, rfl, rfl, rfl, ?_⟩, fun a ha => ?_, ?_⟩ <;> rw [hbase]
  · exact hfits
  · exact hprep
  · exact (congrArg Memory.wf honly.mem).trans hm
  · exact hvdone
  · have hbyte : v.coreByte .p a = H.y a := hy a ha
    exact ⟨(View.byte_of_fresh (hwork.fresh hfresh) a).symm.trans hbyte, hbyte⟩
  · intro hstage
    have hpolls : s.wstage = .pollRead := hworker.wstage.symm.trans hstage
    refine (congrArg View.mcopies hworker.wview).trans ?_
    obtain ⟨-, ⟨hclear, -⟩ | ⟨hfence | ⟨-, hcopies, -⟩, -⟩⟩ := hw
    · rw [hclear] at hpolls; cases hpolls
    · rw [hfence] at hpolls; cases hpolls
    · exact hcopies

/-- Bytes off the bins are off the spectrum of the job. -/
theorem Job.off_output {j : Job} {a : Nat} (h : ¬ j.Output a) :
    a < j.out.toNat ∨ j.out.toNat + 8 * j.kt.toNat ≤ a := by
  simp only [Job.Output, binAddr] at h
  omega

/-! ### XFORMP -/

/-- The handoff of `XFORMP`, whose spectrum is in `y`. -/
def xformHandoff (g : Grid) (s : State) (y : Bytes) : Handoff :=
  ⟨s.beginCommand.publish (parallelJob s g) .xformp, parallelJob s g, y, y, s.cnt, s.resf⟩

theorem xformp_hands {g : Grid} {s : State} (hs : s.Ready) (hm : s.mem.wf = true) (hw : s.WorkerReady)
    (hdone : s.done = false) (hfits : s.XformFits) (hfinite : s.GridFinite g s.cnt s.len.toNat)
    (hapart : Disjoint s.src.toNat s.len.toNat s.dst.toNat (8 * s.cnt.toNat)) {y : Bytes}
    (hleft : BinsLeft s.sintab s.costab g s.src.toNat s.len.toNat s.cnt s.dst.toNat s.draws s.cnt.toNat 0 s.mem.read y) :
    (xformHandoff g s y).Sound ∧ (xformHandoff g s y).base.Offers (xformHandoff g s y) := by
  have hspectrum : (parallelJob s g).Spectrum s.sintab s.costab y := BinsLeft.spectrum hfinite hapart hleft
  obtain ⟨-, hbytes, -⟩ := s.beginCommand_spec hs.1
  refine ⟨⟨hspectrum, hs.2, fun _ _ => rfl, fun _ => ⟨rfl, rfl, rfl⟩, nofun⟩,
    publish_offers hs hm hw hdone (parallelJob_fits g hfits) (.refl .p _) rfl fun a ha => ?_⟩
  rw [hbytes]
  have hoff : a < s.dst.toNat ∨ s.dst.toNat + 8 * s.cnt.toNat ≤ a := Job.off_output ha
  exact (hleft.outside a (by omega)).symm

/-! ### Parallel PIPE -/

/-- The handoff of parallel `PIPE` from `v`, where the pattern is replicated, whose spectrum is in `x`. -/
def pipeHandoff (s v : State) (x z : Bytes) (resi resf : Word) : Handoff :=
  ⟨v.publish (pipeParallelJob s) .pipe, pipeParallelJob s, x, z, resi, resf⟩

theorem pipe_hands {s v : State} {n : Nat} {x0 x : Bytes} (hs : s.Ready) (hm : s.mem.wf = true) (hw : s.WorkerReady)
    (hdone : s.done = false) (hfits : s.PipeFits) (hfinite : s.GridFinite .half 41 80)
    (hwork : Work .p s.beginCommand v) (hbytes : v.coreByte .p = x0)
    (hleft : BinsLeft s.sintab s.costab .half s.dst.toNat 80 41 (s.dst.toNat + 0x50) s.draws 41 0 x0 x) :
    let b := pipeNearest n s.dst.toNat s.dict x
    let H := pipeHandoff s v x (pipeBytes n s.dst.toNat x) (wordOf b.1) b.2
    H.Sound ∧ H.base.Offers H := by
  obtain ⟨hout, -⟩ := workArea_toNat (hfits.output.trans s.memBytes_le)
  have hjob : (pipeParallelJob s).out.toNat = s.dst.toNat + 0x50 := hout
  have hspectrum : (pipeParallelJob s).Spectrum s.sintab s.costab x :=
    BinsLeft.spectrum (n := s.draws) (x := x0) hfinite (by
      rw [hjob]
      exact .inr (.inr (.inl (show s.dst.toNat + 80 ≤ _ by omega)))) (by rw [hjob]; exact hleft)
  have honly := hwork.only
  have hframe : v.sintab = s.sintab ∧ v.costab = s.costab ∧ v.disturbed = s.disturbed ∧ v.dst = s.dst ∧
      v.dict = s.dict ∧ v.memBytes = s.memBytes := by
    simp only [OnlyCore] at honly
    rw [honly]
    exact ⟨rfl, rfl, rfl, rfl, rfl, rfl⟩
  obtain ⟨hsintab, hcostab, hdisturbed, hdst, hdict, hbytesTop⟩ := hframe
  refine ⟨⟨?_, hdisturbed.trans hs.2, fun a ha => ?_, nofun, fun _ => ?_⟩,
    publish_offers hs hm hw hdone (pipeParallelJob_fits hfits) hwork rfl fun a ha => ?_⟩
  · show (pipeParallelJob s).Spectrum v.sintab v.costab x
    rw [hsintab, hcostab]
    exact hspectrum
  · refine pipeBytes_eqOff n s.dst.toNat x a (.inl ?_)
    rcases ha with ha | ha
    · have hlt : a < (pipeParallelJob s).out.toNat + 8 * 41 := ha.2
      omega
    · have hlt : a < s.dst.toNat + 80 := ha.2
      omega
  · show v.dst.toNat + 572 ≤ v.memBytes ∧ ∀ m, pipeBytes m v.dst.toNat x = pipeBytes n s.dst.toNat x ∧
      wordOf (pipeNearest m v.dst.toNat v.dict x).1 = wordOf (pipeNearest n s.dst.toNat s.dict x).1 ∧
      (pipeNearest m v.dst.toNat v.dict x).2 = (pipeNearest n s.dst.toNat s.dict x).2
    rw [hdst, hdict, hbytesTop]
    refine ⟨hfits.output, fun m => ?_⟩
    have hwords : ∀ k < 41, f32IsFinite (x.word (s.dst.toNat + 0x50 + 8 * k)) = true ∧
        f32IsFinite (x.word (s.dst.toNat + 0x50 + 8 * k + 4)) = true := fun k hk => by
      obtain ⟨-, hre, him⟩ := hspectrum.finite k hk
      rw [hspectrum.re k hk, binAddr, hjob] at hre
      rw [hspectrum.im k hk, binAddr, hjob] at him
      exact ⟨hre, him⟩
    obtain ⟨hpipe, hnearest⟩ := pipe_draw hwords s.dict m n
    rw [hpipe, hnearest]
    exact ⟨rfl, rfl, rfl⟩
  · rw [hbytes]
    have hoff : a < (pipeParallelJob s).out.toNat ∨ (pipeParallelJob s).out.toNat + 8 * 41 ≤ a := Job.off_output ha
    exact (hleft.outside a (by omega)).symm

/-! ### The serial form's outcome -/

/-- Settles O33: the serial form's bytes make a sound handoff, which every schedule keeps to. -/
theorem parallelEqualsSerial : Obligations.ParallelEqualsSerial := by
  intro s p u t ts hs hm hw hdone hts hrun hend
  refine ⟨fun g hbegin hfinite hapart hserial hp => ?_, fun hbegin hfinite hserial hp => ?_⟩
  · have hfits : s.XformFits := (State.beginError_xform s g).1 hbegin
    obtain ⟨y, v, hy, hv, hframe, hwf, -, hread, -⟩ := xformResult g s ((State.beginError_xform s g).2 hfits) hs hm
    obtain rfl : v = u := Host.Outcome.next.inj (hv.symm.trans hserial)
    obtain rfl : s.beginCommand.publish (parallelJob s g) .xformp = p :=
      Host.Outcome.next.inj ((execXformp_begun hbegin).symm.trans hp)
    obtain ⟨y', hy', hleft⟩ := plainBins_left (S := s.sintab) (C := s.costab) g s.src.toNat s.cnt s.dst.toNat s.draws
      (N := s.len.toNat) (m := s.cnt.toNat) (k := 0) (by have := s.len.isLt; omega) (by omega) s.mem.read
    obtain rfl : y' = y := Option.some.inj (hy'.symm.trans hy)
    obtain ⟨hsound, hoffers⟩ := xformp_hands hs hm hw hdone hfits hfinite hapart hleft
    obtain ⟨hcode, htwf, htread, hresi, hresf⟩ := hsound.outcome (.inl hoffers) hts hrun hend
    refine ⟨hcode, Memory.ext_read htwf hwf fun a => (congrFun htread a).trans (hread a).symm, ?_, ?_⟩
    · rw [hresi, hframe]; rfl
    · rw [hresf, hframe]; rfl
  · have hfits : s.PipeFits := (State.beginError_pipe s .parallel).1 hbegin
    obtain ⟨x, v, -, hleft, hv, hwf, -, hread, hvresi, hvresf, -⟩ :=
      pipeSerial_spec ((State.beginError_pipe s .serial).2 hfits) hs hm
    obtain rfl : v = u := Host.Outcome.next.inj (hv.symm.trans hserial)
    obtain ⟨r, hr, hwork, -, -, -, -, hbytes⟩ := pipeReplicate_spec hs
    have hbegun := execPipe_published hbegin hr
    obtain rfl : r.publish (pipeParallelJob s) .pipe = p := Host.Outcome.next.inj (hbegun.symm.trans hp)
    obtain ⟨hsound, hoffers⟩ := pipe_hands
      (n := s.draws + (OMEGA_DRAWS + SAMPLE_DRAWS * 80) * 41) hs hm hw hdone hfits hfinite hwork hbytes hleft
    obtain ⟨hcode, htwf, htread, hresi, hresf⟩ := hsound.outcome (.inl hoffers) hts hrun hend
    exact ⟨hcode, Memory.ext_read htwf hwf fun a => congrFun (htread.trans hread.symm) a, hresi.trans hvresi.symm,
      hresf.trans hvresf.symm⟩

end Sys2Proof.Machine
end

section
/-! PROOFS. How `WLAUNCH` starts the worker (43_coresync.md rule R116), and the rest of a parallel `PIPE` after its wait
(45_pipeline.md rule R147). -/

namespace Sys2Proof.Machine

/-- `WLAUNCH` before its command end: `W` begins to poll. -/
def State.launched (s : State) : State := { s with wrun := true, wstage := .pollFence }

theorem execWlaunch_passes {s : State} (h : s.wrun = false) :
    exec .wlaunch s = .next s.beginCommand.launched.finish :=
  State.checked_passes (s := s) (f := fun s => [ckRepeat s.wrun]) (body := fun s => .next s.launched.finish)
    ((pass_cons _ _).2 ⟨h, pass_nil⟩)

/-- Settles O26: nothing is pending when `WLAUNCH` ends. -/
theorem workerLaunch : Obligations.WorkerLaunch := by
  intro s hrun ⟨hsb, hd⟩
  have hend := s.beginCommand.launched.finish_drained hd hsb
  refine ⟨_, execWlaunch_passes hrun, ?_, State.finish_pview_sb _⟩
  rw [hend]
  simp only [State.launched, State.endedAs, State.beginCommand_eq, hd]

/-- Settles O46: `P` holds no copies, so the tail works on the bytes `P` reads, as it does in the serial form. -/
theorem pipeParallelTail : Obligations.PipeParallelTail := by
  intro s k hp hcopies hfree hw hd hdst
  have htail : producerStep { s with turns := [], keeps := k } =
      .next (pipeTail { s with turns := [], keeps := k }) := by simp only [producerStep, hp]
  obtain ⟨hread, hwf, hsb, hresi, hresf, hframe⟩ := pipeTail_spec (s := { s with turns := [], keeps := k })
    (View.fresh_of_no_copies _ hcopies) hd (fun e he i v hj => hfree i v (hj ▸ he)) hw hdst
  refine ⟨_, State.runTurns_single htail, hwf, hsb, hframe, fun a => congrFun hread a, ?_⟩
  rw [hresi, hresf]
  exact pipeNearest_isNearest s.draws s.dst.toNat s.dict (s.coreByte .p)

end Sys2Proof.Machine
end

section
/-! PROOFS. What the turns of a core come to, one after another, while nothing else takes a turn: a poll of either core
(43_coresync.md rules R121, R123), the publishing of a job up to signal-present (R117 to R120), its loading and its
completion by the worker (R124 to R128). -/

namespace Sys2Proof.Machine

/-! ### Runs of one core -/

/-- A run whose first turn is one of `P`. -/
theorem State.runTurns_p {s t : State} {k : List Bool} {ts : List Turn}
    (h : producerStep { s with turns := ts, keeps := k } = .next t) : s.runTurns (.p k :: ts) = t.runTurns ts :=
  State.runTurns_cons h

/-- A run whose first turn is one of `W`. -/
theorem State.runTurns_w {s t : State} {k : List Bool} {ts : List Turn}
    (h : workerStep { s with turns := ts, keeps := k } = .next t) : s.runTurns (.w k :: ts) = t.runTurns ts :=
  State.runTurns_cons h

/-! ### A poll (R121, R123) -/

/-- The poll's read leaves at most a copy, and `P` goes on where the flag is set. -/
theorem waitReadStep_eq (s : State) : waitReadStep s =
    { s.noteJob .p .done with pstage := if s.coreJob .p .done = 0 then .waitFence else .fin } := rfl

theorem pollReadStep_eq (s : State) : pollReadStep s =
    { s.noteJob .w .sigp with wstage := if s.coreJob .w .sigp = 0 then .pollFence else .load .sig } := rfl

theorem runTurns_wait {s : State} (k1 k2 : List Bool) (hp : s.pstage = .waitFence) :
    s.runTurns [.p k1, .p k2] =
      .next (waitReadStep { s.fenceAcq .p with turns := [], keeps := k2, pstage := .waitRead }) := by
  have hfence : producerStep { s with turns := [.p k2], keeps := k1 } =
      .next (waitFenceStep { s with turns := [.p k2], keeps := k1 }) := by simp only [producerStep, hp]
  exact (State.runTurns_p hfence).trans (State.runTurns_single rfl)

theorem runTurns_poll {s : State} (k1 k2 : List Bool) (hw : s.wstage = .pollFence) :
    s.runTurns [.w k1, .w k2] =
      .next (pollReadStep { s.fenceAcq .w with turns := [], keeps := k2, wstage := .pollRead }) := by
  have hfence : workerStep { s with turns := [.w k2], keeps := k1 } =
      .next (pollFenceStep { s with turns := [.w k2], keeps := k1 }) := by simp only [workerStep, hw]
  exact (State.runTurns_w hfence).trans (State.runTurns_single rfl)

/-- Settles O28: after the fence there is no copy to read, so the flag comes from shared storage. -/
theorem pollsReadFreshFlags : Obligations.PollsReadFreshFlags := by
  refine fun s k1 k2 => ⟨fun hp => ⟨_, runTurns_wait k1 k2 hp, ?_⟩, fun hw => ⟨_, runTurns_poll k1 k2 hw, ?_⟩⟩
  · rw [waitReadStep_eq]
    exact ⟨State.noteJob_mem _ .p .done, State.noteJob_job _ .p .done, State.noteJob_sb _ .p .done,
      congrArg (fun v => if v = 0 then PStage.waitFence else .fin) (s.fenceAcq_coreJob .p .done)⟩
  · rw [pollReadStep_eq]
    exact ⟨State.noteJob_mem _ .w .sigp, State.noteJob_job _ .w .sigp, State.noteJob_sb _ .w .sigp,
      congrArg (fun v => if v = 0 then WStage.pollFence else .load .sig) (s.fenceAcq_coreJob .w .sigp)⟩

/-! ### Publishing (R117 to R120) -/

/-- From `q` on, `P` writes the slot words `is` in turn, and then fences. -/
def PStage.Writes : PStage → List JobIx → Prop
  | q, [] => q = .fence
  | q, i :: is => q = .pub i ∧ (pubNext i).Writes is

/-- The write of slot word `i` by a `P` that publishes. -/
def Job.publication (j : Job) (i : JobIx) : Pending := .job i (j.slotWord i)

/-- The slot writes become pending, one a turn, in their order; the turns left over are `P`'s too. -/
theorem runTurns_writes {is : List JobIx} {ks : List (List Bool)} (hlen : ks.length = is.length + 1) {s : State}
    (h : s.pstage.Writes is) :
    ∃ (u : State) (k : List Bool), s.runTurns (ks.map .p) = u.runTurns [.p k] ∧ u.pstage = .fence ∧
      u.pview.sb = s.pview.sb ++ is.map s.pjob.publication ∧ u.pjob = s.pjob ∧ u.mem = s.mem ∧ u.job = s.job := by
  induction is generalizing ks s with
  | nil =>
    obtain ⟨k, rfl⟩ := List.length_eq_one_iff.1 hlen
    exact ⟨s, k, rfl, h, (List.append_nil _).symm, rfl, rfl, rfl⟩
  | cons i is ih =>
    obtain ⟨hp, hrest⟩ := h
    cases ks with
    | nil => cases hlen
    | cons k ks =>
      have hpub : producerStep { s with turns := ks.map .p, keeps := k } =
          .next (pubStep i { s with turns := ks.map .p, keeps := k }) := by simp only [producerStep, hp]
      obtain ⟨u, k', hrun, hfence, hsb, hpjob, hmem, hjob⟩ :=
        ih (Nat.succ.inj hlen) (s := pubStep i { s with turns := ks.map .p, keeps := k }) hrest
      refine ⟨u, k', (State.runTurns_p hpub).trans hrun, hfence, hsb.trans ?_, hpjob, hmem, hjob⟩
      exact List.append_assoc _ _ _

/-- The slot words in the order `P` writes them before its fence (R117). -/
def publishOrder : List JobIx := [.sig, .len, .start, .stop, .ktot, .grid, .out, .done]

theorem mem_publishOrder {i : JobIx} : i ∈ publishOrder ↔ i ≠ .sigp := by cases i <;> decide

/-- The slot after a publication: the words of the job, signal-present as before (R117, R118). -/
theorem foldl_publication (j : Job) {es : List Pending} (hfree : JobFree es) (w : Word) (i : JobIx) :
    (es ++ publishOrder.map j.publication).foldl (fun w e => e.overlayJob i w) w =
      if i = .sigp then w else j.slotWord i := by
  have hfirst : es.foldl (fun w e => e.overlayJob i w) w = w :=
    foldl_overlayJob_other (fun x hx => hfree _ hx i x rfl) w
  rw [List.foldl_append, hfirst]
  split
  · next hi =>
    refine foldl_overlayJob_other (fun x hx => ?_) w
    obtain ⟨k, hk, he⟩ := List.mem_map.1 hx
    cases he
    exact mem_publishOrder.1 hk hi
  · next hi =>
    refine foldl_overlayJob_agree (fun x hx => ?_) (.inl (List.mem_map_of_mem (mem_publishOrder.2 hi)))
    obtain ⟨k, -, he⟩ := List.mem_map.1 hx
    cases he
    rfl

/-- Slot writes leave the bytes of `MEM` alone. -/
theorem foldl_overlayByte_publication (j : Job) (es : List Pending) (is : List JobIx) (a : Nat) (b : Byte) :
    (es ++ is.map j.publication).foldl (fun b e => e.overlayByte a b) b =
      es.foldl (fun b e => e.overlayByte a b) b := by
  rw [List.foldl_append]
  refine foldl_untouched (fun e he y => ?_) _
  obtain ⟨i, -, rfl⟩ := List.mem_map.1 he
  rfl

/-- The publish fence brings the job to shared storage with every earlier write of `P` (R118). -/
theorem fenceStep_publishes {s v : State} (hfree : JobFree s.pview.sb) (hw : s.mem.wf = true)
    (hsb : v.pview.sb = s.pview.sb ++ publishOrder.map s.pjob.publication) (hmem : v.mem = s.mem)
    (hjob : v.job = s.job) :
    (fenceStep v).job =
      ⟨s.pjob.sig, s.pjob.n, s.pjob.k0, s.pjob.k1, s.pjob.kt, gridWord s.pjob.g, s.pjob.out, 0, s.job.sigp⟩ ∧
    ∀ a, (fenceStep v).mem.read a = s.pview.sb.foldl (fun b e => e.overlayByte a b) (s.mem.read a) := by
  refine ⟨JobSlot.ext_get fun i => (v.fenceRel_job_get .p i).trans ?_,
    fun a => (v.fenceRel_read .p a (hmem ▸ hw)).trans ?_⟩
  · rw [State.view_p, hsb, hjob, foldl_publication s.pjob hfree]
    cases i <;> rfl
  · rw [State.view_p, hsb, hmem, foldl_overlayByte_publication]

/-- Settles O27: eight slot writes, the fence that brings them to shared storage, and the trigger. -/
theorem publishWritesJob : Obligations.PublishWritesJob := by
  intro s ks k hp hfree hw hlen
  obtain ⟨u, k', hrun, hu, husb, -, humem, hujob⟩ := runTurns_writes (is := publishOrder) hlen
    (s := s) ⟨hp, rfl, rfl, rfl, rfl, rfl, rfl, rfl, rfl⟩
  have hfence : producerStep { u with turns := [], keeps := k' } =
      .next (fenceStep { u with turns := [], keeps := k' }) := by simp only [producerStep, hu]
  obtain ⟨hjob, hread⟩ := fenceStep_publishes (v := { u with turns := [], keeps := k' })
    (fun e he i x hx => hfree i x (hx ▸ he)) hw husb humem hujob
  have hempty : (fenceStep { u with turns := [], keeps := k' }).pview.sb = [] := State.fenceRel_sb _ .p
  have hstage : (fenceStep { u with turns := [], keeps := k' }).pstage = .trig := rfl
  have hfenced := hrun.trans (State.runTurns_single hfence)
  generalize fenceStep { u with turns := [], keeps := k' } = t at hjob hread hempty hstage hfenced
  have htrig : producerStep { t with turns := [], keeps := k } =
      .next (trigStep { t with turns := [], keeps := k }) := by simp only [producerStep, hstage]
  refine ⟨t, hfenced, hstage, hempty, hjob, hread, _, State.runTurns_single htrig, rfl, ?_, rfl, rfl, rfl⟩
  exact congrArg (· ++ [Pending.job .sigp 1]) hempty

/-! ### Loading a job (R124) -/

/-- A slot read changes no slot word the core reads next. -/
@[simp] theorem State.noteJob_coreJob (s : State) (c : CoreId) (i k : JobIx) :
    (s.noteJob c i).coreJob c k = s.coreJob c k := by
  rcases s.noteJob_cases c i with h | h | ⟨hnone, h⟩ <;> rw [h]
  · cases c <;> rfl
  · rw [State.coreJob, State.setView_view, State.setView_job]
    show (s.view c).sb.foldl _ (((s.view c).jcopies.set i (some (s.job.get i))).get k |>.getD (s.job.get k)) = _
    rw [JobSlot.get_set]
    split
    · next hk => rw [hk, State.coreJob, View.slot, hnone]; rfl
    · rfl

/-- From `w` on, the worker reads the slot words `is` in turn, and then begins its bins. -/
def WStage.Loads : WStage → List JobIx → Prop
  | w, [] => w = .run .next
  | w, i :: is => w = .load i ∧ (loadNext i).Loads is

/-- What the worker's job registers and datapath are after the read of slot word `i`, where it reads words by `f`. -/
def loadWord (f : JobIx → Word) (r : Job × Datapath) (i : JobIx) : Job × Datapath :=
  (r.1.load i (f i), if i = .out then { r.2 with kidx := (r.1.load i (f i)).k0 } else r.2)

/-- The read of a slot word changes nothing the worker reads next, and neither `MEM`, the slot nor its buffer (R124). -/
theorem loadStep_reads (i : JobIx) (s : State) :
    (loadStep i s).coreJob .w = s.coreJob .w ∧ (loadStep i s).mem = s.mem ∧ (loadStep i s).job = s.job ∧
      (loadStep i s).wview.sb = s.wview.sb := by
  rw [loadStep_eq]
  exact ⟨funext fun k => s.noteJob_coreJob .w i k, s.noteJob_mem .w i, s.noteJob_job .w i, s.noteJob_sb .w i⟩

theorem loadStep_regs (i : JobIx) (s : State) :
    ((loadStep i s).wjob, (loadStep i s).wregs) = loadWord (s.coreJob .w) (s.wjob, s.wregs) i := by
  rw [loadStep_eq]
  rfl

/-- The slot words are read one a turn, in their order. -/
theorem runTurns_loads {is : List JobIx} {ks : List (List Bool)} (hlen : ks.length = is.length) {s : State}
    (h : s.wstage.Loads is) :
    ∃ t, s.runTurns (ks.map .w) = .next t ∧ t.wstage = .run .next ∧
      (t.wjob, t.wregs) = is.foldl (loadWord (s.coreJob .w)) (s.wjob, s.wregs) ∧ t.mem = s.mem ∧ t.job = s.job ∧
      t.wview.sb = s.wview.sb := by
  induction is generalizing ks s with
  | nil =>
    obtain rfl := List.length_eq_zero_iff.1 hlen
    exact ⟨_, s.runTurns_nil, h, rfl, rfl, rfl, rfl⟩
  | cons i is ih =>
    obtain ⟨hw, hrest⟩ := h
    cases ks with
    | nil => cases hlen
    | cons k ks =>
      have hload : workerStep { s with turns := ks.map .w, keeps := k } =
          .next (loadStep i { s with turns := ks.map .w, keeps := k }) := by simp only [workerStep, hw]
      obtain ⟨hreads, hmem, hjob, hsb⟩ := loadStep_reads i { s with turns := ks.map .w, keeps := k }
      obtain ⟨t, hrun, hstage, hregs, htmem, htjob, htsb⟩ :=
        ih (Nat.succ.inj hlen) (s := loadStep i { s with turns := ks.map .w, keeps := k }) hrest
      rw [hreads, loadStep_regs] at hregs
      exact ⟨t, (State.runTurns_w hload).trans hrun, hstage, hregs, htmem.trans hmem, htjob.trans hjob, htsb.trans hsb⟩

/-! ### Completing a job (R126 to R128) -/

theorem workerStep_rel {s : State} (hw : s.wstage = .rel) : workerStep s = .next (relStep s) := by
  simp only [workerStep, hw]

theorem workerStep_setDone {s : State} (hw : s.wstage = .setDone) : workerStep s = .next (setDoneStep s) := by
  simp only [workerStep, hw]

theorem workerStep_clear {s : State} (hw : s.wstage = .clear) : workerStep s = .next (clearStep s) := by
  simp only [workerStep, hw]

/-- The worker's release fence brings its bins to shared storage (R126). -/
theorem relStep_spec {s : State} (hfree : JobFree s.wview.sb) (hw : s.mem.wf = true) :
    (relStep s).job = s.job ∧ (relStep s).wview.sb = [] ∧ (relStep s).wjob = s.wjob ∧ (relStep s).pview = s.pview ∧
      ∀ a, (relStep s).mem.read a = s.wview.sb.foldl (fun b e => e.overlayByte a b) (s.mem.read a) :=
  ⟨s.fenceRel_job .w hfree, s.fenceRel_sb .w, s.fenceRel_wjob .w, s.fenceRel_sameProducer.pview,
    fun a => s.fenceRel_read .w a hw⟩

/-- `t` is `s` after a slot write of `W`, which is pending (R127, R128). -/
structure WorkerWrote (i : JobIx) (x : Word) (s t : State) : Prop where
  job : t.job = s.job
  mem : t.mem = s.mem
  sb : t.wview.sb = s.wview.sb ++ [.job i x]
  wjob : t.wjob = s.wjob
  pview : t.pview = s.pview

theorem setDoneStep_wrote (s : State) : WorkerWrote .done 1 s (setDoneStep s) := ⟨rfl, rfl, rfl, rfl, rfl⟩

theorem clearStep_wrote (s : State) : WorkerWrote .sigp 0 s (clearStep s) := ⟨rfl, rfl, rfl, rfl, rfl⟩

/-- The completion flag is set and signal-present cleared, each in a turn. -/
theorem runTurns_setDone {s : State} (k2 k3 : List Bool) (hw : s.wstage = .setDone) :
    ∃ u t, s.runTurns [.w k2, .w k3] = .next t ∧ t.wstage = .pollFence ∧ WorkerWrote .done 1 s u ∧
      WorkerWrote .sigp 0 u t := by
  have hset := workerStep_setDone (s := { s with turns := [.w k3], keeps := k2 }) hw
  have hdone := setDoneStep_wrote { s with turns := [.w k3], keeps := k2 }
  have hstage : (setDoneStep { s with turns := [.w k3], keeps := k2 }).wstage = .clear := rfl
  generalize setDoneStep { s with turns := [.w k3], keeps := k2 } = u at hset hdone hstage
  have hclear := workerStep_clear (s := { u with turns := [], keeps := k3 }) hstage
  have hsigp := clearStep_wrote { u with turns := [], keeps := k3 }
  exact ⟨u, _, (State.runTurns_w hset).trans (State.runTurns_single hclear), rfl,
    ⟨hdone.job, hdone.mem, hdone.sb, hdone.wjob, hdone.pview⟩,
    ⟨hsigp.job, hsigp.mem, hsigp.sb, hsigp.wjob, hsigp.pview⟩⟩

/-- Settles O29: the reads of a load do not disturb one another; the release fence empties the buffer. -/
theorem workerLoadsAndCompletes : Obligations.WorkerLoadsAndCompletes := by
  refine fun s => ⟨fun ks hw hlen => ?_, fun k1 k2 k3 hw hfree hm => ?_⟩
  · obtain ⟨t, hrun, hstage, hregs, hmem, hjob, hsb⟩ := runTurns_loads
      (is := [.sig, .len, .start, .stop, .ktot, .grid, .out]) hlen (s := s) ⟨hw, rfl, rfl, rfl, rfl, rfl, rfl, rfl⟩
    obtain ⟨hwjob, hwregs⟩ := Prod.mk.inj hregs
    exact ⟨t, hrun, hwjob, hstage, hwregs, hmem, hjob, hsb⟩
  · have hrel := workerStep_rel (s := { s with turns := [.w k2, .w k3], keeps := k1 }) hw
    obtain ⟨hjob, hempty, hwjob, hpview, hread⟩ := relStep_spec
      (s := { s with turns := [.w k2, .w k3], keeps := k1 }) (fun e he i x hx => hfree i x (hx ▸ he)) hm
    obtain ⟨u, t, hrun, hstage, hdone, hsigp⟩ := runTurns_setDone
      (s := relStep { s with turns := [.w k2, .w k3], keeps := k1 }) k2 k3 rfl
    refine ⟨t, (State.runTurns_w hrel).trans hrun, hstage, (hsigp.job.trans hdone.job).trans hjob,
      by rw [hsigp.sb, hdone.sb, hempty]; rfl, (hsigp.wjob.trans hdone.wjob).trans hwjob,
      (hsigp.pview.trans hdone.pview).trans hpview, fun a => ?_⟩
    rw [hsigp.mem, hdone.mem]
    exact hread a

end Sys2Proof.Machine
end

section
/-! PROOFS. Commands that no schedule ends (70_reset_and_hazards.md rules R182, R183; 43_coresync.md rules R130, R133):
what every turn of `P`, `W` and `MSYS` keeps, and under which `P` sees no completion flag, once for a job that was lost
and once where no worker was launched. -/

namespace Sys2Proof.Machine

/-! ### A command under way -/

/-- `BUSY` is set and `DONE` is not. -/
def State.UnderWay (s : State) : Prop := s.busy = true ∧ s.done = false

theorem SameControl.underWay {s t : State} (h : SameControl s t) (hs : s.UnderWay) : t.UnderWay :=
  let ⟨hbusy, hdone⟩ := hs
  ⟨h.busy.trans hbusy, h.done.trans hdone⟩

/-- A turn of `P`, `W` or `MSYS` that does not leave `P` idle ends no command (R86, R160). -/
theorem State.UnderWay.takeStep {τ : Turn} {s t : State} (hs : s.UnderWay) (hτ : τ.internal)
    (h : Machine.takeStep τ s = .next t) (ht : t.pstage ≠ .idle) : t.UnderWay := by
  cases τ with
  | p ks =>
    cases producerStep_answers _ t h with
    | rests hp => exact absurd hp ht
    | goesOn hd => exact hd.same.underWay hs
    | _ => exact absurd rfl ht
  | w ks =>
    cases workerStep_does h with
    | rests => exact hs
    | moves hd => exact hd.same.underWay hs
  | drain c n => cases h; exact (CoreDoes.drain c s n).same.underWay hs
  | evict c l => cases h; exact (CoreDoes.evict c s l).same.underWay hs
  | _ => exact hτ.elim

/-! ### A lost job (R133, R182) -/

/-- At `q`, with the view `v`, `P` is in `P_WAIT`: no slot write is pending, and the poll's read finds no copy (R121). -/
def Waits (q : PStage) (v : View) : Prop :=
  JobFree v.sb ∧ (q = .waitFence ∨ q = .waitRead ∧ v.jcopies.get .done = none)

/-- The same of `W` in `W_POLL` (R123). -/
def Polling (w : WStage) (v : View) : Prop :=
  JobFree v.sb ∧ (w = .pollFence ∨ w = .pollRead ∧ v.jcopies.get .sigp = none)

/-- `P` waits and `W` polls, and both flags are 0. -/
structure State.Lost (s : State) : Prop where
  done : s.job.get .done = 0
  sigp : s.job.get .sigp = 0
  waits : Waits s.pstage s.pview
  polls : Polling s.wstage s.wview

/-- A core without slot writes pending and without a copy reads what shared storage holds. -/
theorem State.coreJob_of_jobFree {s : State} {c : CoreId} {i : JobIx} (hfree : JobFree (s.view c).sb)
    (hcopy : (s.view c).jcopies.get i = none) : s.coreJob c i = s.job.get i :=
  (State.coreJob_of_no_copy hcopy).trans (foldl_overlayJob_other (fun x hx => hfree _ hx i x rfl) _)

theorem State.noteJob_jobFree {s : State} {c : CoreId} (i : JobIx) (h : JobFree (s.view c).sb) :
    JobFree ((s.noteJob c i).view c).sb := by rwa [State.noteJob_sb]

theorem State.Lost.producer {s : State} (h : s.Lost) : ∃ t, producerStep s = .next t ∧ t.Lost := by
  obtain ⟨hdone, hsigp, ⟨hfree, hwaits⟩, hpolls⟩ := h
  obtain hp | ⟨hp, hcopy⟩ := hwaits
  · exact ⟨waitFenceStep s, by simp only [producerStep, hp], hdone, hsigp, ⟨hfree, .inr ⟨rfl, rfl⟩⟩, hpolls⟩
  · have hread : s.coreJob .p .done = 0 := (State.coreJob_of_jobFree (c := .p) hfree hcopy).trans hdone
    have honly := s.noteJob_only .p .done
    have hsame := honly.sameWorker
    have hpolls' : Polling (s.noteJob .p .done).wstage (s.noteJob .p .done).wview := by
      rw [hsame.wstage, hsame.wview]
      exact hpolls
    refine ⟨waitReadStep s, by simp only [producerStep, hp], ?_⟩
    rw [waitReadStep_eq, if_pos hread]
    exact ⟨honly.job ▸ hdone, honly.job ▸ hsigp, ⟨State.noteJob_jobFree (c := .p) .done hfree, .inl rfl⟩, hpolls'⟩

theorem State.Lost.worker {s : State} (h : s.Lost) : ∃ t, workerStep s = .next t ∧ t.Lost := by
  obtain ⟨hdone, hsigp, hwaits, hfree, hpolls⟩ := h
  obtain hw | ⟨hw, hcopy⟩ := hpolls
  · exact ⟨pollFenceStep s, by simp only [workerStep, hw], hdone, hsigp, hwaits, hfree, .inr ⟨rfl, rfl⟩⟩
  · have hread : s.coreJob .w .sigp = 0 := (State.coreJob_of_jobFree (c := .w) hfree hcopy).trans hsigp
    have honly := s.noteJob_only .w .sigp
    have hsame := honly.sameProducer
    have hwaits' : Waits (s.noteJob .w .sigp).pstage (s.noteJob .w .sigp).pview := by
      rw [hsame.pstage, hsame.pview]
      exact hwaits
    refine ⟨pollReadStep s, by simp only [workerStep, hw], ?_⟩
    rw [pollReadStep_eq, if_pos hread]
    exact ⟨honly.job ▸ hdone, honly.job ▸ hsigp, hwaits', State.noteJob_jobFree (c := .w) .sigp hfree, .inl rfl⟩

/-- `MSYS` brings no slot write to shared storage, as none is pending, and makes no copy. -/
theorem SystemMoves.lost {c : CoreId} {s t : State} (h : SystemMoves c s t) (hs : s.Lost) : t.Lost := by
  obtain ⟨hdone, hsigp, ⟨hpfree, hwaits⟩, hwfree, hpolls⟩ := hs
  have hfree : ∀ d, JobFree (s.view d).sb := CoreId.rec hpfree hwfree
  have hslot : ∀ i, t.job.get i = s.job.get i := fun i => (h.job i).resolve_right fun hx => hfree c _ hx i _ rfl
  have hview : ∀ d, JobFree (t.view d).sb ∧
      ∀ i, (s.view d).jcopies.get i = none → (t.view d).jcopies.get i = none := by
    intro d
    by_cases hd : d = c
    · subst hd; exact ⟨fun e he => hfree d e (h.sb.subset he), h.uncopied⟩
    · rw [h.other d hd]; exact ⟨hfree d, fun _ => id⟩
  obtain ⟨hpfree', hpcopies⟩ := hview .p
  obtain ⟨hwfree', hwcopies⟩ := hview .w
  refine ⟨(hslot .done).trans hdone, (hslot .sigp).trans hsigp, ?_, ?_⟩
  · rw [h.pstage]; exact ⟨hpfree', hwaits.imp_right (.imp_right (hpcopies .done))⟩
  · rw [h.wstage]; exact ⟨hwfree', hpolls.imp_right (.imp_right (hwcopies .sigp))⟩

/-- The model's own counters are no part of it. -/
theorem State.Lost.reschedule {s : State} (h : s.Lost) (us : List Turn) (ks : List Bool) :
    ({ s with turns := us, keeps := ks } : State).Lost := ⟨h.done, h.sigp, h.waits, h.polls⟩

theorem State.Lost.takeStep {τ : Turn} {s t : State} (hs : s.Lost) (hτ : τ.internal)
    (h : Machine.takeStep τ s = .next t) : t.Lost := by
  cases τ with
  | p ks =>
    obtain ⟨u, hu, hlost⟩ := (hs.reschedule s.turns ks).producer
    obtain rfl : u = t := Host.Outcome.next.inj (hu.symm.trans h)
    exact hlost
  | w ks =>
    obtain ⟨u, hu, hlost⟩ := (hs.reschedule s.turns ks).worker
    obtain rfl : u = t := Host.Outcome.next.inj (hu.symm.trans h)
    exact hlost
  | drain c n => cases h; exact (s.drain_moves c n).lost hs
  | evict c l => cases h; exact (s.evict_moves c l).lost hs
  | _ => exact hτ.elim

theorem State.Lost.not_idle {s : State} (h : s.Lost) : s.pstage ≠ .idle := by
  obtain ⟨-, -, ⟨-, hp | ⟨hp, -⟩⟩, -⟩ := h <;> rw [hp] <;> exact nofun

/-- No schedule of `P`, `W` and `MSYS` finds a lost job again. -/
theorem State.Lost.runTurns {s t : State} {ts : List Turn} (hs : s.UnderWay) (hlost : s.Lost)
    (hts : ∀ τ ∈ ts, τ.internal) (h : s.runTurns ts = .next t) : t.UnderWay ∧ t.Lost :=
  State.runTurns_keeps (P := fun s => s.UnderWay ∧ s.Lost)
    (fun s us ⟨hu, hl⟩ => ⟨hu, hl.reschedule us s.keeps⟩)
    (fun τ hτ _ _ ⟨hu, hl⟩ hstep =>
      have hl' := hl.takeStep (hts τ hτ) hstep
      ⟨hu.takeStep (hts τ hτ) hstep hl'.not_idle, hl'⟩) ⟨hs, hlost⟩ h

/-- The one entry of a core's buffer, a slot write, drains (R61). -/
theorem State.drain_only_job {s : State} {c : CoreId} {i : JobIx} {x : Word} (h : (s.view c).sb = [.job i x]) :
    (s.drain c 0).job = s.job.set i x ∧ ((s.drain c 0).view c).sb = [] ∧ (s.drain c 0).mem = s.mem := by
  obtain ⟨hsb, hjob⟩ := State.drain_oldest_job h
  refine ⟨hjob, hsb, ?_⟩
  rw [State.drain_oldest h, State.land_mem]
  exact State.setView_mem _ _ _

/-- The later of two drains of one slot word is the one that the slot keeps. -/
theorem runTurns_drains {s : State} (hp : s.pview.sb = [.job .sigp 1]) (hw : s.wview.sb = [.job .sigp 0]) :
    ∃ t, s.runTurns [.drain .p 0, .drain .w 0] = .next t ∧ t.job = { s.job with sigp := 0 } ∧ t.pview.sb = [] ∧
      t.wview.sb = [] ∧ t.mem = s.mem ∧ t.pstage = s.pstage ∧ t.wstage = s.wstage := by
  obtain ⟨hjob, hsb, hmem⟩ := State.drain_only_job (s := { s with turns := [.drain .w 0] }) (c := .p) hp
  have hmoves := State.drain_moves { s with turns := [.drain .w 0] } .p 0
  have hfirst : takeStep (.drain .p 0) { s with turns := [.drain .w 0] } =
      .next (State.drain { s with turns := [.drain .w 0] } .p 0) := rfl
  generalize State.drain { s with turns := [.drain .w 0] } .p 0 = u at hjob hsb hmem hmoves hfirst
  have huw : u.wview = s.wview := hmoves.other .w nofun
  obtain ⟨htjob, htsb, htmem⟩ := State.drain_only_job (s := { u with turns := [] }) (c := .w)
    ((congrArg View.sb huw).trans hw)
  have htmoves := State.drain_moves { u with turns := [] } .w 0
  have htp : (State.drain { u with turns := [] } .w 0).pview = u.pview := htmoves.other .p nofun
  refine ⟨_, (State.runTurns_cons hfirst).trans (State.runTurns_single rfl), htjob.trans ?_,
    (congrArg View.sb htp).trans hsb, htsb, htmem.trans hmem, htmoves.pstage.trans hmoves.pstage,
    htmoves.wstage.trans hmoves.wstage⟩
  exact congrArg (fun slot => slot.set .sigp 0) hjob

/-- Settles O36: the later clear is what the slot holds; and neither core can see a flag set again. -/
theorem lostJobHangs : Obligations.LostJobHangs := by
  refine ⟨fun s => runTurns_drains, fun s t ts hp hw hpfree hwfree hsigp hdone hbusy hended hts hrun => ?_⟩
  have hlost : s.Lost := ⟨hdone, hsigp, ⟨fun e he i v hj => hpfree i v (hj ▸ he), .inl hp⟩,
    ⟨fun e he i v hj => hwfree i v (hj ▸ he), .inl hw⟩⟩
  obtain ⟨⟨htbusy, htdone⟩, htlost⟩ := State.Lost.runTurns ⟨hbusy, hended⟩ hlost hts hrun
  obtain ⟨-, -, ⟨-, htwaits⟩, -, htpolls⟩ := htlost
  refine ⟨htbusy, htdone, ?_, ?_⟩
  · obtain h | ⟨h, -⟩ := htwaits <;> rw [h] <;> rfl
  · obtain h | ⟨h, -⟩ := htpolls <;> rw [h] <;> rfl

/-! ### No worker (R130, R183) -/

/-- No worker was launched, and nothing of it is pending. -/
def State.Alone (s : State) : Prop := s.wstage = .off ∧ s.wview.sb = []

/-- `P` publishes job `j`, or awaits a completion flag that is 0, and nothing sets it. -/
def State.Unserved (s : State) (j : Job) : Prop :=
  j.Fits s.memBytes ∧ s.Alone ∧
    (Publishing j s.pjob s.pstage s.pview.sb s.job ∨ s.Running j ∧ s.pstage.Awaits ∧ s.job.get .done = 0)

theorem State.Unserved.not_idle {s : State} {j : Job} (h : s.Unserved j) : s.pstage ≠ .idle := by
  obtain ⟨-, -, hpub | ⟨-, hawaits, -⟩⟩ := h <;> intro hp
  · have hstage := hpub.stage
    rw [hp] at hstage
    exact hstage
  · rw [hp] at hawaits
    exact hawaits

theorem SameWorker.alone {s t : State} (h : SameWorker s t) (hs : s.Alone) : t.Alone :=
  let ⟨hoff, hsb⟩ := hs
  ⟨h.wstage.trans hoff, (congrArg View.sb h.wview).trans hsb⟩

/-- A worker that is off breaks no condition on it. -/
theorem State.Alone.sound {s : State} (h : s.Alone) (j : Job) : s.WorkerSound j := by
  obtain ⟨hoff, hsb⟩ := h
  rw [State.WorkerSound, hoff]
  exact ⟨trivial, fun i _ x hx => by rw [hsb] at hx; cases hx⟩

/-- What the publishing fence left: the completion flag is 0, and the trigger the only pending slot write (R117 to R119). -/
theorem PublishMoves.unserved {j : Job} {s t : State} (h : PublishMoves j s t) (hj : j.Fits t.memBytes)
    (ht : t.Alone) : t.Unserved j := by
  refine ⟨hj, ht, ?_⟩
  cases h with
  | publishes h _ => exact .inl h
  | triggers _ hsb hslot hawaits hok =>
    refine .inr ⟨⟨ht.sound j, hok, fun i hi => hslot i hi.2, fun i x hx => ?_⟩, hawaits, hslot .done nofun⟩
    rw [hsb] at hx
    cases List.mem_singleton.1 hx
    rfl

/-- A step of `P`, which sees no completion flag. -/
theorem State.Unserved.producer {j : Job} {s : State} (h : s.Unserved j) :
    ∃ t, producerStep s = .next t ∧ (j.Fits t.memBytes → t.Unserved j) := by
  obtain ⟨hj, halone, hpub | ⟨hrun, hawaits, hdone⟩⟩ := h
  · obtain ⟨t, ht, hsame, -, hmoves⟩ := hpub.moves
    exact ⟨t, ht, fun hj => hmoves.unserved hj (hsame.alone halone)⟩
  · obtain ⟨t, ht, hrun', hsame, hmoves⟩ := hrun.producer hj
    obtain ⟨hawaits', hjob, -⟩ := hmoves.awaits hrun hawaits hdone
    exact ⟨t, ht, fun hj => ⟨hj, hsame.alone halone, .inr ⟨hrun', hawaits', hjob ▸ hdone⟩⟩⟩

/-- A turn of `MSYS`: what `P` has pending to the slot is no set completion flag. -/
theorem SystemMoves.unserved {c : CoreId} {s t : State} {j : Job} (h : SystemMoves c s t) (hj : j.Fits t.memBytes)
    (hs : s.Unserved j) : t.Unserved j := by
  obtain ⟨-, ⟨hoff, hsb⟩, hphase⟩ := hs
  have hwsb : t.wview.sb = [] := by
    cases c with
    | p => exact (congrArg View.sb (h.other .w nofun)).trans hsb
    | w => exact List.sublist_nil.1 (hsb ▸ h.sb)
  refine ⟨hj, ⟨h.wstage.trans hoff, hwsb⟩, ?_⟩
  rcases hphase with hpub | ⟨hrun, hawaits, hdone⟩
  · left
    rw [h.pjob, h.pstage]
    cases c with
    | p => exact hpub.lands h.sb (fun i _ => h.job i) h.lands
    | w =>
      have hview : t.pview = s.pview := h.other .p nofun
      rw [hview]
      refine hpub.lands (.refl _) (fun i _ => .inl ((h.job i).resolve_right fun hx => ?_)) fun i x hx => .inl hx
      rw [State.view_w, hsb] at hx
      cases hx
  · refine .inr ⟨h.running hrun, h.pstage ▸ hawaits, ((h.job .done).resolve_right fun hx => ?_).trans hdone⟩
    obtain ⟨-, -, -, hpending⟩ := hrun
    cases c with
    | p => exact nomatch hpending .done _ hx
    | w =>
      rw [State.view_w, hsb] at hx
      cases hx

theorem State.Unserved.takeStep {j : Job} {τ : Turn} {s t : State} (hs : s.Unserved j) (hτ : τ.internal)
    (h : Machine.takeStep τ s = .next t) : t.Unserved j := by
  have ⟨hfits, ⟨hoff, _⟩, _⟩ := hs
  have hj : j.Fits t.memBytes := State.memBytes_takeStep h ▸ hfits
  cases τ with
  | p ks =>
    obtain ⟨u, hu, hnext⟩ := State.Unserved.producer (s := { s with keeps := ks }) hs
    obtain rfl : u = t := Host.Outcome.next.inj (hu.symm.trans h)
    exact hnext hj
  | w ks =>
    have hrests : workerStep { s with keeps := ks } = .next { s with keeps := ks } := by
      simp only [workerStep, hoff]
    cases hrests.symm.trans h
    exact hs
  | drain c n => cases h; exact (s.drain_moves c n).unserved hj hs
  | evict c l => cases h; exact (s.evict_moves c l).unserved hj hs
  | _ => exact hτ.elim

/-- How a publishing command begins that passes its checks: `P` latches a job that fits in memory (R107, R117, R147). -/
theorem publishing_latches {i : Instr} {s p : State} (hi : i = .pipe .parallel ∨ ∃ g, i = .xformp g)
    (hbegin : s.beginError i = none) (hsb : s.pview.sb = []) (hp : exec i s = .next p) :
    ∃ u j cmd, p = u.publish j cmd ∧ j.Fits s.memBytes ∧ OnlyCore .p s.beginCommand u ∧ JobFree u.pview.sb := by
  obtain ⟨-, -, hfree⟩ := s.beginCommand_spec hsb
  rcases hi with rfl | ⟨g, rfl⟩
  · have hwork := s.beginCommand.replicate_work s.src.toNat s.dst.toNat Config.PLEN Config.REP
    refine ⟨_, _, _, Host.Outcome.next.inj (hp.symm.trans (execPipe_published hbegin rfl)), ?_, hwork.only,
      hwork.jobFree hfree⟩
    exact pipeParallelJob_fits ((State.beginError_pipe s .parallel).1 hbegin)
  · refine ⟨_, _, _, Host.Outcome.next.inj (hp.symm.trans (execXformp_begun hbegin)), ?_, .refl .p _, hfree⟩
    exact parallelJob_fits g ((State.beginError_xform s g).1 hbegin)

theorem publish_unserved {s u : State} {j : Job} (cmd : Publisher) (hs : s.Alone) (hj : j.Fits s.memBytes)
    (honly : OnlyCore .p s.beginCommand u) (hfree : JobFree u.pview.sb) : (u.publish j cmd).Unserved j := by
  have hmem : u.memBytes = s.memBytes := State.memBytes_of_top honly.memTop
  refine ⟨hmem ▸ hj, honly.sameWorker.alone hs, .inl ?_⟩
  exact ⟨rfl, nofun, fun i x hx => absurd rfl (hfree _ hx i x), fun i hi => absurd hi (Nat.not_lt_zero _), nofun⟩

/-- Settles O35: only the worker would set the completion flag that `P` awaits. -/
theorem noWorkerNeverEnds : Obligations.NoWorkerNeverEnds := by
  intro i s p t ts hi hbegin hpsb hwsb hoff hbusy hdone hp hts hrun
  obtain ⟨u, j, cmd, rfl, hj, honly, hfree⟩ := publishing_latches hi hbegin hpsb hp
  have hunserved := publish_unserved cmd ⟨hoff, hwsb⟩ hj honly hfree
  have hunderWay : (u.publish j cmd).UnderWay := by
    simp only [OnlyCore] at honly
    rw [honly]
    exact ⟨hbusy, hdone⟩
  have hkept : t.UnderWay ∧ t.Unserved j :=
    State.runTurns_keeps (P := fun s => s.UnderWay ∧ s.Unserved j) (fun _ _ h => h)
      (fun τ hτ _ _ ⟨hu, hs⟩ hstep =>
        have hs' := hs.takeStep (hts τ hτ) hstep
        ⟨hu.takeStep (hts τ hτ) hstep hs'.not_idle, hs'⟩) ⟨hunderWay, hunserved⟩ hrun
  exact hkept.1

end Sys2Proof.Machine
end

section
/-! PROOFS. Properties of the distance (44_classifier.md rule R136): a difference and its reverse have one magnitude, so
that their squares are the same datum; squares and their sums have no sign. -/

namespace Sys2Proof.Machine

/-! ### Classes of a datum (R9) -/

/-- A datum is a NaN, an infinity or finite. -/
theorem f32_class_cases (a : Word) : f32IsNaN a = true ∨ f32IsInf a = true ∨ f32IsFinite a = true := by
  rw [f32IsNaN_iff, f32IsInf_iff, f32IsFinite_iff]
  omega

/-! ### Magnitudes -/

/-- Data that differ in the sign at most, or two NaNs. -/
def SameSize (a b : Word) : Prop :=
  a.toNat % 2 ^ 31 = b.toNat % 2 ^ 31 ∨ (f32IsNaN a = true ∧ f32IsNaN b = true)

theorem SameSize.symm {a b : Word} (h : SameSize a b) : SameSize b a := h.imp Eq.symm And.symm

theorem sameSize_qNaN (n m : Nat) : SameSize (qNaN n) (qNaN m) := .inr ⟨qNaN_isNaN n, qNaN_isNaN m⟩

theorem fneg_toNat_mod (b : Word) : (fneg b).toNat % 2 ^ 31 = b.toNat % 2 ^ 31 := by
  obtain ⟨hexp, hfrac⟩ := fneg_fields b
  rw [f32Exp_eq, f32Exp_eq] at hexp
  rw [f32Frac_eq, f32Frac_eq] at hfrac
  omega

/-! ### The square of a datum -/

/-- A square is rounded from the magnitude alone, with no sign. -/
theorem fmul_self_eq (n : Nat) {a : Word} (ha : f32IsNaN a = false) : fmul n a a =
    f32Signed false (if f32IsInf a = true then 0x7F800000 else roundMag (f32Mag a * f32Mag a) (2 ^ 149)) := by
  rw [fmul, ha, bne_self_eq_false]
  cases hinf : f32IsInf a with
  | true => simp [f32IsInf_classes hinf]
  | false => simp

theorem fmul_self_sameDatum (n m : Nat) {a b : Word} (h : SameSize a b) :
    SameDatum (fmul n a a) (fmul m b b) := by
  have nan : ∀ {c k}, f32IsNaN c = true → f32IsNaN (fmul k c c) = true := fun hc => by
    rw [fmul_nan _ (.inl hc)]
    exact qNaN_isNaN _
  rcases h with h | ⟨ha, hb⟩
  · have hnan : f32IsNaN a = f32IsNaN b := by rw [Bool.eq_iff_iff, f32IsNaN_iff, f32IsNaN_iff, h]
    cases hb : f32IsNaN b with
    | true => exact .inr ⟨nan (hnan.trans hb), nan hb⟩
    | false =>
      have hinf : f32IsInf a = f32IsInf b := by rw [Bool.eq_iff_iff, f32IsInf_iff, f32IsInf_iff, h]
      rw [fmul_self_eq n (hnan.trans hb), fmul_self_eq m hb, hinf, f32Mag_eq_patMag a, h, ← f32Mag_eq_patMag]
      exact .refl _
  · exact .inr ⟨nan ha, nan hb⟩

/-! ### A difference and its reverse -/

theorem fsub_finite_toNat_mod (n : Nat) {a b : Word} (ha : f32IsFinite a = true) (hb : f32IsFinite b = true) :
    (fsub n a b).toNat % 2 ^ 31 = roundMag (f32Val a - f32Val b).natAbs 1 := by
  rw [fsub, fadd_finite_eq n ha (by simpa using hb), fneg_val, ← Int.sub_eq_add_neg]
  split
  · next h => rw [h, Int.natAbs_zero, roundMag_zero, f32Signed_toNat_mod _ (by decide)]
  · exact f32Signed_toNat_mod _ (roundMag_lt _ _)

theorem fsub_swap_of_inf (n m : Nat) {a b : Word} (ha : f32IsInf a = true) (hb : f32IsNaN b = false) :
    SameSize (fsub n a b) (fsub m b a) := by
  have hna : f32IsNaN a = false := (f32IsInf_classes ha).1
  cases hinf : f32IsInf b with
  | false =>
    have hleft : fsub n a b = a := by simp [fsub, fadd, hna, hb, ha, hinf]
    have hright : fsub m b a = fneg a := by simp [fsub, fadd, hna, hb, ha, hinf]
    rw [hleft, hright]
    exact .inl (fneg_toNat_mod a).symm
  | true =>
    by_cases hsign : f32Sign a = f32Sign b
    · have hleft : fsub n a b = qNaN n := by simp [fsub, fadd, hna, hb, ha, hinf, hsign]
      have hright : fsub m b a = qNaN m := by simp [fsub, fadd, hna, hb, ha, hinf, hsign]
      rw [hleft, hright]
      exact sameSize_qNaN n m
    · have hleft : fsub n a b = a := by simp [fsub, fadd, hna, hb, ha, hinf, Bool.eq_not.2 hsign]
      have hright : fsub m b a = b := by simp [fsub, fadd, hna, hb, ha, hinf, Bool.eq_not.2 hsign]
      rw [hleft, hright]
      exact .inl (((f32IsInf_iff a).1 ha).trans ((f32IsInf_iff b).1 hinf).symm)

theorem fsub_swap_sameSize (n m : Nat) (a b : Word) : SameSize (fsub n a b) (fsub m b a) := by
  rcases f32_class_cases a with ha | ha | ha
  · rw [fsub_nan n (.inl ha), fsub_nan m (.inr ha)]
    exact sameSize_qNaN n m
  · rcases f32_class_cases b with hb | hb | hb
    · rw [fsub_nan n (.inr hb), fsub_nan m (.inl hb)]
      exact sameSize_qNaN n m
    · exact fsub_swap_of_inf n m ha (f32IsInf_classes hb).1
    · exact fsub_swap_of_inf n m ha (notNaN_of_finite hb)
  · rcases f32_class_cases b with hb | hb | hb
    · rw [fsub_nan n (.inr hb), fsub_nan m (.inl hb)]
      exact sameSize_qNaN n m
    · exact (fsub_swap_of_inf m n hb (notNaN_of_finite ha)).symm
    · rw [SameSize, fsub_finite_toNat_mod n ha hb, fsub_finite_toNat_mod m hb ha, ← Int.natAbs_neg, Int.neg_sub]
      exact .inl rfl

/-- Whichever spectrum is subtracted from the other, each square is the same datum, and so is the sum. -/
theorem distFrom_swap {n m : Nat} {acc acc' : Word} (hacc : SameDatum acc acc') (a b : List Word) :
    SameDatum (distFrom n acc a b) (distFrom m acc' b a) := by
  induction a generalizing n m acc acc' b with
  | nil => cases b <;> exact hacc
  | cons x xs ih =>
    cases b with
    | nil => exact hacc
    | cons y ys => exact ih (.fadd _ _ hacc (fmul_self_sameDatum _ _ (fsub_swap_sameSize n m x y))) ys

theorem distF_swap (n m : Nat) (a b : List Word) : SameDatum (distF n a b) (distF m b a) :=
  distFrom_swap (.refl 0) a b

/-! ### The sign -/

/-- A NaN, or a datum whose sign bit is 0. -/
def Unsigned (a : Word) : Prop := f32IsNaN a = true ∨ f32Sign a = false

theorem unsigned_qNaN (n : Nat) : Unsigned (qNaN n) := .inl (qNaN_isNaN n)

theorem fmul_self_unsigned (n : Nat) (a : Word) : Unsigned (fmul n a a) := by
  cases ha : f32IsNaN a with
  | true =>
    rw [fmul_nan n (.inl ha)]
    exact unsigned_qNaN n
  | false =>
    rw [fmul_self_eq n ha]
    refine .inr (f32Sign_signed false ?_)
    split
    · decide
    · exact roundMag_lt _ _

theorem f32Val_nonneg {a : Word} (h : f32Sign a = false) : 0 ≤ f32Val a := by
  rw [f32Val, h]
  exact Int.natCast_nonneg _

theorem Unsigned.fadd {a b : Word} (n : Nat) (ha : Unsigned a) (hb : Unsigned b) : Unsigned (fadd n a b) := by
  cases hna : f32IsNaN a with
  | true =>
    rw [fadd_nan n (.inl hna)]
    exact unsigned_qNaN n
  | false =>
    cases hnb : f32IsNaN b with
    | true =>
      rw [fadd_nan n (.inr hnb)]
      exact unsigned_qNaN n
    | false =>
      have hsa : f32Sign a = false := ha.resolve_left (by simp [hna])
      have hsb : f32Sign b = false := hb.resolve_left (by simp [hnb])
      have hnan : ¬ (f32IsNaN a || f32IsNaN b) = true := by simp [hna, hnb]
      have hopposite : ¬ (f32IsInf b && f32Sign a != f32Sign b) = true := by simp [hsa, hsb]
      have hsum : 0 ≤ f32Val a + f32Val b := add_nonneg (f32Val_nonneg hsa) (f32Val_nonneg hsb)
      refine .inr ?_
      rw [Machine.fadd, if_neg hnan, if_neg hopposite]
      simp only [decide_eq_false (not_lt.2 hsum), hsa, hsb]
      split_ifs
      · exact hsa
      · exact hsb
      · exact f32Sign_signed false (by decide)
      · exact f32Sign_signed false (roundMag_lt _ _)

theorem distFrom_unsigned (n : Nat) {acc : Word} (hacc : Unsigned acc) (a b : List Word) :
    Unsigned (distFrom n acc a b) := by
  induction a generalizing n acc b with
  | nil => exact hacc
  | cons x xs ih =>
    cases b with
    | nil => exact hacc
    | cons y ys => exact ih _ (hacc.fadd _ (fmul_self_unsigned _ _)) ys

theorem distF_unsigned (n : Nat) (a b : List Word) : Unsigned (distF n a b) :=
  distFrom_unsigned n (.inr (by decide)) a b

/-! ### The distance of a spectrum to itself -/

/-- The square of the difference +0 leaves the sum +0. -/
theorem fadd_zero_square (n m : Nat) : fadd m 0 (fmul n 0 0) = 0 := by
  rw [fmul_zero_mag n (by decide) (by decide) (.inl (by decide)), fadd_finite_eq m (by decide) (by decide)]
  decide

theorem distFrom_self (n : Nat) {a : List Word} (h : ∀ x ∈ a, f32IsFinite x = true) : distFrom n 0 a a = 0 := by
  induction a generalizing n with
  | nil => rfl
  | cons x xs ih =>
    obtain ⟨hx, hxs⟩ := List.forall_mem_cons.1 h
    simp only [distFrom, fsub_self n hx, fadd_zero_square]
    exact ih _ hxs

theorem distF_self (n : Nat) {a : List Word} (h : ∀ x ∈ a, f32IsFinite x = true) : distF n a a = 0 :=
  distFrom_self n h

/-- Settles O39. -/
theorem distanceSymmetric : Obligations.DistanceSymmetric := by
  intro n m a b _
  have hswap := distF_swap n m a b
  refine ⟨by rw [hswap.isNaN], fun hnan => ⟨hswap.eq_of_notNaN hnan, ?_⟩, distF_self n⟩
  exact (distF_unsigned n a b).resolve_left (by simp [hnan])

end Sys2Proof.Machine
end

section
/-! PROOFS. `DIST` and `CLASSIFY` (44_classifier.md rules R137, R138, R141): commands that read spectra and leave their
answer in registers. -/

namespace Sys2Proof.Machine

/-! ### The begin checks (R152, R154 to R156) -/

/-- `DIST` may begin. -/
structure State.DistFits (s : State) : Prop where
  sourceAligned : s.src.toNat % 4 = 0
  otherAligned : s.aux.toNat % 4 = 0
  source : s.holds s.src 164
  other : s.holds s.aux 164

/-- The checks `DIST` makes. -/
def distChecks (s : State) : List Check :=
  [ckAlign s.src, ckAlign s.aux, s.ckAddr s.src SPEC_BYTES, s.ckAddr s.aux SPEC_BYTES]

theorem distChecks_pass (s : State) : Pass (distChecks s) ↔ s.DistFits := by
  simp only [distChecks, pass_cons, pass_nil, and_true, ckAlign_fails, State.ckAddr_fails, Bool.not_eq_false',
    bne_eq_false_iff_eq, State.inMemory_iff]
  exact ⟨fun ⟨h1, h2, h3, h4⟩ => ⟨h1, h2, h3, h4⟩, fun ⟨h1, h2, h3, h4⟩ => ⟨h1, h2, h3, h4⟩⟩

theorem State.beginError_dist {s : State} (h : s.beginError .dist = none) : s.DistFits := by
  simp only [State.beginError] at h
  split_ifs at h with h1 h2 h3 h4
  exact ⟨not_not.1 h1, not_not.1 h2, h3, h4⟩

/-- `CLASSIFY` may begin. -/
structure State.ClassifyFits (s : State) : Prop where
  dictv : s.dictv = true
  len : s.len = 41
  aligned : s.src.toNat % 4 = 0
  source : s.holds s.src 164

/-- The checks `CLASSIFY` makes. -/
def classifyChecks (s : State) : List Check :=
  [ckNeeds s.dictv, ckUsage (s.len != wordOf Config.KC) s.len, ckAlign s.src, s.ckAddr s.src SPEC_BYTES]

theorem classifyChecks_pass (s : State) : Pass (classifyChecks s) ↔ s.ClassifyFits := by
  simp only [classifyChecks, pass_cons, pass_nil, and_true, ckNeeds_fails, ckUsage_fails, ckAlign_fails,
    State.ckAddr_fails, Bool.not_eq_false', bne_eq_false_iff_eq, State.inMemory_iff]
  exact ⟨fun ⟨h1, h2, h3, h4⟩ => ⟨h1, h2, h3, h4⟩, fun ⟨h1, h2, h3, h4⟩ => ⟨h1, h2, h3, h4⟩⟩

theorem State.beginError_classify {s : State} (h : s.beginError .classify = none) : s.ClassifyFits := by
  simp only [State.beginError] at h
  split_ifs at h with h1 h2 h3 h4
  exact ⟨h1, not_not.1 h2, not_not.1 h3, h4⟩

/-! ### Commands that write no memory -/

/-- `u` is `s` after its command has begun and read: only the copies of `P` and the choices for them differ, and nothing
is pending. -/
structure State.ReadFrom (s u : State) : Prop where
  only : u = { s with pview := u.pview, keeps := u.keeps }
  drained : u.pview.sb = []

theorem State.readFrom_of_work {s u : State} (hs : s.Ready) (h : Work .p s.beginCommand u) (hpregs : u.pregs = s.pregs)
    (hdraws : u.draws = s.draws) (hsb : u.pview.sb = s.pview.sb) : s.ReadFrom u := by
  refine ⟨?_, hsb.trans hs.1⟩
  have honly := h.only
  simp only [OnlyCore, hpregs, hdraws] at honly
  exact honly

/-- A spectrum read at command begin is that of shared storage. -/
theorem State.readWords_begun {s : State} (hs : s.Ready) (a n : Nat) :
    ∃ u, s.beginCommand.readWords .p a n = (s.mem.words a n, u) ∧ s.ReadFrom u := by
  obtain ⟨-, hbytes, -⟩ := s.beginCommand_spec hs.1
  obtain ⟨hwords, hwork, -, hregs, hdraws, hsb⟩ := s.beginCommand.readWords_spec .p a n hs.2
  rw [hbytes] at hwords
  exact ⟨_, Prod.ext hwords rfl, State.readFrom_of_work hs hwork hregs hdraws hsb⟩

theorem State.readPairs_begun {s : State} (hs : s.Ready) (a b n : Nat) :
    ∃ u, s.beginCommand.readPairs a b n = (s.mem.words a n, s.mem.words b n, u) ∧ s.ReadFrom u := by
  obtain ⟨-, hbytes, -⟩ := s.beginCommand_spec hs.1
  obtain ⟨hleft, hright, hwork, -, hregs, hdraws, hsb⟩ := s.beginCommand.readPairs_spec a b n hs.2
  rw [hbytes] at hleft hright
  exact ⟨_, Prod.ext hleft (Prod.ext hright rfl), State.readFrom_of_work hs hwork hregs hdraws hsb⟩

/-- How a command ends that has computed `v` in registers from what it read. -/
theorem State.ReadFrom.finish {s u v : State} (h : s.ReadFrom u) (hs : s.Ready)
    (hv : v = { u with
      resi := v.resi, resf := v.resf, best := v.best, bestd := v.bestd, pregs := v.pregs, draws := v.draws }) :
    v.finish.pview.sb = [] ∧ v.finish = { s.endedAs v.finish with
      resi := v.resi, resf := v.resf, best := v.best, bestd := v.bestd, pregs := v.pregs } := by
  have hsb : v.pview.sb = [] := by rw [hv]; exact h.drained
  have hd : v.disturbed = [] := by rw [hv, h.only]; exact hs.2
  have hend := v.finish_drained hd hsb
  refine ⟨by rw [hend]; exact hsb, ?_⟩
  have hnone : s.disturbed = [] := hs.2
  generalize v.finish = t at hend ⊢
  rw [hend, hv, h.only]
  simp only [State.endedAs, hnone]

/-! ### `DIST` (R137) -/

/-- `DIST` after its reads: the distance in `RESF` and `RE_P`. -/
def State.distanced (u : State) (d : Word) : State :=
  ({ u with pregs := { u.pregs with re := d }, resf := d } : State).draw DIST_DRAWS

theorem distanced_ends {s u : State} (hs : s.Ready) (h : s.ReadFrom u) (d : Word) :
    (u.distanced d).finish.pview.sb = [] ∧ (u.distanced d).finish =
      { s.endedAs (u.distanced d).finish with resf := d, pregs := { s.pregs with re := d } } := by
  obtain ⟨hsb, hframe⟩ := h.finish (v := u.distanced d) hs rfl
  refine ⟨hsb, hframe.trans ?_⟩
  generalize (u.distanced d).finish = t
  rw [h.only]
  rfl

theorem execDist_begun {s : State} (hs : s.Ready) (h : s.beginError .dist = none) :
    ∃ u, s.ReadFrom u ∧ exec .dist s = .next
      (u.distanced (distF s.draws (s.mem.words s.src.toNat 41) (s.mem.words s.aux.toNat 41))).finish := by
  obtain ⟨u, hread, hu⟩ := State.readPairs_begun hs s.beginCommand.src.toNat s.beginCommand.aux.toNat Config.KC
  have hpass := (distChecks_pass s.beginCommand).2 (State.beginError_dist (s := s.beginCommand) h)
  have hdraws : u.draws = s.draws := by rw [hu.only]
  refine ⟨u, hu, (show exec .dist s = execDist s from rfl).trans ?_⟩
  rw [execDist]
  refine (State.checked_passes (f := distChecks) hpass).trans ?_
  simp only [hread]
  rw [← hdraws]
  rfl

/-- Settles O38: the spectra read are those of shared storage, and nothing is pending when the command ends. -/
theorem distResult : Obligations.DistResult := by
  intro s hbegin hs
  obtain ⟨u, hu, hexec⟩ := execDist_begun hs hbegin
  obtain ⟨hsb, hframe⟩ := distanced_ends hs hu
    (distF s.draws (s.mem.words s.src.toNat 41) (s.mem.words s.aux.toNat 41))
  refine ⟨_, hexec, hsb, hframe.trans ?_⟩
  rw [hframe]

/-! ### `CLASSIFY` (R138) -/

/-- The nearest byte value with its distance, as `CLASSIFY` finds it for the spectrum `ws` in `s`. -/
def State.nearestTo (s : State) (ws : List Word) : Nat × Word := nearest (distances s.draws ws s.dict).toList

theorem nearestTo_isNearest (s : State) (ws : List Word) :
    IsNearest (distanceTo s.draws ws s.dict) (wordOf (s.nearestTo ws).1) (s.nearestTo ws).2 := by
  have h := nearest_isNearest (distances s.draws ws s.dict)
  rwa [funext (distances_get s.draws ws s.dict)] at h

theorem State.classifySpectrum_eq (u : State) (ws : List Word) :
    let b := u.nearestTo ws
    u.classifySpectrum ws = { u with
      best := wordOf b.1, bestd := b.2, resi := wordOf b.1, resf := b.2,
      pregs := { u.pregs with re := (u.classifySpectrum ws).pregs.re }, draws := (u.classifySpectrum ws).draws } := rfl

theorem classified_ends {s u : State} (hs : s.Ready) (h : s.ReadFrom u) (ws : List Word) {t : State}
    (ht : (u.classifySpectrum ws).finish = t) :
    t.pview.sb = [] ∧ t.resi = wordOf (s.nearestTo ws).1 ∧ t.resf = (s.nearestTo ws).2 ∧
      t = { s.endedAs t with
        resi := t.resi, resf := t.resf, best := t.resi, bestd := t.resf,
        pregs := { s.pregs with re := t.pregs.re } } := by
  have hfound : u.nearestTo ws = s.nearestTo ws := by rw [State.nearestTo, h.only]; rfl
  have hpregs : u.pregs = s.pregs := by rw [h.only]
  have heq := u.classifySpectrum_eq ws
  dsimp only at heq
  rw [hfound, hpregs] at heq
  generalize u.classifySpectrum ws = v at heq ht
  obtain ⟨hsb, hframe⟩ := h.finish (v := v) hs (by rw [heq])
  rw [ht] at hsb hframe
  have hresi : t.resi = wordOf (s.nearestTo ws).1 := by rw [hframe, heq]
  have hresf : t.resf = (s.nearestTo ws).2 := by rw [hframe, heq]
  have hre : t.pregs.re = v.pregs.re := by rw [hframe]
  refine ⟨hsb, hresi, hresf, ?_⟩
  rw [hresi, hresf, hre]
  refine hframe.trans ?_
  rw [heq]

theorem execClassify_begun {s : State} (hs : s.Ready) (h : s.beginError .classify = none) :
    ∃ u, s.ReadFrom u ∧ exec .classify s = .next (u.classifySpectrum (s.mem.words s.src.toNat 41)).finish := by
  obtain ⟨u, hread, hu⟩ := State.readWords_begun hs s.beginCommand.src.toNat Config.KC
  have hpass := (classifyChecks_pass s.beginCommand).2 (State.beginError_classify (s := s.beginCommand) h)
  refine ⟨u, hu, (show exec .classify s = execClassify s from rfl).trans ?_⟩
  rw [execClassify]
  refine (State.checked_passes (f := classifyChecks) hpass).trans ?_
  simp only [hread]
  rfl

/-! ### A spectrum that is in the dictionary (R141) -/

theorem f32Key_of_unsigned {a : Word} (ha : f32IsNaN a = false) (h : Unsigned a) : f32Key a = a.toNat := by
  have hsign : f32Sign a = false := h.resolve_left (by simp [ha])
  have hlt : ¬ 2 ^ 31 ≤ a.toNat := fun hle => by rw [(f32Sign_iff a).2 hle] at hsign; cases hsign
  rw [f32Key, hsign, BitVec.extractLsb'_toNat, Nat.shiftRight_zero, Nat.mod_eq_of_lt (not_le.1 hlt)]
  rfl

/-- +0 is the least of the data without a sign. -/
theorem eq_zero_of_unsigned {a : Word} (ha : f32IsNaN a = false) (h : Unsigned a) (hle : flt 0 a = false) : a = 0 := by
  by_contra hne
  have hpos : 0 < a.toNat := Nat.pos_of_ne_zero fun h0 => hne (BitVec.eq_of_toNat_eq h0)
  refine Bool.eq_false_iff.1 hle ((flt_iff 0 a).2 ⟨by decide, ha, ?_⟩)
  rw [f32Key_of_unsigned ha h]
  exact Int.natCast_pos.2 hpos

/-- Where some distance is +0, and none has a sign, the nearest is at +0, and at no higher byte value. -/
theorem IsNearest.of_zero {d : Fin 256 → Word} {best bestd : Word} (h : IsNearest d best bestd)
    (hd : ∀ u, Unsigned (d u)) {v : Fin 256} (hv : d v = 0) :
    bestd = 0 ∧ best.toNat ≤ v.val ∧ ((∀ u, u < v → d u ≠ 0) → best = wordOf v.val) := by
  have hbelow : flt 0 POS_INF = true := by decide
  rcases h with ⟨w, rfl, rfl, hinf, hleast, hlow⟩ | ⟨hnone, -, -⟩
  · have hzero : d w = 0 := eq_zero_of_unsigned ((flt_iff _ _).1 hinf).1 (hd w) (by rw [← hv]; exact hleast v)
    have hle : w ≤ v := not_lt.1 fun hvw => by
      have hnot := hlow v hvw
      rw [hv, hzero] at hnot
      exact absurd hnot (by decide)
    refine ⟨hzero, (toNat_wordOf (w.isLt.trans (by decide))).trans_le hle, fun hlower => ?_⟩
    rw [hle.eq_or_lt.resolve_right fun hlt => hlower w hlt hzero]
  · have hnot := hnone v
    rw [hv, hbelow] at hnot
    cases hnot

/-- Settles O40: the loop finds the least distance, which is +0 on an entry of the dictionary. -/
theorem classifyNearest : Obligations.ClassifyNearest := by
  intro s hbegin hs
  obtain ⟨u, hu, hexec⟩ := execClassify_begun hs hbegin
  obtain ⟨hsb, hresi, hresf, hframe⟩ := classified_ends hs hu (s.mem.words s.src.toNat 41) rfl
  have hnearest := nearestTo_isNearest s (s.mem.words s.src.toNat 41)
  rw [← hresi, ← hresf] at hnearest
  refine ⟨_, hexec, hsb, hframe, hnearest, fun v hentry hfinite => ?_⟩
  refine hnearest.of_zero (fun u => distF_unsigned _ _ _) ?_
  rw [distanceTo, ← hentry]
  exact distF_self _ hfinite

end Sys2Proof.Machine
end

section
/-! PROOFS. The laws of the rank order, and its first record (44_classifier.md rules R138, R139): the nearest byte value
ranks before every other. -/

namespace Sys2Proof.Machine

/-! ### A strict total order -/

theorem ranksBefore_irrefl (u : Nat) (x : Word) : ranksBefore u x u x = false := by
  rw [← Bool.not_eq_true, ranksBefore_iff]
  split_ifs with hx
  · exact fun h => lt_irrefl u h.2
  · rintro (h | h | ⟨-, h⟩)
    · exact hx h
    · exact lt_irrefl _ h
    · exact lt_irrefl u h

theorem ranksBefore_asymm {u v : Nat} {x y : Word} (h : ranksBefore u x v y = true) : ranksBefore v y u x = false := by
  rw [← Bool.not_eq_true]
  intro k
  have hself := ranksBefore_trans h k
  rw [ranksBefore_irrefl] at hself
  cases hself

theorem ranksBefore_iff_not {u v : Nat} (huv : u ≠ v) (x y : Word) :
    ranksBefore u x v y = true ↔ ranksBefore v y u x = false :=
  ⟨ranksBefore_asymm, fun h => ranksBefore_of_not huv.symm (Bool.eq_false_iff.1 h)⟩

theorem ranksBefore_nan (u v : Nat) {x y : Word} (hx : f32IsNaN x = false) (hy : f32IsNaN y = true) :
    ranksBefore u x v y = true := by
  rw [ranksBefore_iff, if_neg (by simp [hx])]
  exact .inl hy

/-! ### The first record -/

/-- A record of a sorted list that ranks before every other one is its first. -/
theorem head?_eq_of_ranksBefore {l : List (Nat × Word)} (hl : l.Pairwise RanksBefore) {b : Nat × Word} (hb : b ∈ l)
    (hfirst : ∀ r ∈ l, r ≠ b → RanksBefore b r) : l.head? = some b := by
  cases l with
  | nil => cases hb
  | cons r rs =>
    by_cases hr : r = b
    · rw [hr, List.head?_cons]
    · have hrs : b ∈ rs := (List.mem_cons.1 hb).resolve_left (Ne.symm hr)
      have hbefore : ranksBefore r.1 r.2 b.1 b.2 = true := (List.pairwise_cons.1 hl).1 b hrs
      exact absurd (hfirst r List.mem_cons_self hr) (Bool.eq_false_iff.1 (ranksBefore_asymm hbefore))

theorem mem_numbered_iff {ds : List Word} {r : Nat × Word} : r ∈ numbered 0 ds ↔ ds[r.1]? = some r.2 := by
  rw [List.mem_iff_getElem?]
  refine ⟨fun ⟨i, hi⟩ => ?_, fun h => ⟨r.1, ?_⟩⟩
  · rw [numbered_getElem?, Nat.zero_add] at hi
    obtain ⟨d, hd, rfl⟩ := Option.map_eq_some_iff.1 hi
    exact hd
  · rw [numbered_getElem?, h, Nat.zero_add]
    rfl

/-- The distance of byte value `u`. -/
def distanceAt (ds : List Word) (u : Nat) : Word := ds.getD u 0

theorem distanceAt_of_lt {ds : List Word} {u : Nat} (h : u < ds.length) : distanceAt ds u = ds[u] :=
  List.getD_eq_getElem _ _ h

/-- The records are the byte values, each with its distance. -/
theorem mem_ranked_iff {ds : List Word} {r : Nat × Word} :
    r ∈ ranked ds ↔ r.1 < ds.length ∧ distanceAt ds r.1 = r.2 := by
  rw [(ranked_perm ds).mem_iff, mem_numbered_iff, List.getElem?_eq_some_iff]
  exact ⟨fun ⟨hlt, hd⟩ => ⟨hlt, (distanceAt_of_lt hlt).trans hd⟩,
    fun ⟨hlt, hd⟩ => ⟨hlt, (distanceAt_of_lt hlt).symm.trans hd⟩⟩

/-- What the loop over any list of distances finds (R138). -/
theorem nearest_nearestBelow (ds : List Word) : NearestBelow (distanceAt ds) ds.length (nearest ds) := by
  have h := nearestFrom_nearestBelow (d := distanceAt ds) (ds := ds) (m := 0) (b := (0, POS_INF))
    (fun i hi => by rw [Nat.zero_add, distanceAt_of_lt hi]) (.inr ⟨fun u hu => absurd hu (Nat.not_lt_zero u), rfl⟩)
  rwa [Nat.zero_add] at h

/-- A distance that no other is below, and that no lower byte value has, ranks first. -/
theorem ranksBefore_of_least {b u : Nat} {x y : Word} (hne : u ≠ b) (hx : f32IsNaN x = false)
    (hleast : flt y x = false) (hlow : u < b → feq y x = false) : ranksBefore b x u y = true := by
  refine ranksBefore_of_not hne fun h => ?_
  simp only [ranksBefore, hx, hleast, Bool.and_false, Bool.false_and, Bool.or_false, Bool.false_or, Bool.and_eq_true,
    decide_eq_true_iff] at h
  obtain ⟨heq, hlt⟩ := h
  exact Bool.eq_false_iff.1 (hlow hlt) heq

theorem ranked_head? {ds : List Word} (h : ∃ d ∈ ds, flt d POS_INF = true) :
    (ranked ds).head? = some (nearest ds) := by
  rcases nearest_nearestBelow ds with ⟨hlt, hd, hinf, hleast, hlow⟩ | ⟨hnone, -⟩
  · refine head?_eq_of_ranksBefore (ranked_pairwise ds) (mem_ranked_iff.2 ⟨hlt, hd.symm⟩) fun r hr hne => ?_
    obtain ⟨hrlt, hdist⟩ := mem_ranked_iff.1 hr
    have hvalue : r.1 ≠ (nearest ds).1 := fun heq => hne (Prod.ext heq (by rw [← hdist, heq, hd]))
    refine ranksBefore_of_least hvalue ((flt_iff _ _).1 hinf).1 ?_ fun hbelow => ?_ <;> rw [← hdist]
    · exact hleast r.1 hrlt
    · exact hlow r.1 hbelow
  · obtain ⟨d, hd, hbelow⟩ := h
    obtain ⟨i, hi, rfl⟩ := List.getElem_of_mem hd
    rw [← distanceAt_of_lt hi, hnone i hi] at hbelow
    cases hbelow

/-- Settles O41: the first of the sorted records is the one that ranks before every other. -/
theorem rankOrderTotal : Obligations.RankOrderTotal :=
  ⟨ranksBefore_irrefl, fun _ x _ y huv => ranksBefore_iff_not huv x y, fun _ _ _ _ _ _ => ranksBefore_trans,
    fun u _ v _ => ranksBefore_nan u v, fun _ => ranked_head?⟩

end Sys2Proof.Machine
end

section
/-! PROOFS. Errors at command begin (30_encoding.md rule R85, 60_exceptions.md rules R150 to R160): the checks of all
fifteen commands as one function of the command, tied to `exec` and to the statements' `beginError`. -/

namespace Sys2Proof.Machine

/-- The code and detail word of the first check that fails (R159). -/
def firstError (cs : List Check) : Option (Code × Word) := (cs.find? (·.fails)).map fun c => (c.code, c.info)

@[simp] theorem firstError_nil : firstError [] = none := rfl

theorem firstError_cons (c : Check) (cs : List Check) :
    firstError (c :: cs) = if c.fails = true then some (c.code, c.info) else firstError cs := by
  cases h : c.fails <;> simp [firstError, List.find?, h]

/-! ### What each check reports -/

section
variable (s : State) (cs : List Check) (b : Word) (n : Nat)

@[simp] theorem firstError_ckRepeat (flag : Bool) :
    firstError (ckRepeat flag :: cs) = if flag = true then some (.state, 1) else firstError cs := firstError_cons _ cs

@[simp] theorem firstError_ckNeeds (flag : Bool) :
    firstError (ckNeeds flag :: cs) = if ¬ flag = true then some (.state, 0) else firstError cs := by
  rw [firstError_cons, ckNeeds_fails]
  cases flag <;> rfl

@[simp] theorem firstError_ckUsage (bad : Bool) :
    firstError (ckUsage bad b :: cs) = if bad = true then some (.usage, b) else firstError cs := firstError_cons _ cs

@[simp] theorem firstError_ckAlign :
    firstError (ckAlign b :: cs) = if b.toNat % 4 ≠ 0 then some (.align, b) else firstError cs := by
  simp only [firstError_cons, ckAlign_fails, bne_iff_ne]
  rfl

/-- The range check fails exactly where the buffer does not lie in memory (R49). -/
theorem State.not_inMemory_iff : (!s.inMemory b n) = true ↔ ¬ s.holds b n := by
  rw [Bool.not_eq_true', ← Bool.not_eq_true, State.inMemory_iff]

@[simp] theorem firstError_ckAddr :
    firstError (s.ckAddr b n :: cs) = if ¬ s.holds b n then some (.addr, b) else firstError cs := by
  simp only [firstError_cons, State.ckAddr_fails, State.not_inMemory_iff]
  rfl

@[simp] theorem firstError_ckAlloc :
    firstError (s.ckAlloc b n :: cs) = if ¬ s.holds b n then some (.alloc, b) else firstError cs := by
  simp only [firstError_cons, State.ckAlloc_fails, State.not_inMemory_iff]
  rfl

/-- The output check of `REPL` fails on a product of 2^32 or more too (R145). -/
@[simp] theorem firstError_ckReplAlloc : firstError (ckReplAlloc s :: cs) =
    if 2 ^ 32 ≤ s.len.toNat * s.cnt.toNat ∨ ¬ s.holds s.dst (s.len.toNat * s.cnt.toNat) then some (.alloc, s.dst)
    else firstError cs := by
  simp only [firstError_cons, ckReplAlloc, Bool.or_eq_true, decide_eq_true_iff, State.ckAlloc_fails,
    State.not_inMemory_iff]
  rfl

end

/-! ### The checks of every command -/

/-- The checks of a command, in order. -/
def beginChecks : Instr → State → List Check
  | .init, s => [ckRepeat s.initd]
  | .sin, s | .cos, s => [ckNeeds s.initd]
  | .magat, s => [ckNeeds s.initd, s.ckAddr s.src s.len.toNat]
  | .xform _, s | .xformp _, s => xformChecks s
  | .mag, s | .sqmag, s => magChecks s
  | .wlaunch, s => [ckRepeat s.wrun]
  | .lddict, s => [ckRepeat s.dictv, ckAlign s.src, s.ckAddr s.src IMAGE_BYTES]
  | .dist, s => distChecks s
  | .classify, s => classifyChecks s
  | .rank, s => [ckNeeds s.dictv, ckUsage (s.len != wordOf Config.KC) s.len,
      ckUsage (decide (Config.NDICT < s.cnt.toNat)) s.cnt, ckAlign s.src, ckAlign s.dst, s.ckAddr s.src SPEC_BYTES,
      s.ckAlloc s.dst (8 * s.cnt.toNat)]
  | .repl, s => [s.ckAddr s.src s.len.toNat, ckReplAlloc s]
  | .pipe _, s => [ckNeeds (s.initd && s.dictv), ckUsage (s.len != wordOf Config.PLEN) s.len, ckAlign s.dst,
      s.ckAddr s.src Config.PLEN, s.ckAlloc s.dst Config.WORK_BYTES]

/-- Every command begins with its checks. -/
theorem exec_checked (i : Instr) (s : State) : ∃ body, exec i s = s.checked (beginChecks i) body := by
  cases i <;>
    simp only [exec, execInit, execSin, execCos, execMagat, execXform, execXformp, execMag, execSqmag, execWlaunch,
      execLddict, execDist, execClassify, execRank, execRepl, execPipe] <;>
    exact ⟨_, rfl⟩

/-- The first check that fails reports the error the statements name. -/
theorem firstError_beginChecks (i : Instr) (s : State) : firstError (beginChecks i s) = s.beginError i := by
  have hlen : wordOf Config.KC = 41 := rfl
  have hpattern : wordOf Config.PLEN = 8 := rfl
  have hspectrum : SPEC_BYTES = 164 := rfl
  have himage : IMAGE_BYTES = 41984 := rfl
  have hvalues : Config.NDICT = 256 := rfl
  cases i with
  | init | wlaunch => exact firstError_ckRepeat [] _
  | sin | cos => exact (firstError_ckNeeds [] s.initd).trans (ite_not _ _ _)
  | magat | repl => simp [beginChecks, State.beginError]
  | xform g | xformp g => simp [beginChecks, xformChecks, State.beginError]
  | mag | sqmag => simp [beginChecks, magChecks, State.beginError]
  | lddict => simp [beginChecks, State.beginError, himage]
  | dist => simp [beginChecks, distChecks, State.beginError, hspectrum]
  | classify => simp [beginChecks, classifyChecks, State.beginError, hspectrum, hlen]
  | rank => simp [beginChecks, State.beginError, hspectrum, hvalues, hlen]
  | pipe m => simp [beginChecks, State.beginError, hpattern]

theorem State.beginError_beginCommand (i : Instr) (s : State) : s.beginCommand.beginError i = s.beginError i := by
  cases i <;> rfl

/-- Settles O13: the first failing check is the error `beginError` names, and it ends the command. -/
theorem errorsAtBegin : Obligations.ErrorsAtBegin := by
  intro i s e info herror
  obtain ⟨body, hexec⟩ := exec_checked i s
  rw [← State.beginError_beginCommand, ← firstError_beginChecks] at herror
  obtain ⟨c, hfind, hc⟩ := Option.map_eq_some_iff.1 herror
  cases hc
  exact hexec.trans (State.checked_fails hfind)

end Sys2Proof.Machine
end

section
/-! PROOFS. How `REPL`, `XFORM`, `SQMAG` and `CLASSIFY` end, each on plain memory and with its draws (30_encoding.md rule
R86), and the result of `REPL` (45_pipeline.md rule R145). -/

namespace Sys2Proof.Machine

/-! ### Commands that write one buffer -/

/-- `t` is how a command begun in `s` ends that has computed `u` and puts `k` in `RESI`. -/
structure State.EndsWith (s u t : State) (k : Word) : Prop where
  frame : t = { s.endedAs t with resi := k, mem := t.mem, pregs := u.pregs }
  canonical : t.mem.wf = true
  drained : t.pview.sb = []
  bytes : t.mem.read = u.coreByte .p
  draws : t.draws = u.draws

theorem Work.endsWith {s u : State} (h : Work .p s.beginCommand u) (hs : s.Ready) (hw : s.mem.wf = true) (k : Word) :
    s.EndsWith u ({ u with resi := k } : State).finish k := by
  obtain ⟨hfresh, -, hfree⟩ := s.beginCommand_spec hs.1
  have honly := h.only
  have hj : JobFree u.pview.sb := h.jobFree hfree
  have hd : u.disturbed = [] := honly.disturbed.trans hs.2
  obtain ⟨hread, hwf, hsb⟩ := State.finish_stores (v := { u with resi := k }) hs hw honly.mem honly.disturbed
    (h.fresh hfresh) hj
  simp only [OnlyCore] at honly
  have hrd : u.rd = s.rd := by rw [honly]; rfl
  have hframe := State.finish_endedAs (v := { u with resi := k }) hs (by rw [honly]) hj
  have hdraws : ({ u with resi := k } : State).finish.draws = u.draws := by simp [hd]
  refine ⟨?_, hwf, hsb, hread, hdraws⟩
  generalize ({ u with resi := k } : State).finish = t at hframe ⊢
  refine hframe.trans ?_
  simp only [hrd]
  rfl

/-! ### Replicate on plain memory -/

/-- Bytes copied away from where they are read. -/
theorem plainCopy_byte {src dst n : Nat} (h : src + n ≤ dst ∨ dst + n ≤ src) (x : Bytes) {j : Nat} (hj : j < n) :
    plainCopy src dst n x (dst + j) = x (src + j) := by
  induction n generalizing src dst x j with
  | zero => omega
  | succ n ih =>
    rw [plainCopy]
    cases j with
    | zero =>
      rw [plainCopy_eqOff _ (dst + 1) n _ (dst + 0) (by omega)]
      exact if_pos rfl
    | succ j =>
      have hrest := ih (src := src + 1) (dst := dst + 1) (by omega) (x.putByte dst (x src)) (j := j) (by omega)
      rw [Bytes.putByte_other _ _ _ _ (by omega)] at hrest
      rwa [show dst + (j + 1) = dst + 1 + j by omega, show src + (j + 1) = src + 1 + j by omega]

/-- A pattern replicated away from itself: copy `k` of it stands behind those before it. -/
theorem plainReplicate_byte {src n dst r : Nat} (h : src + n ≤ dst ∨ dst + n * r ≤ src) (x : Bytes) {k j : Nat}
    (hk : k < r) (hj : j < n) : plainReplicate src n dst r x (dst + n * k + j) = x (src + j) := by
  induction r generalizing dst x k with
  | zero => omega
  | succ r ih =>
    rw [Nat.mul_succ] at h
    rw [plainReplicate]
    cases k with
    | zero =>
      rw [plainReplicate_eqOff src n (dst + n) r _ _ (by omega)]
      exact plainCopy_byte (by omega) x hj
    | succ k =>
      have hrest := ih (dst := dst + n) (by omega) (plainCopy src dst n x) (k := k) (by omega)
      rw [plainCopy_eqOff src dst n x (src + j) (by omega)] at hrest
      rwa [show dst + n * (k + 1) + j = dst + n + n * k + j by rw [Nat.mul_succ]; omega]

/-! ### REPL -/

theorem State.beginError_repl (s : State) : s.beginError .repl = none ↔ s.ReplFits := by
  refine ⟨fun h => ?_, fun ⟨h1, h2, h3⟩ => by simp only [State.beginError, h1, h3, not_le.2 h2]; rfl⟩
  simp only [State.beginError] at h
  split_ifs at h with h1 h2
  obtain ⟨hsize, hout⟩ := not_or.1 h2
  exact ⟨h1, not_le.1 hsize, not_not.1 hout⟩

theorem execRepl_ends {s : State} (hbegin : s.beginError .repl = none) (hs : s.Ready) (hw : s.mem.wf = true) :
    ∃ u t, exec .repl s = .next t ∧ s.EndsWith u t (wordOf (s.len.toNat * s.cnt.toNat)) ∧ u.pregs = s.pregs ∧
      u.draws = s.draws ∧
      u.coreByte .p = plainReplicate s.src.toNat s.len.toNat s.dst.toNat s.cnt.toNat s.mem.read := by
  obtain ⟨hfresh, hbytes, -⟩ := s.beginCommand_spec hs.1
  obtain ⟨hwork, hdraws, hpregs, hplain⟩ := s.beginCommand.replicate_spec s.src.toNat s.dst.toNat s.len.toNat
    s.cnt.toNat hfresh hs.2
  rw [hbytes] at hplain
  have hpass := (replChecks_pass s.beginCommand).2 ((State.beginError_repl s.beginCommand).1 hbegin)
  have hexec : exec .repl s = .next ({ s.beginCommand.replicate s.src.toNat s.dst.toNat s.len.toNat s.cnt.toNat with
      resi := wordOf (s.len.toNat * s.cnt.toNat) } : State).finish := by
    rw [show exec .repl s = execRepl s from rfl, execRepl]
    exact (State.checked_passes (f := fun s => [s.ckAddr s.src s.len.toNat, ckReplAlloc s]) hpass).trans rfl
  exact ⟨_, _, hexec, hwork.endsWith hs hw _, hpregs, hdraws, hplain⟩

/-- Settles O43: `REPL` is replication on plain memory. -/
theorem replicateResult : Obligations.ReplicateResult := by
  intro s hbegin hs hw
  obtain ⟨u, t, hexec, hend, hpregs, -, hplain⟩ := execRepl_ends hbegin hs hw
  have hread := hend.bytes.trans hplain
  have hframe := hend.frame
  rw [hpregs] at hframe
  refine ⟨t, hexec, hframe, hend.canonical, hend.drained, fun a ha => ?_, fun a => congrFun hread a,
    fun hdis r j hr hj => ?_⟩
  · rw [hread]
    exact plainReplicate_eqOff _ _ _ _ _ a ha
  · have hsize : s.len.toNat * s.cnt.toNat ≠ 0 := Nat.mul_ne_zero (by omega) (by omega)
    rw [hread]
    exact plainReplicate_byte (by omega) s.mem.read hr hj

/-! ### XFORM and SQMAG -/

/-- A transform whose bins all have a value on plain memory leaves those bins. -/
theorem State.transform_of_plainBins {s : State} {c : CoreId} {j : Job} {x : Bytes} (hf : (s.view c).fresh s.mem)
    (hd : s.disturbed = [])
    (hx : plainBins s.sintab s.costab j.g j.sig.toNat j.n.toNat j.kt j.out.toNat s.draws (j.k1.toNat - j.k0.toNat)
      j.k0.toNat (s.coreByte c) = some x) :
    ∃ t, s.transform c j = .ok t ∧ Work c s t ∧ t.coreByte c = x ∧
      t.draws = s.draws + (OMEGA_DRAWS + SAMPLE_DRAWS * j.n.toNat) * (j.k1.toNat - j.k0.toNat) := by
  have hspec := s.transform_spec c j hf hd
  rwa [hx] at hspec

theorem execXform_ends {g : Grid} {s : State} (hbegin : s.beginError (.xform g) = none) (hs : s.Ready)
    (hw : s.mem.wf = true) :
    ∃ x u t, exec (.xform g) s = .next t ∧ s.EndsWith u t s.cnt ∧
      plainBins s.sintab s.costab g s.src.toNat s.len.toNat s.cnt s.dst.toNat s.draws s.cnt.toNat 0 s.mem.read =
        some x ∧
      u.coreByte .p = x ∧ u.draws = s.draws + (OMEGA_DRAWS + SAMPLE_DRAWS * s.len.toNat) * s.cnt.toNat := by
  obtain ⟨x, hx, -⟩ := plainBins_left (S := s.sintab) (C := s.costab) g s.src.toNat s.cnt s.dst.toNat s.draws
    (m := s.cnt.toNat) (k := 0) s.len.isLt.le (by omega) s.mem.read
  obtain ⟨hfresh, hbytes, -⟩ := s.beginCommand_spec hs.1
  obtain ⟨u, hu, hwork, hubytes, hudraws⟩ := State.transform_of_plainBins (c := .p) (j := serialJob s.beginCommand g)
    hfresh hs.2 (by rw [hbytes]; exact hx)
  have hpass := (xformChecks_pass s.beginCommand).2 ((State.beginError_xform s.beginCommand g).1 hbegin)
  have hexec : exec (.xform g) s = .next ({ u with resi := s.cnt } : State).finish := by
    rw [show exec (.xform g) s = execXform g s from rfl, execXform, State.checked_passes hpass, hu]
    rfl
  exact ⟨x, u, _, hexec, hwork.endsWith hs hw _, hx, hubytes, hudraws⟩

theorem execSqmag_ends {s : State} (hbegin : s.beginError .sqmag = none) (hs : s.Ready) (hw : s.mem.wf = true) :
    ∃ u t, exec .sqmag s = .next t ∧ s.EndsWith u t s.cnt ∧ u.draws = s.draws + MAG_DRAWS * s.cnt.toNat ∧
      u.coreByte .p = plainMags sqmagOf s.src.toNat s.dst.toNat s.draws s.cnt.toNat 0 s.mem.read := by
  obtain ⟨hfresh, hbytes, -⟩ := s.beginCommand_spec hs.1
  obtain ⟨hwork, hdraws, hplain⟩ := s.beginCommand.magSpectrum_spec sqmagOf s.src.toNat s.dst.toNat s.cnt.toNat
    hfresh hs.2 s.cnt.isLt.le
  rw [hbytes] at hplain
  exact ⟨_, _, execMag_passes hbegin sqmagOf, hwork.endsWith hs hw _, hdraws, hplain⟩

/-! ### CLASSIFY -/

/-- `CLASSIFY` ends on the nearest byte value, with memory as it was. -/
theorem execClassify_ends {s : State} (hbegin : s.beginError .classify = none) (hs : s.Ready) :
    ∃ t, exec .classify s = .next t ∧ t.code = .ok ∧ t.mem = s.mem ∧
      t.resi = wordOf (s.nearestTo (s.mem.words s.src.toNat 41)).1 ∧
      t.resf = (s.nearestTo (s.mem.words s.src.toNat 41)).2 := by
  obtain ⟨u, hu, hexec⟩ := execClassify_begun hs hbegin
  obtain ⟨-, hresi, hresf, hframe⟩ := classified_ends hs hu (s.mem.words s.src.toNat 41) rfl
  exact ⟨_, hexec, (congrArg State.code hframe).trans rfl, (congrArg State.mem hframe).trans rfl, hresi, hresf⟩

end Sys2Proof.Machine
end

section
/-! PROOFS. Serial `PIPE` against the four commands it stands for (45_pipeline.md rule R147). -/

namespace Sys2Proof.Machine

/-! ### What one command leaves for the next -/

/-- `t` is ready for the next command, with the tables, dictionary and memory size of `s`. -/
structure State.LeadsTo (s t : State) : Prop where
  ready : t.Ready
  canonical : t.mem.wf = true
  initd : t.initd = s.initd
  dictv : t.dictv = s.dictv
  sintab : t.sintab = s.sintab
  costab : t.costab = s.costab
  dict : t.dict = s.dict
  memTop : t.memTop = s.memTop

/-- The host writes operand registers between commands. -/
theorem State.LeadsTo.operands {s t : State} (h : s.LeadsTo t) (src len cnt dst : Word) :
    s.LeadsTo { t with src := src, len := len, cnt := cnt, dst := dst } :=
  ⟨h.ready, h.canonical, h.initd, h.dictv, h.sintab, h.costab, h.dict, h.memTop⟩

theorem State.LeadsTo.trans {s t u : State} (h : s.LeadsTo t) (k : t.LeadsTo u) : s.LeadsTo u :=
  ⟨k.ready, k.canonical, k.initd.trans h.initd, k.dictv.trans h.dictv, k.sintab.trans h.sintab,
    k.costab.trans h.costab, k.dict.trans h.dict, k.memTop.trans h.memTop⟩

theorem State.LeadsTo.memBytes {s t : State} (h : s.LeadsTo t) : t.memBytes = s.memBytes := by
  rw [State.memBytes, h.memTop]; rfl

theorem State.EndsWith.leadsTo {s u t : State} {k : Word} (h : s.EndsWith u t k) : s.LeadsTo t where
  ready := ⟨h.drained, congrArg State.disturbed h.frame⟩
  canonical := h.canonical
  initd := (congrArg State.initd h.frame).trans rfl
  dictv := (congrArg State.dictv h.frame).trans rfl
  sintab := (congrArg State.sintab h.frame).trans rfl
  costab := (congrArg State.costab h.frame).trans rfl
  dict := (congrArg State.dict h.frame).trans rfl
  memTop := (congrArg State.memTop h.frame).trans rfl

theorem State.EndsWith.code {s u t : State} {k : Word} (h : s.EndsWith u t k) : t.code = .ok :=
  congrArg State.code h.frame

/-! ### The four commands begin on the buffers of the work area (R146) -/

/-- Where the two spectra of the work area stand (R146). -/
theorem State.PipeFits.workArea {s : State} (h : s.PipeFits) :
    (s.dst + 0x50).toNat = s.dst.toNat + 0x50 ∧ (s.dst + 0x198).toNat = s.dst.toNat + 0x198 :=
  workArea_toNat (h.output.trans s.memBytes_le)

theorem State.PipeFits.beginRepl {s : State} (h : s.PipeFits) :
    State.beginError { s with cnt := 10 } .repl = none := by
  have hsize : s.len.toNat * (10 : Word).toNat = 80 := by rw [h.len]; rfl
  have hsource : s.holds s.src s.len.toNat := by rw [h.len]; exact h.source
  have hout : s.dst.toNat + 80 ≤ s.memBytes := Nat.le_trans (by omega) h.output
  refine (State.beginError_repl _).2 ⟨hsource, ?_, ?_⟩
  · show s.len.toNat * (10 : Word).toNat < 2 ^ 32
    rw [hsize]
    decide
  · show s.holds s.dst (s.len.toNat * (10 : Word).toNat)
    rw [hsize]
    exact .inr hout

theorem State.PipeFits.beginXform {s t : State} (h : s.PipeFits) (ht : s.LeadsTo t) :
    State.beginError { t with src := s.dst, len := 80, cnt := 41, dst := s.dst + 0x50 } (.xform .half) = none := by
  obtain ⟨hspectrum, -⟩ := h.workArea
  have hmem := ht.memBytes
  have hout := h.output
  have haligned := h.aligned
  refine (State.beginError_xform _ _).2 ⟨ht.initd.trans h.initd, ?_, .inr ?_, .inr ?_⟩
  · show (s.dst + 0x50).toNat % 4 = 0
    omega
  · show s.dst.toNat + 80 ≤ t.memBytes
    omega
  · show (s.dst + 0x50).toNat + 8 * 41 ≤ t.memBytes
    omega

theorem State.PipeFits.beginSqmag {s t : State} (h : s.PipeFits) (ht : s.LeadsTo t) :
    State.beginError { t with src := s.dst + 0x50, cnt := 41, dst := s.dst + 0x198 } .sqmag = none := by
  obtain ⟨hspectrum, hsquares⟩ := h.workArea
  have hmem := ht.memBytes
  have hout := h.output
  have haligned := h.aligned
  refine (State.beginError_mag _).2 ⟨?_, ?_, .inr ?_, .inr ?_⟩
  · show (s.dst + 0x50).toNat % 4 = 0
    omega
  · show (s.dst + 0x198).toNat % 4 = 0
    omega
  · show (s.dst + 0x50).toNat + 8 * 41 ≤ t.memBytes
    omega
  · show (s.dst + 0x198).toNat + 4 * 41 ≤ t.memBytes
    omega

theorem State.beginError_classify_iff (s : State) : s.beginError .classify = none ↔ s.ClassifyFits :=
  ⟨State.beginError_classify, fun ⟨h1, h2, h3, h4⟩ => by simp only [State.beginError, h1, h2, h3, h4]; rfl⟩

theorem State.PipeFits.beginClassify {s t : State} (h : s.PipeFits) (ht : s.LeadsTo t) :
    State.beginError { t with src := s.dst + 0x198, len := 41 } .classify = none := by
  obtain ⟨-, hsquares⟩ := h.workArea
  have hmem := ht.memBytes
  have hout := h.output
  have haligned := h.aligned
  refine (State.beginError_classify_iff _).2 ⟨ht.dictv.trans h.dictv, rfl, ?_, .inr ?_⟩
  · show (s.dst + 0x198).toNat % 4 = 0
    omega
  · show (s.dst + 0x198).toNat + 164 ≤ t.memBytes
    omega

/-! ### The four commands on the work area -/

theorem State.PipeFits.exec_repl {s : State} (h : s.PipeFits) (hs : s.Ready) (hw : s.mem.wf = true) :
    ∃ a, exec .repl { s with cnt := 10 } = .next a ∧ a.code = .ok ∧ s.LeadsTo a ∧ a.draws = s.draws ∧
      a.mem.read = plainReplicate s.src.toNat 8 s.dst.toNat 10 s.mem.read := by
  obtain ⟨u, a, hexec, hend, -, hdraws, hbytes⟩ := execRepl_ends h.beginRepl hs hw
  have hlen : s.len.toNat = 8 := by rw [h.len]; rfl
  have hlead : s.LeadsTo { s with cnt := 10 } := ⟨hs, hw, rfl, rfl, rfl, rfl, rfl, rfl⟩
  refine ⟨a, hexec, hend.code, hlead.trans hend.leadsTo, hend.draws.trans hdraws, (hend.bytes.trans hbytes).trans ?_⟩
  show plainReplicate s.src.toNat s.len.toNat s.dst.toNat 10 s.mem.read = _
  rw [hlen]

theorem State.PipeFits.exec_xform {s a : State} (h : s.PipeFits) (ha : s.LeadsTo a) :
    ∃ x b, exec (.xform .half) { a with src := s.dst, len := 80, cnt := 41, dst := s.dst + 0x50 } = .next b ∧
      b.code = .ok ∧ s.LeadsTo b ∧
      plainBins s.sintab s.costab .half s.dst.toNat 80 41 (s.dst.toNat + 0x50) a.draws 41 0 a.mem.read = some x ∧
      b.mem.read = x ∧ b.draws = a.draws + (OMEGA_DRAWS + SAMPLE_DRAWS * 80) * 41 := by
  obtain ⟨x, u, b, hexec, hend, hx, hbytes, hdraws⟩ := execXform_ends (h.beginXform ha) ha.ready ha.canonical
  have hx' : plainBins a.sintab a.costab .half s.dst.toNat 80 41 (s.dst + 0x50).toNat a.draws 41 0 a.mem.read =
      some x := hx
  rw [ha.sintab, ha.costab, h.workArea.1] at hx'
  exact ⟨x, b, hexec, hend.code, (ha.operands _ _ _ _).trans hend.leadsTo, hx', hend.bytes.trans hbytes,
    hend.draws.trans hdraws⟩

theorem State.PipeFits.exec_sqmag {s b : State} (h : s.PipeFits) (hb : s.LeadsTo b) :
    ∃ c, exec .sqmag { b with src := s.dst + 0x50, cnt := 41, dst := s.dst + 0x198 } = .next c ∧ c.code = .ok ∧
      s.LeadsTo c ∧ c.mem.read = pipeBytes b.draws s.dst.toNat b.mem.read ∧
      c.draws = b.draws + MAG_DRAWS * Config.KC := by
  obtain ⟨u, c, hexec, hend, hdraws, hbytes⟩ := execSqmag_ends (h.beginSqmag hb) hb.ready hb.canonical
  obtain ⟨hspectrum, hsquares⟩ := h.workArea
  refine ⟨c, hexec, hend.code, (hb.operands _ _ _ _).trans hend.leadsTo, (hend.bytes.trans hbytes).trans ?_,
    hend.draws.trans hdraws⟩
  show plainMags sqmagOf (s.dst + 0x50).toNat (s.dst + 0x198).toNat b.draws 41 0 b.mem.read = _
  rw [hspectrum, hsquares]
  rfl

theorem State.PipeFits.exec_classify {s c : State} (h : s.PipeFits) (hc : s.LeadsTo c) :
    let r := nearest (distances c.draws (squaresOf s.dst.toNat c.mem.read) s.dict).toList
    ∃ d, exec .classify { c with src := s.dst + 0x198, len := 41 } = .next d ∧ d.code = .ok ∧ d.mem = c.mem ∧
      d.resi = wordOf r.1 ∧ d.resf = r.2 := by
  obtain ⟨d, hexec, hcode, hmem, hresi, hresf⟩ := execClassify_ends (h.beginClassify hc) hc.ready
  have hwords : c.mem.words (s.dst + 0x198).toNat 41 = squaresOf s.dst.toNat c.mem.read := by
    rw [h.workArea.2]
    rfl
  have hnearest : State.nearestTo { c with src := s.dst + 0x198, len := 41 } (c.mem.words (s.dst + 0x198).toNat 41) =
      nearest (distances c.draws (squaresOf s.dst.toNat c.mem.read) s.dict).toList := by
    rw [hwords, ← hc.dict]
    rfl
  exact ⟨d, hexec, hcode, hmem, hresi.trans (congrArg (wordOf ·.1) hnearest), hresf.trans (congrArg Prod.snd hnearest)⟩

/-- Settles O45: each command goes on from the bytes and the draw number that the step of `PIPE` before it leaves. -/
theorem pipeIsFourCommands : Obligations.PipeIsFourCommands := by
  intro s hbegin hs hw
  have hfits := (State.beginError_pipe s .serial).1 hbegin
  obtain ⟨x, t, hx, -, ht, htwf, -, htread, htresi, htresf, htframe⟩ := pipeSerial_spec hbegin hs hw
  obtain ⟨a, ha, hacode, hsa, hadraws, haread⟩ := hfits.exec_repl hs hw
  obtain ⟨y, b, hb, hbcode, hsb, hy, hbread, hbdraws⟩ := hfits.exec_xform hsa
  obtain ⟨c, hc, hccode, hsc, hcread, hcdraws⟩ := hfits.exec_sqmag hsb
  obtain ⟨d, hd, hdcode, hdmem, hdresi, hdresf⟩ := hfits.exec_classify hsc
  rw [hadraws, haread, hx] at hy
  cases hy
  rw [hadraws] at hbdraws
  rw [hbread, hbdraws] at hcread
  rw [hbdraws] at hcdraws
  rw [hcdraws, hcread] at hdresi hdresf
  have htmem : t.mem = d.mem := by
    rw [hdmem]
    exact Memory.ext_read htwf hsc.canonical fun i => by rw [htread, hcread]
  exact ⟨a, b, c, d, t, ha, hb, hc, hd, ht, hacode, hbcode, hccode, hdcode, (congrArg State.code htframe).trans rfl,
    htmem, htresi.trans hdresi.symm, htresf.trans hdresf.symm⟩

end Sys2Proof.Machine
end

section
/-! PROOFS. How a command ends in error (60_exceptions.md rules R150 to R161): at its begin, on the state it found. -/

namespace Sys2Proof.Machine

/-! ### Illegal words -/

/-- The decoder rejects every word that R77 does not list. -/
theorem decode_of_not_legal {w : Word} (h : w ∉ legalWords) : ∃ e, decode w = .error e := by
  cases hd : decode w with
  | ok i => exact absurd (mem_legalWords_of_decode hd) h
  | error e => exact ⟨e, rfl⟩

/-- What `P` does with a word the decoder rejects (R153). -/
theorem producerStep_of_decode_error {s : State} {e : Illegal} (hp : s.pstage = .begin)
    (hd : decode s.cmdr = .error e) : producerStep s = .next (s.failedAs .illegal s.cmdr s.draws) := by
  simp only [producerStep, hp, hd]
  rfl

/-- What `P` does with a word the decoder accepts (R85). -/
theorem producerStep_of_decode_ok {s : State} {i : Instr} (hp : s.pstage = .begin) (hd : decode s.cmdr = .ok i) :
    producerStep s = exec i s := by
  simp only [producerStep, hp, hd]

/-- Settles O5. -/
theorem illegalWordEnds : Obligations.IllegalWordEnds := by
  intro s ks ts hturn hbegin hword
  obtain ⟨e, hdecode⟩ := decode_of_not_legal hword
  rw [step_of_turns hturn]
  exact producerStep_of_decode_error (s := { s with turns := ts, keeps := ks }) hbegin hdecode

/-! ### Precise errors (R161) -/

/-- A next state without code 0 is `s` with an error end and nothing else. -/
def Precise (s : State) (o : Host.Outcome State Fault Refusal) : Prop :=
  ∀ t, o = .next t → t.code = .ok ∨ ∃ e info n, t = s.failedAs e info n

theorem precise_of_code {s t : State} (h : t.code = .ok) : Precise s (.next t) := by
  intro u hu; cases hu; exact .inl h

theorem precise_finish (s u : State) : Precise s (.next u.finish) := precise_of_code rfl

theorem precise_failedAs (s : State) (e : Code) (info : Word) (n : Nat) : Precise s (.next (s.failedAs e info n)) := by
  intro u hu; cases hu; exact .inr ⟨e, info, n, rfl⟩

/-- The checks come before any effect (R159), so only what follows them is left to look at. -/
theorem State.checked_precise {s : State} {f : State → List Check} {body : State → Host.Outcome State Fault Refusal}
    (h : Precise s (body s.beginCommand)) : Precise s (s.checked f body) := by
  rcases s.checked_cases f body with ⟨c, -, hc⟩ | ⟨-, hc⟩ <;> rw [hc]
  · exact precise_failedAs s _ _ _
  · exact h

theorem answerLookup_precise (s : State) (r : Option Word) : Precise s (answerLookup s.beginCommand r) := by
  cases r with
  | none => exact precise_failedAs s _ _ _
  | some v => exact precise_finish s _

/-- A computation that a lookup stops is discarded, the draws aside (R94, R157). -/
theorem orNum_precise {s : State} {r : Except Angle State} {k : State → Host.Outcome State Fault Refusal}
    (h : ∀ u, Precise s (k u)) : Precise s (orNum s.beginCommand r k) := by
  cases r with
  | ok u => exact h u
  | error e => exact precise_failedAs s _ _ _

theorem pipeBody_precise (m : PipeMode) {s : State} (h : s.code = .ok) : Precise s (pipeBody m s.beginCommand) := by
  cases m with
  | serial => exact orNum_precise fun _ => precise_finish s _
  | parallel =>
    have hcode := (CoreDoes.replicate s.beginCommand s.src.toNat s.dst.toNat Config.PLEN Config.REP).same.code
    exact precise_of_code ((State.publish_code _ _ _).trans (hcode.trans h))

/-- After its checks a command can fail only where a lookup stops it (R94), and then its work is discarded. -/
theorem exec_precise (i : Instr) {s : State} (h : s.code = .ok) : Precise s (exec i s) := by
  unfold exec
  cases i with
  | sin | cos => exact State.checked_precise (answerLookup_precise s _)
  | magat | xform g => exact State.checked_precise (orNum_precise fun _ => precise_finish s _)
  | pipe m => exact State.checked_precise (pipeBody_precise m h)
  | xformp g => exact State.checked_precise (precise_of_code h)
  | init | mag | sqmag | wlaunch | lddict | dist | classify | rank | repl =>
    exact State.checked_precise (precise_finish s _)

/-- `P` ends a command with an error at command begin or not at all. -/
theorem begin_of_producerStep_code {s t : State} (hs : s.code = .ok) (ht : producerStep s = .next t)
    (hcode : t.code ≠ .ok) : s.pstage = .begin := by
  cases producerStep_answers s t ht with
  | rests => exact absurd hs hcode
  | fails hbegun => exact hbegun.atBegin
  | goesOn hd => exact absurd (hd.same.code.trans hs) hcode
  | ends | fills | loads | launches => exact absurd rfl hcode

theorem producerStep_precise {s : State} (hs : s.code = .ok) (hp : s.pstage = .begin) : Precise s (producerStep s) := by
  cases hd : decode s.cmdr with
  | ok i =>
    rw [producerStep_of_decode_ok hp hd]
    exact exec_precise i hs
  | error e =>
    rw [producerStep_of_decode_error hp hd]
    exact precise_failedAs s _ _ _

/-- Settles O15: an error comes at command begin, where the checks change nothing and a stopped lookup's work is
discarded. -/
theorem errorsArePrecise : Obligations.ErrorsArePrecise := by
  intro s t hs ht hcode
  have hp := begin_of_producerStep_code hs ht hcode
  refine ⟨hp, ?_⟩
  rcases producerStep_precise hs hp t ht with hok | ⟨e, info, n, rfl⟩
  · exact absurd hok hcode
  · rfl

end Sys2Proof.Machine
end

section
/-! PROOFS. What a soft reset leaves in memory (70_reset_and_hazards.md rules R175, R176; 93_implementation_defined.md U3):
a reset picks each byte from the memory it finds and the memory to come, so a byte that the abandoned command leaves alone
is left alone. That a command leaves every byte outside its destination alone is read off its writes, one loop at a
time. -/

namespace Sys2Proof.Machine

/-! ### The reset -/

/-- Bytes put one after another: a byte reads as one of the values put there, or as before. -/
theorem Memory.read_writeAll_cases (cs : List Host.Cell) (a : Nat) {m : Memory} (hw : m.wf = true) :
    (∃ c ∈ cs, c.1 = a ∧ (m.writeAll cs).read a = c.2) ∨ (m.writeAll cs).read a = m.read a := by
  induction cs generalizing m with
  | nil => exact .inr rfl
  | cons c cs ih =>
    rcases ih (Memory.wf_write c.1 c.2 hw) with ⟨d, hd, hda, hread⟩ | hread
    · exact .inl ⟨d, List.mem_cons_of_mem c hd, hda, hread⟩
    · by_cases hca : a = c.1
      · exact .inl ⟨c, List.mem_cons_self, hca.symm,
          hread.trans ((Memory.read_write c.1 a c.2 hw).trans (if_pos hca))⟩
      · exact .inr (hread.trans ((Memory.read_write c.1 a c.2 hw).trans (if_neg hca)))

/-- A byte of a memory partly overwritten is the old one or the new one (R176). -/
theorem Memory.read_partly {m : Memory} (new : Memory) (n a : Nat) (hw : m.wf = true) :
    (m.partly new n).read a = m.read a ∨ (m.partly new n).read a = new.read a := by
  rw [Memory.partly]
  generalize hcs : List.filterMap _ _ = cs
  rcases Memory.read_writeAll_cases cs a hw with ⟨c, hc, rfl, hread⟩ | hread
  · rw [← hcs] at hc
    obtain ⟨d, -, hd⟩ := List.mem_filterMap.1 hc
    split at hd <;> cases hd
    exact .inr hread
  · exact .inl hread

/-- Where nothing is to change, nothing is overwritten. -/
theorem Memory.partly_self (m : Memory) (n : Nat) : m.partly m n = m := by
  have hnone : (m.cells ++ m.cells).filterMap (fun c =>
      if m.read c.1 != m.read c.1 && Config.landed n c.1 then some (c.1, m.read c.1) else none) = [] :=
    List.filterMap_eq_nil_iff.2 fun c _ => by simp
  rw [Memory.partly, hnone]
  rfl

section
variable {s : State}

theorem State.memoryToCome_begin {i : Instr} {t : State} (hp : s.pstage = .begin) (hd : decode s.cmdr = .ok i)
    (ht : exec i s = .next t) : s.memoryToCome = (t.fenceRel .p).mem := by
  simp only [State.memoryToCome, hp, hd, ht]

theorem State.memoryToCome_tail (hp : s.pstage = .tail) : s.memoryToCome = (pipeTail s).mem := by
  simp only [State.memoryToCome, hp]

/-- `P` is about to carry out no command. -/
theorem State.memoryToCome_none (hbegin : s.pstage = .begin → ∃ e, decode s.cmdr = .error e) (htail : s.pstage ≠ .tail) :
    s.memoryToCome = s.mem := by
  unfold State.memoryToCome
  split
  · next hp =>
    obtain ⟨e, he⟩ := hbegin hp
    rw [he]
  · next hp => exact absurd hp htail
  · rfl

theorem State.softReset_read (hw : s.mem.wf = true) {a : Nat} (ha : a ∉ s.disturbed) :
    s.softReset.mem.read a = (s.mem.partly s.memoryToCome s.draws).read a :=
  State.settle_read { s with mem := s.mem.partly s.memoryToCome s.draws } a (Memory.wf_writeAll _ hw) ha

/-- A byte after a soft reset is the one it found or the one to come (R176). -/
theorem State.softReset_read_cases (hw : s.mem.wf = true) {a : Nat} (ha : a ∉ s.disturbed) :
    s.softReset.mem.read a = s.mem.read a ∨ s.softReset.mem.read a = s.memoryToCome.read a := by
  rw [State.softReset_read hw ha]
  exact Memory.read_partly _ _ a hw

/-- A byte that was not to change has not changed. -/
theorem State.softReset_read_same (hw : s.mem.wf = true) {a : Nat} (ha : a ∉ s.disturbed)
    (hsame : s.memoryToCome.read a = s.mem.read a) : s.softReset.mem.read a = s.mem.read a :=
  (State.softReset_read_cases hw ha).elim id fun h => h.trans hsame

/-- A soft reset that abandons no command leaves shared storage alone (R175). -/
theorem State.softReset_mem (hsame : s.memoryToCome = s.mem) (hd : s.disturbed = []) : s.softReset.mem = s.mem := by
  show { s with mem := s.mem.partly s.memoryToCome s.draws }.settle.mem = s.mem
  rw [hsame, Memory.partly_self, State.settle_calm _ hd]

end

/-! ### Work that is not stored yet -/

/-- On the way from `s` to `x` nothing has been stored, the record of the host's writes is as it was, and everything new
that `P` has pending is in `W`. -/
def Unstored (W : Nat → Prop) (s x : State) : Prop := x.mem = s.mem ∧ x.disturbed = s.disturbed ∧ StoresIn W s x

/-- A run beside itself without the host's record. -/
theorem Twin.refl (R W : Nat → Prop) (s : State) : Twin R W s s s.calm :=
  ⟨rfl, rfl, rfl, rfl, rfl, rfl, .of_eq rfl, .of_eq rfl, fun _ => rfl⟩

theorem Twin.unstored {R W : Nat → Prop} {s x y : State} (h : Twin R W s x y) : Unstored W s x :=
  ⟨h.mem, h.disturbed, h.stores⟩

theorem TwinResult.unstored {R W : Nat → Prop} {s u : State} {o' : Except Angle State}
    (h : TwinResult R W s (.ok u) o') : Unstored W s u := by
  cases h with
  | ok h _ => exact h.unstored

section
variable {W : Nat → Prop} {s x : State}

theorem Unstored.beginCommand (W : Nat → Prop) (s : State) : Unstored W s s.beginCommand := (Twin.begin W W s).unstored

theorem Unstored.trans {y : State} (h : Unstored W s x) (k : Unstored W x y) : Unstored W s y := by
  obtain ⟨hmem, hd, hstores⟩ := h
  obtain ⟨kmem, kd, kstores⟩ := k
  exact ⟨kmem.trans hmem, kd.trans hd, hstores.trans kstores⟩

/-- The byte that `x` leaves outside `W` once its writes are stored. -/
theorem Unstored.overlayByte (h : Unstored W s x) {a : Nat} (ha : ¬ W a) :
    x.pview.sb.foldl (fun b e => e.overlayByte a b) (x.mem.read a) =
      s.pview.sb.foldl (fun b e => e.overlayByte a b) (s.mem.read a) := by
  obtain ⟨hmem, -, hstores⟩ := h
  rw [hmem, hstores.overlayByte ha]

/-- Command end stores what is pending. -/
theorem Unstored.finish_read (h : Unstored W s x) (hw : s.mem.wf = true) {a : Nat} (hd : a ∉ s.disturbed) (ha : ¬ W a) :
    x.finish.mem.read a = s.pview.sb.foldl (fun b e => e.overlayByte a b) (s.mem.read a) := by
  obtain ⟨hmem, hdist, -⟩ := id h
  exact (State.finish_read (hmem ▸ hw) (hdist ▸ hd)).trans (h.overlayByte ha)

/-! The loops of the commands, each run beside itself: what a command reads does not matter here. -/

theorem Unstored.readWords (h : Unstored W s x) (a n : Nat) : Unstored W s (x.readWords .p a n).2 :=
  h.trans ((Twin.refl (fun _ => True) W x).readWords fun _ _ => trivial).1.unstored

theorem Unstored.readPairs (h : Unstored W s x) (a b n : Nat) : Unstored W s (x.readPairs a b n).2.2 :=
  h.trans ((Twin.refl (fun _ => True) W x).readPairs (fun _ _ => trivial) fun _ _ => trivial).1.unstored

theorem Unstored.replicate (h : Unstored W s x) {src dst n r : Nat} (hW : ∀ i < n * r, W (dst + i)) :
    Unstored W s (x.replicate src dst n r) :=
  h.trans ((Twin.refl (fun _ => True) W x).replicate (fun _ _ => trivial) hW).unstored

theorem Unstored.writeRecords (h : Unstored W s x) {a : Nat} {rs : List (Nat × Word)}
    (hW : ∀ i < 8 * rs.length, W (a + i)) : Unstored W s (x.writeRecords a rs) :=
  h.trans ((Twin.refl (fun _ => True) W x).writeRecords rfl hW fun _ => rfl).unstored

theorem Unstored.magSpectrum (h : Unstored W s x) (f : Nat → Word → Word → Word) {src dst n : Nat} (hn : n < 2 ^ 32)
    (hW : ∀ i < 4 * n, W (dst + i)) : Unstored W s (x.magSpectrum f src dst n) :=
  h.trans ((Twin.refl (fun _ => True) W x).magSpectrum f hn (fun _ _ => trivial) hW).unstored

theorem Unstored.bin (h : Unstored W s x) {sig n : Nat} {w : Word} (hn : n < 2 ^ 32) {u : State}
    (hu : x.bin .p sig n w = .ok u) : Unstored W s u := by
  have hrun := (Twin.refl (fun _ => True) W x).bin (sig := sig) (.refl w) rfl (fun _ => rfl) hn fun _ _ => trivial
  rw [hu] at hrun
  exact h.trans hrun.unstored

theorem Unstored.transform (h : Unstored W s x) {j : Job} (hk0 : j.k0 = 0) (hW : ∀ i < 8 * j.k1.toNat, W (j.out.toNat + i))
    {u : State} (hu : x.transform .p j = .ok u) : Unstored W s u := by
  have hrun := (Twin.refl (fun _ => True) W x).transform ⟨.refl _, .refl _, rfl, rfl⟩ hk0 (fun _ _ => trivial) hW
  rw [hu] at hrun
  exact h.trans hrun.unstored

/-- The rest of a `PIPE` ends after work in its work area (R147). -/
theorem Unstored.pipeTail (h : Unstored W s x) (hdst : x.dst.toNat + 572 ≤ 2 ^ 32) (hW : ∀ k < 572, W (x.dst.toNat + k)) :
    ∃ v, pipeTail x = v.finish ∧ Unstored W s v := by
  obtain ⟨-, hsquares⟩ := workArea_toNat hdst
  have hmags := h.magSpectrum sqmagOf (src := (x.dst + SPECTRUM_AT).toNat) (dst := (x.dst + SQUARES_AT).toNat)
    (n := Config.KC) (by decide) fun k hk => by
      replace hk : k < 4 * 41 := hk
      rw [hsquares, Nat.add_assoc]
      exact hW _ (by omega)
  rw [Machine.pipeTail]
  generalize x.magSpectrum sqmagOf (x.dst + SPECTRUM_AT).toNat (x.dst + SQUARES_AT).toNat Config.KC = y at hmags ⊢
  have hread := hmags.readWords (x.dst + SQUARES_AT).toNat Config.KC
  generalize y.readWords .p (x.dst + SQUARES_AT).toNat Config.KC = r at hread ⊢
  exact ⟨r.2.classifySpectrum r.1, rfl, hread⟩

end

/-! ### What a command leaves outside its destination -/

/-- Every next state an outcome answers has the same bytes outside `W` as `s`, once what `P` has pending is stored in both;
bytes the host wrote meanwhile are left out. -/
def KeepsOff (W : Nat → Prop) (s : State) (o : Host.Outcome State Fault Refusal) : Prop :=
  ∀ t, o = .next t → s.mem.wf = true → ∀ a, a ∉ s.disturbed → ¬ W a →
    (t.fenceRel .p).mem.read a = (s.fenceRel .p).mem.read a

section
variable {W : Nat → Prop} {s x : State}

/-- A command that goes on, or ends in error, stores nothing. -/
theorem Unstored.keepsOff (h : Unstored W s x) {t : State} (hmem : t.mem = x.mem) (hsb : t.pview.sb = x.pview.sb) :
    KeepsOff W s (.next t) := by
  rintro u ⟨⟩ hw a - ha
  rw [t.fenceRel_read .p a (by rw [hmem, h.1, hw]), s.fenceRel_read .p a hw, State.view_p, State.view_p, hmem, hsb]
  exact h.overlayByte ha

/-- A command that ends after it has set results and working registers. -/
theorem Unstored.finish_keepsOff (h : Unstored W s x) {t : State} (hmem : t.mem = x.mem)
    (hdist : t.disturbed = x.disturbed) (hsb : t.pview.sb = x.pview.sb) : KeepsOff W s (.next t.finish) := by
  rintro u ⟨⟩ hw a hd ha
  have hres : Unstored W s t := h.trans ⟨hmem, hdist, .of_eq hsb⟩
  have hwf : t.finish.mem.wf = true := (t.fenceRel .p).settle_wf (t.fenceRel_wf .p (hres.1 ▸ hw))
  rw [t.finish.fenceRel_read .p a hwf, s.fenceRel_read .p a hw, State.view_p, State.view_p, t.finish_pview_sb]
  exact hres.finish_read hw hd ha

theorem State.checked_keepsOff {f : State → List Check} {body : State → Host.Outcome State Fault Refusal}
    (hbody : Pass (f s.beginCommand) → Unstored W s s.beginCommand → KeepsOff W s (body s.beginCommand)) :
    KeepsOff W s (s.checked f body) := by
  have hbegin := Unstored.beginCommand W s
  rcases s.checked_cases f body with ⟨c, -, hc⟩ | ⟨hpass, hc⟩ <;> rw [hc]
  · exact hbegin.keepsOff rfl rfl
  · exact hbody hpass hbegin

theorem Unstored.orNum_keepsOff (h : Unstored W s x) {r : Except Angle State}
    {k : State → Host.Outcome State Fault Refusal} (hk : ∀ u, r = .ok u → KeepsOff W s (k u)) :
    KeepsOff W s (orNum x r k) := by
  cases r with
  | ok u => exact hk u rfl
  | error e => exact h.keepsOff rfl rfl

theorem Unstored.answerLookup_keepsOff (h : Unstored W s x) (r : Option Word) : KeepsOff W s (answerLookup x r) := by
  cases r with
  | some v => exact h.finish_keepsOff rfl rfl rfl
  | none => exact h.keepsOff rfl rfl

end

section
variable (s : State)

theorem execMagat_keepsOff (W : Nat → Prop) : KeepsOff W s (execMagat s) :=
  State.checked_keepsOff fun _ h => h.orNum_keepsOff fun _ hu => (h.bin s.len.isLt hu).finish_keepsOff rfl rfl rfl

theorem execXform_keepsOff (g : Grid) : KeepsOff (s.Writes (.xform g)) s (execXform g s) :=
  State.checked_keepsOff fun _ h => h.orNum_keepsOff fun _ hu =>
    (h.transform (j := serialJob s g) rfl (fun _ hk => inBuffer_add hk) hu).finish_keepsOff rfl rfl rfl

/-- `MAG` and `SQMAG`. -/
theorem execMags_keepsOff (f : Nat → Word → Word → Word) :
    KeepsOff (InBuffer (s.dst, 4 * s.cnt.toNat)) s (s.checked magChecks fun s =>
      .next { s.magSpectrum f s.src.toNat s.dst.toNat s.cnt.toNat with resi := s.cnt }.finish) :=
  State.checked_keepsOff fun _ h =>
    (h.magSpectrum f s.cnt.isLt fun _ hk => inBuffer_add hk).finish_keepsOff rfl rfl rfl

theorem lddict_finish_keepsOff {W : Nat → Prop} {s : State} {r : List Word × State} (h : Unstored W s r.2) :
    KeepsOff W s (.next { r.2 with dict := dictOf r.1, dictv := true }.finish) := h.finish_keepsOff rfl rfl rfl

theorem execLddict_keepsOff (W : Nat → Prop) : KeepsOff W s (execLddict s) :=
  State.checked_keepsOff fun _ h => lddict_finish_keepsOff (h.readWords s.src.toNat (Config.NDICT * Config.KC))

theorem execDist_keepsOff (W : Nat → Prop) : KeepsOff W s (execDist s) := by
  refine State.checked_keepsOff fun _ h => ?_
  have hread := h.readPairs s.beginCommand.src.toNat s.beginCommand.aux.toNat Config.KC
  generalize s.beginCommand.readPairs s.beginCommand.src.toNat s.beginCommand.aux.toNat Config.KC = r at hread ⊢
  exact hread.finish_keepsOff rfl rfl rfl

theorem execClassify_keepsOff (W : Nat → Prop) : KeepsOff W s (execClassify s) := by
  refine State.checked_keepsOff fun _ h => ?_
  have hread := h.readWords s.beginCommand.src.toNat Config.KC
  generalize s.beginCommand.readWords .p s.beginCommand.src.toNat Config.KC = r at hread ⊢
  exact hread.finish_keepsOff rfl rfl rfl

theorem execRank_keepsOff : KeepsOff (s.Writes .rank) s (execRank s) := by
  refine State.checked_keepsOff fun _ h => ?_
  have hread := h.readWords s.beginCommand.src.toNat Config.KC
  generalize s.beginCommand.readWords .p s.beginCommand.src.toNat Config.KC = r at hread ⊢
  have hranked : Unstored (s.Writes .rank) s
      { (r.2.computeDistances r.1).2 with rd := (r.2.computeDistances r.1).1 } := hread
  refine (hranked.writeRecords fun k hk => ?_).finish_keepsOff rfl rfl rfl
  have hlen := List.length_take_le s.cnt.toNat (ranked (r.2.computeDistances r.1).1.toList)
  exact inBuffer_add (hk.trans_le (Nat.mul_le_mul_left 8 hlen))

theorem execRepl_keepsOff : KeepsOff (s.Writes .repl) s (execRepl s) :=
  State.checked_keepsOff fun _ h => (h.replicate fun _ hk => inBuffer_add hk).finish_keepsOff rfl rfl rfl

theorem execPipe_keepsOff (m : PipeMode) : KeepsOff (s.Writes (.pipe m)) s (execPipe m s) := by
  refine State.checked_keepsOff fun hpass h => ?_
  have hfits := (pipeChecks_pass s.beginCommand).1 hpass
  have hdst : s.dst.toNat + 572 ≤ 2 ^ 32 := hfits.output.trans s.memBytes_le
  have hW : ∀ k < 572, s.Writes (.pipe m) (s.dst.toNat + k) := fun k hk => inBuffer_add hk
  have hrep := h.replicate (src := s.beginCommand.src.toNat) (dst := s.beginCommand.dst.toNat) (n := Config.PLEN)
    (r := Config.REP) fun k hk => hW k (by replace hk : k < 80 := hk; omega)
  obtain ⟨-, -, -, hrepdst, -⟩ := (s.beginCommand.replicate_work s.beginCommand.src.toNat s.beginCommand.dst.toNat
    Config.PLEN Config.REP).hostFrame.fields
  unfold pipeBody
  generalize s.beginCommand.replicate s.beginCommand.src.toNat s.beginCommand.dst.toNat Config.PLEN Config.REP = v
    at hrep hrepdst ⊢
  cases m with
  | parallel => exact hrep.keepsOff rfl rfl
  | serial =>
    obtain ⟨hspectrum, -⟩ := workArea_toNat hdst
    refine h.orNum_keepsOff fun u hu => ?_
    have hbins := hrep.transform (j := pipeJob s) rfl (fun k hk => ?_) hu
    · obtain ⟨-, -, -, hbinsdst, -⟩ := (State.transform_work hu).hostFrame.fields
      have hudst : u.dst = s.dst := hbinsdst.trans hrepdst
      obtain ⟨x, hx, hend⟩ := hbins.pipeTail (hudst ▸ hdst) fun k hk => hudst ▸ hW k hk
      rw [hx]
      exact hend.finish_keepsOff rfl rfl rfl
    · replace hk : k < 8 * 41 := hk
      show s.Writes _ ((s.dst + SPECTRUM_AT).toNat + k)
      rw [hspectrum, Nat.add_assoc]
      exact hW _ (by omega)

/-- Every command writes its destination only (R79), whatever the host wrote while it ran. -/
theorem exec_keepsOff (i : Instr) : KeepsOff (s.Writes i) s (exec i s) := by
  unfold exec
  cases i with
  | init | wlaunch => exact State.checked_keepsOff fun _ h => h.finish_keepsOff rfl rfl rfl
  | sin | cos => exact State.checked_keepsOff fun _ h => h.answerLookup_keepsOff _
  | magat => exact execMagat_keepsOff s _
  | xform g => exact execXform_keepsOff s g
  | xformp g => exact State.checked_keepsOff fun _ h => h.keepsOff rfl rfl
  | mag => exact execMags_keepsOff s magOf
  | sqmag => exact execMags_keepsOff s sqmagOf
  | lddict => exact execLddict_keepsOff s _
  | dist => exact execDist_keepsOff s _
  | classify => exact execClassify_keepsOff s _
  | rank => exact execRank_keepsOff s
  | repl => exact execRepl_keepsOff s
  | pipe m => exact execPipe_keepsOff s m

end

/-! ### The statement -/

/-- Settles O11: a reset picks each byte from the memory it finds and the one to come, which differ inside the abandoned
command's destination only. -/
theorem softResetMemory : Obligations.SoftResetMemory := by
  intro s hw
  refine ⟨fun hbegin htail => ?_, fun i t hp hsb hdecode ht a hd => ?_, fun t hp hdst ht a hd => ?_⟩
  · have hsame := State.memoryToCome_none hbegin htail
    exact ⟨State.softReset_mem hsame, fun a hd => State.softReset_read_same hw hd (by rw [hsame])⟩
  · have hcome := State.memoryToCome_begin hp hdecode ht
    have hdest : s.destination = s.destinationOf i := by simp only [State.destination, hdecode]
    refine ⟨fun hout => State.softReset_read_same hw hd ?_, hcome ▸ State.softReset_read_cases hw hd⟩
    have hoff : ¬ s.Writes i a := fun ⟨hlo, hhi⟩ => by rw [hdest] at hout; omega
    rw [hcome, exec_keepsOff s i t ht hw a hd hoff, s.fenceRel_read .p a hw, State.view_p, hsb]
    rfl
  · have hcome := State.memoryToCome_tail hp
    have htail : pipeTail s = t := by
      simp only [producerStep, hp] at ht
      exact Host.Outcome.next.inj ht
    rw [htail] at hcome
    refine ⟨fun hout hpending => State.softReset_read_same hw hd ?_, hcome ▸ State.softReset_read_cases hw hd⟩
    have hself : Unstored (InBuffer (s.dst, 572)) s s := (Twin.refl (fun _ => True) _ s).unstored
    obtain ⟨v, hv, hwork⟩ := hself.pipeTail (hdst.trans s.memBytes_le) fun k hk => inBuffer_add hk
    have hoff : ¬ InBuffer (s.dst, 572) a := fun h => by simp only [InBuffer] at h; omega
    rw [hcome, ← htail, hv, hwork.finish_read hw hd hoff]
    exact foldl_untouched hpending _

end Sys2Proof.Machine
end
